-- ==== Sys2Proof/Word.lean ====
section
/-! DEFINITION. The two word types of the Juncta IB-710: the byte of a frame and the millisecond count of the
Coordinator Clock. Every power, frequency and count of the manual is a plain Nat or Int ("Integers throughout",
00_scope.md); only what the manual wraps or lays out in bytes is a bit vector. -/

namespace Sys2Proof

/-- One byte of a frame (09_station_links.md, "Frame and payload layouts"). -/
abbrev Byte := BitVec 8

/-- A clock time: the Coordinator Clock "counts milliseconds in 32 bits and wraps" (00_scope.md, Time; R188). -/
abbrev Time := BitVec 32

end Sys2Proof
end

