-- ==== Sys2Proof/Syntax.lean ====
section
/-! DEFINITION. The commands of the block, one constructor of `Instr` for each row of spec/opcode_table.json: the
requests of the four station links, the samples of the bus meter, the expiries of the part's timers and the events of
its lines. A request carries its tag, the link it came on where more than one link may send it, and its payload fields
as the bytes the frame held (09_station_links.md); timer events carry the subject of the timer. -/

namespace Sys2Proof

/-- The four station links (00_scope.md, "The outside of the part"). -/
inductive Link where
  | S | G | P | F
  deriving DecidableEq, Repr

/-- The five receive lines: the station links and the sample input (R168). -/
inductive Line where
  | station (l : Link)
  | sample
  deriving DecidableEq, Repr

/-- Why a frame was abandoned, other than for an inter-byte gap (R168). -/
inductive FrameFault where
  /-- The frame check is wrong. -/
  | wrongCheck
  /-- The length byte exceeds 120. -/
  | tooLong
  deriving DecidableEq, Repr

/-- The five events a UNIT REPORT may tell are codes 0 to 4 of a byte; a status entry is four bytes (R51). -/
structure UnitEntry where
  unit : Byte
  engine : Byte
  breaker : Byte
  control : Byte
  deriving DecidableEq, Repr

/-- An AVAILABILITY entry (R53). -/
structure AvailEntry where
  unit : Byte
  declaration : Byte
  deriving DecidableEq, Repr

/-- A PV REPORT entry; a held ceiling of FFFFh is "none" (R90). -/
structure PvEntry where
  group : Byte
  available : BitVec 16
  held : BitVec 16
  deriving DecidableEq, Repr

/-- A FEEDER STATUS entry (R117). -/
structure FeederEntry where
  feeder : Byte
  breaker : Byte
  load : BitVec 16
  deriving DecidableEq, Repr

/-- The commands. The table gives them no bits, so no word spells one. -/
inductive Instr where
  -- Entry and restart (12)
  | powerOn
  | resetInput
  | restart (tag : Byte)
  | entryWindowExpiry
  -- Bus samples (02)
  | sample (kind : Byte) (payload : List Byte) (checkOk : Bool)
  | sampleGapTimerExpiry
  | heldSampleAgeStep
  -- Timer events
  | stageTimerExpiry (stage : Fin 4)
  | stepTimeout
  | waitStepExpiry
  | energisingWindowExpiry
  | crankWindowExpiry (unit : Fin 8)
  | syncWindowExpiry (unit : Fin 8)
  | unloadWindowExpiry (unit : Fin 8)
  | cooldownHoldExpiry (unit : Fin 8)
  | minRunExpiry (unit : Fin 8)
  | recallWindowExpiry (unit : Fin 8)
  | claimWaitExpiry (id : Byte)
  | claimLifetimeExpiry (id : Byte)
  | claimSettleExpiry (id : Byte)
  | openingRelayWindowExpiry (feeder : Fin 24)
  | closingRelayWindowExpiry (feeder : Fin 24)
  | shedSettleExpiry
  | restoreHoldOffExpiry
  -- Line events (09)
  | linkSilent (link : Link)
  | frameError (line : Line) (why : FrameFault)
  | interByteTimeout (line : Line)
  | frameRefused (link : Link) (kind tag : Byte) (payload : List Byte)
  | replyOverrun (link : Link)
  | outboundFrameSent (link : Link)
  -- Requests of any link
  | read (link : Link) (tag selector index : Byte)
  -- Requests of link S
  | set (tag : Byte) (payload : List Byte)
  | setRing (tag : Byte) (indices : List Byte)
  | startUnit (tag unit : Byte)
  | stopUnit (tag unit : Byte)
  | clearLockout (tag unit : Byte)
  | recallUnit (tag unit : Byte)
  | claimReserve (tag : Byte) (amount : BitVec 16) (wait : Byte) (lifetime : BitVec 16)
  | cancelClaim (link : Link) (tag id : Byte)
  | blackStartBegin (tag : Byte)
  | blackStartAbort (tag : Byte)
  | blackStartRetry (tag : Byte)
  | resyncSamples (tag : Byte)
  | snapshot (tag option : Byte)
  | readTally (tag number : Byte)
  | restoreHold (tag value : Byte)
  | adoptFeeder (tag feeder : Byte)
  -- Requests of any link
  | fetchNotice (link : Link) (tag : Byte)
  | presence (link : Link) (tag : Byte)
  -- Requests of link G
  | unitReport (tag unit event : Byte)
  | unitStatus (tag : Byte) (entries : List UnitEntry)
  | availability (tag : Byte) (entries : List AvailEntry)
  | releaseUnit (tag unit : Byte)
  | returnUnit (tag unit : Byte)
  -- Requests of link P
  | pvReport (tag : Byte) (entries : List PvEntry)
  | releaseGroup (tag group : Byte)
  | returnGroup (tag group : Byte)
  -- Requests of link F
  | breakerReport (tag feeder event : Byte)
  | feederStatus (tag : Byte) (entries : List FeederEntry)
  | claimFeeder (tag feeder wait : Byte) (lifetime : BitVec 16)
  deriving DecidableEq, Repr

end Sys2Proof
end

