-- ==== Sys2Proof/Decode.lean ====
section
/-! DEFINITION. The decoder of the opcode table. The IB-710 is a block, not a processor: it takes commands from its
lines and its timers, and no row of spec/opcode_table.json gives bits (98_reader.md: "n_rows_with_fixed": 0), so no word
spells a command. The frames that spell requests are parsed in Machine/Frames.lean. -/

namespace Sys2Proof

/-- The command that a word of `nbits` bits spells by the table's bits: none, for the table gives no row any. -/
def decodeTableWord (_nbits _w : Nat) : Option Instr := none

end Sys2Proof
end

