-- ==== Sys2Proof/Config.lean ====
section
/-! DEFINITION. The part's fixed values, which are not settings, and the FREE VALUES: what the manual leaves open is an
opaque constant here, so that no proof can see which value it has. -/

namespace Sys2Proof.Config

/-- The entry window, 10 s (R188). -/
def entryWindowMs : Nat := 10000
/-- The recall window, fixed at 60 s (R84). -/
def recallWindowMs : Nat := 60000
/-- The energising window, 180 s (08_black_start.md, fixed values; R154). -/
def energisingWindowMs : Nat := 180000
/-- The dead confirm time, 2.0 s (R149, R164). -/
def deadConfirmMs : Nat := 2000
/-- The live band, 500 mHz about nominal (R156). -/
def liveBand : Int := 500
/-- The attempt limit of an Energising (R155). -/
def attemptLimit : Nat := 3
/-- The collapse limit: a third collapse fails the sequence (R164). -/
def collapseLimit : Nat := 2
/-- A held-sample age of 2.0 s, in 100 ms steps: the oldest that keeps a hunting lock Degraded (R38). -/
def sampleAgeLimit : Nat := 20
/-- An available age of 5.0 s, in 100 ms steps: the oldest declared availability that is trusted (R91). -/
def availAgeLimit : Nat := 50
/-- The claim list holds at most 16 claims (R8). -/
def claimCapacity : Nat := 16
/-- A notice queue holds at most 16 records (R173). -/
def noticeCapacity : Nat := 16
/-- Replies may hold at most 8 places of an outbound queue (R170). -/
def replyCapacity : Nat := 8
/-- The judgement window holds at most 64 entries (R34). -/
def windowCapacity : Nat := 64
/-- The lock is lost when this many entries of the window are Bad (R34). -/
def badLimit : Nat := 6
/-- Good samples after the reference that lead to Locked (R33). -/
def verifyTarget : Nat := 8
/-- The inter-byte limit, in milliseconds (R28, R168). -/
def interByteMs : Nat := 10
/-- A tally saturates at 2^40 - 1 (R185). -/
def tallyLimit : Nat := 1099511627775

/-- FREE VALUE (log 5). R126 leaves open which of a shortfall request and an overload request of one evaluation is
taken first; the argument is the model's counter of free choices. -/
opaque overloadFirst : Nat → Bool

/-- FREE VALUE (log 4). The order in which timer events that fall due at one millisecond are taken: the position at
which the next event is inserted, from the counter of free choices and the number of events already placed. -/
opaque tieBreak : Nat → Nat → Nat

/-- FREE VALUE (log 10). Whether a sample whose bus state byte is neither Dead (0) nor Live (1) counts as Live. -/
opaque busCodeIsLive : Byte → Bool
/-- FREE VALUE (log 10). The engine state of a status entry whose engine byte is neither Stopped (0) nor Running (1). -/
opaque engineCodeIsRunning : Byte → Bool
/-- FREE VALUE (log 10). The breaker state of a status entry whose breaker byte is neither Open (0) nor Closed (1). -/
opaque breakerCodeIsClosed : Byte → Bool
/-- FREE VALUE (log 10). The control field of a status entry whose control byte is neither Coordinated (0) nor Local (1). -/
opaque controlCodeIsLocal : Byte → Bool

end Sys2Proof.Config
end

