-- ==== Sys2Proof/Machine/State.lean ====
section
/-! DEFINITION. Everything the manual gives the IB-710 to hold, as plain data, block by block (00_scope.md, "Block
diagram"), with the queue of waiting commands; the reasons a step can stop; and the state after reset. Items the manual
lists twice under two names are stored once and read through the views of Machine/Flags.lean (log 35). -/

namespace Sys2Proof.Machine

/-! ## Vocabularies (09_station_links.md) -/

/-- Genset states (03, "Genset states"). -/
inductive UnitState where
  | unknown | stopped | starting | synchronising | online | unloading | cooldown | lockedOut
  deriving DecidableEq, Repr

/-- Feeder states (06, "Feeder states"). -/
inductive FeederState where
  | unknown | closed | opening | shed | closing | openHeld | faulted
  deriving DecidableEq, Repr

/-- Quality levels (02, "Quality levels"). -/
inductive Quality where
  | full | degraded | stale
  deriving DecidableEq, Repr

/-- Black start phases (08, "Phases and the sequencer's state"). -/
inductive Phase where
  | idle | clearing | energising | rebuilding | failed
  deriving DecidableEq, Repr

/-- Who runs a genset or PV group (04); `byPlant` is the manual's Local. -/
inductive Authority where
  | coordinated | byPlant
  deriving DecidableEq, Repr

/-- Lock states (02, "The lock machine"). -/
inductive LockMode where
  | hunt | verify | locked
  deriving DecidableEq, Repr

/-- The outcome vocabulary of ClaimOutcome and AuthorityOutcome notices. -/
inductive OutcomeWord where
  | granted | refused | expired | withdrawn | byPlant | coordinated
  deriving DecidableEq, Repr

/-- Start reason kinds, in priority order (03, "Start reasons"). -/
inductive ReasonKind where
  | overload | trip | blackStart | shortfall | blind | operator
  deriving DecidableEq, Repr

/-- The cause vocabulary (09). -/
inductive Cause where
  | none | start | stop | running | startFailed | breakerClosed | breakerOpen | tripped | window | status | report
  | close | adopt | entry | clearLockout | release | grant | trip | wait | lifetime | stopping | clearing | return
  | shedEvent | closeFailed | blackStartEnd | deadBus | begin | cleared | energised | attempts | noCandidate | stepFail
  | collapse | complete | retry | abort | underFrequency | shortfall | overload | sourceTie | blackStart | manual | set
  deriving DecidableEq, Repr

/-- Reply statuses (09, "Requests, rights and replies"). -/
inductive Status where
  | done | clamped | pending | refusedBusy | refusedRange | refusedState | refusedReserve | refusedQuality
  | refusedRights | refusedKind | refusedLength
  deriving DecidableEq, Repr

/-- Notice kinds, in code order from 1 (09, "Notices"). -/
inductive NoticeKind where
  | unitState | unitLockout | startNoCandidate | feederState | shedEvent | claimOutcome | authorityOutcome
  | qualityChange | blackStartPhase | blackStartComplete | restarted | linkSilent | linkReturned | minLoadGap
  | shortfallUncovered | discrepancy | adopted | unclaimedClose | recallExpired | stopFailed
  deriving DecidableEq, Repr

/-- Event kinds of the Tally Unit (11). -/
inductive EventKind where
  | startOrdered | startFailed | trip | underFrequencyShed | shortfallShed | restore | claimGranted | claimRefused
  | claimExpired | curtailedEnergy | sampleGood | sampleBad | lockLost | frameError
  deriving DecidableEq, Repr

/-! ## Notices, orders and replies -/

/-- The subject state of a notice, a code of the vocabulary of its subject (09). -/
inductive Subject where
  | none
  | unit (s : UnitState)
  | feeder (s : FeederState)
  | quality (q : Quality)
  | phase (p : Phase)
  | outcome (o : OutcomeWord)
  | reason (k : ReasonKind)
  | shedCause (c : Cause)
  deriving DecidableEq, Repr

/-- The cause of a notice: a cause code, an amount in kW, or a quality code (09). -/
inductive NoticeCause where
  | code (c : Cause)
  | amount (kw : Int)
  | quality (q : Quality)
  deriving DecidableEq, Repr

/-- A notice record (09, "Frame and payload layouts"); claim id 0 is no claim. -/
structure Notice where
  kind : NoticeKind
  index : Nat
  subject : Subject
  cause : NoticeCause
  claimId : Nat
  time : Time
  deriving DecidableEq, Repr

/-- The orders of the part (09, order table). -/
inductive Order where
  | start (unit : Fin 8)
  | stop (unit : Fin 8)
  | recall (unit : Fin 8)
  | ceiling (entries : List (Fin 8 × Nat))
  | openSet (feeders : List (Fin 24))
  | close (feeder : Fin 24)
  deriving DecidableEq, Repr

/-- One field of a reply: its size in bytes and its value (R176). -/
structure WireField where
  size : Nat
  val : Int
  deriving DecidableEq, Repr

/-- A reply: the request's kind (the frame carries it plus 80h), its tag, the status and the fields (R170). -/
structure Reply where
  kind : Byte
  tag : Byte
  status : Status
  fields : List WireField
  deriving DecidableEq, Repr

/-- A frame being sent. -/
inductive OutFrame where
  | reply (r : Reply)
  | order (o : Order)
  deriving DecidableEq, Repr

/-- The receive framer of a line (R168): hunting for A5h, or the bytes of a frame begun, the delimiter left out, with the
clock time of its last byte. -/
inductive Framer where
  | hunting
  | inFrame (bytes : List Byte) (last : Time)
  deriving DecidableEq, Repr

/-- One Link Controller (09): link state, silence timer (when it last restarted and, while the link is Active, when it
reaches the silence time), the frame being sent, the replies and orders not yet begun, the notice queue, the overflow
count and the receive framer. -/
structure LinkCtl where
  active : Bool
  silenceFrom : Time
  silenceDue : Time
  sending : Option OutFrame
  replies : List Reply
  orders : List Order
  notices : List Notice
  overflow : Nat
  framer : Framer
  deriving DecidableEq, Repr

/-- The four Link Controllers. -/
structure Links where
  S : LinkCtl
  G : LinkCtl
  P : LinkCtl
  F : LinkCtl
  deriving DecidableEq, Repr

/-! ## Sample Lock (02) -/

/-- The sample record as received (02, "The sample record"; 09, SAMPLE layout). -/
structure SampleRec where
  seq : Byte
  bus : Byte
  freq : BitVec 32
  rocof : BitVec 16
  gens : Vector (BitVec 16) 8
  pvs : Vector (BitVec 16) 8
  deriving DecidableEq, Repr

/-- The held sample, with its acceptance time (02, "The lock machine"). -/
structure Held where
  record : SampleRec
  acceptedAt : Time
  deriving DecidableEq, Repr

/-- The Sample Lock. The judgement window is oldest first, true for Good; `age` counts 100 ms steps and is absent while
the age is without limit; `ageNext` and `gapNext` are the times of the next age step and of the sample gap timer. -/
structure Lock where
  mode : LockMode
  expected : Option Byte
  verifyCount : Nat
  window : List Bool
  held : Option Held
  age : Option Nat
  ageNext : Option Time
  gapNext : Option Time
  quality : Quality
  deriving DecidableEq, Repr

/-! ## Reserve Book (01) -/

/-- The margin terms as last computed (R1 to R6). -/
structure Terms where
  H : Nat
  pvTot : Nat
  pvCoord : Nat
  pvLoc : Nat
  Nc : Nat
  Nu : Nat
  RR : Nat
  Cl : Nat
  M : Int
  L : Nat
  A : Nat
  D : Int
  excess : Int
  deriving DecidableEq, Repr

/-- The holder of a claim. -/
inductive Holder where
  | linkS | linkF | restoration | blackStart | releaseCover
  deriving DecidableEq, Repr

/-- The purpose of a claim. -/
inductive Purpose where
  | feeder (k : Fin 24)
  | reserve
  | unit (k : Fin 8)
  deriving DecidableEq, Repr

/-- The state of a claim, with the one expiry that state has. -/
inductive ClaimState where
  | pending (waitExpiry : Time)
  | granted (lifetimeExpiry : Time)
  | applied (settleExpiry : Time)
  deriving DecidableEq, Repr

/-- A claim record (01, "The claim list"); the lifetime is in seconds, with whether it is the claim lifetime setting's, which
a later grant takes anew (R9, R183; log 47). -/
structure Claim where
  id : Nat
  holder : Holder
  purpose : Purpose
  amount : Nat
  lifetime : Nat
  bySetting : Bool
  state : ClaimState
  deriving DecidableEq, Repr

/-- The Reserve Book: claims oldest first, the next claim id, the terms, the start times of the two dwells and the
guard while they run, and the no-candidate flag. -/
structure Book where
  claims : List Claim
  nextId : Nat
  terms : Terms
  shortfallDwell : Option Time
  surplusDwell : Option Time
  guard : Option Time
  noCandidate : Bool
  deriving DecidableEq, Repr

/-! ## Genset Table, Start Arbiter and Authority Unit (03, 04) -/

/-- The min-run timer: absent unless Online, then running to a clock time or elapsed. -/
inductive MinRun where
  | absent
  | running (expiry : Time)
  | elapsed
  deriving DecidableEq, Repr

/-- The dynamic fields of a genset record, with the Authority Unit's items for the genset. -/
structure Genset where
  available : Bool
  authority : Authority
  state : UnitState
  phaseTimer : Option Time
  minRun : MinRun
  lastOutput : Nat
  breakerClosed : Bool
  engineRunning : Bool
  pendingRelease : Option Nat
  recallWindow : Option Time
  deriving DecidableEq, Repr

/-- The stage of a start reason. -/
inductive Stage where
  | pending | inService
  deriving DecidableEq, Repr

/-- A start reason (03, "Start reasons"); its kind is the place it stands at in the Arbiter. -/
structure Reason where
  need : Nat
  named : Option (Fin 8)
  stage : Stage
  withdrawn : Bool
  noCandidate : Bool
  deriving DecidableEq, Repr

/-- A busy start slot: its unit, the kind of the reason it serves, and when the unit entered Starting (R64). -/
structure SlotUse where
  unit : Fin 8
  kind : ReasonKind
  since : Time
  deriving DecidableEq, Repr

/-- The Start Arbiter: at most one reason of each kind, and two start slots. -/
structure Arbiter where
  overload : Option Reason
  trip : Option Reason
  blackStart : Option Reason
  shortfall : Option Reason
  blind : Option Reason
  operator : Option Reason
  slot1 : Option SlotUse
  slot2 : Option SlotUse
  deriving DecidableEq, Repr

/-! ## Curtailment Unit (05) -/

/-- The dynamic fields of a PV group record; the available age counts 100 ms steps, absent while without limit. -/
structure PvGroup where
  authority : Authority
  available : Nat
  age : Option Nat
  ageNext : Option Time
  base : Nat
  computed : Nat
  issued : Option Nat
  cap : Option Nat
  awaiting : Bool
  deriving DecidableEq, Repr

/-- The Curtailment Unit's items for the whole plant, the last stage values among them. -/
structure Curtail where
  bucket : Nat
  bucketOpen : Bool
  fullOwed : Bool
  sumBase : Nat
  rof : Nat
  target : Nat
  prevTotal : Nat
  newTotal : Nat
  reduction : Nat
  deriving DecidableEq, Repr

/-! ## Shed Table and Restoration Unit (06, 07) -/

/-- The dynamic fields of a feeder record. -/
structure Feeder where
  state : FeederState
  shedCause : Option Cause
  timeOpened : Option Time
  relayWindow : Option Time
  deriving DecidableEq, Repr

/-- The Shed Table's items for the whole table. -/
structure ShedTable where
  timers : Vector (Option Time) 4
  latches : Vector Bool 4
  spell : Option Time
  settle : Option Time
  uncoveredShortfall : Bool
  uncoveredOverload : Bool
  relistAllowed : Bool
  deriving DecidableEq, Repr

/-- What held the next feeder back (R138). -/
inductive HeldBack where
  | bucket | margin | busy
  deriving DecidableEq, Repr

/-- The next feeder item of the Restoration Unit. -/
structure NextFeeder where
  feeder : Fin 24
  need : Nat
  why : HeldBack
  deriving DecidableEq, Repr

/-- The Restoration Unit. -/
structure Restoration where
  holdOff : Option Time
  bucket : Nat
  hold : Bool
  next : Option NextFeeder
  deriving DecidableEq, Repr

/-! ## Black Start Sequencer (08) -/

/-- The sequencer's state table; the failure cause is one of Attempts, NoCandidate, Window, StepFail, Collapse. -/
structure Sequencer where
  phase : Phase
  armed : Bool
  deadSpell : Option Time
  window : Option Time
  attempts : Nat
  collapses : Nat
  pointer : Option Nat
  stepTimer : Option Time
  bandSpell : Option Time
  stepClaim : Option Nat
  failure : Option Cause
  deriving DecidableEq, Repr

/-! ## Tables and settings (10), kept by the Settings Store -/

/-- Group 1, Reserve Book; times in seconds. -/
structure BookSettings where
  cf : Nat
  rfloor : Nat
  n1 : Bool
  startDelay : Nat
  shedDelay : Nat
  surplusMargin : Nat
  surplusDwell : Nat
  guardTime : Nat
  claimLifetime : Nat
  claimSettle : Nat
  releaseWait : Nat
  deriving DecidableEq, Repr

/-- Group 2, genset windows, in seconds. -/
structure WindowSettings where
  crank : Nat
  sync : Nat
  unload : Nat
  cooldown : Nat
  minRun : Nat
  deriving DecidableEq, Repr

/-- Group 3, curtailment. -/
structure CurtailSettings where
  ofOffset : Nat
  gain : Nat
  rampRate : Nat
  capacity : Nat
  reopen : Nat
  changeStep : Nat
  deriving DecidableEq, Repr

/-- Group 4, shedding; relay window and settle time in units of 100 ms, stage delays in ms, latch release in seconds. -/
structure ShedSettings where
  relayWindow : Nat
  settleTime : Nat
  offsets : Vector Nat 4
  delays : Vector Nat 4
  resetBand : Nat
  rocofAdvance : Int
  latchRelease : Nat
  deriving DecidableEq, Repr

/-- Group 5, restoration; the hold-off time in seconds. -/
structure RestoreSettings where
  freqOffset : Nat
  holdOffTime : Nat
  rate : Nat
  capacity : Nat
  deriving DecidableEq, Repr

/-- Group 6, links; the silence time in units of 100 ms, nominal frequency in mHz. -/
structure LinkSettings where
  silence : Nat
  nominal : Nat
  deriving DecidableEq, Repr

/-- The plant settings, six groups. -/
structure Settings where
  book : BookSettings
  windows : WindowSettings
  curtail : CurtailSettings
  shed : ShedSettings
  restore : RestoreSettings
  links : LinkSettings
  deriving DecidableEq, Repr

/-- The retained fields of a genset record. -/
structure GensetCfg where
  present : Bool
  rating : Nat
  minLoad : Nat
  capable : Bool
  failLimit : Nat
  failCount : Nat
  lockout : Bool
  deriving DecidableEq, Repr

/-- The retained fields of a PV group record. -/
structure PvCfg where
  rating : Nat
  weight : Nat
  cls : Nat
  deriving DecidableEq, Repr

/-- What a feeder serves. -/
inductive FeederKind where
  | load | sourceTie
  deriving DecidableEq, Repr

/-- The retained fields of a feeder record; no linked group is the manual's 0, and stage 0 is none. -/
structure FeederCfg where
  present : Bool
  kind : FeederKind
  linked : Option (Fin 8)
  cls : Nat
  stage : Nat
  estimate : Nat
  coldLoad : Nat
  rank : Nat
  auto : Bool
  deriving DecidableEq, Repr

/-- What a plan step does, with the operands its kind uses (08, "The plan"). -/
inductive StepAct where
  | closeFeeder (f : Fin 24)
  | closeClass (c : Fin 8)
  | startUnit (u : Option (Fin 8))
  | releasePv (g : Fin 8) (cap : Nat)
  | wait (seconds : Nat)
  | waitBand (band hold : Nat)
  | endPlan
  deriving DecidableEq, Repr

/-- A plan step: its act, its timeout in seconds and its on-timeout action (true for Fail). -/
structure PlanStep where
  act : StepAct
  timeout : Nat
  failOnTimeout : Bool
  deriving DecidableEq, Repr

/-- Tally mode. -/
inductive TallyMode where
  | count | accumulate
  deriving DecidableEq, Repr

/-- Tally qualifier. -/
inductive Qualifier where
  | any | fullOnly | notFullOnly
  deriving DecidableEq, Repr

/-- A tally configuration: bit k of the event set stands for event kind k in the manual's order. -/
structure TallyCfg where
  events : BitVec 14
  filter : Nat
  mode : TallyMode
  qualifier : Qualifier
  deriving DecidableEq, Repr

/-- All that the Settings Store retains (R188). The part holds this record twice: in the store, and as the working copy
loaded at entry. -/
structure Tables where
  settings : Settings
  gensets : Vector GensetCfg 8
  ring : List (Fin 8)
  pvs : Vector PvCfg 8
  feeders : Vector FeederCfg 24
  planLength : Nat
  plan : Vector PlanStep 32
  tallies : Vector TallyCfg 16
  deriving DecidableEq, Repr

/-! ## Tally Unit (11), entry (12) and pins -/

/-- The Tally Unit's live and snapshot values. -/
structure TallyUnit where
  live : Vector Nat 16
  snap : Vector Nat 16
  snapTime : Option Time
  deriving DecidableEq, Repr

/-- The Coordinator Entry state. -/
structure Entry where
  complete : Bool
  window : Option Time
  resolved : Bool
  deriving DecidableEq, Repr

/-- The two line rates a strap chooses between (09, "Transport and framing"). -/
inductive Rate where
  | r115200 | r460800
  deriving DecidableEq, Repr

/-- The strap pins, and the rates last read from them. -/
structure Pins where
  linkStrap : Rate
  sampleStrap : Rate
  linkRate : Rate
  sampleRate : Rate
  deriving DecidableEq, Repr

/-- The whole part: its blocks, the working tables, the store, the pins, the queue of waiting commands, and the model's
own counter of free choices. -/
structure State where
  clock : Time
  lock : Lock
  book : Book
  gens : Vector Genset 8
  arb : Arbiter
  pvs : Vector PvGroup 8
  cur : Curtail
  feeders : Vector Feeder 24
  shed : ShedTable
  rest : Restoration
  seq : Sequencer
  links : Links
  sampleFramer : Framer
  tally : TallyUnit
  entry : Entry
  cfg : Tables
  store : Tables
  pins : Pins
  pending : List Instr
  free : Nat
  deriving DecidableEq, Repr

/-- The faults of a step: the manual gives the part none, so nothing raises one (safe). -/
inductive Fault where
  deriving DecidableEq, Repr

/-- The refusals of a step. -/
inductive Refusal where
  /-- Raised by a dispatch arm whose command has no meaning yet; none is left (safe). -/
  | notModelled (mnemonic : String)
  deriving DecidableEq, Repr

/-! ## The state after reset -/

namespace State

/-- The plant settings at the defaults of 10_plant_tables_and_settings.md. -/
def defaultSettings : Settings where
  book := ⟨60, 200, true, 5, 40, 100, 300, 60, 30, 5, 30⟩
  windows := ⟨30, 60, 60, 120, 600⟩
  curtail := ⟨200, 40, 100, 500, 250, 5⟩
  shed := ⟨20, 20, #v[1000, 1300, 1600, 2000], #v[300, 200, 100, 0], 100, -1500, 10⟩
  restore := ⟨200, 60, 200, 1000⟩
  links := ⟨20, 50000⟩

/-- The store of a part never written by SET: the manual's defaults where it gives them, and nothing present (log 7). -/
def factoryTables : Tables where
  settings := defaultSettings
  gensets := Vector.replicate 8 ⟨false, 50, 30, false, 3, 0, false⟩
  ring := [0, 1, 2, 3, 4, 5, 6, 7]
  pvs := Vector.replicate 8 ⟨10, 10, 0⟩
  feeders := Vector.replicate 24 ⟨false, .load, none, 0, 0, 0, 150, 1, false⟩
  planLength := 0
  plan := Vector.replicate 32 ⟨.endPlan, 1, false⟩
  tallies := Vector.replicate 16 ⟨0, 0, .count, .any⟩

/-- R45. -/
def resetLock : Lock := ⟨.hunt, none, 0, [], none, none, none, none, .stale⟩
/-- R74, R87. -/
def resetGenset : Genset := ⟨true, .coordinated, .unknown, none, .absent, 0, false, false, none, none⟩
/-- R74. -/
def resetArbiter : Arbiter := ⟨none, none, none, none, none, none, none, none⟩
/-- R109; the two ceilings equal the rating. -/
def resetPvGroup (rating : Nat) : PvGroup := ⟨.coordinated, 0, none, none, 0, rating, some rating, none, false⟩
/-- R109. -/
def resetCurtail : Curtail := ⟨0, true, true, 0, 0, 0, 0, 0, 0⟩
/-- R132. -/
def resetFeeder : Feeder := ⟨.unknown, none, none, none⟩
/-- R132. -/
def resetShed : ShedTable := ⟨Vector.replicate 4 none, Vector.replicate 4 false, none, none, false, false, false⟩
/-- R147. -/
def resetRestoration : Restoration := ⟨none, 0, false, none⟩
/-- R167. -/
def resetSequencer : Sequencer := ⟨.idle, false, none, none, 0, 0, none, none, none, none, none⟩
/-- R178, at the clock time at which the silence timer starts and the one at which it is due. -/
def resetLink (startedAt dueAt : Time) : LinkCtl := ⟨true, startedAt, dueAt, none, [], [], [], 0, .hunting⟩
/-- R187. -/
def resetTally : TallyUnit := ⟨Vector.replicate 16 0, Vector.replicate 16 0, none⟩
/-- The Reserve Book of R27, on the terms recomputed at once. -/
def resetBook (t : Terms) : Book := ⟨[], 1, t, none, none, none, false⟩

/-- The machine after power-on with the factory store: R188 and the reset rules it names. The margin terms are those of
R27: RR equals Rfloor and M equals minus Rfloor. -/
def reset : State where
  clock := 0
  lock := resetLock
  book := resetBook ⟨0, 0, 0, 0, 0, 0, 200, 0, -200, 0, 0, 0, 0⟩
  gens := Vector.replicate 8 resetGenset
  arb := resetArbiter
  pvs := Vector.replicate 8 (resetPvGroup 10)
  cur := resetCurtail
  feeders := Vector.replicate 24 resetFeeder
  shed := resetShed
  rest := resetRestoration
  seq := resetSequencer
  links := ⟨resetLink 0 2000, resetLink 0 2000, resetLink 0 2000, resetLink 0 2000⟩
  sampleFramer := .hunting
  tally := resetTally
  entry := ⟨false, some 10000, false⟩
  cfg := factoryTables
  store := factoryTables
  pins := ⟨.r115200, .r115200, .r115200, .r115200⟩
  pending := []
  free := 0

end State

end Sys2Proof.Machine
end

