-- ==== Sys2Proof/Machine/Clock.lean ====
section
/-! DEFINITION. Arithmetic of clock times: the Coordinator Clock wraps at 32 bits (R188), and every timer of the manual
runs from it (00_scope.md, Time). -/

namespace Sys2Proof.Machine

/-- The clock time `ms` milliseconds after `t`. -/
def after (t : Time) (ms : Nat) : Time := t + BitVec.ofNat 32 ms

/-- Milliseconds from `start` to `now`, counted forward through the wrap (log 3). -/
def elapsed (now start : Time) : Nat := (now - start).toNat

/-- The clock has reached `expiry`: it stands at it, or past it by less than half the clock's range (log 2). -/
def reached (now expiry : Time) : Bool := (now - expiry).toNat < 2147483648

/-- A running timer has reached its expiry. -/
def due (now : Time) : Option Time → Bool
  | some t => reached now t
  | none => false

/-- Milliseconds that remain to `expiry`, 0 once it is reached. -/
def remaining (now expiry : Time) : Nat := if reached now expiry then 0 else (expiry - now).toNat

/-- Seconds in milliseconds. -/
def secs (n : Nat) : Nat := n * 1000

/-- A dwell, guard or spell that started at `start` has run `ms`; one that is not running has not. -/
def hasRun (now : Time) (start : Option Time) (ms : Nat) : Bool :=
  match start with
  | some t => ms ≤ elapsed now t
  | none => false

end Sys2Proof.Machine
end

