-- ==== Sys2Proof/Machine/Flags.lean ====
section
/-! DEFINITION. Views of the state: the items the manual lists beside others that already fix them (log 35), and the
conditions the chapters read of one another. -/

namespace Sys2Proof.Machine

/-- The four links. -/
def allLinks : List Link := [.S, .G, .P, .F]

/-- The genset and PV group indices. -/
def units : List (Fin 8) := List.finRange 8

/-- The feeder indices, ascending. -/
def feederIds : List (Fin 24) := List.finRange 24

/-- One Link Controller. -/
def Links.get (ls : Links) : Link → LinkCtl
  | .S => ls.S
  | .G => ls.G
  | .P => ls.P
  | .F => ls.F

/-- One Link Controller replaced. -/
def Links.set (ls : Links) (l : Link) (c : LinkCtl) : Links :=
  match l with
  | .S => { ls with S := c }
  | .G => { ls with G := c }
  | .P => { ls with P := c }
  | .F => { ls with F := c }

/-- The link is Active (R175). -/
def linkActive (s : State) (l : Link) : Bool := (s.links.get l).active

/-- The attention line: asserted while the notice queue holds a record (R173). -/
def attention (s : State) (l : Link) : Bool := !(s.links.get l).notices.isEmpty

/-- Replies in the outbound queue, the one being sent counted among them (R170; log 12). -/
def repliesWaiting (c : LinkCtl) : Nat :=
  c.replies.length + (match c.sending with | some (.reply _) => 1 | _ => 0)

/-- Orders in the outbound queue, the one being sent counted among them (R171; log 12). -/
def ordersWaiting (c : LinkCtl) : Nat :=
  c.orders.length + (match c.sending with | some (.order _) => 1 | _ => 0)

/-- Bad entries now in the judgement window (02, "Bad count"). -/
def badCount (w : List Bool) : Nat := w.countP (fun good => !good)

/-- The use of the slot that holds genset `i`, with the slot's number. -/
def slotUseOf (a : Arbiter) (i : Fin 8) : Option (Nat × SlotUse) :=
  match a.slot1, a.slot2 with
  | some u, v => if u.unit = i then some (1, u) else
      match v with
      | some w => if w.unit = i then some (2, w) else none
      | none => none
  | none, some w => if w.unit = i then some (2, w) else none
  | none, none => none

/-- The start slot a genset occupies (03, genset record, slot). -/
def unitSlot (s : State) (i : Fin 8) : Option Nat := (slotUseOf s.arb i).map (·.1)

/-- The SourceTie feeder whose record names PV group `g` (05, linked source-tie feeder; R88). -/
def linkedTie (t : Tables) (g : Fin 8) : Option (Fin 24) :=
  feederIds.find? fun k => t.feeders[k].kind = .sourceTie && t.feeders[k].linked = some g

/-- A genset is coordinated online (R1). -/
def coordOnline (s : State) (i : Fin 8) : Bool :=
  s.cfg.gensets[i].present && s.gens[i].state = .online && s.gens[i].authority = .coordinated

/-- The coordinated online gensets. -/
def coordUnits (s : State) : List (Fin 8) := units.filter (coordOnline s)

/-- A genset is a candidate: present, Available, Coordinated, and Stopped or in Cooldown (R65). -/
def candidate (s : State) (i : Fin 8) : Bool :=
  s.cfg.gensets[i].present && s.gens[i].available && s.gens[i].authority = .coordinated
    && (s.gens[i].state = .stopped || s.gens[i].state = .cooldown)

/-- The state a rule sends a Coordinated unit to where it says Stopped: LockedOut while the lockout flag is set (R47). -/
def stoppedState (s : State) (i : Fin 8) : UnitState :=
  if s.cfg.gensets[i].lockout then .lockedOut else .stopped

/-- The feeder is present and in state `st`. -/
def feederIn (s : State) (st : FeederState) (k : Fin 24) : Bool :=
  s.cfg.feeders[k].present && s.feeders[k].state = st

/-- The present feeders in state `st`, ascending. -/
def feedersIn (s : State) (st : FeederState) : List (Fin 24) := feederIds.filter (feederIn s st)

/-- The number of feeders in Opening (R110, R129). -/
def openingCount (s : State) : Nat := (feedersIn s .opening).length

/-- A sample's bus state: code 1 is Live, code 0 is Dead, any other is a free value (09, bus state; log 10). -/
def SampleRec.live (r : SampleRec) : Bool :=
  if r.bus = 1 then true else if r.bus = 0 then false else Config.busCodeIsLive r.bus

/-- The held record. -/
def heldRec (s : State) : Option SampleRec := s.lock.held.map (·.record)

/-- The held sample is Live. -/
def heldLive (s : State) : Bool := (heldRec s).any SampleRec.live

/-- The held sample is Dead. -/
def heldDead (s : State) : Bool := (heldRec s).any (fun r => !r.live)

/-- The held frequency f in mHz, 0 with no held sample (R36). -/
def heldFreq (s : State) : Int :=
  match heldRec s with
  | some r => r.freq.toNat
  | none => 0

/-- The held RoCoF (R36). -/
def heldRocof (s : State) : Int :=
  match heldRec s with
  | some r => r.rocof.toInt
  | none => 0

/-- The sampled output of a genset, 0 with no held sample (R1). -/
def genOut (s : State) (i : Fin 8) : Int :=
  match heldRec s with
  | some r => r.gens[i].toInt
  | none => 0

/-- The sampled output of a PV group, not yet clamped (R1). -/
def pvOut (s : State) (g : Fin 8) : Nat :=
  match heldRec s with
  | some r => r.pvs[g].toNat
  | none => 0

/-- A value clamped to 0..`hi`. -/
def clampTo (hi : Nat) (v : Int) : Nat := min hi v.toNat

/-- The sampled output of a PV group clamped to 0..its rating (R3). -/
def pvClamped (s : State) (g : Fin 8) : Nat := min s.cfg.pvs[g].rating (pvOut s g)

/-- A PV group is Coordinated. -/
def pvCoord (s : State) (g : Fin 8) : Bool := s.pvs[g].authority = .coordinated

/-- The coordinated PV groups, ascending. -/
def coordGroups (s : State) : List (Fin 8) := units.filter (pvCoord s)

/-- A claim names the feeder. -/
def namesFeeder (k : Fin 24) (c : Claim) : Bool := c.purpose = .feeder k

/-- A claim names the unit. -/
def namesUnit (k : Fin 8) (c : Claim) : Bool := c.purpose = .unit k

/-- A claim is Pending or Granted. -/
def Claim.live (c : Claim) : Bool :=
  match c.state with
  | .applied _ => false
  | _ => true

/-- Division rounding up, for a quantity the part must cover (00_scope.md, Rounding). -/
def ceilDiv (a b : Nat) : Nat := (a + (b - 1)) / b

/-- Nominal frequency less an offset, in mHz (R180). -/
def belowNominal (s : State) (offset : Nat) : Int := (s.cfg.settings.links.nominal : Int) - offset

/-- The restore frequency (07, settings). -/
def restoreFreq (s : State) : Int := belowNominal s s.cfg.settings.restore.freqOffset

/-- Frequency within nominal plus or minus `band` (R156, R162). -/
def inBand (s : State) (band : Int) : Bool :=
  let d := heldFreq s - (s.cfg.settings.links.nominal : Int)
  d ≤ band && (0 - band) ≤ d

/-- The start reason of a kind, where held (R62). -/
def Arbiter.get (a : Arbiter) : ReasonKind → Option Reason
  | .overload => a.overload
  | .trip => a.trip
  | .blackStart => a.blackStart
  | .shortfall => a.shortfall
  | .blind => a.blind
  | .operator => a.operator

/-- The start reason of a kind replaced. -/
def Arbiter.put (a : Arbiter) (k : ReasonKind) (r : Option Reason) : Arbiter :=
  match k with
  | .overload => { a with overload := r }
  | .trip => { a with trip := r }
  | .blackStart => { a with blackStart := r }
  | .shortfall => { a with shortfall := r }
  | .blind => { a with blind := r }
  | .operator => { a with operator := r }

/-- The kinds in priority order (03, "Start reasons"). -/
def reasonKinds : List ReasonKind := [.overload, .trip, .blackStart, .shortfall, .blind, .operator]

/-- The emergency kinds (00_scope.md, Emergency reason). -/
def ReasonKind.emergency : ReasonKind → Bool
  | .overload | .trip | .blackStart => true
  | .shortfall | .blind | .operator => false

end Sys2Proof.Machine
end

