-- ==== Sys2Proof/Machine/Ops.lean ====
section
/-! DEFINITION. The shared operations every chapter uses: placing notices, replies and orders, beginning the next frame
of an outbound queue, offering tally events, writing through to the store, and changing one record of a table. -/

namespace Sys2Proof.Machine

/-! ## One record changed -/

/-- One Link Controller changed. -/
def modLink (l : Link) (f : LinkCtl → LinkCtl) (s : State) : State :=
  { s with links := s.links.set l (f (s.links.get l)) }

/-- One genset's dynamic record changed. -/
def modGen (i : Fin 8) (f : Genset → Genset) (s : State) : State :=
  { s with gens := s.gens.set i (f s.gens[i]) }

/-- One PV group's dynamic record changed. -/
def modPv (g : Fin 8) (f : PvGroup → PvGroup) (s : State) : State :=
  { s with pvs := s.pvs.set g (f s.pvs[g]) }

/-- One feeder's dynamic record changed. -/
def modFeeder (k : Fin 24) (f : Feeder → Feeder) (s : State) : State :=
  { s with feeders := s.feeders.set k (f s.feeders[k]) }

/-- A change of the tables, made in the working copy and written through to the store at once (R183, R47, R68, R110). -/
def writeThrough (f : Tables → Tables) (s : State) : State :=
  { s with cfg := f s.cfg, store := f s.store }

/-- One genset's retained record changed, written through. -/
def modGensetCfg (i : Fin 8) (f : GensetCfg → GensetCfg) (s : State) : State :=
  writeThrough (fun t => { t with gensets := t.gensets.set i (f t.gensets[i]) }) s

/-- One feeder's retained record changed, written through. -/
def modFeederCfg (k : Fin 24) (f : FeederCfg → FeederCfg) (s : State) : State :=
  writeThrough (fun t => { t with feeders := t.feeders.set k (f t.feeders[k]) }) s

/-! ## Notices (R173) -/

/-- A record joins a notice queue, or is dropped with the overflow count raised when the queue holds 16 (R173). -/
def LinkCtl.notify (n : Notice) (c : LinkCtl) : LinkCtl :=
  if c.notices.length < Config.noticeCapacity then { c with notices := c.notices ++ [n] }
  else { c with overflow := min 255 (c.overflow + 1) }

/-- A block places one notice record for the links of its routing; its time is the clock time (R173). -/
def notify (ls : List Link) (kind : NoticeKind) (index : Nat) (subject : Subject) (cause : NoticeCause)
    (claimId : Nat) (s : State) : State :=
  ls.foldl (fun s l => modLink l (LinkCtl.notify ⟨kind, index, subject, cause, claimId, s.clock⟩) s) s

/-! ## Tally events (R184, R185) -/

/-- The place of an event kind in the manual's order, from 0 (11, event set). -/
def EventKind.place : EventKind → Nat
  | .startOrdered => 0
  | .startFailed => 1
  | .trip => 2
  | .underFrequencyShed => 3
  | .shortfallShed => 4
  | .restore => 5
  | .claimGranted => 6
  | .claimRefused => 7
  | .claimExpired => 8
  | .curtailedEnergy => 9
  | .sampleGood => 10
  | .sampleBad => 11
  | .lockLost => 12
  | .frameError => 13

/-- A qualifier admits the quality in force (R184). -/
def Qualifier.allows : Qualifier → Quality → Bool
  | .any, _ => true
  | .fullOnly, q => q = .full
  | .notFullOnly, q => q ≠ .full

/-- A tally takes an event: its kind is in the set, the filter is 0 or the event's index, and the qualifier admits the
quality (R184). -/
def TallyCfg.takes (t : TallyCfg) (q : Quality) (k : EventKind) (index : Option Nat) : Bool :=
  t.events.getLsbD k.place && (t.filter = 0 || index = some t.filter) && t.qualifier.allows q

/-- What an event taken adds: 1 in Count mode, its amount in Accumulate mode (R184). -/
def TallyCfg.increment (t : TallyCfg) (amount : Nat) : Nat :=
  match t.mode with
  | .count => 1
  | .accumulate => amount

/-- A block offers an event, in the quality in force; each tally judges it by itself and saturates (R184, R185). An
event without amount is offered with amount 0, which is what an Accumulate tally adds for it. -/
def offer (k : EventKind) (index : Option Nat) (amount : Nat) (s : State) : State :=
  { s with tally := { s.tally with
      live := Vector.ofFn fun i : Fin 16 =>
        if s.cfg.tallies[i].takes s.lock.quality k index then
          min Config.tallyLimit (s.tally.live[i] + s.cfg.tallies[i].increment amount)
        else s.tally.live[i] } }

/-! ## Outbound queues (R170, R171, R172) -/

/-- A reply joins the outbound queue behind the replies already waiting (R170). -/
def placeReply (l : Link) (r : Reply) (s : State) : State :=
  modLink l (fun c => { c with replies := c.replies ++ [r] }) s

/-- The order names genset `i`. -/
def Order.namesUnit (i : Fin 8) : Order → Bool
  | .start u | .stop u | .recall u => u = i
  | .ceiling _ | .openSet _ | .close _ => false

/-- What is left of an unsent order once the feeders of a later order are taken from it (R172). -/
def Order.withoutFeeders (fs : List (Fin 24)) : Order → Option Order
  | .openSet ks =>
    let left := ks.filter (fun k => !fs.contains k)
    if left.isEmpty then none else some (.openSet left)
  | .close k => if fs.contains k then none else some (.close k)
  | o => some o

/-- What is left of an unsent order once a PV group's entry is taken from it (R85, R172). DESIGN CHOICE, log 74: a CEILING
order whose last entry is taken leaves the queue. -/
def Order.withoutGroup (g : Fin 8) : Order → Option Order
  | .ceiling es =>
    let left := es.filter (fun e => e.1 ≠ g)
    if left.isEmpty && !es.isEmpty then none else some (.ceiling left)
  | o => some o

/-- The order is a CEILING order. -/
def Order.isCeiling : Order → Bool
  | .ceiling _ => true
  | _ => false

/-- A START, STOP or RECALL order joins link G's queue; older unsent orders for its unit leave it (R172). -/
def queueUnitOrder (o : Order) (i : Fin 8) (s : State) : State :=
  modLink .G (fun c => { c with orders := c.orders.filter (fun x => !x.namesUnit i) ++ [o] }) s

/-- An OPEN SET or CLOSE order joins link F's queue; its feeders leave every older unsent order (R172). -/
def queueFeederOrder (o : Order) (fs : List (Fin 24)) (s : State) : State :=
  modLink .F (fun c => { c with orders := c.orders.filterMap (Order.withoutFeeders fs) ++ [o] }) s

/-- A CEILING order takes the place of an unsent one in link P's queue (R105, R172). -/
def queueCeilingOrder (es : List (Fin 8 × Nat)) (s : State) : State :=
  modLink .P (fun c => { c with orders := c.orders.filter (fun x => !x.isCeiling) ++ [.ceiling es] }) s

/-- An idle line begins its next reply, or its next order while the link is Active (R171). -/
def LinkCtl.pump (c : LinkCtl) : LinkCtl :=
  match c.sending with
  | some _ => c
  | none =>
    match c.replies with
    | r :: rs => { c with sending := some (.reply r), replies := rs }
    | [] =>
      match c.active, c.orders with
      | true, o :: os => { c with sending := some (.order o), orders := os }
      | _, _ => c

/-- The end of every step: each idle line begins its next frame (R171; log 11). -/
def finish (s : State) : State :=
  { s with links := ⟨s.links.S.pump, s.links.G.pump, s.links.P.pump, s.links.F.pump⟩ }

/-! ## Free choices -/

/-- One free choice used. -/
def spendFree (s : State) : State := { s with free := s.free + 1 }

end Sys2Proof.Machine
end

