-- ==== Sys2Proof/Machine/Margin.lean ====
section
/-! DEFINITION. The margin arithmetic of the Reserve Book (01, R1 to R7). -/

namespace Sys2Proof.Machine

/-- P_i, the sampled output clamped to 0..R_i (R2). -/
def unitP (s : State) (i : Fin 8) : Nat := clampTo s.cfg.gensets[i].rating (genOut s i)

/-- Lmin_i, rounded up (R2). -/
def unitLmin (s : State) (i : Fin 8) : Nat :=
  ceilDiv (s.cfg.gensets[i].rating * s.cfg.gensets[i].minLoad) 100

/-- The headroom H (R3). -/
def headroom (s : State) : Nat :=
  ((coordUnits s).map fun i => s.cfg.gensets[i].rating - unitP s i).sum

/-- PVtot (R3). -/
def pvTotal (s : State) : Nat := (units.map (pvClamped s)).sum

/-- PVcoord, 0 while link P is Silent (R3). -/
def pvCoordTotal (s : State) : Nat :=
  if linkActive s .P then ((coordGroups s).map (pvClamped s)).sum else 0

/-- The cloud cover need Nc, its first part rounded up (R4). -/
def cloudNeed (s : State) : Nat :=
  ceilDiv (pvCoordTotal s * s.cfg.settings.book.cf) 100 + (pvTotal s - pvCoordTotal s)

/-- The largest of a list of quantities, 0 for none. -/
def largest (xs : List Nat) : Nat := xs.foldl max 0

/-- The unit cover need Nu (R4). -/
def unitNeed (s : State) : Nat :=
  if s.cfg.settings.book.n1 && 2 ≤ (coordUnits s).length then largest ((coordUnits s).map (unitP s)) else 0

/-- The claim total Cl (R5). -/
def claimTotal (s : State) : Nat := (s.book.claims.map (·.amount)).sum

/-- The load L: the outputs of the present gensets, negatives as 0 and unclamped above, plus PVtot (R6). -/
def loadL (s : State) : Nat :=
  ((units.filter fun i => s.cfg.gensets[i].present).map fun i => (genOut s i).toNat).sum + pvTotal s

/-- The summed output of the present Local gensets, negatives as 0 (R6). -/
def localOut (s : State) : Nat :=
  ((units.filter fun i => s.cfg.gensets[i].present && s.gens[i].authority = .byPlant).map
    fun i => (genOut s i).toNat).sum

/-- The summed minimum load (R6). -/
def sumLmin (s : State) : Nat := ((coordUnits s).map (unitLmin s)).sum

/-- The PV admission limit A, a negative result taken as 0 (R6). -/
def admissionLimit (s : State) : Nat :=
  ((loadL s : Int) - sumLmin s - (pvTotal s - pvCoordTotal s : Nat) - localOut s).toNat

/-- The margin terms from the state as it stands, its settings included: a new cf, Rfloor or N-1 cover is read at the first
computation after its SET, be it a recomputation between evaluations (R1 to R7; log 48). -/
def computeTerms (s : State) : Terms where
  H := headroom s
  pvTot := pvTotal s
  pvCoord := pvCoordTotal s
  pvLoc := pvTotal s - pvCoordTotal s
  Nc := cloudNeed s
  Nu := unitNeed s
  RR := max s.cfg.settings.book.rfloor (max (cloudNeed s) (unitNeed s))
  Cl := claimTotal s
  M := (headroom s : Int) - (max s.cfg.settings.book.rfloor (max (cloudNeed s) (unitNeed s)) : Nat) - claimTotal s
  L := loadL s
  A := admissionLimit s
  D := (sumLmin s : Int) - ((coordUnits s).map (unitP s)).sum
  excess := ((coordUnits s).map (genOut s)).sum - (((coordUnits s).map fun i => s.cfg.gensets[i].rating).sum : Nat)

/-- The Reserve Book recomputes its terms at once; no decision is taken (R7). -/
def recompute (s : State) : State := { s with book := { s.book with terms := computeTerms s } }

end Sys2Proof.Machine
end

