-- ==== Sys2Proof/Machine/Claims.lean ====
section
/-! DEFINITION. The claim list of the Reserve Book: identity, admission, withdrawal and the events that move a claim (01,
R8 to R19), with the end of a pending release that a claim's end brings (04, R77, R81). -/

namespace Sys2Proof.Machine

/-! ## Identity and routing -/

/-- The links a claim's notices go to: its holder's link and link S, each once (R12, R17). -/
def Holder.links : Holder → List Link
  | .linkF => [.F, .S]
  | .linkS | .restoration | .blackStart | .releaseCover => [.S]

/-- The index a claim's tally events carry: the feeder or unit it names, none for Reserve (R10). -/
def Claim.index (c : Claim) : Option Nat :=
  match c.purpose with
  | .feeder k => some (k.val + 1)
  | .unit k => some (k.val + 1)
  | .reserve => none

/-- A ClaimOutcome notice (01, "ClaimOutcome notices"). -/
def notifyClaim (c : Claim) (o : OutcomeWord) (why : Cause) (s : State) : State :=
  notify c.holder.links .claimOutcome (c.index.getD 0) (.outcome o) (.code why) c.id s

/-- An AuthorityOutcome notice for a genset: links G and S (R77). -/
def notifyUnitAuthority (i : Fin 8) (o : OutcomeWord) (why : Cause) (claimId : Nat) (s : State) : State :=
  notify [.G, .S] .authorityOutcome (i.val + 1) (.outcome o) (.code why) claimId s

/-- A pending release ends without hand-over: the field becomes absent and the outcome is told (R77, R81). -/
def endRelease (i : Fin 8) (o : OutcomeWord) (why : Cause) (claimId : Nat) (s : State) : State :=
  notifyUnitAuthority i o why claimId (modGen i (fun g => { g with pendingRelease := none }) s)

/-- The id is held by a claim in the list. -/
def idInUse (s : State) (id : Nat) : Bool := s.book.claims.any (fun c => c.id = id)

/-- The claim id after `id`: 255 is followed by 1 (R8). -/
def idAfter (id : Nat) : Nat := if 255 ≤ id then 1 else id + 1

/-- The first id from `id` on that no claim holds, looked for `fuel` times (R8; 16 claims leave one within 17). -/
def freeIdFrom (s : State) : Nat → Nat → Nat
  | 0, id => id
  | fuel + 1, id => if idInUse s id then freeIdFrom s fuel (idAfter id) else id

/-- The id a new claim is given (R8). -/
def newClaimId (s : State) : Nat := freeIdFrom s Config.claimCapacity s.book.nextId

/-! ## Entering and leaving the list -/

/-- A claim enters at the end of the list, the next claim id moves past its id, and the terms are recomputed (R7, R8). -/
def enterClaim (c : Claim) (s : State) : State :=
  recompute { s with book := { s.book with claims := s.book.claims ++ [c], nextId := idAfter c.id } }

/-- The step claim item is present only while its claim is in the list (08, "Step claim"). -/
def settleStepClaim (s : State) : State :=
  match s.seq.stepClaim with
  | some id => if idInUse s id then s else { s with seq := { s.seq with stepClaim := none } }
  | none => s

/-- The claims that satisfy `p` leave the list, and the terms are recomputed when any did (R7). -/
def dropClaims (p : Claim → Bool) (s : State) : State :=
  if s.book.claims.any p then
    recompute (settleStepClaim { s with book := { s.book with claims := s.book.claims.filter (fun c => !p c) } })
  else s

/-- What is told of one withdrawn claim: a ClaimOutcome Withdrawn notice when it was Pending or Granted, the end of the
pending release instead for a ReleaseCover claim, and nothing for an Applied one (R17, R81). -/
def tellWithdrawn (why : Cause) (c : Claim) (s : State) : State :=
  if c.live then
    match c.holder, c.purpose with
    | .releaseCover, .unit i => endRelease i .refused why c.id s
    | _, _ => notifyClaim c .withdrawn why s
  else s

/-- Withdrawal of the claims that satisfy `p` (R17). DESIGN CHOICE, log 64: several claims withdrawn together are told in
list order. -/
def withdrawClaims (p : Claim → Bool) (why : Cause) (s : State) : State :=
  (s.book.claims.filter p).foldl (fun s c => tellWithdrawn why c s) (dropClaims p s)

/-- The claims that satisfy `p` and are not yet Applied become Applied, with their settle expiry (R14). -/
def applyClaims (p : Claim → Bool) (s : State) : State :=
  let settled : ClaimState := .applied (after s.clock (secs s.cfg.settings.book.claimSettle))
  { s with book := { s.book with
      claims := s.book.claims.map (fun c => if p c && c.live then { c with state := settled } else c) } }

/-! ## Admission (R10, R11) -/

/-- How a claim asked for was answered. -/
inductive ClaimAnswer where
  | granted (id : Nat)
  | pending (id : Nat)
  | refused (st : Status)
  deriving DecidableEq, Repr

/-- What a holder asks for; wait and lifetime are in seconds, and the lifetime is its own or the setting's (R9). -/
structure ClaimAsk where
  holder : Holder
  purpose : Purpose
  amount : Nat
  wait : Nat
  lifetime : Nat
  bySetting : Bool
  deriving DecidableEq, Repr

/-- A claim in the list names the same feeder or unit (R10). -/
def purposeTaken (s : State) (p : Purpose) : Bool :=
  match p with
  | .reserve => false
  | _ => s.book.claims.any (fun c => c.purpose = p)

/-- The claim a grant at admission makes (R10). -/
def grantedClaim (a : ClaimAsk) (s : State) : Claim :=
  ⟨newClaimId s, a.holder, a.purpose, a.amount, a.lifetime, a.bySetting, .granted (after s.clock (secs a.lifetime))⟩

/-- The claim a wait makes (R11). -/
def pendingClaim (a : ClaimAsk) (s : State) : Claim :=
  ⟨newClaimId s, a.holder, a.purpose, a.amount, a.lifetime, a.bySetting, .pending (after s.clock (secs a.wait))⟩

/-- A grant at admission is possible: quality Full and the margin covers the amount (R10). -/
def canGrant (s : State) (amount : Nat) : Bool := s.lock.quality = .full && 0 ≤ s.book.terms.M - amount

/-- The event index of an ask: the feeder or unit it names (R10). -/
def ClaimAsk.index (a : ClaimAsk) : Option Nat :=
  match a.purpose with
  | .feeder k => some (k.val + 1)
  | .unit k => some (k.val + 1)
  | .reserve => none

/-- Every claim is admitted by the same checks in the order of R10; `own` is the refusal of the asking request or block,
its second check. Answers the state and how the ask was answered. -/
def askClaim (a : ClaimAsk) (own : Option Status) (s : State) : State × ClaimAnswer :=
  if !s.entry.complete then (s, .refused .refusedQuality)
  else match own with
  | some st => (s, .refused st)
  | none =>
    if purposeTaken s a.purpose then (s, .refused .refusedState)
    else if Config.claimCapacity ≤ s.book.claims.length then (s, .refused .refusedBusy)
    else if canGrant s a.amount then
      (offer .claimGranted a.index 0 (enterClaim (grantedClaim a s) s), .granted (newClaimId s))
    else if a.wait = 0 then
      (offer .claimRefused a.index 0 s,
        .refused (if s.lock.quality = .full then .refusedReserve else .refusedQuality))
    else (enterClaim (pendingClaim a s) s, .pending (newClaimId s))

/-! ## Expiries (R13, R15, R16) -/

/-- The claim with an id. -/
def claimById (s : State) (id : Nat) : Option Claim := s.book.claims.find? (fun c => c.id = id)

/-- A Pending claim reaches its wait expiry (R13); a ReleaseCover claim's end refuses the release (R81). -/
def claimWaitEnds (id : Nat) (s : State) : State :=
  match claimById s id with
  | none => s
  | some c =>
    match c.state with
    | .pending t =>
      if reached s.clock t then
        let s1 := dropClaims (fun x => x.id = id) s
        let s2 := match c.holder, c.purpose with
          | .releaseCover, .unit i => endRelease i .refused .wait c.id s1
          | _, _ => notifyClaim c .refused .wait s1
        offer .claimRefused c.index 0 s2
      else s
    | _ => s

/-- A Granted claim reaches its lifetime expiry (R15). -/
def claimLifetimeEnds (id : Nat) (s : State) : State :=
  match claimById s id with
  | none => s
  | some c =>
    match c.state with
    | .granted t =>
      if reached s.clock t then
        offer .claimExpired c.index 0 (notifyClaim c .expired .lifetime (dropClaims (fun x => x.id = id) s))
      else s
    | _ => s

/-- An Applied claim reaches its settle expiry and leaves without notice (R16). -/
def claimSettles (id : Nat) (s : State) : State :=
  match claimById s id with
  | none => s
  | some c =>
    match c.state with
    | .applied t => if reached s.clock t then dropClaims (fun x => x.id = id) s else s
    | _ => s

end Sys2Proof.Machine
end

