-- ==== Sys2Proof/Machine/Arbiter.lean ====
section
/-! DEFINITION. The change of a genset's state, the start reasons, the duty ring, and the serving rule of the Start
Arbiter (03, R47, R48, R54, R62 to R68), with the sequencer's entry to Failed, which a search without candidate may
bring (08, R165). -/

namespace Sys2Proof.Machine

/-! ## The state of a genset (R48) -/

/-- The window or hold of a state that has one, in seconds (03, "Genset states"). -/
def phaseWindow (w : WindowSettings) : UnitState → Option Nat
  | .starting => some w.crank
  | .synchronising => some w.sync
  | .unloading => some w.unload
  | .cooldown => some w.cooldown
  | .unknown | .stopped | .online | .lockedOut => none

/-- The min-run timer as set on entering Online: elapsed at once with a minimum run of 0 (R48). -/
def freshMinRun (s : State) : MinRun :=
  if s.cfg.settings.windows.minRun = 0 then .elapsed
  else .running (after s.clock (secs s.cfg.settings.windows.minRun))

/-- The min-run timer that goes with a new state: present for a Coordinated unit Online, absent otherwise (R48, R75). -/
def minRunFor (s : State) (i : Fin 8) (st : UnitState) : MinRun :=
  if st = .online && s.gens[i].authority = .coordinated then freshMinRun s else .absent

/-- The fields of a genset that a change to state `st` sets: the state, its phase timer and its min-run timer (R48). -/
def enterUnitState (s : State) (i : Fin 8) (st : UnitState) (g : Genset) : Genset :=
  { g with
    state := st
    phaseTimer := (phaseWindow s.cfg.settings.windows st).map (fun n => after s.clock (secs n))
    minRun := minRunFor s i st }

/-- A genset changes state: the new fields, the UnitState notice for links S and G, and the recomputation of the Reserve
Book; a change to the state the unit is in is none (R48, R7). -/
def setUnitState (i : Fin 8) (st : UnitState) (why : Cause) (s : State) : State :=
  if s.gens[i].state = st then s
  else
    recompute (notify [.S, .G] .unitState (i.val + 1) (.unit st) (.code why) 0
      (modGen i (enterUnitState s i st) s))

/-- A Discrepancy notice for link S (R50). -/
def discrepancy (i : Fin 8) (st : UnitState) (why : Cause) (s : State) : State :=
  notify [.S] .discrepancy (i.val + 1) (.unit st) (.code why) 0 s

/-! ## The duty ring and the fail count (R47, R68) -/

/-- A ring with genset `i` taken from its place and put last (R68). -/
def ringTail (i : Fin 8) (r : List (Fin 8)) : List (Fin 8) := r.filter (fun j => j ≠ i) ++ [i]

/-- Genset `i` moves to the tail of the duty ring, written through (R68). -/
def moveToTail (i : Fin 8) (s : State) : State := writeThrough (fun t => { t with ring := ringTail i t.ring }) s

/-- A genset record after one rise of its fail count (R47). -/
def GensetCfg.fail (g : GensetCfg) : GensetCfg :=
  { g with failCount := min 5 (g.failCount + 1), lockout := g.lockout || g.failLimit ≤ min 5 (g.failCount + 1) }

/-- The rise of the fail count sets the lockout flag (R47). -/
def failLocksOut (s : State) (i : Fin 8) : Bool := !s.cfg.gensets[i].lockout && s.cfg.gensets[i].fail.lockout

/-- The fail count of a unit rises by one, written through (R47). -/
def raiseFailCount (i : Fin 8) (s : State) : State := modGensetCfg i GensetCfg.fail s

/-- The UnitLockout notice for links S and G, placed when the rise set the flag (R47). -/
def notifyLockout (newly : Bool) (i : Fin 8) (why : Cause) (s : State) : State :=
  if newly then notify [.S, .G] .unitLockout (i.val + 1) (.unit .lockedOut) (.code why) 0 s else s

/-- A failure of a Coordinated unit: the fail count rises, the unit moves to the ring's tail and becomes Stopped or
LockedOut, with its notices (R47, R56, R59, R60). DESIGN CHOICE, log 65: a rise found by a UNIT STATUS entry gives its
UnitLockout notice the cause Status, as its UnitState notice. -/
def failUnit (i : Fin 8) (why : Cause) (s : State) : State :=
  let newly := failLocksOut s i
  let s1 := moveToTail i (raiseFailCount i s)
  notifyLockout newly i why (setUnitState i (stoppedState s1 i) why s1)

/-! ## Start reasons (R62) -/

/-- The reason of a kind replaced. -/
def putReason (k : ReasonKind) (r : Option Reason) (s : State) : State := { s with arb := s.arb.put k r }

/-- A block raises a reason, or refreshes the one held; serving is left to the caller (R62). -/
def raiseReason (k : ReasonKind) (need : Nat) (named : Option (Fin 8)) (s : State) : State :=
  match s.arb.get k with
  | none => putReason k (some ⟨need, named, .pending, false, false⟩) s
  | some r => putReason k (some { r with need := need, named := named, withdrawn := false }) s

/-- A withdrawal removes a Pending reason and marks one In service (R62). -/
def withdrawReason (k : ReasonKind) (s : State) : State :=
  match s.arb.get k with
  | none => s
  | some r =>
    match r.stage with
    | .pending => putReason k none s
    | .inService => putReason k (some { r with withdrawn := true }) s

/-- The Reserve Book's Shortfall reason is withdrawn and its no-candidate flag cleared (R20, R21, R22). -/
def withdrawShortfall (s : State) : State :=
  let s1 := withdrawReason .shortfall s
  { s1 with book := { s1.book with noCandidate := false } }

/-- The slots with genset `i` taken out. -/
def Arbiter.free (a : Arbiter) (i : Fin 8) : Arbiter :=
  { a with
    slot1 := a.slot1.filter (fun u => u.unit ≠ i)
    slot2 := a.slot2.filter (fun u => u.unit ≠ i) }

/-- The slot that holds genset `i` is freed (R64). -/
def freeSlot (i : Fin 8) (s : State) : State := { s with arb := s.arb.free i }

/-- The kind of the reason that the slot of genset `i` serves. -/
def servedKind (s : State) (i : Fin 8) : Option ReasonKind := (slotUseOf s.arb i).map (·.2.kind)

/-! ## The sequencer's notices and its entry to Failed (R148, R165) -/

/-- The notice of a change of phase, for all four links (R148). -/
def notifyPhase (kind : NoticeKind) (why : Cause) (s : State) : State :=
  notify allLinks kind (s.seq.pointer.getD 0) (.phase s.seq.phase) (.code why) 0 s

/-- The phase changes, with its BlackStartPhase notice (R148). -/
def enterPhase (p : Phase) (why : Cause) (s : State) : State :=
  notifyPhase .blackStartPhase why { s with seq := { s.seq with phase := p } }

/-- A Pending or Granted claim held by BlackStart (R17). -/
def blackStartClaim (c : Claim) : Bool := c.holder = .blackStart && c.live

/-- Entry to Failed, from Energising or Rebuilding (R165). -/
def enterFailed (why : Cause) (s : State) : State :=
  let s1 := { s with seq := { s.seq with
    failure := some why, window := none, stepTimer := none, deadSpell := none, bandSpell := none } }
  let s2 := withdrawReason .blackStart (withdrawClaims blackStartClaim .blackStartEnd s1)
  let s3 := withdrawShortfall { s2 with book := { s2.book with shortfallDwell := none } }
  enterPhase .failed why s3

/-! ## Candidates (R65) -/

/-- Genset `i` is a candidate for the reason of kind `k` (R65). -/
def candidateFor (s : State) (k : ReasonKind) (r : Reason) (i : Fin 8) : Bool :=
  candidate s i && (k ≠ .blackStart || s.cfg.gensets[i].capable)
    && (match r.named with | some u => i = u | none => true)

/-- The candidates for a reason, in ring order. -/
def candidatesFor (s : State) (k : ReasonKind) (r : Reason) : List (Fin 8) := s.cfg.ring.filter (candidateFor s k r)

/-- The unit of the largest rating, the first in the list among equals. -/
def largestRated (s : State) : List (Fin 8) → Option (Fin 8)
  | [] => none
  | i :: is =>
    match largestRated s is with
    | none => some i
    | some j => if s.cfg.gensets[j].rating ≤ s.cfg.gensets[i].rating then some i else some j

/-- The choice among the candidates, by the first step that yields a unit (R65). -/
def chooseUnit (s : State) (need : Nat) (cs : List (Fin 8)) : Option (Fin 8) :=
  match cs.find? (fun i => s.gens[i].state = .cooldown) with
  | some i => some i
  | none =>
    match cs.find? (fun i => need ≤ s.cfg.gensets[i].rating) with
    | some i => some i
    | none => largestRated s cs

/-! ## Serving (R54, R66, R67) -/

/-- The slot a pending reason of kind `k` may use (R64, R66). -/
def slotFor (a : Arbiter) (k : ReasonKind) : Option Nat :=
  match a.slot1, a.slot2 with
  | none, _ => some 1
  | some _, none => if k.emergency then some 2 else none
  | some _, some _ => none

/-- A slot taken by genset `i` for the reason of kind `k`. -/
def Arbiter.take (a : Arbiter) (slot : Nat) (u : SlotUse) : Arbiter :=
  if slot = 1 then { a with slot1 := some u } else { a with slot2 := some u }

/-- A start begins: the slot, the reason In service, the state Starting, the START order and the StartOrdered event (R54);
a Shortfall reason taken into a slot clears the no-candidate flag (R21). -/
def beginStart (slot : Nat) (k : ReasonKind) (r : Reason) (i : Fin 8) (s : State) : State :=
  let s1 := { s with arb := s.arb.take slot ⟨i, k, s.clock⟩ }
  let s2 := putReason k (some { r with stage := .inService, noCandidate := false }) s1
  let s3 := if k = .shortfall then { s2 with book := { s2.book with noCandidate := false } } else s2
  offer .startOrdered (some (i.val + 1)) 0 (queueUnitOrder (.start i) i (setUnitState i .starting .start s3))

/-- The StartNoCandidate notice for link S (R67). -/
def notifyNoCandidate (k : ReasonKind) (r : Reason) (s : State) : State :=
  notify [.S] .startNoCandidate ((r.named.map (·.val + 1)).getD 0) (.reason k) (.amount r.need) 0 s

/-- A search found no candidate: the mark and the notice at its setting, and what the blocks are told; an Operator reason
is withdrawn instead (R67). In Energising the sequencer then enters Failed (R155). -/
def noCandidateFound (k : ReasonKind) (r : Reason) (s : State) : State :=
  match k with
  | .operator => notifyNoCandidate k r (putReason k none s)
  | _ =>
    let s1 := if r.noCandidate then s
      else notifyNoCandidate k r (putReason k (some { r with noCandidate := true }) s)
    match k with
    | .shortfall => { s1 with book := { s1.book with noCandidate := true } }
    | .blackStart => if s1.seq.phase = .energising then enterFailed .noCandidate s1 else s1
    | _ => s1

/-- One reason looked at in a search: the state after, and whether a start began (R66). -/
def serveKind (k : ReasonKind) (s : State) : State × Bool :=
  match s.arb.get k with
  | none => (s, false)
  | some r =>
    match r.stage, slotFor s.arb k with
    | .pending, some slot =>
      match chooseUnit s r.need (candidatesFor s k r) with
      | some i => (beginStart slot k r i s, true)
      | none => (noCandidateFound k r s, false)
    | _, _ => (s, false)

/-- One pass through the kinds, in priority order, that ends at the first start (R66). -/
def servePass : List ReasonKind → State → State × Bool
  | [], s => (s, false)
  | k :: ks, s =>
    match serveKind k s with
    | (s1, true) => (s1, true)
    | (s1, false) => servePass ks s1

/-- Passes from the top of the priority order until one begins no start; two slots leave at most two starts (R66). -/
def serveLoop : Nat → State → State
  | 0, s => s
  | n + 1, s =>
    match servePass reasonKinds s with
    | (s1, true) => serveLoop n s1
    | (s1, false) => s1

/-- The Start Arbiter serves, when entry has completed and link G is Active (R66, R73). -/
def serve (s : State) : State := if s.entry.complete && linkActive s .G then serveLoop 3 s else s

/-- A reason is raised, and the arbiter serves when it is new; a refresh causes no serving (R66). -/
def raiseAndServe (k : ReasonKind) (need : Nat) (named : Option (Fin 8)) (s : State) : State :=
  match s.arb.get k with
  | none => serve (raiseReason k need named s)
  | some _ => raiseReason k need named s

end Sys2Proof.Machine
end

