-- ==== Sys2Proof/Machine/Feeders.lean ====
section
/-! DEFINITION. The change of a feeder's state, the act of opening feeders with the shed event it is, and the close of a
feeder under a claim with the restore bucket that admits it (06, R111, R112, R114, R129, R130; 07, R134, R137, R138). -/

namespace Sys2Proof.Machine

/-! ## The state of a feeder (R111) -/

/-- A state in which a switching order is in flight. -/
def FeederState.inFlight : FeederState → Bool
  | .opening | .closing => true
  | _ => false

/-- The shed cause after a change of state (R111). -/
def shedCauseFor (old new : FeederState) (c : Option Cause) : Option Cause :=
  match new with
  | .closed => none
  | .openHeld => if old = .closed then some .manual else c
  | _ => c

/-- The time opened after a change of state (R111). -/
def timeOpenedFor (now : Time) (new : FeederState) (t : Option Time) : Option Time :=
  match new with
  | .closed => none
  | .shed | .openHeld => some now
  | _ => t

/-- The relay window of a feeder that enters a state at `now` (R111). -/
def relayWindowFor (s : State) (new : FeederState) : Option Time :=
  if new.inFlight then some (after s.clock (s.cfg.settings.shed.relayWindow * 100)) else none

/-- The fields of a feeder that a change to state `st` sets (R111). -/
def enterFeederState (s : State) (st : FeederState) (f : Feeder) : Feeder where
  state := st
  shedCause := shedCauseFor f.state st f.shedCause
  timeOpened := timeOpenedFor s.clock st f.timeOpened
  relayWindow := relayWindowFor s st

/-- The shed settle timer starts, again where it runs (R111). -/
def startSettle (s : State) : State :=
  { s with shed := { s.shed with settle := some (after s.clock (s.cfg.settings.shed.settleTime * 100)) } }

/-- A feeder changes state: its fields, the settle timer when it leaves Opening, and the FeederState notice for links S
and F; a change to the state the feeder is in is none (R111). -/
def setFeederState (k : Fin 24) (st : FeederState) (why : Cause) (s : State) : State :=
  if s.feeders[k].state = st then s
  else
    let s1 := if s.feeders[k].state = .opening then startSettle s else s
    notify [.S, .F] .feederState (k.val + 1) (.feeder st) (.code why) 0 (modFeeder k (enterFeederState s st) s1)

/-! ## Opening feeders (R112, R130) -/

/-- The restore hold-off restarts (R133). -/
def restartHoldOff (s : State) : State :=
  { s with rest := { s.rest with holdOff := some (after s.clock (secs s.cfg.settings.restore.holdOffTime)) } }

/-- A Pending or Granted claim held by Restoration (R17). -/
def restorationClaim (c : Claim) : Bool := c.holder = .restoration && c.live

/-- What a shed event does besides the listing: the ShedEvent notice for links S and F, the restart of the restore
hold-off, and the withdrawal of the Restoration claims (R130). -/
def shedEvent (stage : Nat) (why : Cause) (amount : Nat) (s : State) : State :=
  withdrawClaims restorationClaim .shedEvent
    (restartHoldOff (notify [.S, .F] .shedEvent stage (.shedCause why) (.amount amount) 0 s))

/-- A listed feeder enters Opening with the shed cause of the act (R112). -/
def listFeeder (why : Cause) (s : State) (k : Fin 24) : State :=
  modFeeder k (fun f => { f with shedCause := some why }) (setFeederState k .opening why s)

/-- A shedding act on the feeders it has chosen, in ascending index: one OPEN SET order, each feeder to Opening, and the
shed event; nothing for an empty list, nor while link F is Silent (R112, R131). -/
def openFeeders (fs : List (Fin 24)) (why : Cause) (stage amount : Nat) (s : State) : State :=
  if fs.isEmpty || !linkActive s .F then s
  else shedEvent stage why amount (fs.foldl (listFeeder why) (queueFeederOrder (.openSet fs) fs s))

/-- The summed load estimates of feeders. -/
def sumEstimates (s : State) (fs : List (Fin 24)) : Nat := (fs.map fun k => s.cfg.feeders[k].estimate).sum

/-- The Clearing listing: every present Closed feeder, and every present Faulted one while relisting is allowed, class 7
included; the item is then cleared. With link F Silent nothing is listed and the item stays (R129). -/
def clearingListing (s : State) : State :=
  if linkActive s .F then
    let fs := feederIds.filter fun k =>
      feederIn s .closed k || (s.shed.relistAllowed && feederIn s .faulted k)
    let s1 := openFeeders fs .blackStart 0 (sumEstimates s fs) s
    { s1 with shed := { s1.shed with relistAllowed := false } }
  else s

/-- A feeder that becomes Closed by a report during Clearing is listed at once in an order of its own (R129). -/
def relistClosed (k : Fin 24) (s : State) : State :=
  if s.seq.phase = .clearing && feederIn s .closed k then
    openFeeders [k] .blackStart 0 (sumEstimates s [k]) s
  else s

/-! ## Closing feeders (R114, R134, R137) -/

/-- The pickup need of a feeder, rounded up and held within 1..50,000 kW (R137). DEDUCED, log 67: the cloud factor is the
setting as it stands when the need is asked for. -/
def pickupNeed (s : State) (k : Fin 24) : Nat :=
  let c := s.cfg.feeders[k]
  let raw := match c.kind with
    | .load => ceilDiv (c.estimate * c.coldLoad) 100
    | .sourceTie =>
      match c.linked with
      | none => 1
      | some g => ceilDiv (s.cfg.pvs[g].rating * s.cfg.settings.book.cf) 100
  min 50000 (max 1 raw)

/-- The restore bucket admits a pickup need (R134). -/
def bucketAdmits (s : State) (need : Nat) : Bool :=
  s.rest.bucket + need ≤ s.cfg.settings.restore.capacity
    || (s.cfg.settings.restore.capacity < need && s.rest.bucket = 0)

/-- An admitted need raises the level, within the capacity (R134). -/
def chargeBucket (need : Nat) (s : State) : State :=
  { s with rest := { s.rest with bucket := min s.cfg.settings.restore.capacity (s.rest.bucket + need) } }

/-- The claim `id` is in the list, names feeder `k` and is Granted (R114). -/
def grantedFor (s : State) (k : Fin 24) (id : Nat) : Bool :=
  s.book.claims.any fun c => c.id = id && namesFeeder k c && (match c.state with | .granted _ => true | _ => false)

/-- The Shed Table takes a close (R114). -/
def canClose (s : State) (k : Fin 24) (id : Nat) : Bool :=
  s.cfg.feeders[k].present && (s.feeders[k].state = .shed || s.feeders[k].state = .openHeld)
    && grantedFor s k id && s.lock.quality = .full && linkActive s .F
    && feederIds.all (fun j => s.feeders[j].state ≠ .closing)

/-- A close asked of the Shed Table: a CLOSE order, and the feeder enters Closing; refused, nothing changes (R114). -/
def takeClose (k : Fin 24) (id : Nat) (s : State) : State :=
  if canClose s k id then setFeederState k .closing .close (queueFeederOrder (.close k) [k] s) else s

/-- The claim a block asks for before it closes feeder `k` (R138, R158). -/
def closeAsk (s : State) (h : Holder) (k : Fin 24) (need : Nat) : ClaimAsk :=
  ⟨h, .feeder k, need, 0, s.cfg.settings.book.claimLifetime, true⟩

end Sys2Proof.Machine
end

