-- ==== Sys2Proof/Machine/Sequencer.lean ====
section
/-! DEFINITION. The Black Start Sequencer (08): beginning, Clearing, Energising, the plan of Rebuilding, collapse, Failed
and ABORT, with the part R103 gives the Curtailment Unit in them. -/

namespace Sys2Proof.Machine

/-! ## Caps (R103) -/

/-- Every coordinated group with its issued ceiling, ascending: what a CEILING order lists (R105). -/
def ceilingEntries (s : State) : List (Fin 8 × Nat) :=
  (coordGroups s).map fun g => (g, s.pvs[g].issued.getD 0)

/-- A CEILING order of every coordinated group is queued, and each group listed awaits confirmation (R92, R105). -/
def queueFullCeiling (s : State) : State :=
  (coordGroups s).foldl (fun s g => modPv g (fun p => { p with awaiting := true }) s)
    (queueCeilingOrder (ceilingEntries s) s)

/-- The group fields at entry to Clearing: cap 0, issued ceiling 0, awaiting (R103). -/
def clearingCap (p : PvGroup) : PvGroup := { p with cap := some 0, issued := some 0, awaiting := true }

/-- At entry to Clearing every coordinated group takes cap 0 and issued ceiling 0, and the CEILING order is queued at once
or owed (R103). -/
def capAll (s : State) : State :=
  let s1 := (coordGroups s).foldl (fun s g => modPv g clearingCap s) s
  if linkActive s1 .P && s1.lock.quality ≠ .stale then queueCeilingOrder (ceilingEntries s1) s1
  else { s1 with cur := { s1.cur with fullOwed := true } }

/-- When the phase becomes Idle every cap becomes absent (R103). -/
def clearCaps (s : State) : State := units.foldl (fun s g => modPv g (fun p => { p with cap := none }) s) s

/-! ## What follows a genset's change -/

/-- A coordinated genset is in one of the states given. -/
def coordIn (s : State) (sts : List UnitState) : Bool :=
  units.any fun i => s.cfg.gensets[i].present && s.gens[i].authority = .coordinated && sts.contains s.gens[i].state

/-- While the phase is Energising the sequencer keeps the BlackStart reason standing: it raises it again when none is
held and no coordinated genset is Online, Starting or Synchronising (R154). -/
def keepBlackStart (s : State) : State :=
  if s.seq.phase = .energising && (s.arb.get .blackStart).isNone
      && !coordIn s [.online, .starting, .synchronising] then
    raiseReason .blackStart 0 none s
  else s

/-- The end of a genset's change of state, authority, availability or presence: the standing BlackStart reason, and the
serving (R48, R66, R154). -/
def unitSettled (s : State) : State := serve (keepBlackStart s)

/-- A failed attempt to energise is counted; the third enters Failed (R155). -/
def attemptFailed (s : State) : State :=
  if s.seq.phase = .energising then
    let s1 := { s with seq := { s.seq with attempts := s.seq.attempts + 1 } }
    if Config.attemptLimit ≤ s1.seq.attempts then enterFailed .attempts s1 else s1
  else s

/-! ## Clearing and Energising (R151 to R156) -/

/-- Entry to Energising (R154). -/
def enterEnergising (s : State) : State :=
  let s1 := { s with seq := { s.seq with
    window := some (after s.clock Config.energisingWindowMs), attempts := 0 } }
  raiseAndServe .blackStart 0 none (enterPhase .energising .cleared s1)

/-- Clearing completes when link F is Active and no present feeder is in Opening or Closing (R152). -/
def judgeCleared (s : State) : State :=
  if s.seq.phase = .clearing && linkActive s .F
      && feederIds.all (fun k => !feederIn s .opening k && !feederIn s .closing k) then
    enterEnergising s
  else s

/-- The sequencer's items at entry to Clearing; at a collapse the collapse count is kept (R151, step 1). -/
def clearingItems (keepCollapses : Bool) (q : Sequencer) : Sequencer :=
  { q with
    deadSpell := none, bandSpell := none, stepTimer := none, window := none, pointer := none, stepClaim := none
    attempts := 0, collapses := if keepCollapses then q.collapses else 0 }

/-- The Reserve Book cancels its dwells and guard and clears its no-candidate flag (R26). -/
def cancelDecisions (s : State) : State :=
  { s with book := { s.book with shortfallDwell := none, surplusDwell := none, guard := none, noCandidate := false } }

/-- Every running stage timer is cancelled (R41, R123), and no release spell is kept (R122, R123). -/
def cancelStages (s : State) : State :=
  { s with shed := { s.shed with timers := Vector.replicate 4 none, spell := none } }

/-- Every start reason is withdrawn (R151, step 4). -/
def withdrawReasons (s : State) : State := reasonKinds.foldl (fun s k => withdrawReason k s) s

/-- Entry to Clearing, in the order of R151; Clearing may then complete at once. -/
def enterClearing (why : Cause) (keepCollapses : Bool) (s : State) : State :=
  let s1 := { s with seq := clearingItems keepCollapses s.seq }
  let s2 := enterPhase .clearing why s1
  let s3 := withdrawReasons (withdrawClaims (fun _ => true) .clearing s2)
  let s4 := cancelStages (capAll (cancelDecisions s3))
  let s5 := { s4 with shed := { s4.shed with relistAllowed := true } }
  judgeCleared (clearingListing s5)

/-- Each Coordinated genset Online is set Stopped, or LockedOut: a Discrepancy notice with subject Stopped, and its
change of state (R150, R164). DESIGN CHOICE, log 68: the units are taken in ascending index, and the arbiter serves after
each. -/
def dropOnlineUnits (why : Cause) (s : State) : State :=
  (coordUnits s).foldl (fun s i =>
    unitSettled (setUnitState i (stoppedState s i) why (discrepancy i .stopped why s))) s

/-! ## Plan steps (R157 to R163) -/

/-- The step the plan pointer stands at. -/
def pointedStep (s : State) : Option PlanStep :=
  match s.seq.pointer with
  | some p => if h : 1 ≤ p ∧ p ≤ 32 then some (s.cfg.plan[p - 1]'(by omega)) else none
  | none => none

/-- What the current step does; none outside Rebuilding. -/
def currentAct (s : State) : Option StepAct :=
  if s.seq.phase = .rebuilding then (pointedStep s).map (·.act) else none

/-- The time of a step's timer, in seconds: its timeout, its time for WAIT, none for the kinds without a timer (R157). -/
def stepSeconds (p : PlanStep) : Option Nat :=
  match p.act with
  | .closeFeeder _ | .closeClass _ | .startUnit _ | .waitBand _ _ => some p.timeout
  | .wait n => some n
  | .releasePv _ _ | .endPlan => none

/-- What a step does as it becomes current, besides its timer: START UNIT raises the BlackStart reason unless its named
unit is Online (R160), RELEASE PV sets the cap of a Coordinated group (R161). -/
def stepOpening (a : StepAct) (s : State) : State :=
  match a with
  | .startUnit none => raiseAndServe .blackStart 0 none s
  | .startUnit (some u) => if coordOnline s u then s else raiseAndServe .blackStart 0 (some u) s
  | .releasePv g cap => if pvCoord s g then modPv g (fun p => { p with cap := some cap }) s else s
  | .closeFeeder _ | .closeClass _ | .wait _ | .waitBand _ _ | .endPlan => s

/-- A step becomes current (R157). -/
def openStep (s : State) : State :=
  match pointedStep s with
  | none => s
  | some p =>
    stepOpening p.act { s with seq := { s.seq with
      stepTimer := (stepSeconds p).map (fun n => after s.clock (secs n)), bandSpell := none } }

/-- The gates of a close attempt (R158). -/
def attemptGates (s : State) (k : Fin 24) : Bool :=
  heldLive s && s.lock.quality = .full && linkActive s .F && feederIds.all (fun j => s.feeders[j].state ≠ .closing)
    && s.book.claims.all (fun c => c.holder ≠ .blackStart)
    && s.cfg.feeders[k].present && (s.feeders[k].state = .shed || s.feeders[k].state = .openHeld)

/-- A close attempt of the plan: the gates, the bucket, the margin, the BlackStart claim, and the close (R158). -/
def attemptClose (k : Fin 24) (s : State) : State :=
  let need := pickupNeed s k
  if attemptGates s k && bucketAdmits s need && 0 ≤ s.book.terms.M - need then
    match askClaim (closeAsk s .blackStart k need) none s with
    | (s1, .granted id) =>
      takeClose k id (chargeBucket need { s1 with seq := { s1.seq with stepClaim := some id } })
    | _ => s
  else s

/-- A feeder stands earlier in restore order: lower restore rank, then lower index (R136, R159). -/
def restoresBefore (s : State) (j k : Fin 24) : Bool :=
  s.cfg.feeders[j].rank < s.cfg.feeders[k].rank
    || (s.cfg.feeders[j].rank = s.cfg.feeders[k].rank && j.val < k.val)

/-- The first feeder of a list in restore order (R136, R159). -/
def firstToRestore (s : State) : List (Fin 24) → Option (Fin 24)
  | [] => none
  | k :: ks =>
    match firstToRestore s ks with
    | none => some k
    | some j => if restoresBefore s j k then some j else some k

/-- The Shed feeders of a class (R159). -/
def shedOfClass (s : State) (c : Fin 8) : List (Fin 24) :=
  (feedersIn s .shed).filter fun k => s.cfg.feeders[k].cls = c.val

/-- A CLOSE CLASS step has nothing left to close (R159). -/
def classDone (s : State) (c : Fin 8) : Bool :=
  feederIds.all fun k => !(s.cfg.feeders[k].cls = c.val && (feederIn s .shed k || feederIn s .closing k))

/-- The band spell at an evaluation (R162). -/
def stepBand (band : Nat) (s : State) : State :=
  let spell := if heldLive s && inBand s band then some (s.seq.bandSpell.getD s.clock) else none
  { s with seq := { s.seq with bandSpell := spell } }

/-- What the current step does at an evaluation (R158, R159, R162). -/
def stepAtEvaluation (s : State) : State :=
  match currentAct s with
  | some (.closeFeeder k) => if s.feeders[k].state = .closed then s else attemptClose k s
  | some (.closeClass c) =>
    match firstToRestore s (shedOfClass s c) with
    | some k => attemptClose k s
    | none => s
  | some (.waitBand band _) => stepBand band s
  | _ => s

/-- The event at which a step of the plan is judged. -/
inductive PlanEvent where
  | evaluation | feederChange | other
  deriving DecidableEq, Repr

/-- The current step is complete at an event: a CLOSE CLASS step is judged at an evaluation and at a feeder state change, a
WAIT BAND step at an evaluation (R157 to R162; log 30). -/
def stepDone (ev : PlanEvent) (s : State) : Bool :=
  match currentAct s with
  | some (.closeFeeder k) => s.feeders[k].state = .closed
  | some (.closeClass c) => ev ≠ .other && classDone s c
  | some (.startUnit (some u)) => coordOnline s u
  | some (.releasePv _ _) => true
  | some (.waitBand _ hold) => ev = .evaluation && hasRun s.clock s.seq.bandSpell (secs hold)
  | some .endPlan => true
  | some (.startUnit none) | some (.wait _) | none => false

/-- The current step ends: its timer and band spell, the BlackStart reason of a START UNIT step, and the pointer (R157,
R160, R162). -/
def endStep (s : State) : State :=
  let s1 := match currentAct s with
    | some (.startUnit _) => withdrawReason .blackStart s
    | _ => s
  { s1 with seq := { s1.seq with stepTimer := none, bandSpell := none, pointer := s1.seq.pointer.map (· + 1) } }

/-- The plan ends (R163). -/
def planEnd (s : State) : State :=
  let s1 := withdrawReason .blackStart { s with seq := { s.seq with
    stepTimer := none, bandSpell := none, pointer := none, stepClaim := none, failure := none
    attempts := 0, collapses := 0 } }
  clearCaps (notifyPhase .blackStartComplete .complete { s1 with seq := { s1.seq with phase := .idle } })

/-- The pointer has passed the plan length, or the current step is END (R157, R163). -/
def planOver (s : State) : Bool :=
  match s.seq.pointer with
  | some p => s.cfg.planLength < p
  | none => false

/-- A step has become current at an event: it opens, acts if that is an evaluation, and steps that complete at once run on in
succession within the one event (R157). The plan has at most 32 steps, so fuel 33 is never spent. -/
def runStep : Nat → PlanEvent → State → State
  | 0, _, s => s
  | fuel + 1, ev, s =>
    let s1 := openStep s
    let s2 := if ev = .evaluation then stepAtEvaluation s1 else s1
    if stepDone ev s2 then
      if currentAct s2 = some .endPlan then planEnd s2
      else
        let s3 := endStep s2
        if planOver s3 then planEnd s3 else runStep fuel ev s3
    else s2

/-- The current step ends and the next becomes current, or the plan ends (R157). -/
def finishStep (ev : PlanEvent) (s : State) : State :=
  let s1 := endStep s
  if planOver s1 then planEnd s1 else runStep 33 ev s1

/-- The plan at an evaluation (R157 to R162). -/
def planAtEvaluation (s : State) : State :=
  let s1 := stepAtEvaluation s
  if stepDone .evaluation s1 then finishStep .evaluation s1 else s1

/-- The plan at a feeder state change: a close step may complete (R158, R159). -/
def planAtFeederChange (s : State) : State :=
  match currentAct s with
  | some (.closeFeeder _) | some (.closeClass _) => if stepDone .feederChange s then finishStep .feederChange s else s
  | _ => s

/-- A START UNIT step completes when the unit it names becomes coordinated Online for any reason (R160). -/
def planAtUnitOnline (s : State) : State :=
  match currentAct s with
  | some (.startUnit (some u)) => if coordOnline s u then finishStep .other s else s
  | _ => s

/-- The BlackStart reason was retired by unit `i` reaching Online (R55, R160). -/
def planAtRetired (i : Fin 8) (s : State) : State :=
  match currentAct s with
  | some (.startUnit none) => finishStep .other s
  | some (.startUnit (some u)) =>
    if u = i then finishStep .other s else raiseAndServe .blackStart 0 (some u) s
  | _ => s

/-- Entry to Rebuilding, at the evaluation that passed the energised test (R157). -/
def enterRebuilding (s : State) : State :=
  let s1 := withdrawReason .blackStart { s with seq := { s.seq with window := none, pointer := some 1 } }
  let s2 := enterPhase .rebuilding .energised s1
  if s2.cfg.planLength = 0 then planEnd s2 else runStep 33 .evaluation s2

/-- What follows a change of feeder states: Clearing may complete, a close step may complete (R152, R158, R159). -/
def feedersSettled (s : State) : State :=
  match s.seq.phase with
  | .clearing => judgeCleared s
  | .rebuilding => planAtFeederChange s
  | .idle | .energising | .failed => s

/-! ## The tests at an evaluation (R149, R156, R164) -/

/-- A collapse is confirmed (R164). -/
def collapse (s : State) : State :=
  let s1 := dropOnlineUnits .collapse { s with seq := { s.seq with collapses := s.seq.collapses + 1 } }
  if s1.seq.collapses ≤ Config.collapseLimit then enterClearing .collapse true s1 else enterFailed .collapse s1

/-- The dead spell runs from this evaluation on, unless it is running (R149, R164). -/
def runDeadSpell (s : State) : State :=
  { s with seq := { s.seq with deadSpell := some (s.seq.deadSpell.getD s.clock) } }

/-- The dead spell is cancelled. -/
def cancelDeadSpell (s : State) : State := { s with seq := { s.seq with deadSpell := none } }

/-- The dead-bus test in Idle, and its arming (R149). -/
def deadTestIdle (s : State) : State :=
  if heldLive s then { s with seq := { s.seq with armed := true, deadSpell := none } }
  else if !s.seq.armed then s
  else if coordIn s [.online, .synchronising] then cancelDeadSpell s
  else
    let s1 := runDeadSpell s
    if hasRun s1.clock s1.seq.deadSpell Config.deadConfirmMs then enterClearing .deadBus false s1 else s1

/-- The dead-bus test in Rebuilding (R164). -/
def deadTestRebuilding (s : State) : State :=
  if heldLive s then cancelDeadSpell s
  else
    let s1 := runDeadSpell s
    if hasRun s1.clock s1.seq.deadSpell Config.deadConfirmMs then collapse s1 else s1

/-- The energised test (R156). -/
def energisedTest (s : State) : State :=
  if heldLive s && inBand s Config.liveBand && !(coordUnits s).isEmpty then enterRebuilding s else s

/-- The sequencer at an evaluation (R149, R156, R157, R164). -/
def sequencerEvaluates (s : State) : State :=
  match s.seq.phase with
  | .idle => deadTestIdle s
  | .energising => energisedTest s
  | .rebuilding =>
    let s1 := deadTestRebuilding s
    if s1.seq.phase = .rebuilding then planAtEvaluation s1 else s1
  | .clearing | .failed => s

/-! ## ABORT (R166) -/

/-- BLACK START ABORT: in Idle the disarming alone, in any other phase the return to Idle (R166). -/
def abortBlackStart (s : State) : State :=
  let s0 := { s with seq := { s.seq with armed := false } }
  if s.seq.phase = .idle then s0
  else
    let s1 := { s0 with seq := { s0.seq with
      window := none, stepTimer := none, deadSpell := none, bandSpell := none, pointer := none, stepClaim := none
      failure := none, attempts := 0, collapses := 0 } }
    let s2 := withdrawReason .blackStart (withdrawClaims blackStartClaim .blackStartEnd s1)
    clearCaps (enterPhase .idle .abort s2)

end Sys2Proof.Machine
end

