-- ==== Sys2Proof/Machine/Units.lean ====
section
/-! DEFINITION. The genset events: reports, start failures, reaching Online, stops, trips, adoption (03, R49 to R61,
R73), and the hand-overs of the Authority Unit (04, R79, R81, R83). -/

namespace Sys2Proof.Machine

/-! ## Events of UNIT REPORT (R49, R50) -/

/-- The five events of a UNIT REPORT. -/
inductive UnitEvent where
  | running | startFailed | breakerClosed | breakerOpen | tripped
  deriving DecidableEq, Repr

/-- The cause code of a reported event (09, Cause). -/
def UnitEvent.cause : UnitEvent → Cause
  | .running => .running
  | .startFailed => .startFailed
  | .breakerClosed => .breakerClosed
  | .breakerOpen => .breakerOpen
  | .tripped => .tripped

/-- What an event is taken as (R50). -/
inductive UnitAct where
  | agrees | discrepancy | adoption | toSynchronising | startFailure | toOnline | trip | toCooldown | faultStop
  | endOfCooldown
  deriving DecidableEq, Repr

/-- The table of R50; an Unknown unit is left as it is (R49). -/
def reportAct : UnitState → UnitEvent → UnitAct
  | .unknown, _ => .agrees
  | .stopped, .breakerClosed => .adoption
  | .stopped, .breakerOpen => .agrees
  | .stopped, _ => .discrepancy
  | .starting, .running => .toSynchronising
  | .starting, .startFailed => .startFailure
  | .starting, .breakerClosed => .toOnline
  | .starting, .breakerOpen => .agrees
  | .starting, .tripped => .startFailure
  | .synchronising, .running => .discrepancy
  | .synchronising, .startFailed => .startFailure
  | .synchronising, .breakerClosed => .toOnline
  | .synchronising, .breakerOpen => .agrees
  | .synchronising, .tripped => .startFailure
  | .online, .breakerClosed => .agrees
  | .online, .breakerOpen => .trip
  | .online, .tripped => .trip
  | .online, _ => .discrepancy
  | .unloading, .breakerClosed => .agrees
  | .unloading, .breakerOpen => .toCooldown
  | .unloading, .tripped => .faultStop
  | .unloading, _ => .discrepancy
  | .cooldown, .breakerClosed => .adoption
  | .cooldown, .breakerOpen => .agrees
  | .cooldown, .tripped => .faultStop
  | .cooldown, _ => .discrepancy
  | .lockedOut, .breakerOpen => .agrees
  | .lockedOut, _ => .discrepancy

/-- The last engine and breaker states after an event (R49). -/
def lastStates (e : UnitEvent) (g : Genset) : Genset :=
  match e with
  | .running => { g with engineRunning := true }
  | .startFailed => { g with engineRunning := false }
  | .breakerClosed => { g with engineRunning := true, breakerClosed := true }
  | .breakerOpen => { g with breakerClosed := false }
  | .tripped => { g with engineRunning := false, breakerClosed := false }

/-! ## Hand-over (R79) -/

/-- The tracked state a genset takes at hand-over: Online when it was Online, Stopped otherwise (R79). -/
def trackedState (st : UnitState) : UnitState := if st = .online then .online else .stopped

/-- A genset is handed to Local control: authority, the claim that covered it, AuthorityOutcome, and the tracked state; its
timers and its pending release are cleared (R79, R14, R77). The UnitState notice carries the cause of the AuthorityOutcome (log
57). Serving is left to the caller. -/
def handOver (i : Fin 8) (why : Cause) (claimId : Nat) (s : State) : State :=
  let s1 := applyClaims (fun c => claimId ≠ 0 && c.id = claimId) s
  let s2 := modGen i (fun g => { g with
    authority := .byPlant, phaseTimer := none, minRun := .absent, pendingRelease := none }) s1
  let s3 := notifyUnitAuthority i .byPlant why claimId (freeSlot i s2)
  recompute (setUnitState i (trackedState s.gens[i].state) why s3)

/-! ## Starting (R54 to R56, R73) -/

/-- The reason a failed start served returns to pending with its need, or is retired when it is marked withdrawn (R56) or
is an Operator reason (R70; log 22). -/
def returnReason (k : ReasonKind) (s : State) : State :=
  match s.arb.get k with
  | none => s
  | some r =>
    if r.withdrawn || k = .operator then putReason k none s
    else putReason k (some { r with stage := .pending }) s

/-- The reason whose unit reached Online leaves service: with need left it returns to pending, otherwise it is retired
(R55). -/
def reasonMet (k : ReasonKind) (rating : Nat) (s : State) : State :=
  match s.arb.get k with
  | none => s
  | some r =>
    match k with
    | .shortfall | .overload | .trip =>
      if r.withdrawn || r.need ≤ rating then putReason k none s
      else putReason k (some { r with need := r.need - rating, stage := .pending }) s
    | .blackStart | .blind | .operator => putReason k none s

/-- A start failure (R56). A window expiry taken while link G is Silent leaves the fail count and the ring (R73). -/
def startFailure (i : Fin 8) (byWindow : Bool) (why : Cause) (s : State) : State :=
  let kind := servedKind s i
  let s1 := freeSlot i s
  let s2 := if byWindow && !linkActive s .G then setUnitState i (stoppedState s1 i) why s1 else failUnit i why s1
  let s3 := offer .startFailed (some (i.val + 1)) 0 s2
  match kind with
  | none => unitSettled s3
  | some k =>
    let s4 := returnReason k s3
    unitSettled (if k = .blackStart then attemptFailed s4 else s4)

/-- A unit in Starting or Synchronising reaches Online (R55); a retired BlackStart reason is told to the sequencer. -/
def reachOnline (i : Fin 8) (why : Cause) (s : State) : State :=
  let kind := servedKind s i
  let s1 := setUnitState i .online why (freeSlot i s)
  match kind with
  | none => unitSettled (planAtUnitOnline s1)
  | some k =>
    let s2 := reasonMet k s1.cfg.gensets[i].rating s1
    unitSettled (planAtUnitOnline (if k = .blackStart then planAtRetired i s2 else s2))

/-! ## Stopping, trips and adoption (R57 to R61) -/

/-- A STOP order may be issued for the unit (R57). -/
def canStop (s : State) (i : Fin 8) : Bool := coordOnline s i && linkActive s .G && s.entry.complete

/-- A STOP is issued: the order, Unloading, and the end of a pending release, whose claim is withdrawn at once (R57, R81);
when it may not be, the ask does nothing. -/
def issueStop (i : Fin 8) (s : State) : State :=
  if canStop s i then
    let s1 := setUnitState i .unloading .stop (queueUnitOrder (.stop i) i s)
    let s2 := match s.gens[i].pendingRelease with
      | none => s1
      | some id => endRelease i .refused .stopping id (dropClaims (fun c => c.id = id) s1)
    unitSettled s2
  else s

/-- A BreakerOpen in Unloading completes the stop: the ring's tail and Cooldown, or on to Stopped with a hold of 0 (R57). -/
def completeStop (i : Fin 8) (why : Cause) (s : State) : State :=
  let s1 := setUnitState i .cooldown why (moveToTail i s)
  unitSettled (if s.cfg.settings.windows.cooldown = 0 then setUnitState i (stoppedState s1 i) why s1 else s1)

/-- A unit in Cooldown becomes Stopped, or LockedOut (R58). -/
def endCooldown (i : Fin 8) (why : Cause) (s : State) : State :=
  unitSettled (setUnitState i (stoppedState s i) why s)

/-- A fault stop, of a unit in Unloading or Cooldown (R59). -/
def faultStop (i : Fin 8) (why : Cause) (s : State) : State := unitSettled (failUnit i why s)

/-- The phases in which a trip raises a Trip reason (R60). -/
def Phase.raisesTrip : Phase → Bool
  | .idle | .rebuilding | .failed => true
  | .clearing | .energising => false

/-- The need of the Trip reason after a trip that lost `kw` (R60). DESIGN CHOICE, log 62: the record's range ends at
960,000 kW, and a sum past it is kept as it is. -/
def tripNeed (s : State) (kw : Nat) : Nat :=
  match s.arb.trip with
  | some r => r.need + kw
  | none => kw

/-- A trip (R60), counted in Energising (R155); a pending release ends with the hand-over (R81), and only then does the
arbiter serve (log 25). -/
def trip (i : Fin 8) (why : Cause) (s : State) : State :=
  let kw := s.gens[i].lastOutput
  let s1 := offer .trip (some (i.val + 1)) kw (failUnit i why s)
  let s2 := if 0 < kw && s1.seq.phase.raisesTrip then raiseReason .trip (tripNeed s1 kw) none s1 else s1
  let s3 := attemptFailed s2
  unitSettled (match s3.gens[i].pendingRelease with
    | none => s3
    | some id => handOver i .trip id s3)

/-- A Stopped or Cooldown unit reported closed is adopted (R61). -/
def adopt (i : Fin 8) (why : Cause) (s : State) : State :=
  let s1 := notify [.S] .adopted (i.val + 1) .none (.code .none) 0 s
  unitSettled (planAtUnitOnline (setUnitState i .online why s1))

/-- What an event is taken as is carried out; `ev` is the reported event, `why` the cause of the UnitState notice. -/
def takeUnitAct (i : Fin 8) (a : UnitAct) (ev why : Cause) (s : State) : State :=
  match a with
  | .agrees => s
  | .discrepancy => discrepancy i s.gens[i].state ev s
  | .adoption => adopt i why s
  | .toSynchronising => unitSettled (setUnitState i .synchronising why s)
  | .startFailure => startFailure i false why s
  | .toOnline => reachOnline i why s
  | .trip => trip i why s
  | .toCooldown => completeStop i why s
  | .faultStop => faultStop i why s
  | .endOfCooldown => endCooldown i why s

/-- The tracked state of a Local unit changes, with its notice (R48, R49, R51). -/
def trackUnit (i : Fin 8) (online : Bool) (why : Cause) (s : State) : State :=
  let st : UnitState := if online then .online else .stopped
  if s.gens[i].state = st then s else unitSettled (setUnitState i st why s)

/-- A Local unit takes an event: BreakerClosed makes it Online, BreakerOpen and Tripped make it Stopped (R49). -/
def localReport (i : Fin 8) (e : UnitEvent) (s : State) : State :=
  match e with
  | .breakerClosed => trackUnit i true e.cause s
  | .breakerOpen | .tripped => trackUnit i false e.cause s
  | .running | .startFailed => s

/-- One UNIT REPORT event for a present unit (R49). -/
def takeUnitReport (i : Fin 8) (e : UnitEvent) (s : State) : State :=
  let s1 := modGen i (lastStates e) s
  if s1.gens[i].state = .unknown then s1
  else match s1.gens[i].authority with
    | .byPlant => localReport i e s1
    | .coordinated => takeUnitAct i (reportAct s1.gens[i].state e) e.cause e.cause s1

/-! ## UNIT STATUS entries (R51, R52) -/

/-- What a status entry is taken as, with the event its Discrepancy notice names; a LockedOut unit's row names no event, and
its notice carries the cause Status (R52; log 24). -/
def statusAct (st : UnitState) (running closed : Bool) : UnitAct × Cause :=
  match st, running, closed with
  | .unknown, _, _ => (.agrees, .status)
  | .stopped, _, true => (.adoption, .breakerClosed)
  | .stopped, true, false => (.discrepancy, .running)
  | .stopped, false, false => (.agrees, .status)
  | .starting, _, true => (.toOnline, .breakerClosed)
  | .starting, true, false => (.toSynchronising, .running)
  | .starting, false, false => (.agrees, .status)
  | .synchronising, _, true => (.toOnline, .breakerClosed)
  | .synchronising, false, false => (.startFailure, .startFailed)
  | .synchronising, true, false => (.agrees, .status)
  | .online, _, false => (.trip, .breakerOpen)
  | .online, false, true => (.trip, .tripped)
  | .online, true, true => (.agrees, .status)
  | .unloading, _, false => (.toCooldown, .breakerOpen)
  | .unloading, _, true => (.agrees, .status)
  | .cooldown, _, true => (.adoption, .breakerClosed)
  | .cooldown, false, false => (.endOfCooldown, .status)
  | .cooldown, true, false => (.agrees, .status)
  | .lockedOut, _, true => (.discrepancy, .status)
  | .lockedOut, true, false => (.discrepancy, .status)
  | .lockedOut, false, false => (.agrees, .status)

/-- A status entry with its codes read. -/
structure UnitStanding where
  running : Bool
  closed : Bool
  control : Authority
  deriving DecidableEq, Repr

/-- An Unknown unit is resolved: authority from the control field, state from the breaker (R51). -/
def resolveUnit (i : Fin 8) (e : UnitStanding) (s : State) : State :=
  let s1 := recompute (modGen i (fun g => { g with authority := e.control }) s)
  let st := if e.closed then .online
    else match e.control with
      | .coordinated => stoppedState s1 i
      | .byPlant => .stopped
  unitSettled (planAtUnitOnline (setUnitState i st .status s1))

/-- One entry of a UNIT STATUS list for a present unit (R51). A control field that differs from the authority gives a
Discrepancy notice, unless the entry has placed one already. -/
def takeUnitStatus (i : Fin 8) (e : UnitStanding) (s : State) : State :=
  let s1 := modGen i (fun g => { g with engineRunning := e.running, breakerClosed := e.closed }) s
  let g := s.gens[i]
  if g.state = .unknown then resolveUnit i e s1
  else
    let act := statusAct g.state e.running e.closed
    let s2 := match g.authority with
      | .byPlant => trackUnit i e.closed .status s1
      | .coordinated => takeUnitAct i act.1 act.2 .status s1
    let told := g.authority = .coordinated && act.1 = .discrepancy
    if g.authority ≠ e.control && !told then discrepancy i g.state .status s2 else s2

/-! ## Claims granted at an evaluation (R12) -/

/-- The lifetime a claim takes at its grant: its own, or the setting's as it then stands (R9, R183; log 47). -/
def lifetimeAtGrant (s : State) (c : Claim) : Nat := if c.bySetting then s.cfg.settings.book.claimLifetime else c.lifetime

/-- A claim as Granted now (R12). -/
def Claim.grantedNow (s : State) (c : Claim) : Claim :=
  { c with lifetime := lifetimeAtGrant s c, state := .granted (after s.clock (secs (lifetimeAtGrant s c))) }

/-- The claims with the id of `c` become Granted (R12). -/
def markGranted (c : Claim) (s : State) : State :=
  { s with book := { s.book with claims := s.book.claims.map fun x => if x.id = c.id then x.grantedNow s else x } }

/-- A Pending claim of the list becomes Granted, with its notice and event; a ReleaseCover claim is taken up by the
Authority Unit, which hands the unit over (R12, R81). -/
def grantPendingClaim (s : State) (c : Claim) : State :=
  let s1 := markGranted c s
  let s2 := offer .claimGranted c.index 0 (notifyClaim c .granted .none s1)
  match c.holder, c.purpose with
  | .releaseCover, .unit i => unitSettled (handOver i .grant c.id s2)
  | _, _ => s2

/-- The claim is Pending. -/
def Claim.isPending (c : Claim) : Bool :=
  match c.state with
  | .pending _ => true
  | _ => false

/-- At an evaluation in Full with M at least 0 every Pending claim becomes Granted, in list order (R12). -/
def grantPending (s : State) : State :=
  if s.lock.quality = .full && 0 ≤ s.book.terms.M then
    (s.book.claims.filter Claim.isPending).foldl grantPendingClaim s
  else s

end Sys2Proof.Machine
end

