-- ==== Sys2Proof/Machine/Curtailment.lean ====
section
/-! DEFINITION. The Curtailment Unit at an evaluation (05, R91 to R108): bases, over-frequency reduction, target, ramp
bucket, sharing, caps, issuing and the curtailed-energy event; and the confirmation of ceilings by PV REPORT (R90, R92). -/

namespace Sys2Proof.Machine

/-! ## Bases, reduction and target (R91, R94 to R96) -/

/-- The available value in use: the declared one while its age is at most 5.0 s, the clamped sample otherwise (R91). -/
def availableInUse (s : State) (g : Fin 8) : Nat :=
  match s.pvs[g].age with
  | some n => if n ≤ Config.availAgeLimit then s.pvs[g].available else pvClamped s g
  | none => pvClamped s g

/-- The base b_j of a group (R94). -/
def pvBase (s : State) (g : Fin 8) : Nat := min s.cfg.pvs[g].rating (availableInUse s g)

/-- The sum of the bases of the coordinated groups (R94). -/
def sumBases (s : State) : Nat := ((coordGroups s).map (pvBase s)).sum

/-- The over-frequency reduction Rof, rounded up and at most the sum of the bases (R95). -/
def overFrequencyCut (s : State) (sb : Nat) : Nat :=
  let c := s.cfg.settings.curtail
  let above := (heldFreq s - ((s.cfg.settings.links.nominal : Int) + c.ofOffset)).toNat
  min sb (ceilDiv (sb * above * c.gain) 100000)

/-- The target T (R96). -/
def pvTarget (sb A rof : Nat) : Nat := min sb A - rof

/-- The previous effective total E (R96). -/
def prevEffective (s : State) : Nat :=
  ((coordGroups s).map fun g => min (s.pvs[g].issued.getD 0) (pvBase s g)).sum

/-! ## The ramp bucket (R97, R98) -/

/-- The ramp bucket: level and state (open or not). -/
structure RampBucket where
  level : Nat
  isOpen : Bool
  deriving DecidableEq, Repr

/-- The leak of one evaluation, rounded down (R97). -/
def rampLeak (rate level : Nat) : Nat := level - rate / 10

/-- The allowed rise at an evaluation, after the leak and the reopening (R98, step 3). -/
def allowedRise (K T E : Nat) (b : RampBucket) (q : Quality) : Nat :=
  if !b.isOpen || q = .degraded then 0 else min (T - E) (K - b.level)

/-- The bucket after the leak and, at or below the reopen level, its reopening (R98, steps 1 and 2). -/
def reopenBucket (rate reopen : Nat) (b : RampBucket) : RampBucket :=
  let level := rampLeak rate b.level
  ⟨level, b.isOpen || level ≤ reopen⟩

/-- The bucket and the new effective total C of one computing evaluation (R97, R98). -/
def rampStep (c : CurtailSettings) (q : Quality) (T E : Nat) (b : RampBucket) : RampBucket × Nat :=
  if T ≤ E then (⟨rampLeak c.rampRate b.level, b.isOpen⟩, T)
  else
    let b1 := reopenBucket c.rampRate c.reopen b
    let rise := allowedRise c.capacity T E b1 q
    (⟨b1.level + rise, b1.isOpen && b1.level + rise ≠ c.capacity⟩, E + rise)

/-! ## Sharing (R100 to R102) -/

/-- A member of a class while its part is shared. -/
structure Member where
  group : Fin 8
  base : Nat
  weight : Nat
  share : Nat
  clamped : Bool
  deriving DecidableEq, Repr

/-- A member after its part of `amount` in one round: clamped members keep their share; a share above the base is clamped
to it (R101). -/
def Member.take (amount sumW : Nat) (m : Member) : Member :=
  if m.clamped then m
  else
    let share := m.share + amount * m.weight / sumW
    if m.base < share then { m with share := m.base, clamped := true } else { m with share := share }

/-- What a member gives back in a round: its share above its base when it is clamped in it (R101). -/
def Member.excess (amount sumW : Nat) (m : Member) : Nat :=
  if m.clamped then 0 else m.share + amount * m.weight / sumW - m.base

/-- The sum of the weights of the members not clamped. -/
def openWeight (ms : List Member) : Nat := ((ms.filter fun m => !m.clamped).map (·.weight)).sum

/-- The rounds of R101: each shares an amount among the members not clamped, until a round clamps none. A round that goes
on clamps at least one of eight members, so fuel 9 is never spent. -/
def shareRounds : Nat → Nat → List Member → List Member
  | 0, _, ms => ms
  | fuel + 1, amount, ms =>
    let sumW := openWeight ms
    let next := ms.map (Member.take amount sumW)
    if ms.any (fun m => !m.clamped && m.base < m.share + amount * m.weight / sumW) then
      shareRounds fuel ((ms.map (Member.excess amount sumW)).sum) next
    else next

/-- One pass that places the remainder 1 kW at a time on the members below their base (R102). -/
def placePass : Nat → List Member → Nat × List Member
  | left, [] => (left, [])
  | 0, ms => (0, ms)
  | left + 1, m :: ms =>
    if m.share < m.base then
      let (l, rest) := placePass left ms
      (l, { m with share := m.share + 1 } :: rest)
    else
      let (l, rest) := placePass (left + 1) ms
      (l, m :: rest)

/-- Passes until no remainder is left (R102). -/
def placeRemainder : Nat → Nat → List Member → List Member
  | 0, _, ms => ms
  | _, 0, ms => ms
  | fuel + 1, left, ms =>
    let (l, next) := placePass left ms
    placeRemainder fuel l next

/-- The shares of a class's members in its part of the reduction (R101, R102). -/
def shareClass (part : Nat) (ms : List Member) : List Member :=
  let rounds := shareRounds 9 part ms
  let left := part - (rounds.map (·.share)).sum
  placeRemainder left left rounds

/-- The coordinated members of a curtail class, in ascending index, before sharing (R100). -/
def classMembers (s : State) (cls : Nat) : List Member :=
  ((coordGroups s).filter fun g => s.cfg.pvs[g].cls = cls).map fun g =>
    ⟨g, pvBase s g, s.cfg.pvs[g].weight, 0, false⟩

/-- The shares taken class by class from class `cls` on; an untouched class gives none (R100). -/
def shareFrom (s : State) : Nat → Nat → Nat → List Member
  | 0, _, _ => []
  | n + 1, cls, left =>
    let ms := classMembers s cls
    let part := min left ((ms.map (·.base)).sum)
    (if part = 0 then [] else shareClass part ms) ++ shareFrom s n (cls + 1) (left - part)

/-- The computed ceiling of a group before the caps: base less share in a touched class, the rating otherwise (R100,
R102). -/
def sharedCeiling (s : State) (shares : List Member) (g : Fin 8) : Nat :=
  match shares.find? (fun m => m.group = g) with
  | some m => m.base - m.share
  | none => s.cfg.pvs[g].rating

/-- The black-start cap applied: rounded down, 0 where no cap is released, nothing in Idle (R102). -/
def cappedCeiling (s : State) (g : Fin 8) (c : Nat) : Nat :=
  if s.seq.phase = .idle then c
  else min c (s.cfg.pvs[g].rating * (s.pvs[g].cap.getD 0) / 100)

/-! ## Issuing (R104, R105, R108) -/

/-- The issued ceiling after issuing, from the rating, the computed and the issued ceiling (R104). -/
def issueCeiling (q : Quality) (step rating computed issued : Nat) : Nat :=
  let far := step ≤ (if computed < issued then issued - computed else computed - issued)
  let move := computed ≠ issued && (far || computed = 0 || computed = rating)
  if move && (q = .full || computed < issued) then computed else issued

/-- A group's record after the computation: base, computed and issued ceiling (R102, R104). -/
def computedGroup (s : State) (shares : List Member) (g : Fin 8) (p : PvGroup) : PvGroup :=
  let c := cappedCeiling s g (sharedCeiling s shares g)
  { p with
    base := pvBase s g
    computed := c
    issued := p.issued.map (issueCeiling s.lock.quality s.cfg.settings.curtail.changeStep s.cfg.pvs[g].rating c) }

/-- The curtailed energy of the evaluation, in kW-intervals (R108). -/
def curtailedEnergy (s : State) : Nat :=
  ((coordGroups s).map fun g => availableInUse s g - s.pvs[g].issued.getD 0).sum

/-- A CEILING order is queued when a ceiling changed or a full order is owed, and clears the flag (R105). -/
def issueOrder (changed : Bool) (s : State) : State :=
  if changed || s.cur.fullOwed then
    let s1 := queueFullCeiling s
    { s1 with cur := { s1.cur with fullOwed := false } }
  else s

/-- A computing evaluation, on the A of that evaluation (R93 to R108). -/
def computeCeilings (A : Nat) (s : State) : State :=
  let sb := sumBases s
  let rof := overFrequencyCut s sb
  let T := pvTarget sb A rof
  let E := prevEffective s
  let r := rampStep s.cfg.settings.curtail s.lock.quality T E ⟨s.cur.bucket, s.cur.bucketOpen⟩
  let red := sb - r.2
  let shares := shareFrom s 4 0 red
  let s1 := (coordGroups s).foldl (fun t g => modPv g (computedGroup s shares g) t) s
  let s2 := { s1 with cur := { s1.cur with
    bucket := r.1.level, bucketOpen := r.1.isOpen
    sumBase := sb, rof := rof, target := T, prevTotal := E, newTotal := r.2, reduction := red } }
  let changed := (coordGroups s).any fun g => s2.pvs[g].issued ≠ s.pvs[g].issued
  let s3 := issueOrder changed s2
  offer .curtailedEnergy none (curtailedEnergy s3) s3

/-- The Curtailment Unit at an evaluation: nothing on a Dead held sample (R37), the leak alone while link P is Silent
(R106), the computation otherwise (R93). -/
def curtailmentEvaluates (A : Nat) (s : State) : State :=
  if !heldLive s then s
  else if linkActive s .P then computeCeilings A s
  else { s with cur := { s.cur with bucket := rampLeak s.cfg.settings.curtail.rampRate s.cur.bucket } }

/-! ## PV REPORT entries (R90, R92) -/

/-- What an entry for a group sets: available, age and, when it shows the issued ceiling held, the confirmation (R90,
R92). -/
def reportGroup (s : State) (g : Fin 8) (e : PvEntry) (p : PvGroup) : PvGroup :=
  let confirms := p.authority = .coordinated && e.held ≠ 0xFFFF && p.issued = some e.held.toNat
  { p with
    available := min s.cfg.pvs[g].rating e.available.toNat
    age := some 0
    ageNext := some (after s.clock 100)
    awaiting := p.awaiting && !confirms }

end Sys2Proof.Machine
end

