-- ==== Sys2Proof/Machine/Shedding.lean ====
section
/-! DEFINITION. The Shed Table's acts and events (06): the under-frequency stages and their latches, shortfall and
overload shedding, source-tie opening, the reports of link F, and the relay windows (R113 to R128). -/

namespace Sys2Proof.Machine

/-! ## Selection -/

/-- The listed feeders offer one event each, with the load estimate as its amount (R121, R124). -/
def offerFeeders (k : EventKind) (fs : List (Fin 24)) (s : State) : State :=
  fs.foldl (fun s f => offer k (some (f.val + 1)) s.cfg.feeders[f].estimate s) s

/-- A feeder put into a list kept in an order, before the first feeder that does not precede it. -/
def insertBy (before : Fin 24 → Fin 24 → Bool) (k : Fin 24) : List (Fin 24) → List (Fin 24)
  | [] => [k]
  | j :: js => if before k j then k :: j :: js else j :: insertBy before k js

/-- A list of feeders in an order. -/
def sortBy (before : Fin 24 → Fin 24 → Bool) (ks : List (Fin 24)) : List (Fin 24) :=
  ks.foldr (insertBy before) []

/-- The feeders taken in order until their weights reach an amount above 0 (R124, R128). -/
def takeUntil (weight : Fin 24 → Nat) : Nat → List (Fin 24) → List (Fin 24)
  | _, [] => []
  | x, k :: ks => k :: (if x ≤ weight k then [] else takeUntil weight (x - weight k) ks)

/-- A list of feeders in ascending index, as an order lists them (R112). -/
def ascending (ks : List (Fin 24)) : List (Fin 24) := feederIds.filter (fun k => ks.contains k)

/-! ## Under-frequency stages (R119 to R123) -/

/-- The threshold of a stage (R119). -/
def stageThreshold (s : State) (n : Fin 4) : Int := belowNominal s s.cfg.settings.shed.offsets[n]

/-- The timer of a stage set or cancelled. -/
def setStageTimer (n : Fin 4) (t : Option Time) (s : State) : State :=
  { s with shed := { s.shed with timers := s.shed.timers.set n t } }

/-- The feeders a stage lists (R121). -/
def stageList (s : State) (n : Fin 4) : List (Fin 24) :=
  (feedersIn s .closed).filter fun k =>
    s.cfg.feeders[k].kind = .load && s.cfg.feeders[k].stage = n.val + 1 && s.cfg.feeders[k].cls < 7

/-- The stage latches. -/
def latchStage (n : Fin 4) (s : State) : State :=
  { s with shed := { s.shed with latches := s.shed.latches.set n true } }

/-- A stage fires: its feeders are opened and it latches; with link F Silent the timer simply ends (R121). -/
def fireStage (n : Fin 4) (s : State) : State :=
  let s1 := setStageTimer n none s
  if linkActive s1 .F then
    let fs := stageList s1 n
    latchStage n (offerFeeders .underFrequencyShed fs
      (openFeeders fs .underFrequency (n.val + 1) (sumEstimates s1 fs) s1))
  else s1

/-- One stage at an evaluation: its timer starts, goes on or is cancelled, and a delay of 0 fires at once (R119). -/
def applyStage (s : State) (n : Fin 4) : State :=
  let f := heldFreq s
  let c := s.cfg.settings.shed
  if f ≤ stageThreshold s n then
    if s.shed.latches[n] || s.shed.timers[n].isSome then s
    else if c.delays[n] = 0 then fireStage n s
    else setStageTimer n (some (after s.clock c.delays[n])) s
  else if stageThreshold s n + c.resetBand < f then setStageTimer n none s
  else s

/-- The RoCoF advance: the running timers of stages 1 and 2 expire at once (R120). -/
def advanceStages (s : State) : State :=
  if heldRocof s ≤ s.cfg.settings.shed.rocofAdvance then
    let fire := fun (s : State) (n : Fin 4) => if s.shed.timers[n].isSome then fireStage n s else s
    fire (fire s 0) 1
  else s

/-- The phases in which the stages act (R119, R123). -/
def Phase.stagesAct : Phase → Bool
  | .idle | .rebuilding | .failed => true
  | .clearing | .energising => false

/-- The release spell at a Live evaluation, while a stage was latched before it: start, cancellation, and the release of
every latch (R122; log 28). -/
def releaseSpell (s : State) : State :=
  if heldFreq s < restoreFreq s then { s with shed := { s.shed with spell := none } }
  else
    let start := s.shed.spell.getD s.clock
    if hasRun s.clock (some start) (secs s.cfg.settings.shed.latchRelease) then
      { s with shed := { s.shed with spell := none, latches := Vector.replicate 4 false } }
    else { s with shed := { s.shed with spell := some start } }

/-- Some stage is latched. -/
def anyLatched (s : State) : Bool := s.shed.latches.toList.any id

/-- The stages at an evaluation (R37, R119 to R123). -/
def stagesEvaluate (s : State) : State :=
  if !heldLive s then { s with shed := { s.shed with spell := none } }
  else if s.seq.phase.stagesAct then
    let s1 := advanceStages ((List.finRange 4).foldl applyStage s)
    if anyLatched s then releaseSpell s1 else s1
  else s

/-! ## Shortfall and overload shedding (R124 to R127) -/

/-- A feeder is eligible for shortfall and overload shedding (R124). -/
def eligibleToShed (s : State) (k : Fin 24) : Bool :=
  feederIn s .closed k && s.cfg.feeders[k].kind = .load && s.cfg.feeders[k].cls ≤ 6

/-- The order of selection: class ascending, restore rank descending, index descending (R124). -/
def shedsBefore (s : State) (j k : Fin 24) : Bool :=
  let a := s.cfg.feeders[j]
  let b := s.cfg.feeders[k]
  if a.cls ≠ b.cls then a.cls < b.cls
  else if a.rank ≠ b.rank then b.rank < a.rank
  else k.val < j.val

/-- The eligible feeders in the order of selection (R124). -/
def shedOrder (s : State) : List (Fin 24) := sortBy (shedsBefore s) (feederIds.filter (eligibleToShed s))

/-- The feeders taken for an amount (R124). -/
def shedSelection (s : State) (amount : Nat) : List (Fin 24) :=
  takeUntil (fun k => s.cfg.feeders[k].estimate) amount (shedOrder s)

/-- The two kinds of shedding for lack of generation. -/
inductive ShedKind where
  | shortfall | overload
  deriving DecidableEq, Repr

/-- The shed cause of a kind. -/
def ShedKind.cause : ShedKind → Cause
  | .shortfall => .shortfall
  | .overload => .overload

/-- The code of a kind in a ShortfallUncovered notice (09, reason kind and shed kind). -/
def ShedKind.reason : ShedKind → ReasonKind
  | .shortfall => .shortfall
  | .overload => .overload

/-- The uncovered mark of a kind. -/
def uncoveredMark (s : State) : ShedKind → Bool
  | .shortfall => s.shed.uncoveredShortfall
  | .overload => s.shed.uncoveredOverload

/-- The uncovered mark of a kind set or cleared. -/
def markUncovered (k : ShedKind) (b : Bool) (s : State) : State :=
  match k with
  | .shortfall => { s with shed := { s.shed with uncoveredShortfall := b } }
  | .overload => { s with shed := { s.shed with uncoveredOverload := b } }

/-- An act falls `short` kW short of its amount: the mark, and the notice when the mark was clear; an act that reaches its
amount clears the mark (R127). -/
def judgeCover (k : ShedKind) (short : Nat) (s : State) : State :=
  if short = 0 then markUncovered k false s
  else if uncoveredMark s k then s
  else markUncovered k true (notify [.S] .shortfallUncovered 0 (.reason k.reason) (.amount short) 0 s)

/-- An act of shortfall or overload shedding for an amount above 0 (R124, R127). DESIGN CHOICE, log 73: the ShortfallUncovered
notice stands last, behind the FeederState, ShedEvent and ClaimOutcome notices of the act. -/
def shedAct (k : ShedKind) (amount : Nat) (s : State) : State :=
  let fs := ascending (shedSelection s amount)
  let sum := sumEstimates s fs
  judgeCover k (amount - sum) (offerFeeders .shortfallShed fs (openFeeders fs k.cause 0 sum s))

/-- Shortfall shedding is held off (R125). -/
def shedHeldOff (s : State) : Bool := 0 < openingCount s || s.shed.settle.isSome

/-- Shortfall shedding asked for an amount (R125, R131). -/
def askShortfallShed (amount : Nat) (s : State) : State :=
  if !linkActive s .F || shedHeldOff s then s else shedAct .shortfall amount s

/-- The summed estimates of the feeders in Opening (R126). -/
def openingEstimates (s : State) : Nat := sumEstimates s (feedersIn s .opening)

/-- Overload shedding asked for an amount (R126, R131). -/
def askOverloadShed (amount : Nat) (s : State) : State :=
  if !linkActive s .F || amount ≤ openingEstimates s then s
  else shedAct .overload (amount - openingEstimates s) s

/-! ## Source-tie opening (R128) -/

/-- A group is uncontrollable (R128). -/
def uncontrollable (s : State) (g : Fin 8) : Bool := !linkActive s .P || !pvCoord s g

/-- A feeder is eligible for source-tie opening (R128). -/
def eligibleTie (s : State) (k : Fin 24) : Bool :=
  feederIn s .closed k && s.cfg.feeders[k].kind = .sourceTie && s.cfg.feeders[k].cls < 7
    && s.cfg.feeders[k].linked.any (uncontrollable s)

/-- The linked output of a tie (R128). -/
def tieOutput (s : State) (k : Fin 24) : Nat := (s.cfg.feeders[k].linked.map (pvClamped s)).getD 0

/-- The eligible ties, largest linked output first, then ascending index (R128). -/
def tieOrder (s : State) : List (Fin 24) :=
  sortBy (fun j k => tieOutput s k < tieOutput s j || (tieOutput s j = tieOutput s k && j.val < k.val))
    (feederIds.filter (eligibleTie s))

/-- Source-tie opening asked for an amount above 0 (R128). -/
def openTies (amount : Nat) (s : State) : State :=
  let fs := ascending (takeUntil (tieOutput s) amount (tieOrder s))
  openFeeders fs .sourceTie 0 ((fs.map (tieOutput s)).sum) s

/-! ## Reports of link F (R113 to R117) -/

/-- A claim in the list names the feeder. -/
def feederClaimed (s : State) (k : Fin 24) : Bool := s.book.claims.any (namesFeeder k)

/-- An UnclaimedClose notice (R116). -/
def notifyUnclaimed (k : Fin 24) (s : State) : State :=
  notify [.S] .unclaimedClose (k.val + 1) (.feeder .closed) (.amount s.cfg.feeders[k].estimate) 0 s

/-- A feeder becomes Closed by a report: the claim naming it becomes Applied; without one, a feeder that was Shed or
OpenHeld places UnclaimedClose (R114, R116); in Clearing it is listed at once (R129). -/
def feederCloses (k : Fin 24) (why : Cause) (s : State) : State :=
  let old := s.feeders[k].state
  let s1 := setFeederState k .closed why s
  let s2 := if feederClaimed s1 k then applyClaims (namesFeeder k) s1
    else if old = .shed || old = .openHeld then notifyUnclaimed k s1
    else s1
  feedersSettled (relistClosed k s2)

/-- A feeder moves to another state by a report, and what follows the change. -/
def feederMoves (k : Fin 24) (st : FeederState) (why : Cause) (s : State) : State :=
  feedersSettled (setFeederState k st why s)

/-- The breaker of a resolved feeder is reported open (R115). -/
def reportOpen (k : Fin 24) (why : Cause) (s : State) : State :=
  match s.feeders[k].state with
  | .closed | .faulted => feederMoves k .openHeld why s
  | .opening => feederMoves k .shed why s
  | .unknown | .shed | .closing | .openHeld => s

/-- The breaker of a resolved feeder is reported closed (R115). -/
def reportClosed (k : Fin 24) (why : Cause) (s : State) : State :=
  match s.feeders[k].state with
  | .shed | .closing | .openHeld | .faulted => feederCloses k why s
  | .unknown | .closed | .opening => s

/-- An Unknown feeder is resolved by a status entry: Closed, or OpenHeld with shed cause Manual (R117). -/
def resolveFeeder (k : Fin 24) (closed : Bool) (s : State) : State :=
  if closed then feederCloses k .status s
  else feedersSettled (modFeeder k (fun f => { f with shedCause := some .manual }) (setFeederState k .openHeld .status s))

/-- The breaker state of a FEEDER STATUS entry is taken (R117). -/
def takeFeederBreaker (k : Fin 24) (closed : Bool) (s : State) : State :=
  if s.feeders[k].state = .unknown then resolveFeeder k closed s
  else if closed then reportClosed k .status s
  else reportOpen k .status s

/-- A FEEDER STATUS entry for a present feeder: the breaker state, then the load estimate of a Closed feeder, written
through (R117). -/
def takeFeederStatus (k : Fin 24) (closed : Bool) (load : Nat) (s : State) : State :=
  let s1 := takeFeederBreaker k closed s
  if s1.feeders[k].state = .closed then modFeederCfg k (fun c => { c with estimate := min 20000 load }) s1 else s1

/-! ## Relay windows (R113, R114) -/

/-- The relay window of a feeder in Opening expires (R113). -/
def openingWindowEnds (k : Fin 24) (s : State) : State :=
  if s.feeders[k].state = .opening && due s.clock s.feeders[k].relayWindow then feederMoves k .faulted .window s else s

/-- The relay window of a feeder in Closing expires: Faulted, and the claim naming it is withdrawn (R114, R17). -/
def closingWindowEnds (k : Fin 24) (s : State) : State :=
  if s.feeders[k].state = .closing && due s.clock s.feeders[k].relayWindow then
    feedersSettled (withdrawClaims (namesFeeder k) .closeFailed (setFeederState k .faulted .window s))
  else s

/-- A stage timer reaches its expiry (R121); the plan sees the feeders that left Closed (R159; log 27). -/
def stageTimerEnds (n : Fin 4) (s : State) : State :=
  if due s.clock s.shed.timers[n] then
    let s1 := fireStage n s
    if s1.feeders = s.feeders then s1 else feedersSettled s1
  else s

end Sys2Proof.Machine
end

