-- ==== Sys2Proof/Machine/Restore.lean ====
section
/-! DEFINITION. The Restoration Unit at an evaluation (07, R133 to R138). -/

namespace Sys2Proof.Machine

/-- The leak of the restore bucket, rounded down, at every evaluation whose held sample is Live (R134). -/
def restoreLeak (s : State) : State :=
  { s with rest := { s.rest with bucket := s.rest.bucket - s.cfg.settings.restore.rate / 10 } }

/-- The hold-off restarts at a Live evaluation below the restore frequency (R133). -/
def restoreBelow (s : State) : State := if heldFreq s < restoreFreq s then restartHoldOff s else s

/-- The leak and the restart that open the unit's part of an evaluation; a Dead held sample brings neither (R37, R133,
R134). -/
def restoreOpens (s : State) : State := if heldLive s then restoreBelow (restoreLeak s) else s

/-- The gates of a restore (R135). -/
def restoreGates (s : State) : Bool :=
  s.lock.quality = .full && s.seq.phase = .idle && !s.rest.hold
    && s.shed.timers.toList.all Option.isNone && !anyLatched s
    && heldLive s && restoreFreq s ≤ heldFreq s && s.rest.holdOff.isNone
    && feederIds.all (fun k => s.feeders[k].state ≠ .closing)
    && s.book.claims.all (fun c => c.holder ≠ .restoration)
    && linkActive s .F

/-- A SourceTie feeder's linked group is Coordinated and link P is Active (R136). -/
def tieRestorable (s : State) (k : Fin 24) : Bool :=
  linkActive s .P && s.cfg.feeders[k].linked.any (pvCoord s)

/-- A feeder qualifies for restoration (R136). -/
def qualifies (s : State) (k : Fin 24) : Bool :=
  feederIn s .shed k && s.cfg.feeders[k].auto && !feederClaimed s k
    && (s.cfg.feeders[k].kind = .load || tieRestorable s k)

/-- The next feeder (R136). -/
def chooseRestore (s : State) : Option (Fin 24) := firstToRestore s (feederIds.filter (qualifies s))

/-- The next feeder item. -/
def setNext (n : Option NextFeeder) (s : State) : State := { s with rest := { s.rest with next := n } }

/-- The restore act on the chosen feeder (R138). -/
def restoreFeeder (k : Fin 24) (s : State) : State :=
  let need := pickupNeed s k
  if !bucketAdmits s need then setNext (some ⟨k, need, .bucket⟩) s
  else if s.book.terms.M - need < 0 then setNext (some ⟨k, need, .margin⟩) s
  else
    match askClaim (closeAsk s .restoration k need) none s with
    | (s1, .granted id) =>
      offer .restore (some (k.val + 1)) need (setNext none (takeClose k id (chargeBucket need s1)))
    | _ => setNext (some ⟨k, need, .busy⟩) s

/-- The Restoration Unit considers one restore; `wasIdle` says that the phase was Idle as the evaluation began (R135, R136,
R163; log 37). Where the gates hold and no feeder qualifies, the next feeder item becomes absent (log 58). -/
def restorationEvaluates (wasIdle : Bool) (s : State) : State :=
  if wasIdle && restoreGates s then
    match chooseRestore s with
    | some k => restoreFeeder k s
    | none => setNext none s
  else setNext none s

end Sys2Proof.Machine
end

