-- ==== Sys2Proof/Machine/Evaluation.lean ====
section
/-! DEFINITION. The evaluation that an accepted sample starts: the Reserve Book's decisions (01, R20 to R25, with R12 and
R63), then curtailment, the stages, the sequencer and restoration, in the order of 95_what_each_step_holds.md (log 6). -/

namespace Sys2Proof.Machine

/-! ## Start reasons of the Reserve Book (R20, R23, R63) -/

/-- The phases in which the Shortfall reason is raised, refreshed and withdrawn (R20). -/
def Phase.watchesShortfall : Phase → Bool
  | .idle | .rebuilding => true
  | .clearing | .energising | .failed => false

/-- The shortfall dwell at an evaluation with margin `M`. -/
def setShortfallDwell (t : Option Time) (s : State) : State := { s with book := { s.book with shortfallDwell := t } }

/-- The Shortfall reason is held and not marked withdrawn: what a later evaluation refreshes (R20, R62; log 55). -/
def shortfallHeld (s : State) : Bool := (s.arb.get .shortfall).any fun r => !r.withdrawn

/-- The shortfall dwell and the Shortfall reason: raised when the dwell has run, refreshed while it is held (R20). -/
def shortfallDecision (M : Int) (s : State) : State :=
  if 0 ≤ M then
    let s1 := setShortfallDwell none s
    if s.seq.phase.watchesShortfall then withdrawShortfall s1 else s1
  else if s.seq.phase.watchesShortfall then
    let s1 := setShortfallDwell (some (s.book.shortfallDwell.getD s.clock)) s
    if shortfallHeld s || hasRun s1.clock s1.book.shortfallDwell (secs s1.cfg.settings.book.startDelay) then
      raiseAndServe .shortfall (0 - M).toNat none s1
    else s1
  else s

/-- The Overload reason (R23). -/
def overloadDecision (excess : Int) (s : State) : State :=
  if 0 < excess then raiseAndServe .overload excess.toNat none s else withdrawReason .overload s

/-- The Trip reason is withdrawn once the remaining units cover the loss (R63). -/
def tripDecision (t : Terms) (s : State) : State :=
  if 0 ≤ t.M && t.excess ≤ 0 then withdrawReason .trip s else s

/-! ## The stop test (R24) -/

/-- The stop candidate: the coordinated online genset nearest the tail of the ring (R24). -/
def stopCandidate (s : State) : Option (Fin 8) := (s.cfg.ring.filter (coordOnline s)).getLast?

/-- The margin M' left without candidate `c` (R24). -/
def marginWithout (s : State) (c : Fin 8) : Int :=
  let others := (coordUnits s).filter (fun i => i ≠ c)
  let nu := if s.cfg.settings.book.n1 && 2 ≤ others.length
    then largest (others.map fun i => s.cfg.gensets[i].rating) else 0
  let rr := max s.cfg.settings.book.rfloor (max s.book.terms.Nc nu)
  (s.book.terms.H : Int) - s.cfg.gensets[c].rating - rr - s.book.terms.Cl

/-- The stop test for candidate `c` (R24). -/
def stopTest (s : State) (c : Fin 8) : Bool :=
  s.lock.quality = .full && s.seq.phase = .idle && linkActive s .G && 2 ≤ (coordUnits s).length
    && s.gens[c].minRun = .elapsed && s.arb.slot1.isNone && s.arb.slot2.isNone
    && (s.cfg.settings.book.surplusMargin : Int) ≤ marginWithout s c

/-- The surplus dwell started, running or cancelled. -/
def setSurplusDwell (t : Option Time) (s : State) : State := { s with book := { s.book with surplusDwell := t } }

/-- The surplus dwell and the STOP it leads to (R24). -/
def surplusDecision (s : State) : State :=
  match stopCandidate s with
  | none => setSurplusDwell none s
  | some c =>
    if stopTest s c then
      let start := s.book.surplusDwell.getD s.clock
      if hasRun s.clock (some start) (secs s.cfg.settings.book.surplusDwell) then
        issueStop c (setSurplusDwell none s)
      else setSurplusDwell (some start) s
    else setSurplusDwell none s

/-! ## Shedding for lack of generation (R21, R23, R126, R127) -/

/-- Shortfall shedding is asked at this evaluation (R21). -/
def asksShortfall (M : Int) (s : State) : Bool :=
  let b := s.cfg.settings.book
  let ran := fun n => hasRun s.clock s.book.shortfallDwell (secs n)
  M < 0 && s.seq.phase = .idle && (ran b.shedDelay || (ran b.startDelay && (s.book.noCandidate || !linkActive s .G)))

/-- The shortfall request of an evaluation, or the clearing of its mark (R21, R127). -/
def shortfallShedding (asked : Bool) (M : Int) (s : State) : State :=
  if asked then askShortfallShed (0 - M).toNat s else markUncovered .shortfall false s

/-- The overload request of an evaluation, or the clearing of its mark (R23, R127). -/
def overloadShedding (excess : Int) (s : State) : State :=
  if 0 < excess then askOverloadShed excess.toNat s else markUncovered .overload false s

/-- Both requests of an evaluation; when both are made, which is taken first is a free choice (R126; log 5). -/
def sheddingDecision (t : Terms) (s : State) : State :=
  let asked := asksShortfall t.M s
  if asked && 0 < t.excess then
    let s1 := spendFree s
    if Config.overloadFirst s.free then shortfallShedding true t.M (overloadShedding t.excess s1)
    else overloadShedding t.excess (shortfallShedding true t.M s1)
  else overloadShedding t.excess (shortfallShedding asked t.M s)

/-! ## The minimum-load guard (R25) -/

/-- The guard condition (R25). -/
def guardHolds (D : Int) (s : State) : Bool :=
  0 < D && s.seq.phase = .idle
    && (!linkActive s .P || (coordGroups s).all (fun g => s.pvs[g].issued = some 0))

/-- Source ties are what the guard can still open (R25). -/
def guardOpensTies (s : State) : Bool :=
  !linkActive s .P || units.any (fun g => (linkedTie s.cfg g).isSome && !pvCoord s g)

/-- The guard started, running or cancelled. -/
def setGuard (t : Option Time) (s : State) : State := { s with book := { s.book with guard := t } }

/-- The act of the guard (R25). DESIGN CHOICE, log 72: the index of the MinLoadGap notice is 0. -/
def guardAct (D : Int) (s : State) : State :=
  if guardOpensTies s then openTies D.toNat s else notify [.S] .minLoadGap 0 .none (.amount D) 0 s

/-- The minimum-load guard (R25). -/
def guardDecision (D : Int) (s : State) : State :=
  if guardHolds D s then
    let start := s.book.guard.getD s.clock
    if hasRun s.clock (some start) (secs s.cfg.settings.book.guardTime) then guardAct D (setGuard (some s.clock) s)
    else setGuard (some start) s
  else setGuard none s

/-! ## The evaluation -/

/-- The Reserve Book's decisions on the terms computed at this evaluation (R1, R20 to R25). -/
def bookDecides (t : Terms) (s : State) : State :=
  guardDecision t.D (sheddingDecision t (surplusDecision (grantPending
    (tripDecision t (overloadDecision t.excess (shortfallDecision t.M s))))))

/-- An evaluation on the held sample (R1, R36). -/
def evaluate (s : State) : State :=
  let wasIdle := s.seq.phase = .idle
  let s1 := recompute s
  let t := s1.book.terms
  let s2 := stagesEvaluate (curtailmentEvaluates t.A (bookDecides t s1))
  restorationEvaluates wasIdle (sequencerEvaluates (restoreOpens s2))

end Sys2Proof.Machine
end

