-- ==== Sys2Proof/Machine/SampleLock.lean ====
section
/-! DEFINITION. The Sample Lock (02, R28 to R45): the sample record, the judgements, the lock states, acceptance and the
quality level, with the completion of entry that a lock may bring (12, R189). -/

namespace Sys2Proof.Machine

/-! ## Little-endian fields and the sample record -/

/-- Byte `i` of a payload; every use stands behind a length check. -/
def byteAt (p : List Byte) (i : Nat) : Byte := p.getD i 0

/-- The two-byte field at offset `i`, low byte first (09, envelope). -/
def le16 (p : List Byte) (i : Nat) : BitVec 16 := byteAt p (i + 1) ++ byteAt p i

/-- The four-byte field at offset `i`, low byte first (09, envelope). -/
def le32 (p : List Byte) (i : Nat) : BitVec 32 := le16 p (i + 2) ++ le16 p i

/-- The sample record of a payload (09, SAMPLE). -/
def SampleRec.parse (p : List Byte) : SampleRec where
  seq := byteAt p 0
  bus := byteAt p 1
  freq := le32 p 2
  rocof := le16 p 6
  gens := Vector.ofFn fun i : Fin 8 => le16 p (8 + 2 * i.val)
  pvs := Vector.ofFn fun i : Fin 8 => le16 p (24 + 2 * i.val)

/-- A received sample whose frame check is right is well-formed: its kind is SAMPLE and its length that of the record
(R28). -/
def sampleWellFormed (kind : Byte) (p : List Byte) : Bool := kind = 0x60 && p.length = 40

/-- A record is judged good on its bus state and frequency (R29). -/
def SampleRec.good (r : SampleRec) : Bool := !r.live || (40000 ≤ r.freq.toNat && r.freq.toNat ≤ 70000)

/-! ## Judgements (R32 to R34, R44) -/

/-- The judgement window after one more entry, the oldest leaving when it holds 64 (R34). -/
def pushJudgement (good : Bool) (w : List Bool) : List Bool :=
  if w.length < Config.windowCapacity then w ++ [good] else w.tail ++ [good]

/-- The lock returns to Hunt; the verify count becomes 0 only where the rule says so (R33, R34; log 21). -/
def lockToHunt (count : Nat) (s : State) : State :=
  { s with lock := { s.lock with mode := .hunt, expected := none, verifyCount := count, window := [] } }

/-- The effect of a bad judgement on the lock (R32, R33, R34). -/
def badEffect (s : State) : State :=
  match s.lock.mode with
  | .hunt => s
  | .verify => lockToHunt 0 s
  | .locked =>
    let w := pushJudgement false s.lock.window
    if Config.badLimit ≤ badCount w then offer .lockLost none 0 (lockToHunt s.lock.verifyCount s)
    else { s with lock := { s.lock with window := w } }

/-- One bad judgement is recorded and offered (R44). -/
def recordBad (s : State) : State := badEffect (offer .sampleBad none 0 s)

/-- Several bad judgements are recorded, one at a time (R30). -/
def recordBads : Nat → State → State
  | 0, s => s
  | n + 1, s => recordBads n (recordBad s)

/-- The expected sequence number, where present, advances by one (R29, R31). -/
def advanceExpected (s : State) : State :=
  { s with lock := { s.lock with expected := s.lock.expected.map (· + 1) } }

/-! ## Quality (R38, R41, R42) -/

/-- The quality level that the lock's state gives (02, "Quality levels"). -/
def qualityOf (l : Lock) : Quality :=
  match l.mode with
  | .locked => .full
  | .verify => .degraded
  | .hunt =>
    match l.age with
    | some n => if n ≤ Config.sampleAgeLimit then .degraded else .stale
    | none => .stale

/-- The Blind reason at the change to Stale; one already held is not raised again, and one In service that is marked withdrawn
keeps its mark (R41; log 49). -/
def raiseBlind (s : State) : State :=
  if s.entry.complete && s.seq.phase.watchesShortfall && units.any (candidate s) && (s.arb.get .blind).isNone then
    raiseAndServe .blind 0 none s
  else s

/-- What the change to Stale does in the other blocks (R41, R26, R122, R149, R162, R164). -/
def staleEffects (s : State) : State :=
  let s1 := cancelStages s
  let s2 := { s1 with
    book := { s1.book with shortfallDwell := none, surplusDwell := none, guard := none }
    seq := { s1.seq with deadSpell := none, bandSpell := none } }
  raiseBlind s2

/-- The quality level is settled, with its notice and the effects of a change (R38, R41, R42). -/
def settleQuality (s : State) : State :=
  let q := qualityOf s.lock
  if q = s.lock.quality then s
  else
    let s1 := notify allLinks .qualityChange 0 (.quality q) (.quality s.lock.quality) 0
      { s with lock := { s.lock with quality := q } }
    match q with
    | .stale => staleEffects s1
    | .full => withdrawReason .blind s1
    | .degraded => s1

/-! ## Completion of entry (R189) -/

/-- Entry completes: the dead-bus test is armed and the Start Arbiter serves (R189, R149). -/
def completeEntry (s : State) : State :=
  serve { s with entry := { s.entry with complete := true, window := none }, seq := { s.seq with armed := true } }

/-- Completion is judged when resolution closes and when the lock enters Locked (R189). -/
def judgeEntry (s : State) : State :=
  if !s.entry.complete && s.entry.resolved && s.lock.mode = .locked then completeEntry s else s

/-! ## A received sample (R28 to R36) -/

/-- Last output of genset `i` after acceptance of a record, for a present unit (R46). -/
def lastOutputOf (s : State) (r : SampleRec) (i : Fin 8) (g : Genset) : Genset :=
  if s.cfg.gensets[i].present then { g with lastOutput := clampTo s.cfg.gensets[i].rating r.gens[i].toInt } else g

/-- A record is accepted: it becomes the held sample, of age 0 (R36, R46). -/
def accept (r : SampleRec) (s : State) : State :=
  { s with
    lock := { s.lock with held := some ⟨r, s.clock⟩, age := some 0, ageNext := some (after s.clock 100) }
    gens := Vector.ofFn fun i : Fin 8 => lastOutputOf s r i s.gens[i] }

/-- The effect of a good judgement of an in-sequence record on the lock: Verify counts it and the eighth leads to Locked;
Locked enters it in the window, which the eighth also does (R33, R34; log 20). -/
def goodEffect (s : State) : State :=
  match s.lock.mode with
  | .hunt => s
  | .verify =>
    if s.lock.verifyCount + 1 < Config.verifyTarget then
      { s with lock := { s.lock with verifyCount := s.lock.verifyCount + 1 } }
    else
      judgeEntry (withdrawReason .blind { s with lock := { s.lock with
        mode := .locked, verifyCount := Config.verifyTarget, window := [true] } })
  | .locked => { s with lock := { s.lock with window := pushJudgement true s.lock.window } }

/-- A record that carries the expected number is judged on its bus state: the state, and whether it was accepted (R29,
R36). -/
def judgeRecord (r : SampleRec) (s : State) : State × Bool :=
  if r.good then
    let s1 := offer .sampleGood none 0 s
    let s2 := { s1 with lock := { s1.lock with expected := some (r.seq + 1) } }
    (accept r (goodEffect s2), true)
  else (advanceExpected (recordBad s), false)

/-- A well-formed record in Hunt becomes the reference (R32). -/
def takeReference (r : SampleRec) (s : State) : State :=
  offer (if r.good then .sampleGood else .sampleBad) none 0
    { s with lock := { s.lock with mode := .verify, expected := some (r.seq + 1), verifyCount := 0 } }

/-- A well-formed record against the expected number (R29, R30). -/
def sequenceRecord (r : SampleRec) (e : Byte) (s : State) : State × Bool :=
  let k := (r.seq - e).toNat
  if k = 0 then judgeRecord r s
  else if k = 255 then (recordBad s, false)
  else
    let s1 := recordBads (min k 64) s
    if s1.lock.mode = .hunt then (takeReference r s1, false)
    else judgeRecord r { s1 with lock := { s1.lock with expected := some r.seq } }

/-- A well-formed record, by the state of the lock (R29, R30, R32). -/
def takeRecord (r : SampleRec) (s : State) : State × Bool :=
  match s.lock.mode, s.lock.expected with
  | .hunt, _ => (takeReference r s, false)
  | _, some e => sequenceRecord r e s
  | _, none => (takeReference r s, false)

/-- The end of the handling of a received sample: the quality, and the evaluation of an accepted one (R35, R36). -/
def sampleSettled (accepted : Bool) (s : State) : State :=
  let s1 := settleQuality s
  if accepted && s1.entry.complete then evaluate s1 else s1

/-- A received sample is handled whole; the gap timer runs from it (R28, R31, R35). -/
def receiveSample (kind : Byte) (p : List Byte) (checkOk : Bool) (s : State) : State :=
  let s1 := { s with lock := { s.lock with gapNext := some (after s.clock 250) } }
  let s2 := if checkOk then s1 else offer .frameError (some 5) 0 s1
  if checkOk && sampleWellFormed kind p then
    let r := takeRecord (SampleRec.parse p) s2
    sampleSettled r.2 r.1
  else sampleSettled false (advanceExpected (recordBad s2))

/-! ## Timers and RESYNC -/

/-- The sample gap timer reaches its time: a bad judgement, and the next one 100 ms on (R31). -/
def gapTimerEnds (s : State) : State :=
  match s.lock.gapNext with
  | some t =>
    if reached s.clock t then
      settleQuality (advanceExpected (recordBad { s with lock := { s.lock with gapNext := some (after t 100) } }))
    else s
  | none => s

/-- A step of the held-sample age (R38). -/
def ageStep (s : State) : State :=
  match s.lock.ageNext with
  | some t =>
    if reached s.clock t then
      settleQuality { s with lock := { s.lock with age := s.lock.age.map (· + 1), ageNext := some (after t 100) } }
    else s
  | none => s

/-- RESYNC SAMPLES: the lock goes to Hunt from any state (R43). -/
def resync (s : State) : State :=
  let s1 := if s.lock.mode = .locked then offer .lockLost none 0 s else s
  settleQuality (lockToHunt 0 s1)

end Sys2Proof.Machine
end

