-- ==== Sys2Proof/Machine/EntryOps.lean ====
section
/-! DEFINITION. Coordinator Entry (12): resolution, the fallbacks of the entry window, and the start of an entry at
power-on, at the reset input and at RESTART (R188, R189, R191, with the reset rules of the other chapters). -/

namespace Sys2Proof.Machine

/-! ## Resolution (R189) -/

/-- No present genset and no present feeder is Unknown (R189). -/
def allResolved (s : State) : Bool :=
  units.all (fun i => !(s.cfg.gensets[i].present && s.gens[i].state = .unknown))
    && (feedersIn s .unknown).isEmpty

/-- Resolution is judged where a subject is resolved or leaves, and entry then completes when the lock is Locked (R189;
log 29). -/
def judgeResolution (s : State) : State :=
  if !s.entry.resolved && allResolved s then judgeEntry { s with entry := { s.entry with resolved := true } } else s

/-- The state of a genset still Unknown at the window's end: Stopped, or LockedOut for a Coordinated one whose lockout flag
is set (R74, R47). -/
def fallbackState (s : State) (i : Fin 8) : UnitState :=
  match s.gens[i].authority with
  | .coordinated => stoppedState s i
  | .byPlant => .stopped

/-- A present genset still Unknown at the window's end becomes Stopped, or LockedOut, and Unavailable (R74, R189); its
UnitState notice carries the cause Entry, as a feeder's does (log 61). -/
def fallbackUnit (s : State) (i : Fin 8) : State :=
  if s.cfg.gensets[i].present && s.gens[i].state = .unknown then
    setUnitState i (fallbackState s i) .entry (modGen i (fun g => { g with available := false }) s)
  else s

/-- A present feeder still Unknown at the window's end: Faulted (R132, R189). -/
def fallbackFeeder (s : State) (k : Fin 24) : State :=
  if feederIn s .unknown k then setFeederState k .faulted .entry s else s

/-- The entry window expires: while resolution is Open the fallbacks are applied and resolution closes (R189). The gensets
are taken first, each kind in ascending index (log 54). -/
def entryWindowEnds (s : State) : State :=
  if due s.clock s.entry.window then
    let s1 := { s with entry := { s.entry with window := none } }
    if s1.entry.resolved then s1
    else
      let s2 := feederIds.foldl fallbackFeeder (units.foldl fallbackUnit s1)
      judgeEntry { s2 with entry := { s2.entry with resolved := true } }
  else s

/-! ## The start of an entry (R188, R191) -/

/-- A Link Controller as an entry leaves it: its silence timer starts at `now` under the stored silence time (R178). -/
def freshLink (t : Tables) (now : Time) : LinkCtl := State.resetLink now (after now (t.settings.links.silence * 100))

/-- The four Link Controllers as an entry leaves them (R178). -/
def freshLinks (t : Tables) (now : Time) : Links :=
  ⟨freshLink t now, freshLink t now, freshLink t now, freshLink t now⟩

/-- Entry starts at clock time `now`: the store is loaded whole, and every dynamic record takes its reset value (R188 with
R27, R45, R74, R87, R109, R132, R147, R167, R178); the margin terms are recomputed at once (R27). Resolution is Open
even where no subject is present (log 53). -/
def startEntry (now : Time) (s : State) : State :=
  recompute { s with
    clock := now
    lock := State.resetLock
    book := State.resetBook s.book.terms
    gens := Vector.replicate 8 State.resetGenset
    arb := State.resetArbiter
    pvs := Vector.ofFn fun g : Fin 8 => State.resetPvGroup s.store.pvs[g].rating
    cur := State.resetCurtail
    feeders := Vector.replicate 24 State.resetFeeder
    shed := State.resetShed
    rest := State.resetRestoration
    seq := State.resetSequencer
    links := freshLinks s.store now
    sampleFramer := .hunting
    entry := ⟨false, some (after now Config.entryWindowMs), false⟩
    cfg := s.store }

/-- Power-on and the reset input: the straps are read, the clock is set to 0, and the tallies are cleared besides (R187,
R188). -/
def powerUp (s : State) : State :=
  { startEntry 0 s with
    tally := State.resetTally
    pins := { s.pins with linkRate := s.pins.linkStrap, sampleRate := s.pins.sampleStrap } }

/-- RESTART: entry starts afresh from the running clock; the RESTART reply alone stays in a queue, and each link takes a
Restarted notice (R178, R191). -/
def restartPart (reply : Reply) (s : State) : State :=
  notify allLinks .restarted 0 .none (.code .none) 0 (placeReply .S reply (startEntry s.clock s))

end Sys2Proof.Machine
end

