-- ==== Sys2Proof/Machine/Operands.lean ====
section
/-! DEFINITION. The forms of operands and fields on the wire (09): indices, codes of the vocabularies, the sizes and
codes of reply fields (R176), and the fields of the records READ returns and SET writes. -/

namespace Sys2Proof.Machine

/-! ## Indices and codes read from a request -/

/-- A genset or PV group index 1..8. -/
def unitIndex (b : Byte) : Option (Fin 8) :=
  if h : 1 ≤ b.toNat ∧ b.toNat ≤ 8 then some ⟨b.toNat - 1, by omega⟩ else none

/-- A feeder index 1..24. -/
def feederIndex (b : Byte) : Option (Fin 24) :=
  if h : 1 ≤ b.toNat ∧ b.toNat ≤ 24 then some ⟨b.toNat - 1, by omega⟩ else none

/-- A unit event code (09, unit event). -/
def unitEvent (b : Byte) : Option UnitEvent :=
  match b.toNat with
  | 0 => some .running
  | 1 => some .startFailed
  | 2 => some .breakerClosed
  | 3 => some .breakerOpen
  | 4 => some .tripped
  | _ => none

/-- A breaker event code of BREAKER REPORT, true for Closed (09, breaker event). -/
def breakerEvent (b : Byte) : Option Bool := if b = 0 then some false else if b = 1 then some true else none

/-- The codes of a UNIT STATUS entry; a code outside its vocabulary is a free value (log 10). -/
def unitStanding (e : UnitEntry) : UnitStanding where
  running := if e.engine = 1 then true else if e.engine = 0 then false else Config.engineCodeIsRunning e.engine
  closed := if e.breaker = 1 then true else if e.breaker = 0 then false else Config.breakerCodeIsClosed e.breaker
  control :=
    if e.control = 1 then .byPlant else if e.control = 0 then .coordinated
    else if Config.controlCodeIsLocal e.control then .byPlant else .coordinated

/-- The breaker state of a FEEDER STATUS entry; a code outside its vocabulary is a free value (log 10). -/
def entryClosed (e : FeederEntry) : Bool :=
  if e.breaker = 1 then true else if e.breaker = 0 then false else Config.breakerCodeIsClosed e.breaker

/-! ## Codes written (09, vocabularies; log 17) -/

/-- Genset state codes. -/
def UnitState.wire : UnitState → Nat
  | .unknown => 0
  | .stopped => 1
  | .starting => 2
  | .synchronising => 3
  | .online => 4
  | .unloading => 5
  | .cooldown => 6
  | .lockedOut => 7

/-- Feeder state codes. -/
def FeederState.wire : FeederState → Nat
  | .unknown => 0
  | .closed => 1
  | .opening => 2
  | .shed => 3
  | .closing => 4
  | .openHeld => 5
  | .faulted => 6

/-- Quality codes. -/
def Quality.wire : Quality → Nat
  | .full => 0
  | .degraded => 1
  | .stale => 2

/-- Phase codes. -/
def Phase.wire : Phase → Nat
  | .idle => 0
  | .clearing => 1
  | .energising => 2
  | .rebuilding => 3
  | .failed => 4

/-- Lock state: its place in its table. -/
def LockMode.wire : LockMode → Nat
  | .hunt => 0
  | .verify => 1
  | .locked => 2

/-- Authority: the control codes, Coordinated 0 and Local 1. -/
def Authority.wire : Authority → Nat
  | .coordinated => 0
  | .byPlant => 1

/-- Outcome codes. -/
def OutcomeWord.wire : OutcomeWord → Nat
  | .granted => 0
  | .refused => 1
  | .expired => 2
  | .withdrawn => 3
  | .byPlant => 4
  | .coordinated => 5

/-- Reason kind and shed kind codes. -/
def ReasonKind.wire : ReasonKind → Nat
  | .overload => 0
  | .trip => 1
  | .blackStart => 2
  | .shortfall => 3
  | .blind => 4
  | .operator => 5

/-- Cause codes. -/
def Cause.wire : Cause → Nat
  | .none => 0
  | .start => 1
  | .stop => 2
  | .running => 3
  | .startFailed => 4
  | .breakerClosed => 5
  | .breakerOpen => 6
  | .tripped => 7
  | .window => 8
  | .status => 9
  | .report => 10
  | .close => 11
  | .adopt => 12
  | .entry => 13
  | .clearLockout => 14
  | .release => 15
  | .grant => 16
  | .trip => 17
  | .wait => 18
  | .lifetime => 19
  | .stopping => 20
  | .clearing => 21
  | .return => 22
  | .shedEvent => 23
  | .closeFailed => 24
  | .blackStartEnd => 25
  | .deadBus => 26
  | .begin => 27
  | .cleared => 28
  | .energised => 29
  | .attempts => 30
  | .noCandidate => 31
  | .stepFail => 32
  | .collapse => 33
  | .complete => 34
  | .retry => 35
  | .abort => 36
  | .underFrequency => 37
  | .shortfall => 38
  | .overload => 39
  | .sourceTie => 40
  | .blackStart => 41
  | .manual => 42
  | .set => 43

/-- Status codes. -/
def Status.wire : Status → Nat
  | .done => 0
  | .clamped => 1
  | .pending => 2
  | .refusedBusy => 3
  | .refusedRange => 4
  | .refusedState => 5
  | .refusedReserve => 6
  | .refusedQuality => 7
  | .refusedRights => 8
  | .refusedKind => 9
  | .refusedLength => 10

/-- Notice kind codes. -/
def NoticeKind.wire : NoticeKind → Nat
  | .unitState => 1
  | .unitLockout => 2
  | .startNoCandidate => 3
  | .feederState => 4
  | .shedEvent => 5
  | .claimOutcome => 6
  | .authorityOutcome => 7
  | .qualityChange => 8
  | .blackStartPhase => 9
  | .blackStartComplete => 10
  | .restarted => 11
  | .linkSilent => 12
  | .linkReturned => 13
  | .minLoadGap => 14
  | .shortfallUncovered => 15
  | .discrepancy => 16
  | .adopted => 17
  | .unclaimedClose => 18
  | .recallExpired => 19
  | .stopFailed => 20

/-- Subject state codes, 0 where a notice carries none. -/
def Subject.wire : Subject → Nat
  | .none => 0
  | .unit x => x.wire
  | .feeder x => x.wire
  | .quality x => x.wire
  | .phase x => x.wire
  | .outcome x => x.wire
  | .reason x => x.wire
  | .shedCause x => x.wire

/-- The cause field of a notice. -/
def NoticeCause.wire : NoticeCause → Int
  | .code c => c.wire
  | .amount kw => kw
  | .quality q => q.wire

/-- A link's index (R168). -/
def linkIndex : Link → Nat
  | .S => 1
  | .G => 2
  | .P => 3
  | .F => 4

/-- A line's index as FrameError carries it (R168). -/
def lineIndex : Line → Nat
  | .station l => linkIndex l
  | .sample => 5

/-- Holder: its place in the claim record's table (log 17). -/
def Holder.wire : Holder → Nat
  | .linkS => 0
  | .linkF => 1
  | .restoration => 2
  | .blackStart => 3
  | .releaseCover => 4

/-! ## Fields (R176) -/

/-- A field of one byte. -/
def u1 (n : Nat) : WireField := ⟨1, n⟩
/-- A field of two bytes. -/
def u2 (n : Nat) : WireField := ⟨2, n⟩
/-- A field of four bytes. -/
def u4 (n : Nat) : WireField := ⟨4, n⟩
/-- A signed field of two bytes. -/
def i2 (n : Int) : WireField := ⟨2, n⟩
/-- A signed field of four bytes. -/
def i4 (n : Int) : WireField := ⟨4, n⟩
/-- A yes-or-no item: 1 for yes. -/
def flag (b : Bool) : WireField := ⟨1, if b then 1 else 0⟩
/-- An absent field of a size: its all-ones value. -/
def absentField (size : Nat) : WireField := ⟨size, -1⟩

/-- A field that may be absent. -/
def optField (size : Nat) : Option Nat → WireField
  | some n => ⟨size, n⟩
  | none => absentField size

/-- A clock time that may be absent. -/
def optTime (t : Option Time) : WireField := optField 4 (t.map (·.toNat))

/-- The time remaining to an expiry, where present. -/
def optRemaining (size : Nat) (now : Time) (t : Option Time) : WireField := optField size (t.map (remaining now))

/-- The time elapsed from a start, where present. DESIGN CHOICE, log 63: the manual gives an elapsed time no range, and each
is sent in four bytes. -/
def optElapsed (now : Time) (t : Option Time) : WireField := optField 4 (t.map (elapsed now))

/-- The low `size` bytes of a value, low byte first; an all-ones field is the value -1 (R176). -/
def littleEndian : Nat → Int → List Byte
  | 0, _ => []
  | n + 1, v => BitVec.ofInt 8 v :: littleEndian n (v / 256)

/-- The bytes of a field. -/
def WireField.bytes (f : WireField) : List Byte := littleEndian f.size f.val

/-! ## Records that SET writes and READ returns (10, R179) -/

/-- Group 1. -/
def BookSettings.fields (b : BookSettings) : List WireField :=
  [u1 b.cf, u2 b.rfloor, flag b.n1, u1 b.startDelay, u2 b.shedDelay, u2 b.surplusMargin, u2 b.surplusDwell,
    u2 b.guardTime, u2 b.claimLifetime, u1 b.claimSettle, u1 b.releaseWait]

/-- Group 2. -/
def WindowSettings.fields (w : WindowSettings) : List WireField :=
  [u1 w.crank, u2 w.sync, u2 w.unload, u2 w.cooldown, u2 w.minRun]

/-- Group 3. -/
def CurtailSettings.fields (c : CurtailSettings) : List WireField :=
  [u2 c.ofOffset, u1 c.gain, u2 c.rampRate, u2 c.capacity, u2 c.reopen, u1 c.changeStep]

/-- Group 4; relay window and settle time in milliseconds (R181; log 16). -/
def ShedSettings.fields (c : ShedSettings) : List WireField :=
  [u2 (c.relayWindow * 100), u2 (c.settleTime * 100)] ++ c.offsets.toList.map u2 ++ c.delays.toList.map u2
    ++ [u2 c.resetBand, i2 c.rocofAdvance, u2 c.latchRelease]

/-- Group 5. -/
def RestoreSettings.fields (r : RestoreSettings) : List WireField :=
  [u2 r.freqOffset, u2 r.holdOffTime, u2 r.rate, u2 r.capacity]

/-- Group 6; silence time in milliseconds (R181; log 16). -/
def LinkSettings.fields (l : LinkSettings) : List WireField := [u2 (l.silence * 100), u2 l.nominal]

/-- Plan step kind codes: the place in the step table. -/
def StepAct.kind : StepAct → Nat
  | .closeFeeder _ => 0
  | .closeClass _ => 1
  | .startUnit _ => 2
  | .releasePv _ _ => 3
  | .wait _ => 4
  | .waitBand _ _ => 5
  | .endPlan => 6

/-- Operand 1 of a step, 0 where its kind uses none. -/
def StepAct.operand1 : StepAct → Nat
  | .closeFeeder f => f.val + 1
  | .closeClass c => c.val
  | .startUnit u => (u.map (·.val + 1)).getD 0
  | .releasePv g _ => g.val + 1
  | .wait n => n
  | .waitBand b _ => b
  | .endPlan => 0

/-- Operand 2 of a step, 0 where its kind uses none. -/
def StepAct.operand2 : StepAct → Nat
  | .releasePv _ cap => cap
  | .waitBand _ hold => hold
  | .closeFeeder _ | .closeClass _ | .startUnit _ | .wait _ | .endPlan => 0

/-- A plan step record. -/
def PlanStep.fields (p : PlanStep) : List WireField :=
  [u1 p.act.kind, u2 p.act.operand1, u2 p.act.operand2, u2 p.timeout, flag p.failOnTimeout]

/-- The fields of no plan step. -/
def noStepFields : List WireField := [absentField 1, absentField 2, absentField 2, absentField 2, absentField 1]

/-- A tally configuration record. -/
def TallyCfg.fields (t : TallyCfg) : List WireField :=
  [u2 t.events.toNat, u1 t.filter, u1 (match t.mode with | .count => 0 | .accumulate => 1),
    u1 (match t.qualifier with | .any => 0 | .fullOnly => 1 | .notFullOnly => 2)]

/-- The settable fields of a genset record. -/
def GensetCfg.fields (g : GensetCfg) : List WireField :=
  [flag g.present, u2 g.rating, u1 g.minLoad, flag g.capable, u1 g.failLimit]

/-- The settable fields of a PV group record. -/
def PvCfg.fields (p : PvCfg) : List WireField := [u2 p.rating, u1 p.weight, u1 p.cls]

/-- The settable fields of a feeder record. -/
def FeederCfg.fields (f : FeederCfg) : List WireField :=
  [flag f.present, u1 (match f.kind with | .load => 0 | .sourceTie => 1), u1 ((f.linked.map (·.val + 1)).getD 0),
    u1 f.cls, u1 f.stage, u2 f.estimate, u2 f.coldLoad, u1 f.rank, flag f.auto]

/-! ## Records that READ returns (R176) -/

/-- The min-run timer: a clock time, or elapsed, which has no code in the vocabularies and carries its place, 1, among the
values of the genset record (R176). -/
def MinRun.field : MinRun → WireField
  | .absent => absentField 4
  | .running t => u4 t.toNat
  | .elapsed => u4 1

/-- The time remaining on the min-run timer, 0 when elapsed (DEDUCED, log 18). -/
def MinRun.left (now : Time) : MinRun → WireField
  | .absent => absentField 4
  | .running t => u4 (remaining now t)
  | .elapsed => u4 0

/-- The wait expiry of a claim, where Pending. -/
def Claim.waitExpiry (c : Claim) : Option Time :=
  match c.state with
  | .pending t => some t
  | .granted _ | .applied _ => none

/-- The lifetime expiry of a claim, where Granted. -/
def Claim.lifetimeExpiry (c : Claim) : Option Time :=
  match c.state with
  | .granted t => some t
  | .pending _ | .applied _ => none

/-- The settle expiry of a claim, where Applied. -/
def Claim.settleExpiry (c : Claim) : Option Time :=
  match c.state with
  | .applied t => some t
  | .pending _ | .granted _ => none

/-- READ 1: a genset record, with the slot's reason kind, the times remaining, the pending release and the recall window
(R46, R75). -/
def readGenset (s : State) (i : Fin 8) : List WireField :=
  let c := s.cfg.gensets[i]
  let g := s.gens[i]
  c.fields ++ [u1 c.failCount, flag c.lockout, flag g.available, u1 g.authority.wire, u1 g.state.wire,
    optTime g.phaseTimer, g.minRun.field, u2 g.lastOutput, flag g.breakerClosed, flag g.engineRunning,
    optField 1 (unitSlot s i), optField 1 ((servedKind s i).map ReasonKind.wire),
    optRemaining 4 s.clock g.phaseTimer, g.minRun.left s.clock,
    u1 (g.pendingRelease.getD 0), optTime ((g.pendingRelease.bind (claimById s)).bind Claim.waitExpiry),
    optTime g.recallWindow, optRemaining 2 s.clock g.recallWindow]

/-- An age that counts steps of 100 ms: milliseconds in four bytes (log 56), or without limit, which has no code in the
vocabularies and carries its place, 1, among the values of its record table (R176). -/
def ageField : Option Nat → WireField
  | some steps => u4 (steps * 100)
  | none => u4 1

/-- READ 2: a PV group record (R88). -/
def readGroup (s : State) (g : Fin 8) : List WireField :=
  let p := s.pvs[g]
  s.cfg.pvs[g].fields ++ [u1 (((linkedTie s.cfg g).map (·.val + 1)).getD 0), u1 p.authority.wire, u2 p.available,
    ageField p.age, u2 p.base, u2 p.computed, optField 2 p.issued, optField 1 p.cap, flag p.awaiting]

/-- READ 3: a feeder record, with the time remaining on its relay window (R110). -/
def readFeeder (s : State) (k : Fin 24) : List WireField :=
  let f := s.feeders[k]
  s.cfg.feeders[k].fields ++ [u1 f.state.wire, optField 1 (f.shedCause.map Cause.wire), optTime f.timeOpened,
    optTime f.relayWindow, optRemaining 2 s.clock f.relayWindow]

/-- A claim record (01, "The claim list"): the purpose is its place in the table and the index it names (log 17). -/
def Claim.fields (c : Claim) : List WireField :=
  let purpose := match c.purpose with
    | .feeder k => [u1 0, u1 (k.val + 1)]
    | .reserve => [u1 1, u1 0]
    | .unit k => [u1 2, u1 (k.val + 1)]
  let state := match c.state with
    | .pending _ => 0
    | .granted _ => 1
    | .applied _ => 2
  [u1 c.id, u1 c.holder.wire] ++ purpose ++ [u2 c.amount, u1 state, u2 c.lifetime, optTime c.waitExpiry,
    optTime c.lifetimeExpiry, optTime c.settleExpiry]

/-- READ 4: the number of claims, and the claim at a place when present (R176). -/
def readClaim (s : State) (place : Nat) : List WireField :=
  u1 s.book.claims.length :: ((s.book.claims[place - 1]?).map Claim.fields).getD []

/-- READ 5: the margin terms, the dwells, the guard and the no-candidate flag (R7). -/
def readMargin (s : State) : List WireField :=
  let t := s.book.terms
  let run := fun d => [flag d.isSome, optElapsed s.clock d]
  [u4 t.H, u4 t.pvTot, u4 t.pvCoord, u4 t.pvLoc, u4 t.Nc, u2 t.Nu, u4 t.RR, u4 t.Cl, i4 t.M, u4 t.L, u4 t.A, i4 t.D,
    i4 t.excess] ++ run s.book.shortfallDwell ++ run s.book.surplusDwell ++ run s.book.guard
    ++ [flag s.book.noCandidate]

/-- The sample record as it was received. -/
def SampleRec.fields (r : SampleRec) : List WireField :=
  [u1 r.seq.toNat, u1 r.bus.toNat, u4 r.freq.toNat, i2 r.rocof.toInt] ++ r.gens.toList.map (fun x => i2 x.toInt)
    ++ r.pvs.toList.map (fun x => u2 x.toNat)

/-- The fields of no held sample. -/
def noSampleFields : List WireField :=
  [absentField 1, absentField 1, absentField 4, absentField 2] ++ List.replicate 16 (absentField 2)

/-- READ 6: the lock and the held sample, in the order of the record table of chapter 2, as R176 says: the number of entries in
the window ahead of the bad count, which R36 names first (DEDUCED, log 50). The held sample is its record and then its
acceptance time, a clock time (DEDUCED, log 69); with no held sample its age is without limit (R36, R176). -/
def readLock (s : State) : List WireField :=
  let l := s.lock
  [u1 l.mode.wire, optField 1 (l.expected.map (·.toNat)), u1 l.verifyCount, u1 l.window.length, u1 (badCount l.window)]
    ++ ((heldRec s).map SampleRec.fields).getD noSampleFields
    ++ [optTime (l.held.map (·.acceptedAt)), ageField l.age, u1 l.quality.wire]

/-- A held start reason (03, "Start reasons"). -/
def Reason.fields (k : ReasonKind) (r : Reason) : List WireField :=
  [u1 k.wire, u4 r.need, optField 1 (r.named.map (·.val + 1)),
    u1 (match r.stage with | .pending => 0 | .inService => 1), flag r.withdrawn, flag r.noCandidate]

/-- A slot (R64). -/
def slotFields : Option SlotUse → List WireField
  | some u => [u1 (u.unit.val + 1), u1 u.kind.wire, u4 u.since.toNat]
  | none => [absentField 1, absentField 1, absentField 4]

/-- READ 7: every held reason, the slots and the duty ring (R62, R64, R68). -/
def readArbiter (s : State) : List WireField :=
  (reasonKinds.flatMap fun k => ((s.arb.get k).map (Reason.fields k)).getD [])
    ++ slotFields s.arb.slot1 ++ slotFields s.arb.slot2 ++ s.cfg.ring.map (fun i => u1 (i.val + 1))

/-- READ 8: the ramp bucket, the full order owed flag and the last stage values (R88). -/
def readCurtailment (s : State) : List WireField :=
  let c := s.cur
  [u2 c.bucket, u1 (if c.bucketOpen then 0 else 1), flag c.fullOwed, u4 c.sumBase, u4 c.rof, u4 c.target, u4 c.prevTotal,
    u4 c.newTotal, u4 c.reduction]

/-- READ 9: the Shed Table (R110). -/
def readShed (s : State) : List WireField :=
  let t := s.shed
  t.timers.toList.flatMap (fun x => [optTime x, optRemaining 2 s.clock x]) ++ t.latches.toList.map flag
    ++ [optTime t.spell, optElapsed s.clock t.spell, optTime t.settle, optRemaining 2 s.clock t.settle,
      flag t.uncoveredShortfall, flag t.uncoveredOverload, flag t.relistAllowed, u1 (openingCount s)]

/-- READ 10: the Restoration Unit (R146). -/
def readRestoration (s : State) : List WireField :=
  let r := s.rest
  [optTime r.holdOff, optRemaining 4 s.clock r.holdOff, u2 r.bucket, flag r.hold]
    ++ (match r.next with
      | some n => [u1 (n.feeder.val + 1), u2 n.need, u1 (match n.why with | .bucket => 0 | .margin => 1 | .busy => 2)]
      | none => [absentField 1, absentField 2, absentField 1])

/-- READ 11: the sequencer and the current step (R148); the elapsed times of its spells take four bytes (log 63). -/
def readSequencer (s : State) : List WireField :=
  let q := s.seq
  [u1 q.phase.wire, flag q.armed, optTime q.deadSpell, optTime q.window, u1 q.attempts, u1 q.collapses,
    optField 1 q.pointer, optTime q.stepTimer, optTime q.bandSpell, u1 (q.stepClaim.getD 0),
    optField 1 (q.failure.map Cause.wire), optRemaining 4 s.clock q.window, optRemaining 4 s.clock q.stepTimer,
    optElapsed s.clock q.deadSpell, optElapsed s.clock q.bandSpell]
    ++ ((pointedStep s).map PlanStep.fields).getD noStepFields

/-- READ 12: the plan length at index 0, or one step (R176). -/
def readPlan (s : State) (index : Nat) : List WireField :=
  if h : 1 ≤ index ∧ index ≤ 32 then (s.cfg.plan[index - 1]'(by omega)).fields else [u1 s.cfg.planLength]

/-- READ 13: one settings group. -/
def readSettings (s : State) (group : Nat) : List WireField :=
  let c := s.cfg.settings
  match group with
  | 1 => c.book.fields
  | 2 => c.windows.fields
  | 3 => c.curtail.fields
  | 4 => c.shed.fields
  | 5 => c.restore.fields
  | _ => c.links.fields

/-- A link by its index 1..4. -/
def linkOfIndex (n : Nat) : Option Link :=
  match n with
  | 1 => some .S
  | 2 => some .G
  | 3 => some .P
  | 4 => some .F
  | _ => none

/-- READ 14: a link (R176); link state Active is 0 (log 17), and the silence time elapsed has four bytes and counts on while
the link is Silent (log 52). -/
def readLink (s : State) (l : Link) : List WireField :=
  let c := s.links.get l
  [u1 (if c.active then 0 else 1), u4 (elapsed s.clock c.silenceFrom), u1 (repliesWaiting c), u1 (ordersWaiting c),
    u1 c.notices.length, u1 c.overflow]

/-- What a READ returns; none for a selector or index outside the table (R176). -/
def readFields (s : State) (selector index : Byte) : Option (List WireField) :=
  let n := index.toNat
  match selector.toNat with
  | 1 => (unitIndex index).map (readGenset s)
  | 2 => (unitIndex index).map (readGroup s)
  | 3 => (feederIndex index).map (readFeeder s)
  | 4 => if 1 ≤ n ∧ n ≤ 16 then some (readClaim s n) else none
  | 5 => if n = 0 then some (readMargin s) else none
  | 6 => if n = 0 then some (readLock s) else none
  | 7 => if n = 0 then some (readArbiter s) else none
  | 8 => if n = 0 then some (readCurtailment s) else none
  | 9 => if n = 0 then some (readShed s) else none
  | 10 => if n = 0 then some (readRestoration s) else none
  | 11 => if n = 0 then some (readSequencer s) else none
  | 12 => if n ≤ 32 then some (readPlan s n) else none
  | 13 => if 1 ≤ n ∧ n ≤ 6 then some (readSettings s n) else none
  | 14 => (linkOfIndex n).map (readLink s)
  | _ => none

/-! ## Notice records (09) -/

/-- The fields of a notice record. -/
def Notice.fields (n : Notice) : List WireField :=
  [u1 n.kind.wire, u1 n.index, u1 n.subject.wire, i4 n.cause.wire, u1 n.claimId, u4 n.time.toNat]

end Sys2Proof.Machine
end

