-- ==== Sys2Proof/Machine/StationLinks.lean ====
section
/-! DEFINITION. The Link Controllers (09): a good frame with the return of its link, the silence of a link, the one reply of
each request, overruns, and frame errors (R168, R170, R171, R173 to R175, R177). -/

namespace Sys2Proof.Machine

/-! ## Silence and return (R168, R175) -/

/-- The silence timer restarts (R168). -/
def restartSilence (l : Link) (s : State) : State :=
  modLink l (fun c => { c with
    silenceFrom := s.clock, silenceDue := after s.clock (s.cfg.settings.links.silence * 100) }) s

/-- Link F's return in Clearing: Faulted feeders may be listed again, the listing is made at once, and Clearing may complete.
A return in another phase leaves the item as it is (R129, R152; log 51). -/
def relistAtReturn (s : State) : State :=
  if s.seq.phase = .clearing then
    judgeCleared (clearingListing { s with shed := { s.shed with relistAllowed := true } })
  else s

/-- What the blocks that read a link do when it becomes Active (R175). -/
def tellActive (l : Link) (s : State) : State :=
  match l with
  | .S => s
  | .G => serve s
  | .P => recompute s
  | .F => relistAtReturn s

/-- A Silent link becomes Active (R175). -/
def returnLink (l : Link) (s : State) : State :=
  tellActive l (notify [.S] .linkReturned (linkIndex l) .none (.code .none) 0
    (modLink l (fun c => { c with active := true }) s))

/-- What every good frame does before it is judged (R168, R175). -/
def goodFrame (l : Link) (s : State) : State :=
  let s1 := restartSilence l s
  if linkActive s1 l then s1 else returnLink l s1

/-- What the blocks that read a link do when it becomes Silent (R175, R106). -/
def tellSilent (l : Link) (s : State) : State :=
  match l with
  | .P => recompute { s with cur := { s.cur with fullOwed := true } }
  | .S | .G | .F => s

/-- A link's silence timer reaches the silence time (R175). -/
def silenceEnds (l : Link) (s : State) : State :=
  if linkActive s l && reached s.clock (s.links.get l).silenceDue then
    tellSilent l (notify [.S] .linkSilent (linkIndex l) .none (.code .none) 0
      (modLink l (fun c => { c with active := false }) s))
  else s

/-! ## Requests and their replies (R169, R170) -/

/-- What a block answers to a request: the status, and the fields that follow it. -/
structure Answer where
  status : Status
  fields : List WireField
  deriving DecidableEq, Repr

/-- An answer of a status alone. -/
def answer (st : Status) : Answer := ⟨st, []⟩

/-- The reply that carries an answer to a request of a kind (R170). -/
def replyTo (kind tag : Byte) (a : Answer) : Reply := ⟨kind, tag, a.status, a.fields⟩

/-- Replies hold every place they may (R170). -/
def repliesFull (s : State) (l : Link) : Bool := Config.replyCapacity ≤ repliesWaiting (s.links.get l)

/-- A good frame that finds the replies full is an overrun: a frame error, without reply (R170). -/
def overrun (l : Link) (s : State) : State := offer .frameError (some (linkIndex l)) 0 s

/-- A request arrives in a good frame: the link returns where it was Silent, the request is taken unless replies are full,
and its reply joins the queue when it has been handled whole (R168 to R170, R175). -/
def request (l : Link) (kind tag : Byte) (act : State → State × Answer) (s : State) : State :=
  let s1 := goodFrame l s
  if repliesFull s1 l then overrun l s1
  else
    let r := act s1
    placeReply l (replyTo kind tag r.2) r.1

/-- A block's answer without effect. -/
def refuse (st : Status) (s : State) : State × Answer := (s, answer st)

/-! ## FETCH NOTICE and PRESENCE (R174, R177) -/

/-- FETCH NOTICE: the oldest record is taken, and the overflow count is told and zeroed (R174). -/
def fetchAct (l : Link) (s : State) : State × Answer :=
  let c := s.links.get l
  (modLink l (fun c => { c with notices := c.notices.tail, overflow := 0 }) s,
    ⟨.done, [u1 c.notices.tail.length, u1 c.overflow] ++ ((c.notices.head?).map Notice.fields).getD []⟩)

/-- PRESENCE (R177). -/
def presenceAct (l : Link) (s : State) : State × Answer :=
  (s, ⟨.done, [u4 s.clock.toNat, u1 (s.links.get l).notices.length, flag s.entry.complete, u1 s.lock.quality.wire,
    u1 s.seq.phase.wire]⟩)

/-- READ (R176). -/
def readAct (selector index : Byte) (s : State) : State × Answer :=
  match readFields s selector index with
  | some fs => (s, ⟨.done, fs⟩)
  | none => refuse .refusedRange s

/-! ## Frames sent (R171) -/

/-- The frame being sent has left the line; the next begins at the end of the step (R171; log 11). -/
def frameSent (l : Link) (s : State) : State := modLink l (fun c => { c with sending := none }) s

/-! ## Frame errors (R168) -/

/-- The five lines. -/
def allLines : List Line := allLinks.map .station ++ [.sample]

/-- The framer of a line. -/
def framerOf (s : State) : Line → Framer
  | .station l => (s.links.get l).framer
  | .sample => s.sampleFramer

/-- The framer of a line replaced. -/
def setFramer (line : Line) (f : Framer) (s : State) : State :=
  match line with
  | .station l => modLink l (fun c => { c with framer := f }) s
  | .sample => { s with sampleFramer := f }

/-- A frame error of a line: the FrameError event with the line's index (R168). -/
def frameError (line : Line) (s : State) : State := offer .frameError (some (lineIndex line)) 0 s

/-- More than the inter-byte limit has passed since the last byte of a frame begun (R28, R168; log 14). -/
def gapPassed (now : Time) : Framer → Bool
  | .hunting => false
  | .inFrame _ last => reached now (after last (Config.interByteMs + 1))

/-- A frame whose inter-byte gap has passed is abandoned: a frame error, and hunting resumes (R168). -/
def interByteEnds (line : Line) (s : State) : State :=
  if gapPassed s.clock (framerOf s line) then frameError line (setFramer line .hunting s) else s

end Sys2Proof.Machine
end

