-- ==== Sys2Proof/Machine/Settings.lean ====
section
/-! DEFINITION. The SET request (10, R179 to R183): its checks in order, the clamping of numeric fields, the structural
errors, and what an accepted record changes at once (R88, R99, R134, R182, R189). -/

namespace Sys2Proof.Machine

/-! ## Clamping (R181) -/

/-- A value held within its range, and whether that changed it. -/
structure Bounded (α : Type) where
  val : α
  changed : Bool
  deriving DecidableEq, Repr

/-- A numeric field clamped to the nearer limit (R181). -/
def clampNat (lo hi v : Nat) : Bounded Nat :=
  if v < lo then ⟨lo, true⟩ else if hi < v then ⟨hi, true⟩ else ⟨v, false⟩

/-- A signed numeric field clamped to the nearer limit (R181). -/
def clampInt (lo hi v : Int) : Bounded Int :=
  if v < lo then ⟨lo, true⟩ else if hi < v then ⟨hi, true⟩ else ⟨v, false⟩

/-- A field in milliseconds clamped and rounded down to 100 ms; the value is in milliseconds (R181). -/
def clampSteps (lo hi v : Nat) : Bounded Nat :=
  let c := clampNat lo hi v
  ⟨c.val / 100 * 100, c.changed || c.val % 100 ≠ 0⟩

/-- A yes-or-no field: a code that is neither is taken as no (R181). -/
def clampFlag (b : Byte) : Bounded Bool := ⟨b = 1, b ≠ 0 && b ≠ 1⟩

/-- A field that its record does not use is stored as 0 (R181). -/
def unusedField (v : Nat) : Bool := v ≠ 0

/-- The one-byte field at an offset of a record. -/
def f1 (r : List Byte) (i : Nat) : Nat := (byteAt r i).toNat

/-- The two-byte field at an offset of a record. -/
def f2 (r : List Byte) (i : Nat) : Nat := (le16 r i).toNat

/-! ## Records read from a request -/

/-- Group 1, 17 bytes. -/
def readBook (r : List Byte) : Bounded BookSettings :=
  let cf := clampNat 0 100 (f1 r 0)
  let rfloor := clampNat 0 50000 (f2 r 1)
  let n1 := clampFlag (byteAt r 3)
  let startDelay := clampNat 0 60 (f1 r 4)
  let shedDelay := clampNat 5 300 (f2 r 5)
  let surplusMargin := clampNat 0 10000 (f2 r 7)
  let surplusDwell := clampNat 30 3600 (f2 r 9)
  let guardTime := clampNat 10 600 (f2 r 11)
  let lifetime := clampNat 1 600 (f2 r 13)
  let settle := clampNat 1 60 (f1 r 15)
  let releaseWait := clampNat 1 120 (f1 r 16)
  ⟨⟨cf.val, rfloor.val, n1.val, startDelay.val, shedDelay.val, surplusMargin.val, surplusDwell.val, guardTime.val,
      lifetime.val, settle.val, releaseWait.val⟩,
    cf.changed || rfloor.changed || n1.changed || startDelay.changed || shedDelay.changed || surplusMargin.changed
      || surplusDwell.changed || guardTime.changed || lifetime.changed || settle.changed || releaseWait.changed⟩

/-- Group 2, 9 bytes. -/
def readWindows (r : List Byte) : Bounded WindowSettings :=
  let crank := clampNat 5 120 (f1 r 0)
  let sync := clampNat 10 300 (f2 r 1)
  let unload := clampNat 10 300 (f2 r 3)
  let cooldown := clampNat 0 900 (f2 r 5)
  let minRun := clampNat 0 7200 (f2 r 7)
  ⟨⟨crank.val, sync.val, unload.val, cooldown.val, minRun.val⟩,
    crank.changed || sync.changed || unload.changed || cooldown.changed || minRun.changed⟩

/-- Group 3, 10 bytes. -/
def readCurtail (r : List Byte) : Bounded CurtailSettings :=
  let ofOffset := clampNat 50 3000 (f2 r 0)
  let gain := clampNat 0 200 (f1 r 2)
  let rampRate := clampNat 10 10000 (f2 r 3)
  let capacity := clampNat 50 50000 (f2 r 5)
  let reopen := clampNat 0 50000 (f2 r 7)
  let changeStep := clampNat 1 100 (f1 r 9)
  ⟨⟨ofOffset.val, gain.val, rampRate.val, capacity.val, reopen.val, changeStep.val⟩,
    ofOffset.changed || gain.changed || rampRate.changed || capacity.changed || reopen.changed || changeStep.changed⟩

/-- Group 4, 26 bytes; relay window and settle time are kept in units of 100 ms (log 16). -/
def readShedding (r : List Byte) : Bounded ShedSettings :=
  let relay := clampSteps 200 10000 (f2 r 0)
  let settle := clampSteps 500 10000 (f2 r 2)
  let offset := fun (n : Fin 4) => clampNat 100 10000 (f2 r (4 + 2 * n.val))
  let delay := fun (n : Fin 4) => clampSteps 0 5000 (f2 r (12 + 2 * n.val))
  let band := clampNat 0 1000 (f2 r 20)
  let rocof := clampInt (-20000) (-100) (le16 r 22).toInt
  let latch := clampNat 1 600 (f2 r 24)
  ⟨⟨relay.val / 100, settle.val / 100, Vector.ofFn fun n => (offset n).val, Vector.ofFn fun n => (delay n).val,
      band.val, rocof.val, latch.val⟩,
    relay.changed || settle.changed || (List.finRange 4).any (fun n => (offset n).changed || (delay n).changed)
      || band.changed || rocof.changed || latch.changed⟩

/-- Group 5, 8 bytes. -/
def readRestore (r : List Byte) : Bounded RestoreSettings :=
  let freqOffset := clampNat 0 3000 (f2 r 0)
  let holdOff := clampNat 5 900 (f2 r 2)
  let rate := clampNat 10 10000 (f2 r 4)
  let capacity := clampNat 50 50000 (f2 r 6)
  ⟨⟨freqOffset.val, holdOff.val, rate.val, capacity.val⟩,
    freqOffset.changed || holdOff.changed || rate.changed || capacity.changed⟩

/-- Group 6, 4 bytes; the silence time is kept in units of 100 ms (log 16), and nominal frequency is not clamped (R180). -/
def readLinks (r : List Byte) : Bounded LinkSettings :=
  let silence := clampSteps 500 10000 (f2 r 0)
  ⟨⟨silence.val / 100, f2 r 2⟩, silence.changed⟩

/-- A genset record, 6 bytes; the count and the flag are kept (R46, R47). -/
def readGensetCfg (r : List Byte) (old : GensetCfg) : Bounded GensetCfg :=
  let present := clampFlag (byteAt r 0)
  let rating := clampNat 50 20000 (f2 r 1)
  let minLoad := clampNat 0 60 (f1 r 3)
  let capable := clampFlag (byteAt r 4)
  let failLimit := clampNat 1 5 (f1 r 5)
  ⟨⟨present.val, rating.val, minLoad.val, capable.val, failLimit.val, old.failCount, old.lockout⟩,
    present.changed || rating.changed || minLoad.changed || capable.changed || failLimit.changed⟩

/-- A PV group record, 4 bytes. -/
def readPvCfg (r : List Byte) : Bounded PvCfg :=
  let rating := clampNat 10 20000 (f2 r 0)
  let weight := clampNat 1 100 (f1 r 2)
  let cls := clampNat 0 3 (f1 r 3)
  ⟨⟨rating.val, weight.val, cls.val⟩, rating.changed || weight.changed || cls.changed⟩

/-- The linked group of a feeder record: a Load feeder keeps none; none for a group outside 0..8 (R181). -/
def readLinked (kind : FeederKind) (b : Byte) : Option (Bounded (Option (Fin 8))) :=
  match kind with
  | .load => some ⟨none, b ≠ 0⟩
  | .sourceTie => if b = 0 then some ⟨none, false⟩ else (unitIndex b).map fun g => ⟨some g, false⟩

/-- A feeder record, 11 bytes; none for a structural error of its own fields (R181). -/
def readFeederCfg (r : List Byte) : Option (Bounded FeederCfg) :=
  let kind? : Option FeederKind :=
    if byteAt r 1 = 0 then some .load else if byteAt r 1 = 1 then some .sourceTie else none
  match kind? with
  | none => none
  | some kind =>
    match readLinked kind (byteAt r 2) with
    | none => none
    | some linked =>
      if 4 < f1 r 4 then none
      else
        let present := clampFlag (byteAt r 0)
        let cls := clampNat 0 7 (f1 r 3)
        let estimate := clampNat 0 20000 (f2 r 5)
        let coldLoad := clampNat 100 400 (f2 r 7)
        let rank := clampNat 1 24 (f1 r 9)
        let auto := clampFlag (byteAt r 10)
        some ⟨⟨present.val, kind, linked.val, cls.val, f1 r 4, estimate.val, coldLoad.val, rank.val, auto.val⟩,
          present.changed || linked.changed || cls.changed || estimate.changed || coldLoad.changed || rank.changed
            || auto.changed⟩

/-- A step's act with its operands, by its kind; none for an unknown kind or an operand 1 outside its range (R181). -/
def readStepAct (kind a b : Nat) : Option (Bounded StepAct) :=
  match kind with
  | 0 => if h : 1 ≤ a ∧ a ≤ 24 then some ⟨.closeFeeder ⟨a - 1, by omega⟩, unusedField b⟩ else none
  | 1 => if h : a < 8 then some ⟨.closeClass ⟨a, h⟩, unusedField b⟩ else none
  | 2 =>
    if a = 0 then some ⟨.startUnit none, unusedField b⟩
    else if h : a ≤ 8 then some ⟨.startUnit (some ⟨a - 1, by omega⟩), unusedField b⟩
    else none
  | 3 =>
    if h : 1 ≤ a ∧ a ≤ 8 then
      let cap := clampNat 0 100 b
      some ⟨.releasePv ⟨a - 1, by omega⟩ cap.val, cap.changed⟩
    else none
  | 4 =>
    let n := clampNat 1 3600 a
    some ⟨.wait n.val, n.changed || unusedField b⟩
  | 5 =>
    let band := clampNat 50 3000 a
    let hold := clampNat 1 600 b
    some ⟨.waitBand band.val hold.val, band.changed || hold.changed⟩
  | 6 => some ⟨.endPlan, unusedField a || unusedField b⟩
  | _ => none

/-- A plan step record, 8 bytes; none for a structural error (R181). -/
def readStep (r : List Byte) : Option (Bounded PlanStep) :=
  match readStepAct (f1 r 0) (f2 r 1) (f2 r 3) with
  | none => none
  | some act =>
    if 1 < f1 r 7 then none
    else
      let timeout := clampNat 1 3600 (f2 r 5)
      some ⟨⟨act.val, timeout.val, f1 r 7 = 1⟩, act.changed || timeout.changed⟩

/-- A qualifier code. -/
def readQualifier (n : Nat) : Option Qualifier :=
  match n with
  | 0 => some .any
  | 1 => some .fullOnly
  | 2 => some .notFullOnly
  | _ => none

/-- A tally configuration record, 5 bytes; none for a structural error (R181). -/
def readTallyCfg (r : List Byte) : Option TallyCfg :=
  match readQualifier (f1 r 4) with
  | none => none
  | some q =>
    if 16384 ≤ f2 r 0 || 24 < f1 r 2 || 1 < f1 r 3 then none
    else some ⟨BitVec.ofNat 14 (f2 r 0), f1 r 2, if f1 r 3 = 0 then .count else .accumulate, q⟩

/-! ## Writing an accepted record (R183) -/

/-- The status of an accepted record (R179). -/
def accepted (changed : Bool) : Answer := answer (if changed then .clamped else .done)

/-- The settings changed, written through (R183). -/
def setSettings (f : Settings → Settings) (s : State) : State :=
  writeThrough (fun t => { t with settings := f t.settings }) s

/-- A bucket level above a new ramp capacity becomes the capacity, and the bucket closes (R99). -/
def clampRamp (s : State) : State :=
  if s.cfg.settings.curtail.capacity < s.cur.bucket then
    { s with cur := { s.cur with bucket := s.cfg.settings.curtail.capacity, bucketOpen := false } }
  else s

/-- A bucket level above a new restore capacity becomes the capacity (R134). -/
def clampRestore (s : State) : State :=
  { s with rest := { s.rest with bucket := min s.rest.bucket s.cfg.settings.restore.capacity } }

/-- Stage offsets strictly increasing (R181). -/
def offsetsRise (c : ShedSettings) : Bool :=
  c.offsets[0] < c.offsets[1] && c.offsets[1] < c.offsets[2] && c.offsets[2] < c.offsets[3]

/-- One settings group whose length has been checked: its structural check, and the write (R180, R181, R183). -/
def setGroup (group : Nat) (r : List Byte) (s : State) : State × Answer :=
  match group with
  | 1 =>
    let b := readBook r
    (setSettings (fun c => { c with book := b.val }) s, accepted b.changed)
  | 2 =>
    let w := readWindows r
    (setSettings (fun c => { c with windows := w.val }) s, accepted w.changed)
  | 3 =>
    let k := readCurtail r
    if k.val.capacity < k.val.reopen then refuse .refusedRange s
    else (clampRamp (setSettings (fun c => { c with curtail := k.val }) s), accepted k.changed)
  | 4 =>
    let k := readShedding r
    if offsetsRise k.val then (setSettings (fun c => { c with shed := k.val }) s, accepted k.changed)
    else refuse .refusedRange s
  | 5 =>
    let k := readRestore r
    (clampRestore (setSettings (fun c => { c with restore := k.val }) s), accepted k.changed)
  | _ =>
    let k := readLinks r
    if k.val.nominal = 50000 || k.val.nominal = 60000 then
      (setSettings (fun c => { c with links := k.val }) s, accepted k.changed)
    else refuse .refusedRange s

/-- The length of a settings group record. -/
def groupLength (group : Nat) : Nat :=
  match group with
  | 1 => 17
  | 2 => 9
  | 3 => 10
  | 4 => 26
  | 5 => 8
  | _ => 4

/-- The present field of a record says yes. -/
def saysPresent (r : List Byte) : Bool := byteAt r 0 = 1

/-- A genset record is in flight (R182). -/
def gensetInFlight (s : State) (i : Fin 8) (r : List Byte) : Bool :=
  [UnitState.starting, .synchronising, .unloading].contains s.gens[i].state
    || (s.cfg.gensets[i].present && !saysPresent r
      && (s.gens[i].state = .online || s.gens[i].pendingRelease.isSome || s.gens[i].recallWindow.isSome))

/-- An accepted genset record: a unit made not present becomes Unknown; a change of presence is served, and resolution is
judged (R182, R66, R189). A record that is and stays Unknown places no notice (log 60). -/
def setGenset (i : Fin 8) (r : List Byte) (s : State) : State × Answer :=
  if gensetInFlight s i r then refuse .refusedState s
  else
    let g := readGensetCfg r s.cfg.gensets[i]
    let s1 := modGensetCfg i (fun _ => g.val) s
    let s2 := if g.val.present then s1 else setUnitState i .unknown .set s1
    let s3 := if g.val.present = s.cfg.gensets[i].present then s2 else judgeResolution (unitSettled s2)
    (s3, accepted g.changed)

/-- What a lowered rating clamps at acceptance (R88, R183). DESIGN CHOICE, log 66: the computed ceiling is left as the last
computing evaluation made it. -/
def clampToRating (rating : Nat) (p : PvGroup) : PvGroup :=
  { p with available := min p.available rating, issued := p.issued.map (min rating) }

/-- An accepted PV group record (R88). -/
def setPv (g : Fin 8) (r : List Byte) (s : State) : State × Answer :=
  let c := readPvCfg r
  let s1 := writeThrough (fun t => { t with pvs := t.pvs.set g c.val }) s
  let s2 := if c.val.rating < s.cfg.pvs[g].rating then modPv g (clampToRating c.val.rating) s1 else s1
  let s3 := if s2.pvs[g].issued = s.pvs[g].issued then s2 else { s2 with cur := { s2.cur with fullOwed := true } }
  (s3, accepted c.changed)

/-- A feeder record is in flight (R182). -/
def feederInFlight (s : State) (k : Fin 24) (r : List Byte) : Bool :=
  s.feeders[k].state.inFlight || (s.cfg.feeders[k].present && !saysPresent r && feederClaimed s k)

/-- Another SourceTie feeder already names the group, present or not (R181). -/
def tieTaken (s : State) (k : Fin 24) (c : FeederCfg) : Bool :=
  c.linked.any fun g => feederIds.any fun j =>
    j ≠ k && s.cfg.feeders[j].kind = .sourceTie && s.cfg.feeders[j].linked = some g

/-- A feeder made not present becomes Unknown, with its shed cause and time opened absent; one that is Unknown already places
no notice (R182; log 60). -/
def dropFeeder (k : Fin 24) (s : State) : State :=
  feedersSettled (modFeeder k (fun f => { f with shedCause := none, timeOpened := none })
    (setFeederState k .unknown .set s))

/-- An accepted feeder record; a feeder made present is Unknown already and places no notice (R182, R189; log 60). -/
def setFeeder (k : Fin 24) (r : List Byte) (s : State) : State × Answer :=
  if feederInFlight s k r then refuse .refusedState s
  else
    match readFeederCfg r with
    | none => refuse .refusedRange s
    | some c =>
      if tieTaken s k c.val then refuse .refusedRange s
      else
        let s1 := modFeederCfg k (fun _ => c.val) s
        let s2 := if s.cfg.feeders[k].present && !c.val.present then dropFeeder k s1 else s1
        let s3 := if c.val.present = s.cfg.feeders[k].present then s2 else judgeResolution s2
        (s3, accepted c.changed)

/-- The plan length, or one step; taken in phase Idle alone (R181, R182). -/
def setPlan (index : Nat) (r : List Byte) (s : State) : State × Answer :=
  if s.seq.phase ≠ .idle then refuse .refusedState s
  else if h : 1 ≤ index ∧ index ≤ 32 then
    match readStep r with
    | none => refuse .refusedRange s
    | some p => (writeThrough (fun t => { t with plan := t.plan.set (index - 1) p.val }) s, accepted p.changed)
  else
    let n := clampNat 0 32 (f1 r 0)
    (writeThrough (fun t => { t with planLength := n.val }) s, accepted n.changed)

/-- A tally configuration (R181, R184). -/
def setTally (i : Fin 16) (r : List Byte) (s : State) : State × Answer :=
  match readTallyCfg r with
  | none => refuse .refusedRange s
  | some c => (writeThrough (fun t => { t with tallies := t.tallies.set i c }) s, accepted false)

/-! ## The request (R179) -/

/-- What a selector and index name: the length of its record, and the write of one. -/
structure SetTarget where
  length : Nat
  write : List Byte → State → State × Answer

/-- The target of a selector and index; none outside the table (R179, check 1). -/
def setTarget (selector index : Byte) : Option SetTarget :=
  let n := index.toNat
  match selector.toNat with
  | 1 => if 1 ≤ n ∧ n ≤ 6 then some ⟨groupLength n, setGroup n⟩ else none
  | 2 => (unitIndex index).map fun i => ⟨6, setGenset i⟩
  | 3 => (unitIndex index).map fun g => ⟨4, setPv g⟩
  | 4 => (feederIndex index).map fun k => ⟨11, setFeeder k⟩
  | 5 => if n ≤ 32 then some ⟨if n = 0 then 1 else 8, setPlan n⟩ else none
  | 6 => if h : 1 ≤ n ∧ n ≤ 16 then some ⟨5, setTally ⟨n - 1, by omega⟩⟩ else none
  | _ => none

/-- A selector of the table. -/
def knownSelector (b : Byte) : Bool := 1 ≤ b.toNat && b.toNat ≤ 6

/-- SET on its payload: selector and index, length, then the checks of its table (R179). A payload too short to hold both
has the wrong length, unless its selector is already outside the table (log 31). -/
def setAct (p : List Byte) (s : State) : State × Answer :=
  match p with
  | [] => refuse .refusedLength s
  | [sel] => refuse (if knownSelector sel then .refusedLength else .refusedRange) s
  | sel :: index :: r =>
    match setTarget sel index with
    | none => refuse .refusedRange s
    | some t => if r.length = t.length then t.write r s else refuse .refusedLength s

end Sys2Proof.Machine
end

