-- ==== Sys2Proof/Machine/Frames.lean ====
section
/-! DEFINITION. The frames of the lines (09): the envelope and its check, the three checks of a request frame (R169), the
command a taken frame is, the frames the part sends, and the receive framer (R168). The opcode table gives no bits, so
these functions stand beside the step: a byte on a line joins the queue as the command its frame completes (log 9). -/

namespace Sys2Proof.Machine

/-! ## The frame check (R168) -/

/-- One bit of the CRC-16 with polynomial 1021h. -/
def crcShift (c : BitVec 16) : BitVec 16 := if c.msb then (c <<< 1) ^^^ 0x1021 else c <<< 1

/-- One byte taken into the check. -/
def crcByte (c : BitVec 16) (b : Byte) : BitVec 16 :=
  (List.range 8).foldl (fun c _ => crcShift c) (c ^^^ (b.setWidth 16 <<< 8))

/-- The frame check over the kind, tag, length and payload bytes (R168). -/
def frameCheck (bs : List Byte) : BitVec 16 := bs.foldl crcByte 0xFFFF

/-- A frame, with its delimiter and its check, low byte first (09, envelope). -/
def frameBytes (kind tag : Byte) (payload : List Byte) : List Byte :=
  let body := kind :: tag :: BitVec.ofNat 8 payload.length :: payload
  let check := frameCheck body
  0xA5 :: body ++ [check.setWidth 8, (check >>> 8).setWidth 8]

/-! ## Requests: rights and lengths (R169) -/

/-- The links that may make a request of a kind; none for a kind not in the request index (09, request index). -/
def kindLinks (kind : Byte) : Option (List Link) :=
  match kind.toNat with
  | 0x01 | 0x11 | 0x12 => some allLinks
  | 0x02 | 0x03 | 0x04 | 0x05 | 0x06 | 0x07 | 0x08 | 0x0A | 0x0B | 0x0C | 0x0D | 0x0E | 0x0F | 0x10 => some [.S]
  | 0x09 => some [.S, .F]
  | 0x20 | 0x21 | 0x22 | 0x23 | 0x24 => some [.G]
  | 0x28 | 0x29 | 0x2A => some [.P]
  | 0x30 | 0x31 | 0x32 => some [.F]
  | _ => none

/-- A list payload of entries of `size` bytes, at most `limit` of them. -/
def listLength (size limit n : Nat) : Bool := n % size = 0 && n / size ≤ limit

/-- The payload length is right for the kind; SET's is left to R179 (R169). -/
def lengthFits (kind : Byte) (n : Nat) : Bool :=
  match kind.toNat with
  | 0x01 => n = 2
  | 0x02 => true
  | 0x03 => n = 8
  | 0x08 => n = 5
  | 0x0B | 0x10 | 0x11 | 0x12 => n = 0
  | 0x20 | 0x30 => n = 2
  | 0x21 => listLength 4 8 n
  | 0x22 => listLength 2 8 n
  | 0x28 => listLength 5 8 n
  | 0x31 => listLength 4 24 n
  | 0x32 => n = 4
  | _ => n = 1

/-- The refusal of a good frame by the three checks of R169; BLACK START with an action of none of its three commands is
refused by its chapter (R150; log 31). -/
def frameRefusal (l : Link) (kind : Byte) (payload : List Byte) : Option Status :=
  match kindLinks kind with
  | none => some .refusedKind
  | some ls =>
    if !ls.contains l then some .refusedRights
    else if !lengthFits kind payload.length then some .refusedLength
    else if kind = 0x0A && 2 < (byteAt payload 0).toNat then some .refusedRange
    else none

/-! ## The command of a taken frame -/

/-- The entries of a list payload: whole entries of `size` bytes, taken `fuel` times. -/
def entriesOf (α : Type) (size : Nat) (entry : List Byte → α) : Nat → List Byte → List α
  | 0, _ => []
  | fuel + 1, p => if p.isEmpty then [] else entry p :: entriesOf α size entry fuel (p.drop size)

/-- UNIT STATUS entries. -/
def unitEntries (p : List Byte) : List UnitEntry :=
  entriesOf UnitEntry 4 (fun e => ⟨byteAt e 0, byteAt e 1, byteAt e 2, byteAt e 3⟩) 8 p

/-- AVAILABILITY entries. -/
def availEntries (p : List Byte) : List AvailEntry :=
  entriesOf AvailEntry 2 (fun e => ⟨byteAt e 0, byteAt e 1⟩) 8 p

/-- PV REPORT entries. -/
def pvEntries (p : List Byte) : List PvEntry :=
  entriesOf PvEntry 5 (fun e => ⟨byteAt e 0, le16 e 1, le16 e 3⟩) 8 p

/-- FEEDER STATUS entries. -/
def feederEntries (p : List Byte) : List FeederEntry :=
  entriesOf FeederEntry 4 (fun e => ⟨byteAt e 0, byteAt e 1, le16 e 2⟩) 24 p

/-- The request of a frame that passed the checks of R169 (09, request index). -/
def requestOf (l : Link) (kind tag : Byte) (p : List Byte) : Instr :=
  let b := byteAt p 0
  match kind.toNat with
  | 0x01 => .read l tag b (byteAt p 1)
  | 0x02 => .set tag p
  | 0x03 => .setRing tag p
  | 0x04 => .startUnit tag b
  | 0x05 => .stopUnit tag b
  | 0x06 => .clearLockout tag b
  | 0x07 => .recallUnit tag b
  | 0x08 => .claimReserve tag (le16 p 0) (byteAt p 2) (le16 p 3)
  | 0x09 => .cancelClaim l tag b
  | 0x0A => if b = 0 then .blackStartBegin tag else if b = 1 then .blackStartAbort tag else .blackStartRetry tag
  | 0x0B => .resyncSamples tag
  | 0x0C => .snapshot tag b
  | 0x0D => .readTally tag b
  | 0x0E => .restoreHold tag b
  | 0x0F => .adoptFeeder tag b
  | 0x10 => .restart tag
  | 0x11 => .fetchNotice l tag
  | 0x12 => .presence l tag
  | 0x20 => .unitReport tag b (byteAt p 1)
  | 0x21 => .unitStatus tag (unitEntries p)
  | 0x22 => .availability tag (availEntries p)
  | 0x23 => .releaseUnit tag b
  | 0x24 => .returnUnit tag b
  | 0x28 => .pvReport tag (pvEntries p)
  | 0x29 => .releaseGroup tag b
  | 0x2A => .returnGroup tag b
  | 0x30 => .breakerReport tag b (byteAt p 1)
  | 0x31 => .feederStatus tag (feederEntries p)
  | 0x32 => .claimFeeder tag b (byteAt p 1) (le16 p 2)
  | _ => .frameRefused l kind tag p

/-- The command that a good frame on a station link is (R169). -/
def commandOfFrame (l : Link) (kind tag : Byte) (p : List Byte) : Instr :=
  match frameRefusal l kind p with
  | some _ => .frameRefused l kind tag p
  | none => requestOf l kind tag p

/-! ## The frame of a request -/

/-- A two-byte field, low byte first. -/
def put16 (v : BitVec 16) : List Byte := [v.setWidth 8, (v >>> 8).setWidth 8]

/-- The link, kind, tag and payload of the frame that makes a request; none for a command that is no request. -/
def requestFrame : Instr → Option (Link × Byte × Byte × List Byte)
  | .read l tag sel i => some (l, 0x01, tag, [sel, i])
  | .set tag p => some (.S, 0x02, tag, p)
  | .setRing tag r => some (.S, 0x03, tag, r)
  | .startUnit tag u => some (.S, 0x04, tag, [u])
  | .stopUnit tag u => some (.S, 0x05, tag, [u])
  | .clearLockout tag u => some (.S, 0x06, tag, [u])
  | .recallUnit tag u => some (.S, 0x07, tag, [u])
  | .claimReserve tag a w t => some (.S, 0x08, tag, put16 a ++ w :: put16 t)
  | .cancelClaim l tag id => some (l, 0x09, tag, [id])
  | .blackStartBegin tag => some (.S, 0x0A, tag, [0])
  | .blackStartAbort tag => some (.S, 0x0A, tag, [1])
  | .blackStartRetry tag => some (.S, 0x0A, tag, [2])
  | .resyncSamples tag => some (.S, 0x0B, tag, [])
  | .snapshot tag o => some (.S, 0x0C, tag, [o])
  | .readTally tag n => some (.S, 0x0D, tag, [n])
  | .restoreHold tag v => some (.S, 0x0E, tag, [v])
  | .adoptFeeder tag f => some (.S, 0x0F, tag, [f])
  | .restart tag => some (.S, 0x10, tag, [])
  | .fetchNotice l tag => some (l, 0x11, tag, [])
  | .presence l tag => some (l, 0x12, tag, [])
  | .unitReport tag u e => some (.G, 0x20, tag, [u, e])
  | .unitStatus tag es => some (.G, 0x21, tag, es.flatMap fun e => [e.unit, e.engine, e.breaker, e.control])
  | .availability tag es => some (.G, 0x22, tag, es.flatMap fun e => [e.unit, e.declaration])
  | .releaseUnit tag u => some (.G, 0x23, tag, [u])
  | .returnUnit tag u => some (.G, 0x24, tag, [u])
  | .pvReport tag es => some (.P, 0x28, tag, es.flatMap fun e => e.group :: put16 e.available ++ put16 e.held)
  | .releaseGroup tag g => some (.P, 0x29, tag, [g])
  | .returnGroup tag g => some (.P, 0x2A, tag, [g])
  | .breakerReport tag f e => some (.F, 0x30, tag, [f, e])
  | .feederStatus tag es => some (.F, 0x31, tag, es.flatMap fun e => e.feeder :: e.breaker :: put16 e.load)
  | .claimFeeder tag f w t => some (.F, 0x32, tag, f :: w :: put16 t)
  | .powerOn | .resetInput | .entryWindowExpiry | .sample _ _ _ | .sampleGapTimerExpiry | .heldSampleAgeStep
  | .stageTimerExpiry _ | .stepTimeout | .waitStepExpiry | .energisingWindowExpiry | .crankWindowExpiry _
  | .syncWindowExpiry _ | .unloadWindowExpiry _ | .cooldownHoldExpiry _ | .minRunExpiry _ | .recallWindowExpiry _
  | .claimWaitExpiry _ | .claimLifetimeExpiry _ | .claimSettleExpiry _ | .openingRelayWindowExpiry _
  | .closingRelayWindowExpiry _ | .shedSettleExpiry | .restoreHoldOffExpiry | .linkSilent _ | .frameError _ _
  | .interByteTimeout _ | .frameRefused _ _ _ _ | .replyOverrun _ | .outboundFrameSent _ => none

/-! ## The frames the part sends (R170, R171) -/

/-- An index byte, from 1. -/
def indexByte (n : Nat) : Byte := BitVec.ofNat 8 (n + 1)

/-- The kind and payload of an order (09, order table and layouts). -/
def orderPayload : Order → Byte × List Byte
  | .start u => (0x40, [indexByte u.val])
  | .stop u => (0x41, [indexByte u.val])
  | .recall u => (0x42, [indexByte u.val])
  | .ceiling es => (0x48, es.flatMap fun e => indexByte e.1.val :: put16 (BitVec.ofNat 16 e.2))
  | .openSet fs => (0x50, fs.map fun f => indexByte f.val)
  | .close f => (0x51, [indexByte f.val])

/-- The payload of a reply: the status, then the fields (R170, R176). -/
def replyPayload (r : Reply) : List Byte := BitVec.ofNat 8 r.status.wire :: r.fields.flatMap WireField.bytes

/-- The bytes of a frame the part sends: a reply's kind is the request's plus 80h, an order's tag is 0 (09). To a
refused frame whose kind is 80h or above the sum wraps to a byte (log 59). -/
def outBytes : OutFrame → List Byte
  | .reply r => frameBytes (r.kind + 0x80) r.tag (replyPayload r)
  | .order o => frameBytes (orderPayload o).1 0 (orderPayload o).2

/-! ## The receive framer (R168) -/

/-- What a byte does to a framer: it goes on, or the frame ends good, with a wrong check, or too long. -/
inductive FramerResult where
  | more (f : Framer)
  | good (kind tag : Byte) (payload : List Byte)
  | wrongCheck (kind tag : Byte) (payload : List Byte)
  | tooLong
  deriving DecidableEq, Repr

/-- The bytes of a frame after its delimiter, judged as they stand at the time of the last (R168). -/
def judgeBytes (now : Time) (bs : List Byte) : FramerResult :=
  match bs with
  | kind :: tag :: len :: rest =>
    if 120 < len.toNat then .tooLong
    else if rest.length < len.toNat + 2 then .more (.inFrame bs now)
    else
      let payload := rest.take len.toNat
      let check := le16 rest len.toNat
      if check = frameCheck (kind :: tag :: len :: payload) then .good kind tag payload else .wrongCheck kind tag payload
  | _ => .more (.inFrame bs now)

/-- One byte taken by a framer at clock time `now` (R168). -/
def Framer.take (now : Time) (b : Byte) : Framer → FramerResult
  | .hunting => if b = 0xA5 then .more (.inFrame [] now) else .more .hunting
  | .inFrame bs _ => judgeBytes now (bs ++ [b])

/-- The command that the end of a frame on a line is (R28, R168, R169). -/
def commandOfResult (line : Line) : FramerResult → Option Instr
  | .more _ => none
  | .good kind tag p =>
    match line with
    | .station l => some (commandOfFrame l kind tag p)
    | .sample => some (.sample kind p true)
  | .wrongCheck kind _ p =>
    match line with
    | .station _ => some (.frameError line .wrongCheck)
    | .sample => some (.sample kind p false)
  | .tooLong => some (.frameError line .tooLong)

/-- A byte arrives on a line: a frame whose gap has passed is abandoned first, the framer takes the byte, and the command
its frame completes joins the queue (R168; logs 9, 14). -/
def receiveByte (line : Line) (b : Byte) (s : State) : State :=
  let s0 := interByteEnds line s
  let r := (framerOf s0 line).take s0.clock b
  let f := match r with
    | .more f => f
    | _ => .hunting
  let s1 := setFramer line f s0
  { s1 with pending := s1.pending ++ (commandOfResult line r).toList }

end Sys2Proof.Machine
end

