-- ==== Sys2Proof/Machine/Events.lean ====
section
/-! DEFINITION. The meanings of the commands no controller sends: power-on, the samples, the expiries of the part's timers,
and the events of its lines. An expiry whose timer is absent or not yet reached changes nothing (log 2). Every step ends
with the idle lines beginning their next frame. -/

namespace Sys2Proof.Machine

/-- The end of a command that was carried out: its next state, with each idle line sending (R171). -/
def completed (s : State) : Host.Outcome State Fault Refusal := .next (finish s)

/-! ## Power and entry (12) -/

/-- POWER ON (R188). -/
def execPowerOn (s : State) : Host.Outcome State Fault Refusal := completed (powerUp s)

/-- RESET INPUT: as power-on (R188). -/
def execResetInput (s : State) : Host.Outcome State Fault Refusal := completed (powerUp s)

/-- ENTRY WINDOW EXPIRY (R189). -/
def execEntryWindowExpiry (s : State) : Host.Outcome State Fault Refusal := completed (entryWindowEnds s)

/-! ## Samples (02) -/

/-- SAMPLE: a received sample (R28 to R36). -/
def execSample (kind : Byte) (payload : List Byte) (checkOk : Bool) (s : State) : Host.Outcome State Fault Refusal :=
  completed (receiveSample kind payload checkOk s)

/-- SAMPLE GAP TIMER EXPIRY (R31). -/
def execSampleGapTimerExpiry (s : State) : Host.Outcome State Fault Refusal := completed (gapTimerEnds s)

/-- HELD SAMPLE AGE STEP (R38). -/
def execHeldSampleAgeStep (s : State) : Host.Outcome State Fault Refusal := completed (ageStep s)

/-! ## Shedding and restoration timers (06, 07) -/

/-- STAGE TIMER EXPIRY (R121). -/
def execStageTimerExpiry (n : Fin 4) (s : State) : Host.Outcome State Fault Refusal := completed (stageTimerEnds n s)

/-- OPENING RELAY WINDOW EXPIRY (R113). -/
def execOpeningRelayWindowExpiry (k : Fin 24) (s : State) : Host.Outcome State Fault Refusal :=
  completed (openingWindowEnds k s)

/-- CLOSING RELAY WINDOW EXPIRY (R114). -/
def execClosingRelayWindowExpiry (k : Fin 24) (s : State) : Host.Outcome State Fault Refusal :=
  completed (closingWindowEnds k s)

/-- The shed settle timer expires (R125). -/
def settleEnds (s : State) : State :=
  if due s.clock s.shed.settle then { s with shed := { s.shed with settle := none } } else s

/-- SHED SETTLE EXPIRY (R125). -/
def execShedSettleExpiry (s : State) : Host.Outcome State Fault Refusal := completed (settleEnds s)

/-- The restore hold-off becomes absent, its expired state (R133). -/
def holdOffEnds (s : State) : State :=
  if due s.clock s.rest.holdOff then { s with rest := { s.rest with holdOff := none } } else s

/-- RESTORE HOLD-OFF EXPIRY (R133). -/
def execRestoreHoldOffExpiry (s : State) : Host.Outcome State Fault Refusal := completed (holdOffEnds s)

/-! ## Sequencer timers (08) -/

/-- The step timer of a step with a timeout expires: its on-timeout action (R157). -/
def stepTimerEnds (s : State) : State :=
  match currentAct s, pointedStep s with
  | some (.wait _), _ | none, _ | _, none => s
  | some _, some p =>
    if due s.clock s.seq.stepTimer then
      if p.failOnTimeout then enterFailed .stepFail s else finishStep .other s
    else s

/-- STEP TIMEOUT (R157). -/
def execStepTimeout (s : State) : Host.Outcome State Fault Refusal := completed (stepTimerEnds s)

/-- The time of a WAIT step has elapsed (R161). -/
def waitStepEnds (s : State) : State :=
  match currentAct s with
  | some (.wait _) => if due s.clock s.seq.stepTimer then finishStep .other s else s
  | _ => s

/-- WAIT STEP EXPIRY (R161). -/
def execWaitStepExpiry (s : State) : Host.Outcome State Fault Refusal := completed (waitStepEnds s)

/-- The energising window expires before the energised test passes (R156). -/
def energisingWindowEnds (s : State) : State :=
  if s.seq.phase = .energising && due s.clock s.seq.window then enterFailed .window s else s

/-- ENERGISING WINDOW EXPIRY (R156). -/
def execEnergisingWindowExpiry (s : State) : Host.Outcome State Fault Refusal := completed (energisingWindowEnds s)

/-! ## Genset windows and holds (03, 04) -/

/-- The phase timer of genset `i` has reached its expiry in state `st`. -/
def phaseEnded (s : State) (i : Fin 8) (st : UnitState) : Bool :=
  s.gens[i].state = st && due s.clock s.gens[i].phaseTimer

/-- The crank window expires: a start failure (R56, R73). -/
def crankWindowEnds (i : Fin 8) (s : State) : State :=
  if phaseEnded s i .starting then startFailure i true .window s else s

/-- CRANK WINDOW EXPIRY (R56). -/
def execCrankWindowExpiry (i : Fin 8) (s : State) : Host.Outcome State Fault Refusal := completed (crankWindowEnds i s)

/-- The sync window expires: a start failure (R56, R73). -/
def syncWindowEnds (i : Fin 8) (s : State) : State :=
  if phaseEnded s i .synchronising then startFailure i true .window s else s

/-- SYNC WINDOW EXPIRY (R56). -/
def execSyncWindowExpiry (i : Fin 8) (s : State) : Host.Outcome State Fault Refusal := completed (syncWindowEnds i s)

/-- A stop that was not confirmed: the unit returns to Online, with a StopFailed notice (R57). -/
def stopFails (i : Fin 8) (s : State) : State :=
  let s1 := setUnitState i .online .window s
  unitSettled (planAtUnitOnline (notify [.S] .stopFailed (i.val + 1) .none (.code .none) 0 s1))

/-- The unload window expires (R57). -/
def unloadWindowEnds (i : Fin 8) (s : State) : State := if phaseEnded s i .unloading then stopFails i s else s

/-- UNLOAD WINDOW EXPIRY (R57). -/
def execUnloadWindowExpiry (i : Fin 8) (s : State) : Host.Outcome State Fault Refusal := completed (unloadWindowEnds i s)

/-- The cooldown hold expires (R58). -/
def cooldownHoldEnds (i : Fin 8) (s : State) : State :=
  if phaseEnded s i .cooldown then endCooldown i .window s else s

/-- COOLDOWN HOLD EXPIRY (R58). -/
def execCooldownHoldExpiry (i : Fin 8) (s : State) : Host.Outcome State Fault Refusal := completed (cooldownHoldEnds i s)

/-- The min-run timer becomes elapsed (R48). -/
def minRunEnds (i : Fin 8) (s : State) : State :=
  match s.gens[i].minRun with
  | .running t => if reached s.clock t then modGen i (fun g => { g with minRun := .elapsed }) s else s
  | .absent | .elapsed => s

/-- MIN-RUN EXPIRY (R48). -/
def execMinRunExpiry (i : Fin 8) (s : State) : Host.Outcome State Fault Refusal := completed (minRunEnds i s)

/-- The recall window expires: a RecallExpired notice, and the unit stays Local (R84). -/
def recallWindowEnds (i : Fin 8) (s : State) : State :=
  if due s.clock s.gens[i].recallWindow then
    notify [.S] .recallExpired (i.val + 1) .none (.code .none) 0 (modGen i (fun g => { g with recallWindow := none }) s)
  else s

/-- RECALL WINDOW EXPIRY (R84). -/
def execRecallWindowExpiry (i : Fin 8) (s : State) : Host.Outcome State Fault Refusal := completed (recallWindowEnds i s)

/-! ## Claim expiries (01) -/

/-- CLAIM WAIT EXPIRY (R13). -/
def execClaimWaitExpiry (id : Byte) (s : State) : Host.Outcome State Fault Refusal := completed (claimWaitEnds id.toNat s)

/-- CLAIM LIFETIME EXPIRY (R15). -/
def execClaimLifetimeExpiry (id : Byte) (s : State) : Host.Outcome State Fault Refusal :=
  completed (claimLifetimeEnds id.toNat s)

/-- CLAIM SETTLE EXPIRY (R16). -/
def execClaimSettleExpiry (id : Byte) (s : State) : Host.Outcome State Fault Refusal := completed (claimSettles id.toNat s)

/-! ## Line events (09) -/

/-- LINK SILENT (R175). -/
def execLinkSilent (l : Link) (s : State) : Host.Outcome State Fault Refusal := completed (silenceEnds l s)

/-- A frame of a line was abandoned for its check or its length; one of the sample input abandoned for its check is a
malformed sample besides. The byte that ended the frame has put the framer back to hunting, and a frame begun since stands
(R28, R168; logs 14, 15). -/
def frameFails (line : Line) (why : FrameFault) (s : State) : State :=
  match line, why with
  | .sample, .wrongCheck => receiveSample 0 [] false s
  | .sample, .tooLong => frameError .sample s
  | .station l, _ => frameError (.station l) s

/-- FRAME ERROR (R168). -/
def execFrameError (line : Line) (why : FrameFault) (s : State) : Host.Outcome State Fault Refusal :=
  completed (frameFails line why s)

/-- INTER-BYTE TIMEOUT: a partial frame whose gap has passed is dropped; it is a frame error and no judgement (R28, R168;
log 14). -/
def execInterByteTimeout (line : Line) (s : State) : Host.Outcome State Fault Refusal := completed (interByteEnds line s)

/-- A good frame that the checks of R169 refuse is answered with its refusal; a frame they pass is not this event. -/
def refusedFrame (l : Link) (kind tag : Byte) (payload : List Byte) (s : State) : State :=
  match frameRefusal l kind payload with
  | some st => request l kind tag (refuse st) s
  | none => s

/-- FRAME REFUSED (R169). -/
def execFrameRefused (l : Link) (kind tag : Byte) (payload : List Byte) (s : State) : Host.Outcome State Fault Refusal :=
  completed (refusedFrame l kind tag payload s)

/-- A good frame completed while 8 replies wait (R170). -/
def replyOverruns (l : Link) (s : State) : State := if repliesFull s l then overrun l (goodFrame l s) else s

/-- REPLY OVERRUN (R170). -/
def execReplyOverrun (l : Link) (s : State) : Host.Outcome State Fault Refusal := completed (replyOverruns l s)

/-- OUTBOUND FRAME SENT (R171). -/
def execOutboundFrameSent (l : Link) (s : State) : Host.Outcome State Fault Refusal := completed (frameSent l s)

end Sys2Proof.Machine
end

