-- ==== Sys2Proof/Machine/LinkRequests.lean ====
section
/-! DEFINITION. The meanings of the requests that more than one link may make: READ, FETCH NOTICE, PRESENCE and CANCEL
CLAIM (09, R174, R176, R177; 01, R19). -/

namespace Sys2Proof.Machine

/-- READ (R176). -/
def execRead (l : Link) (tag selector index : Byte) (s : State) : Host.Outcome State Fault Refusal :=
  completed (request l 0x01 tag (readAct selector index) s)

/-- FETCH NOTICE (R174). -/
def execFetchNotice (l : Link) (tag : Byte) (s : State) : Host.Outcome State Fault Refusal :=
  completed (request l 0x11 tag (fetchAct l) s)

/-- PRESENCE (R177). -/
def execPresence (l : Link) (tag : Byte) (s : State) : Host.Outcome State Fault Refusal :=
  completed (request l 0x12 tag (presenceAct l) s)

/-- The holder a link is, where it may hold claims. -/
def linkHolder : Link → Option Holder
  | .S => some .linkS
  | .F => some .linkF
  | .G | .P => none

/-- CANCEL CLAIM of a link that may make it (R19). -/
def cancelAct (h : Holder) (id : Byte) (s : State) : State × Answer :=
  if id = 0 then refuse .refusedRange s
  else
    match claimById s id.toNat with
    | none => refuse .refusedState s
    | some c =>
      if c.holder = h then (dropClaims (fun x => x.id = id.toNat) s, answer .done) else refuse .refusedRights s

/-- CANCEL CLAIM, refused for rights on links G and P (R19, R169). -/
def cancelFrom (l : Link) (id : Byte) (s : State) : State × Answer :=
  match linkHolder l with
  | some h => cancelAct h id s
  | none => refuse .refusedRights s

/-- CANCEL CLAIM (R19). -/
def execCancelClaim (l : Link) (tag id : Byte) (s : State) : Host.Outcome State Fault Refusal :=
  completed (request l 0x09 tag (cancelFrom l id) s)

end Sys2Proof.Machine
end

