-- ==== Sys2Proof/Machine/SupervisorRequests.lean ====
section
/-! DEFINITION. The meanings of the requests of link S (03, 04, 01, 08, 02, 11, 07, 06, 12). -/

namespace Sys2Proof.Machine

/-! ## Tables and the duty ring -/

/-- SET (R179). -/
def execSet (tag : Byte) (payload : List Byte) (s : State) : Host.Outcome State Fault Refusal :=
  completed (request .S 0x02 tag (setAct payload) s)

/-- The ring eight indices spell: each of G1 to G8 once, or none (R69). -/
def ringOf (indices : List Byte) : Option (List (Fin 8)) :=
  let r := indices.filterMap unitIndex
  if r.length = 8 ∧ r.Nodup then some r else none

/-- SET RING (R69); a list of another length has the wrong length (R169). -/
def setRingAct (indices : List Byte) (s : State) : State × Answer :=
  if indices.length ≠ 8 then refuse .refusedLength s
  else
    match ringOf indices with
    | some r => (writeThrough (fun t => { t with ring := r }) s, answer .done)
    | none => refuse .refusedRange s

/-- SET RING (R69). -/
def execSetRing (tag : Byte) (indices : List Byte) (s : State) : Host.Outcome State Fault Refusal :=
  completed (request .S 0x03 tag (setRingAct indices) s)

/-! ## Gensets -/

/-- A request that names one unit: an index outside 1..8 is refused (R70 to R72, R78, R83, R84). -/
def onUnit (unit : Byte) (act : Fin 8 → State → State × Answer) (s : State) : State × Answer :=
  match unitIndex unit with
  | some i => act i s
  | none => refuse .refusedRange s

/-- The conditions of START UNIT on the state (R70). -/
def startAllowed (s : State) (i : Fin 8) : Bool :=
  s.entry.complete && s.seq.phase = .idle && linkActive s .G && candidate s i

/-- START UNIT (R70). -/
def startUnitAct (i : Fin 8) (s : State) : State × Answer :=
  if !startAllowed s i then refuse .refusedState s
  else if (s.arb.get .operator).isSome then refuse .refusedBusy s
  else
    let s1 := raiseAndServe .operator 0 (some i) s
    (s1, answer (if s1.gens[i].state = .starting then .done else .pending))

/-- START UNIT (R70). -/
def execStartUnit (tag unit : Byte) (s : State) : Host.Outcome State Fault Refusal :=
  completed (request .S 0x04 tag (onUnit unit startUnitAct) s)

/-- STOP UNIT: quality first, then the state, then the last coordinated unit (R71). -/
def stopUnitAct (i : Fin 8) (s : State) : State × Answer :=
  if s.lock.quality ≠ .full then refuse .refusedQuality s
  else if !(canStop s i && s.seq.phase = .idle) then refuse .refusedState s
  else if (coordUnits s).length ≤ 1 then refuse .refusedReserve s
  else (issueStop i s, answer .done)

/-- STOP UNIT (R71). -/
def execStopUnit (tag unit : Byte) (s : State) : Host.Outcome State Fault Refusal :=
  completed (request .S 0x05 tag (onUnit unit stopUnitAct) s)

/-- The count and the flag cleared (R72). -/
def GensetCfg.cleared (g : GensetCfg) : GensetCfg := { g with failCount := 0, lockout := false }

/-- CLEAR LOCKOUT (R72). -/
def clearLockoutAct (i : Fin 8) (s : State) : State × Answer :=
  if !s.cfg.gensets[i].present then refuse .refusedState s
  else
    let s1 := modGensetCfg i GensetCfg.cleared s
    (if s.gens[i].state = .lockedOut then unitSettled (setUnitState i .stopped .clearLockout s1) else s1, answer .done)

/-- CLEAR LOCKOUT (R72). -/
def execClearLockout (tag unit : Byte) (s : State) : Host.Outcome State Fault Refusal :=
  completed (request .S 0x06 tag (onUnit unit clearLockoutAct) s)

/-- The conditions of RECALL UNIT on the state (R84). -/
def recallAllowed (s : State) (i : Fin 8) : Bool :=
  s.cfg.gensets[i].present && s.gens[i].authority = .byPlant && s.entry.complete && linkActive s .G

/-- RECALL UNIT (R84). -/
def recallUnitAct (i : Fin 8) (s : State) : State × Answer :=
  if !recallAllowed s i then refuse .refusedState s
  else if s.gens[i].recallWindow.isSome then refuse .refusedBusy s
  else
    (modGen i (fun g => { g with recallWindow := some (after s.clock Config.recallWindowMs) })
      (queueUnitOrder (.recall i) i s), answer .done)

/-- RECALL UNIT (R84). -/
def execRecallUnit (tag unit : Byte) (s : State) : Host.Outcome State Fault Refusal :=
  completed (request .S 0x07 tag (onUnit unit recallUnitAct) s)

/-! ## Claims -/

/-- The status of a claim's answer (R10, R11). -/
def ClaimAnswer.status : ClaimAnswer → Status
  | .granted _ => .done
  | .pending _ => .pending
  | .refused st => st

/-- The claim id of an answer, 0 when refused. -/
def ClaimAnswer.id : ClaimAnswer → Nat
  | .granted id | .pending id => id
  | .refused _ => 0

/-- A lifetime of 0 takes the claim lifetime setting (R9). -/
def lifetimeOr (s : State) (n : Nat) : Nat := if n = 0 then s.cfg.settings.book.claimLifetime else n

/-- The ranges of CLAIM RESERVE (R18). -/
def reserveInRange (amount wait lifetime : Nat) : Bool := 1 ≤ amount && amount ≤ 50000 && wait ≤ 120 && lifetime ≤ 600

/-- The own refusal of CLAIM RESERVE (R18). -/
def reserveRefusal (s : State) : Option Status :=
  if s.seq.phase = .clearing || s.seq.phase = .energising then some .refusedState else none

/-- CLAIM RESERVE: every reply carries the claim id and the margin after the request (R18). -/
def claimReserveAct (amount wait lifetime : Nat) (s : State) : State × Answer :=
  let r := if reserveInRange amount wait lifetime then
      askClaim ⟨.linkS, .reserve, amount, wait, lifetimeOr s lifetime, decide (lifetime = 0)⟩ (reserveRefusal s) s
    else (s, ClaimAnswer.refused .refusedRange)
  (r.1, ⟨r.2.status, [u1 r.2.id, i4 r.1.book.terms.M]⟩)

/-- CLAIM RESERVE (R18). -/
def execClaimReserve (tag : Byte) (amount : BitVec 16) (wait : Byte) (lifetime : BitVec 16) (s : State) :
    Host.Outcome State Fault Refusal :=
  completed (request .S 0x08 tag (claimReserveAct amount.toNat wait.toNat lifetime.toNat) s)

/-! ## Black start -/

/-- BLACK START BEGIN (R150). -/
def beginAct (s : State) : State × Answer :=
  if s.entry.complete && s.seq.phase = .idle then
    (enterClearing .begin false (dropOnlineUnits .begin s), answer .done)
  else refuse .refusedState s

/-- BLACK START, action Begin (R150). -/
def execBlackStartBegin (tag : Byte) (s : State) : Host.Outcome State Fault Refusal :=
  completed (request .S 0x0A tag beginAct s)

/-- BLACK START, action Abort (R166). -/
def execBlackStartAbort (tag : Byte) (s : State) : Host.Outcome State Fault Refusal :=
  completed (request .S 0x0A tag (fun s => (abortBlackStart s, answer .done)) s)

/-- BLACK START RETRY (R165). -/
def retryAct (s : State) : State × Answer :=
  if s.seq.phase = .failed then (enterClearing .retry false s, answer .done) else refuse .refusedState s

/-- BLACK START, action Retry (R165). -/
def execBlackStartRetry (tag : Byte) (s : State) : Host.Outcome State Fault Refusal :=
  completed (request .S 0x0A tag retryAct s)

/-! ## Samples, tallies, restoration, feeders, restart -/

/-- RESYNC SAMPLES (R43). -/
def execResyncSamples (tag : Byte) (s : State) : Host.Outcome State Fault Refusal :=
  completed (request .S 0x0B tag (fun s => (resync s, answer .done)) s)

/-- The tallies after a SNAPSHOT (R186). -/
def TallyUnit.snapshot (zero : Bool) (now : Time) (t : TallyUnit) : TallyUnit where
  live := if zero then Vector.replicate 16 0 else t.live
  snap := t.live
  snapTime := some now

/-- SNAPSHOT (R186). -/
def snapshotAct (option : Byte) (s : State) : State × Answer :=
  if 1 < option.toNat then refuse .refusedRange s
  else ({ s with tally := s.tally.snapshot (option = 1) s.clock }, ⟨.done, [u4 s.clock.toNat]⟩)

/-- SNAPSHOT (R186). -/
def execSnapshot (tag option : Byte) (s : State) : Host.Outcome State Fault Refusal :=
  completed (request .S 0x0C tag (snapshotAct option) s)

/-- A tally value in its five bytes (R187). -/
def tallyField (n : Nat) : WireField := ⟨5, n⟩

/-- READ TALLY (R187). -/
def readTallyAct (number : Byte) (s : State) : State × Answer :=
  if number = 0 then (s, ⟨.done, optTime s.tally.snapTime :: s.tally.snap.toList.map tallyField⟩)
  else if h : 1 ≤ number.toNat ∧ number.toNat ≤ 16 then
    let i : Fin 16 := ⟨number.toNat - 1, by omega⟩
    (s, ⟨.done, [optTime s.tally.snapTime, tallyField s.tally.snap[i]] ++ s.cfg.tallies[i].fields⟩)
  else refuse .refusedRange s

/-- READ TALLY (R187). -/
def execReadTally (tag number : Byte) (s : State) : Host.Outcome State Fault Refusal :=
  completed (request .S 0x0D tag (readTallyAct number) s)

/-- RESTORE HOLD (R141). -/
def restoreHoldAct (value : Byte) (s : State) : State × Answer :=
  if 1 < value.toNat then refuse .refusedRange s
  else ({ s with rest := { s.rest with hold := value = 1 } }, answer .done)

/-- RESTORE HOLD (R141). -/
def execRestoreHold (tag value : Byte) (s : State) : Host.Outcome State Fault Refusal :=
  completed (request .S 0x0E tag (restoreHoldAct value) s)

/-- ADOPT FEEDER of an OpenHeld feeder: Shed, with its shed cause and its time opened kept (R118). -/
def adoptFeeder (k : Fin 24) (s : State) : State :=
  feedersSettled (modFeeder k (fun f => { f with timeOpened := s.feeders[k].timeOpened })
    (setFeederState k .shed .adopt s))

/-- ADOPT FEEDER (R118). -/
def adoptFeederAct (feeder : Byte) (s : State) : State × Answer :=
  match feederIndex feeder with
  | none => refuse .refusedRange s
  | some k => if feederIn s .openHeld k then (adoptFeeder k s, answer .done) else refuse .refusedState s

/-- ADOPT FEEDER (R118). -/
def execAdoptFeeder (tag feeder : Byte) (s : State) : Host.Outcome State Fault Refusal :=
  completed (request .S 0x0F tag (adoptFeederAct feeder) s)

/-- RESTART: its reply stays first in link S's queue through the entry it starts (R178, R191). -/
def restartRequest (tag : Byte) (s : State) : State :=
  let s1 := goodFrame .S s
  if repliesFull s1 .S then overrun .S s1 else restartPart (replyTo 0x10 tag (answer .done)) s1

/-- RESTART (R191). -/
def execRestart (tag : Byte) (s : State) : Host.Outcome State Fault Refusal := completed (restartRequest tag s)

end Sys2Proof.Machine
end

