-- ==== Sys2Proof/Machine/PlantRequests.lean ====
section
/-! DEFINITION. The meanings of the requests of links G, P and F (03, 04, 05, 06, 07). -/

namespace Sys2Proof.Machine

/-- The status of a list request: Clamped when an entry was skipped or a value clamped (R51, R53, R90, R117). -/
def listStatus (clamped : Bool) : Answer := answer (if clamped then .clamped else .done)

/-! ## Link G -/

/-- UNIT REPORT (R49). -/
def unitReportAct (unit event : Byte) (s : State) : State × Answer :=
  match unitIndex unit, unitEvent event with
  | some i, some e =>
    if s.cfg.gensets[i].present then (takeUnitReport i e s, answer .done) else refuse .refusedState s
  | _, _ => refuse .refusedRange s

/-- UNIT REPORT (R49). -/
def execUnitReport (tag unit event : Byte) (s : State) : Host.Outcome State Fault Refusal :=
  completed (request .G 0x20 tag (unitReportAct unit event) s)

/-- The entries of a UNIT STATUS, in list order; `seen` holds the units already taken. Answers the state and whether an
entry was skipped (R51). -/
def takeUnitEntries : List UnitEntry → List (Fin 8) → State → State × Bool
  | [], _, s => (s, false)
  | e :: es, seen, s =>
    match unitIndex e.unit with
    | none => ((takeUnitEntries es seen s).1, true)
    | some i =>
      if !s.cfg.gensets[i].present || seen.contains i then ((takeUnitEntries es seen s).1, true)
      else takeUnitEntries es (i :: seen) (takeUnitStatus i (unitStanding e) s)

/-- UNIT STATUS; resolution is judged when the list has been taken (R51, R189; log 29). -/
def unitStatusAct (es : List UnitEntry) (s : State) : State × Answer :=
  if 8 < es.length then refuse .refusedLength s
  else
    let r := takeUnitEntries es [] s
    (judgeResolution r.1, listStatus r.2)

/-- UNIT STATUS (R51). -/
def execUnitStatus (tag : Byte) (es : List UnitEntry) (s : State) : Host.Outcome State Fault Refusal :=
  completed (request .G 0x21 tag (unitStatusAct es) s)

/-- The entries of an AVAILABILITY, in list order, with whether one was skipped or taken as Unavailable (R53). -/
def takeAvailEntries : List AvailEntry → State → State × Bool
  | [], s => (s, false)
  | e :: es, s =>
    match unitIndex e.unit with
    | none => ((takeAvailEntries es s).1, true)
    | some i =>
      if !s.cfg.gensets[i].present then ((takeAvailEntries es s).1, true)
      else
        let r := takeAvailEntries es (modGen i (fun g => { g with available := e.declaration = 1 }) s)
        (r.1, r.2 || (e.declaration ≠ 0 && e.declaration ≠ 1))

/-- AVAILABILITY; the Start Arbiter serves when the list has changed a unit's availability (R53, R66). -/
def availabilityAct (es : List AvailEntry) (s : State) : State × Answer :=
  if 8 < es.length then refuse .refusedLength s
  else
    let r := takeAvailEntries es s
    (if r.1.gens = s.gens then r.1 else unitSettled r.1, listStatus r.2)

/-- AVAILABILITY (R53). -/
def execAvailability (tag : Byte) (es : List AvailEntry) (s : State) : Host.Outcome State Fault Refusal :=
  completed (request .G 0x22 tag (availabilityAct es) s)

/-- The headroom a release takes out of the book and the claim that covers it, R_k - P_k (R78, R80). DEDUCED, log 71: P_k is
the last output field, as R78 says, also where R9 speaks of it. -/
def releaseHeadroom (s : State) (i : Fin 8) : Nat := s.cfg.gensets[i].rating - s.gens[i].lastOutput

/-- A release that waits for cover: a ReleaseCover claim is asked (R80). -/
def releaseWaits (i : Fin 8) (s : State) : State × Answer :=
  let b := s.cfg.settings.book
  match askClaim ⟨.releaseCover, .unit i, max 1 (releaseHeadroom s i), b.releaseWait, b.claimLifetime, true⟩ none s with
  | (s1, .pending id) => (modGen i (fun g => { g with pendingRelease := some id }) s1, ⟨.pending, [u1 id]⟩)
  | (s1, .granted id) => (unitSettled (handOver i .grant id s1), answer .done)
  | (s1, .refused st) => (s1, answer st)

/-- A unit handed over at once (R79). -/
def releaseNow (i : Fin 8) (s : State) : State × Answer := (unitSettled (handOver i .release 0 s), answer .done)

/-- RELEASE UNIT, the cases in order (R78). -/
def releaseUnitAct (i : Fin 8) (s : State) : State × Answer :=
  let g := s.gens[i]
  if !s.cfg.gensets[i].present then refuse .refusedState s
  else if g.authority = .byPlant then refuse .done s
  else if [UnitState.unknown, .starting, .synchronising, .unloading].contains g.state then refuse .refusedState s
  else if s.seq.phase ≠ .idle then refuse .refusedState s
  else if g.pendingRelease.isSome then refuse .refusedState s
  else if g.state ≠ .online then releaseNow i s
  else if !s.entry.complete then refuse .refusedQuality s
  else if s.lock.quality = .full && 0 ≤ s.book.terms.M - releaseHeadroom s i then releaseNow i s
  else releaseWaits i s

/-- RELEASE UNIT (R78). -/
def execReleaseUnit (tag unit : Byte) (s : State) : Host.Outcome State Fault Refusal :=
  completed (request .G 0x23 tag (onUnit unit releaseUnitAct) s)

/-- The state a returned unit takes from its last breaker state; an Unknown one stays so until its status entry (R83, R46;
log 40). -/
def returnedState (s : State) (i : Fin 8) : UnitState :=
  if s.gens[i].state = .unknown then .unknown
  else if s.gens[i].breakerClosed then .online
  else stoppedState s i

/-- The min-run timer of a returned unit, set afresh when it is Online (R83). -/
def returnedMinRun (s : State) (i : Fin 8) : MinRun := if s.gens[i].state = .online then freshMinRun s else .absent

/-- A Local unit is returned to Coordinated (R83). -/
def returnLocal (i : Fin 8) (s : State) : State :=
  let s1 := modGen i (fun g => { g with authority := .coordinated, recallWindow := none }) s
  let s2 := setUnitState i (returnedState s i) .return (notifyUnitAuthority i .coordinated .return 0 s1)
  let s3 := modGen i (fun g => { g with minRun := returnedMinRun s2 i }) s2
  unitSettled (planAtUnitOnline (recompute s3))

/-- RETURN UNIT (R83). -/
def returnUnitAct (i : Fin 8) (s : State) : State × Answer :=
  if !s.cfg.gensets[i].present then refuse .refusedState s
  else
    match s.gens[i].authority, s.gens[i].pendingRelease with
    | .byPlant, _ => (returnLocal i s, answer .done)
    | .coordinated, some id =>
      (endRelease i .withdrawn .return id (dropClaims (fun c => c.id = id) s), answer .done)
    | .coordinated, none => refuse .done s

/-- RETURN UNIT (R83). -/
def execReturnUnit (tag unit : Byte) (s : State) : Host.Outcome State Fault Refusal :=
  completed (request .G 0x24 tag (onUnit unit returnUnitAct) s)

/-! ## Link P -/

/-- The entries of a PV REPORT, in list order; `seen` holds the groups already taken (R90). -/
def takePvEntries : List PvEntry → List (Fin 8) → State → State × Bool
  | [], _, s => (s, false)
  | e :: es, seen, s =>
    match unitIndex e.group with
    | none => ((takePvEntries es seen s).1, true)
    | some g =>
      if seen.contains g then ((takePvEntries es seen s).1, true)
      else
        let r := takePvEntries es (g :: seen) (modPv g (reportGroup s g e) s)
        (r.1, r.2 || s.cfg.pvs[g].rating < e.available.toNat)

/-- PV REPORT (R90). -/
def pvReportAct (es : List PvEntry) (s : State) : State × Answer :=
  if 8 < es.length then refuse .refusedLength s
  else
    let r := takePvEntries es [] s
    (r.1, listStatus r.2)

/-- PV REPORT (R90). -/
def execPvReport (tag : Byte) (es : List PvEntry) (s : State) : Host.Outcome State Fault Refusal :=
  completed (request .P 0x28 tag (pvReportAct es) s)

/-- A request that names one PV group. -/
def onGroup (group : Byte) (act : Fin 8 → State → State × Answer) (s : State) : State × Answer :=
  match unitIndex group with
  | some g => act g s
  | none => refuse .refusedRange s

/-- An AuthorityOutcome notice for a PV group: links P and S, index 9..16 (R77). -/
def notifyGroupAuthority (g : Fin 8) (o : OutcomeWord) (why : Cause) (s : State) : State :=
  notify [.P, .S] .authorityOutcome (g.val + 9) (.outcome o) (.code why) 0 s

/-- RELEASE GROUP: no ceiling, no cap, and no entry in an unsent CEILING order (R85). -/
def releaseGroupAct (g : Fin 8) (s : State) : State × Answer :=
  if s.pvs[g].authority = .byPlant then refuse .done s
  else
    let s1 := modPv g (fun p => { p with authority := .byPlant, issued := none, cap := none }) s
    let s2 := modLink .P (fun c => { c with orders := c.orders.filterMap (Order.withoutGroup g) }) s1
    (recompute (notifyGroupAuthority g .byPlant .release s2), answer .done)

/-- RELEASE GROUP (R85). -/
def execReleaseGroup (tag group : Byte) (s : State) : Host.Outcome State Fault Refusal :=
  completed (request .P 0x29 tag (onGroup group releaseGroupAct) s)

/-- A returned group's record: its ceiling at its present output, or 0 under cap 0 while a black start runs (R86). -/
def returnedGroup (s : State) (g : Fin 8) (p : PvGroup) : PvGroup :=
  if s.seq.phase = .idle then { p with authority := .coordinated, issued := some (pvClamped s g) }
  else { p with authority := .coordinated, issued := some 0, cap := some 0 }

/-- RETURN GROUP (R86). -/
def returnGroupAct (g : Fin 8) (s : State) : State × Answer :=
  if s.pvs[g].authority = .coordinated then refuse .done s
  else
    let s1 := modPv g (returnedGroup s g) s
    let s2 := { s1 with cur := { s1.cur with fullOwed := true } }
    (recompute (notifyGroupAuthority g .coordinated .return s2), answer .done)

/-- RETURN GROUP (R86). -/
def execReturnGroup (tag group : Byte) (s : State) : Host.Outcome State Fault Refusal :=
  completed (request .P 0x2A tag (onGroup group returnGroupAct) s)

/-! ## Link F -/

/-- BREAKER REPORT for a present feeder (R115). -/
def takeBreakerReport (k : Fin 24) (closed : Bool) (s : State) : State :=
  if closed then reportClosed k .report s else reportOpen k .report s

/-- BREAKER REPORT (R115). -/
def breakerReportAct (feeder event : Byte) (s : State) : State × Answer :=
  match feederIndex feeder, breakerEvent event with
  | some k, some closed =>
    if s.cfg.feeders[k].present then (takeBreakerReport k closed s, answer .done) else refuse .refusedState s
  | _, _ => refuse .refusedRange s

/-- BREAKER REPORT (R115). -/
def execBreakerReport (tag feeder event : Byte) (s : State) : Host.Outcome State Fault Refusal :=
  completed (request .F 0x30 tag (breakerReportAct feeder event) s)

/-- The measured load of an entry was clamped: it was read, for a Closed feeder, and it is above 20,000 kW (R117). -/
def loadClamped (k : Fin 24) (load : Nat) (s : State) : Bool := s.feeders[k].state = .closed && 20000 < load

/-- The entries of a FEEDER STATUS, in list order; `seen` holds the feeders already taken (R117). -/
def takeFeederEntries : List FeederEntry → List (Fin 24) → State → State × Bool
  | [], _, s => (s, false)
  | e :: es, seen, s =>
    match feederIndex e.feeder with
    | none => ((takeFeederEntries es seen s).1, true)
    | some k =>
      if !s.cfg.feeders[k].present || seen.contains k then ((takeFeederEntries es seen s).1, true)
      else
        let s1 := takeFeederStatus k (entryClosed e) e.load.toNat s
        let r := takeFeederEntries es (k :: seen) s1
        (r.1, r.2 || loadClamped k e.load.toNat s1)

/-- FEEDER STATUS; resolution is judged when the list has been taken (R117, R189; log 29). -/
def feederStatusAct (es : List FeederEntry) (s : State) : State × Answer :=
  if 24 < es.length then refuse .refusedLength s
  else
    let r := takeFeederEntries es [] s
    (judgeResolution r.1, listStatus r.2)

/-- FEEDER STATUS (R117). -/
def execFeederStatus (tag : Byte) (es : List FeederEntry) (s : State) : Host.Outcome State Fault Refusal :=
  completed (request .F 0x31 tag (feederStatusAct es) s)

/-- The own refusals of CLAIM FEEDER (R142). -/
def claimFeederRefusal (s : State) (k : Fin 24) : Option Status :=
  if !s.cfg.feeders[k].present || [FeederState.unknown, .closed, .opening, .closing].contains s.feeders[k].state
      || anyLatched s || s.seq.phase ≠ .idle then
    some .refusedState
  else none

/-- CLAIM FEEDER of a feeder in range (R142). -/
def claimFeederOf (k : Fin 24) (wait lifetime : Nat) (s : State) : State × Answer :=
  let need := pickupNeed s k
  let r := askClaim ⟨.linkF, .feeder k, need, wait, lifetimeOr s lifetime, decide (lifetime = 0)⟩ (claimFeederRefusal s k) s
  (r.1, ⟨r.2.status, [u1 r.2.id, u2 need, i4 r.1.book.terms.M]⟩)

/-- CLAIM FEEDER refused for a value outside its range: the claim id is absent, the amount is that of the feeder where it
names one, and absent otherwise (R142; log 32). -/
def claimFeederOutOfRange (k : Option (Fin 24)) (s : State) : State × Answer :=
  (s, ⟨.refusedRange, [u1 0, optField 2 (k.map (pickupNeed s)), i4 s.book.terms.M]⟩)

/-- CLAIM FEEDER (R142). -/
def claimFeederAct (feeder : Byte) (wait lifetime : Nat) (s : State) : State × Answer :=
  match feederIndex feeder with
  | some k =>
    if wait ≤ 120 && lifetime ≤ 600 then claimFeederOf k wait lifetime s else claimFeederOutOfRange (some k) s
  | none => claimFeederOutOfRange none s

/-- CLAIM FEEDER (R142). -/
def execClaimFeeder (tag feeder wait : Byte) (lifetime : BitVec 16) (s : State) : Host.Outcome State Fault Refusal :=
  completed (request .F 0x32 tag (claimFeederAct feeder wait.toNat lifetime.toNat) s)

end Sys2Proof.Machine
end

