-- ==== Sys2Proof/Machine/Tick.lean ====
section
/-! DEFINITION. The millisecond of the Coordinator Clock: what passes on an empty queue. The clock counts, the available
ages step, and each timer that has reached its expiry joins the queue as its command (00_scope.md, Time; log 1). -/

namespace Sys2Proof.Machine

/-- The available age of a group rises by a 100 ms step when its time has come (R91; log 38). -/
def stepAge (now : Time) (p : PvGroup) : PvGroup :=
  match p.ageNext with
  | some t => if reached now t then { p with age := p.age.map (· + 1), ageNext := some (after t 100) } else p
  | none => p

/-- The clock counts one millisecond (R188). -/
def countClock (s : State) : State := { s with clock := s.clock + 1, pvs := s.pvs.map (stepAge (s.clock + 1)) }

/-- One command when a condition holds. -/
def oneIf (b : Bool) (i : Instr) : List Instr := if b then [i] else []

/-- The expiry of a genset's phase timer, by its state. -/
def phaseEvent (i : Fin 8) : UnitState → List Instr
  | .starting => [.crankWindowExpiry i]
  | .synchronising => [.syncWindowExpiry i]
  | .unloading => [.unloadWindowExpiry i]
  | .cooldown => [.cooldownHoldExpiry i]
  | .unknown | .stopped | .online | .lockedOut => []

/-- The min-run timer has reached its expiry. -/
def minRunDue (now : Time) : MinRun → Bool
  | .running t => reached now t
  | .absent | .elapsed => false

/-- The expiries due of a genset. -/
def unitEvents (s : State) (i : Fin 8) : List Instr :=
  (if due s.clock s.gens[i].phaseTimer then phaseEvent i s.gens[i].state else [])
    ++ oneIf (minRunDue s.clock s.gens[i].minRun) (.minRunExpiry i)
    ++ oneIf (due s.clock s.gens[i].recallWindow) (.recallWindowExpiry i)

/-- The expiry due of a claim. -/
def claimEvent (now : Time) (c : Claim) : List Instr :=
  let id := BitVec.ofNat 8 c.id
  match c.state with
  | .pending t => oneIf (reached now t) (.claimWaitExpiry id)
  | .granted t => oneIf (reached now t) (.claimLifetimeExpiry id)
  | .applied t => oneIf (reached now t) (.claimSettleExpiry id)

/-- The expiry due of a feeder's relay window, by its state. -/
def feederEvent (s : State) (k : Fin 24) : List Instr :=
  if due s.clock s.feeders[k].relayWindow then
    match s.feeders[k].state with
    | .opening => [.openingRelayWindowExpiry k]
    | .closing => [.closingRelayWindowExpiry k]
    | .unknown | .closed | .shed | .openHeld | .faulted => []
  else []

/-- The expiry of the step timer, by the current step. -/
def stepEvent (s : State) : List Instr :=
  if due s.clock s.seq.stepTimer then
    match currentAct s with
    | some (.wait _) => [.waitStepExpiry]
    | some _ => [.stepTimeout]
    | none => []
  else []

/-- Every expiry due at the clock time. -/
def dueEvents (s : State) : List Instr :=
  oneIf (due s.clock s.entry.window) .entryWindowExpiry
    ++ oneIf (due s.clock s.lock.gapNext) .sampleGapTimerExpiry
    ++ oneIf (due s.clock s.lock.ageNext) .heldSampleAgeStep
    ++ (List.finRange 4).flatMap (fun n => oneIf (due s.clock s.shed.timers[n]) (.stageTimerExpiry n))
    ++ stepEvent s
    ++ oneIf (s.seq.phase = .energising && due s.clock s.seq.window) .energisingWindowExpiry
    ++ units.flatMap (unitEvents s)
    ++ s.book.claims.flatMap (claimEvent s.clock)
    ++ feederIds.flatMap (feederEvent s)
    ++ oneIf (due s.clock s.shed.settle) .shedSettleExpiry
    ++ oneIf (due s.clock s.rest.holdOff) .restoreHoldOffExpiry
    ++ allLinks.flatMap (fun l => oneIf (linkActive s l && reached s.clock (s.links.get l).silenceDue) (.linkSilent l))
    ++ allLines.flatMap (fun l => oneIf (gapPassed s.clock (framerOf s l)) (.interByteTimeout l))

/-- Expiries of one millisecond in a free order: each is put at a free place among those behind it (log 4). -/
def freeOrder (seed : Nat) : List Instr → List Instr
  | [] => []
  | [e] => [e]
  | e :: es =>
    let rest := freeOrder seed es
    rest.insertIdx (Config.tieBreak seed rest.length % (rest.length + 1)) e

/-- One millisecond on an empty queue (log 1). -/
def tick (s : State) : State :=
  let s1 := countClock s
  let es := dueEvents s1
  let s2 := if 2 ≤ es.length then spendFree s1 else s1
  { s2 with pending := freeOrder s.free es }

end Sys2Proof.Machine
end

