-- ==== Sys2Proof/Machine/Dispatch.lean ====
section
/-! DEFINITION. The one dispatch: one arm per command, each a direct call of its meaning. -/

namespace Sys2Proof.Machine

/-- The effect of a command on everything but the queue. -/
def exec (i : Instr) (s : State) : Host.Outcome State Fault Refusal :=
  match i with
  | .powerOn => Sys2Proof.Machine.execPowerOn s
  | .resetInput => Sys2Proof.Machine.execResetInput s
  | .restart tag => Sys2Proof.Machine.execRestart tag s
  | .entryWindowExpiry => Sys2Proof.Machine.execEntryWindowExpiry s
  | .sample kind payload checkOk => Sys2Proof.Machine.execSample kind payload checkOk s
  | .sampleGapTimerExpiry => Sys2Proof.Machine.execSampleGapTimerExpiry s
  | .heldSampleAgeStep => Sys2Proof.Machine.execHeldSampleAgeStep s
  | .stageTimerExpiry stage => Sys2Proof.Machine.execStageTimerExpiry stage s
  | .stepTimeout => Sys2Proof.Machine.execStepTimeout s
  | .waitStepExpiry => Sys2Proof.Machine.execWaitStepExpiry s
  | .energisingWindowExpiry => Sys2Proof.Machine.execEnergisingWindowExpiry s
  | .crankWindowExpiry unit => Sys2Proof.Machine.execCrankWindowExpiry unit s
  | .syncWindowExpiry unit => Sys2Proof.Machine.execSyncWindowExpiry unit s
  | .unloadWindowExpiry unit => Sys2Proof.Machine.execUnloadWindowExpiry unit s
  | .cooldownHoldExpiry unit => Sys2Proof.Machine.execCooldownHoldExpiry unit s
  | .minRunExpiry unit => Sys2Proof.Machine.execMinRunExpiry unit s
  | .recallWindowExpiry unit => Sys2Proof.Machine.execRecallWindowExpiry unit s
  | .claimWaitExpiry id => Sys2Proof.Machine.execClaimWaitExpiry id s
  | .claimLifetimeExpiry id => Sys2Proof.Machine.execClaimLifetimeExpiry id s
  | .claimSettleExpiry id => Sys2Proof.Machine.execClaimSettleExpiry id s
  | .openingRelayWindowExpiry feeder => Sys2Proof.Machine.execOpeningRelayWindowExpiry feeder s
  | .closingRelayWindowExpiry feeder => Sys2Proof.Machine.execClosingRelayWindowExpiry feeder s
  | .shedSettleExpiry => Sys2Proof.Machine.execShedSettleExpiry s
  | .restoreHoldOffExpiry => Sys2Proof.Machine.execRestoreHoldOffExpiry s
  | .linkSilent link => Sys2Proof.Machine.execLinkSilent link s
  | .frameError line why => Sys2Proof.Machine.execFrameError line why s
  | .interByteTimeout line => Sys2Proof.Machine.execInterByteTimeout line s
  | .frameRefused link kind tag payload => Sys2Proof.Machine.execFrameRefused link kind tag payload s
  | .replyOverrun link => Sys2Proof.Machine.execReplyOverrun link s
  | .outboundFrameSent link => Sys2Proof.Machine.execOutboundFrameSent link s
  | .read link tag selector index => Sys2Proof.Machine.execRead link tag selector index s
  | .set tag payload => Sys2Proof.Machine.execSet tag payload s
  | .setRing tag indices => Sys2Proof.Machine.execSetRing tag indices s
  | .startUnit tag unit => Sys2Proof.Machine.execStartUnit tag unit s
  | .stopUnit tag unit => Sys2Proof.Machine.execStopUnit tag unit s
  | .clearLockout tag unit => Sys2Proof.Machine.execClearLockout tag unit s
  | .recallUnit tag unit => Sys2Proof.Machine.execRecallUnit tag unit s
  | .claimReserve tag amount wait lifetime => Sys2Proof.Machine.execClaimReserve tag amount wait lifetime s
  | .cancelClaim link tag id => Sys2Proof.Machine.execCancelClaim link tag id s
  | .blackStartBegin tag => Sys2Proof.Machine.execBlackStartBegin tag s
  | .blackStartAbort tag => Sys2Proof.Machine.execBlackStartAbort tag s
  | .blackStartRetry tag => Sys2Proof.Machine.execBlackStartRetry tag s
  | .resyncSamples tag => Sys2Proof.Machine.execResyncSamples tag s
  | .snapshot tag option => Sys2Proof.Machine.execSnapshot tag option s
  | .readTally tag number => Sys2Proof.Machine.execReadTally tag number s
  | .restoreHold tag value => Sys2Proof.Machine.execRestoreHold tag value s
  | .adoptFeeder tag feeder => Sys2Proof.Machine.execAdoptFeeder tag feeder s
  | .fetchNotice link tag => Sys2Proof.Machine.execFetchNotice link tag s
  | .presence link tag => Sys2Proof.Machine.execPresence link tag s
  | .unitReport tag unit event => Sys2Proof.Machine.execUnitReport tag unit event s
  | .unitStatus tag entries => Sys2Proof.Machine.execUnitStatus tag entries s
  | .availability tag entries => Sys2Proof.Machine.execAvailability tag entries s
  | .releaseUnit tag unit => Sys2Proof.Machine.execReleaseUnit tag unit s
  | .returnUnit tag unit => Sys2Proof.Machine.execReturnUnit tag unit s
  | .pvReport tag entries => Sys2Proof.Machine.execPvReport tag entries s
  | .releaseGroup tag group => Sys2Proof.Machine.execReleaseGroup tag group s
  | .returnGroup tag group => Sys2Proof.Machine.execReturnGroup tag group s
  | .breakerReport tag feeder event => Sys2Proof.Machine.execBreakerReport tag feeder event s
  | .feederStatus tag entries => Sys2Proof.Machine.execFeederStatus tag entries s
  | .claimFeeder tag feeder wait lifetime => Sys2Proof.Machine.execClaimFeeder tag feeder wait lifetime s

end Sys2Proof.Machine
end

