-- ==== Sys2Proof/Safety.lean ====
section
/-! DEFINITION. What counts as a sound state and a sound step of the part, in the terms the statements use: the laws the
manual sets over every step, one predicate each, and the outcome a command has when it is carried out. -/

namespace Sys2Proof.Machine

/-- A command is carried out from `s`: it answers a next state. -/
def Completes (i : Instr) (s : State) : Prop := ∃ t, exec i s = .next t

/-- A law that every step keeps: where a step from a state with the law answers a next state, that state has it. -/
def KeptByStep (law : State → Prop) : Prop := ∀ s t, law s → step s = .next t → law t

/-- R8: at most 16 claims, ids 1..255 each used once, and no feeder and no unit named twice; the next id is one of
1..255. -/
structure ClaimListLaw (s : State) : Prop where
  size : s.book.claims.length ≤ Config.claimCapacity
  nextId : 1 ≤ s.book.nextId ∧ s.book.nextId ≤ 255
  ids : ∀ c ∈ s.book.claims, 1 ≤ c.id ∧ c.id ≤ 255
  idOnce : (s.book.claims.map (·.id)).Nodup
  purposeOnce : ((s.book.claims.map (·.purpose)).filter (fun p => p ≠ .reserve)).Nodup

/-- R183: the store holds what the working tables hold. -/
def StoreLaw (s : State) : Prop := s.cfg = s.store

/-- R68: a duty ring holds each of G1 to G8 exactly once. -/
def ringSound (r : List (Fin 8)) : Prop := r.length = 8 ∧ r.Nodup

/-- R68, for the working ring and the retained one. -/
def RingLaw (s : State) : Prop := ringSound s.cfg.ring ∧ ringSound s.store.ring

/-- R185: no live or snapshot tally is above 2^40 - 1. -/
def TallyLaw (s : State) : Prop :=
  ∀ i : Fin 16, s.tally.live[i] ≤ Config.tallyLimit ∧ s.tally.snap[i] ≤ Config.tallyLimit

/-- R170, R173: a link holds at most 8 replies and 16 notices, and its overflow count is at most 255. -/
structure linkBounded (c : LinkCtl) : Prop where
  replies : repliesWaiting c ≤ Config.replyCapacity
  notices : c.notices.length ≤ Config.noticeCapacity
  overflow : c.overflow ≤ 255

/-- R170, R173, for the four links. -/
def QueueLaw (s : State) : Prop := ∀ l : Link, linkBounded (s.links.get l)

/-- R171: no line is idle while it may begin a frame: a reply waits only behind a frame being sent, and so does an order
of an Active link. -/
def LineLaw (s : State) : Prop :=
  ∀ l : Link, (s.links.get l).sending = none →
    (s.links.get l).replies = [] ∧ ((s.links.get l).active = true → (s.links.get l).orders = [])

/-- R89: a Coordinated PV group holds an issued ceiling within its rating, and a Local one holds none. -/
def CeilingLaw (s : State) : Prop :=
  ∀ g : Fin 8,
    (s.pvs[g].authority = .coordinated → ∃ v, s.pvs[g].issued = some v ∧ v ≤ s.cfg.pvs[g].rating)
      ∧ (s.pvs[g].authority = .byPlant → s.pvs[g].issued = none)

/-- R134: the restore bucket and the ramp bucket lie within their capacities. -/
def BucketLaw (s : State) : Prop :=
  s.rest.bucket ≤ s.cfg.settings.restore.capacity ∧ s.cur.bucket ≤ s.cfg.settings.curtail.capacity

/-- R139: at most one feeder is in Closing. -/
def ClosingLaw (s : State) : Prop :=
  ∀ j k : Fin 24, s.feeders[j].state = .closing → s.feeders[k].state = .closing → j = k

/-- The relay window runs in Opening and in Closing alone (06, feeder record; R111). -/
def RelayWindowLaw (s : State) : Prop :=
  ∀ k : Fin 24, s.feeders[k].relayWindow.isSome ↔ s.feeders[k].state.inFlight = true

/-- A genset's phase timer runs in Starting, Synchronising, Unloading and Cooldown alone (03, genset record; R48). -/
def PhaseTimerLaw (s : State) : Prop :=
  ∀ i : Fin 8, s.gens[i].phaseTimer.isSome ↔
    s.gens[i].state ∈ [UnitState.starting, .synchronising, .unloading, .cooldown]

/-- R38: the quality level is the one the lock's state and the held-sample age give. -/
def QualityLaw (s : State) : Prop := s.lock.quality = qualityOf s.lock

/-- R34: the judgement window holds at most 64 entries, fewer than 6 of them Bad. -/
def WindowLaw (s : State) : Prop :=
  s.lock.window.length ≤ Config.windowCapacity ∧ badCount s.lock.window < Config.badLimit

/-! ## What a statement reads of the links -/

/-- The replies in an outbound queue, the one being sent first (R170). -/
def replyLine (c : LinkCtl) : List Reply :=
  (match c.sending with | some (.reply r) => [r] | _ => []) ++ c.replies

/-- The orders in an outbound queue, the one being sent first (R171). -/
def orderLine (c : LinkCtl) : List Order :=
  (match c.sending with | some (.order o) => [o] | _ => []) ++ c.orders

/-- The notice queue of a link. -/
def noticesOf (s : State) (l : Link) : List Notice := (s.links.get l).notices

/-- The notice queue of a link after one more record, dropped when the queue is full (R173). -/
def noticesAfter (s : State) (l : Link) (n : Notice) : List Notice := ((s.links.get l).notify n).notices

/-- The link is Active and has room for a reply: a request on it is taken (R169, R170). -/
structure Ready (s : State) (l : Link) : Prop where
  active : linkActive s l = true
  room : repliesFull s l = false

/-- From `s` to `t` a request of link `l` was answered once: its reply stands last of the replies, and the silence timer
restarted (R168, R170). -/
structure Answered (l : Link) (kind tag : Byte) (a : Answer) (s t : State) : Prop where
  reply : replyLine (t.links.get l) = replyLine (s.links.get l) ++ [replyTo kind tag a]
  heard : (t.links.get l).silenceFrom = s.clock

/-- The state once a request of link `l` that changed nothing but what `s` shows has been answered: the silence timer
restarted, the reply in the queue, and each idle line sending (R168, R170, R171). -/
def replied (l : Link) (kind tag : Byte) (a : Answer) (s : State) : State :=
  finish (placeReply l (replyTo kind tag a) (restartSilence l s))

/-- An order is added: it stands last of the orders of link `l` in `t`, behind what is left of those of `s`. -/
def orderedLast (l : Link) (o : Order) (t : State) : Prop := (orderLine (t.links.get l)).getLast? = some o

/-! ## What a statement reads of the lock (R33, R34, R38) -/

/-- A lock with the quality level that its state and age give (R38). -/
def settledLock (l : Lock) : Lock := { l with quality := qualityOf l }

/-- A lock put back to Hunt with a verify count (R33, R34). -/
def huntingLock (count : Nat) (l : Lock) : Lock :=
  { l with mode := .hunt, expected := none, verifyCount := count, window := [] }

/-- A lock after one bad judgement: nothing in Hunt, the loss in Verify, an entry of the window or the loss in Locked
(R32, R33, R34). -/
def lockAfterBad (l : Lock) : Lock :=
  match l.mode with
  | .hunt => l
  | .verify => huntingLock 0 l
  | .locked =>
    if Config.badLimit ≤ badCount (pushJudgement false l.window) then huntingLock l.verifyCount l
    else { l with window := pushJudgement false l.window }

/-- A lock after several bad judgements, one at a time (R30). -/
def lockAfterBads : Nat → Lock → Lock
  | 0, l => l
  | n + 1, l => lockAfterBads n (lockAfterBad l)

/-- The events of several bad judgements, each offered as SampleBad, and as LockLost besides where it costs a Locked lock
(R30, R34, R44). -/
def badsOffered : Nat → State → State
  | 0, s => s
  | n + 1, s =>
    let a := offer .sampleBad none 0 s
    let b := if s.lock.mode = .locked ∧ 6 ≤ badCount (pushJudgement false s.lock.window) then offer .lockLost none 0 a else a
    badsOffered n { b with lock := lockAfterBad s.lock }

/-- A lock whose expected number, where present, has moved on by one (R29, R31). -/
def movedOn (l : Lock) : Lock := { l with expected := l.expected.map (· + 1) }

/-- A lock that has judged a record in sequence good and accepted it at `now` (R33, R34, R36). -/
def lockAfterGood (r : SampleRec) (now : Time) (l : Lock) : Lock :=
  let held : Lock := { l with
    expected := some (r.seq + 1), held := some ⟨r, now⟩, age := some 0, ageNext := some (after now 100) }
  match l.mode with
  | .hunt => held
  | .verify =>
    if l.verifyCount + 1 < Config.verifyTarget then { held with verifyCount := l.verifyCount + 1 }
    else { held with mode := .locked, verifyCount := Config.verifyTarget, window := [true] }
  | .locked => { held with window := pushJudgement true l.window }

/-- A lock in Hunt that has taken a record as its reference (R32). -/
def lockAfterReference (r : SampleRec) (l : Lock) : Lock :=
  { l with mode := .verify, expected := some (r.seq + 1), verifyCount := 0 }

/-- The gap timer restarted at `now` (R31). -/
def gapRestarted (now : Time) (l : Lock) : Lock := { l with gapNext := some (after now 250) }

/-! ## What a statement reads of an evaluation (R35, R36) -/

/-- The lock after a good record in sequence, its gap timer restarted (R31, R33, R34, R36). -/
def sampledLock (p : List Byte) (s : State) : Lock :=
  lockAfterGood (SampleRec.parse p) s.clock (gapRestarted s.clock s.lock)

/-- The sample of payload `p` starts an evaluation and leaves the quality as it is: a good record in sequence, after entry,
in Locked with Full or on the way through Verify with Degraded (R29, R33 to R36, R38). -/
structure SteadySample (p : List Byte) (s : State) : Prop where
  length : p.length = 40
  inSequence : s.lock.expected = some (SampleRec.parse p).seq
  good : (SampleRec.parse p).good = true
  entered : s.entry.complete = true
  steady : (s.lock.mode = .locked ∧ s.lock.quality = .full)
    ∨ (s.lock.mode = .verify ∧ s.lock.verifyCount + 1 < Config.verifyTarget ∧ s.lock.quality = .degraded)

/-- The state a steady sample hands to the evaluation: the record held, each last output set, and the good judgement
offered (R36, R44, R46). -/
def sampled (p : List Byte) (s : State) : State :=
  { offer .sampleGood none 0 s with
    lock := sampledLock p s
    gens := Vector.ofFn fun i : Fin 8 => lastOutputOf s (SampleRec.parse p) i s.gens[i] }

/-- A dwell, guard or spell at an evaluation that finds its condition: it goes on from its start, or starts now. -/
def runningFrom (now : Time) (start : Option Time) : Time := start.getD now

/-- A dwell, guard or spell that goes on at `now` has run `ms`. -/
def ranFor (now : Time) (start : Option Time) (ms : Nat) : Prop := ms ≤ elapsed now (runningFrom now start)

/-- The dead-bus test does not act at the evaluation of the sample: the bus is Live, or the phase is one in which the test does
not run (R149, R152, R164, R165). -/
def DeadTestRests (p : List Byte) (s : State) : Prop :=
  (SampleRec.parse p).live = true ∨ s.seq.phase ∈ [Phase.clearing, .energising, .failed]

/-- The terms of an evaluation call for no more generation, and no claim waits for it: the Reserve Book neither raises a
reason, nor sheds, nor grants (R12, R20, R23). -/
structure Covered (p : List Byte) (s : State) : Prop where
  margin : 0 ≤ (computeTerms (sampled p s)).M
  load : (computeTerms (sampled p s)).excess ≤ 0
  waiting : ∀ c ∈ s.book.claims, c.isPending = false

/-- No stage is at work and the sample's frequency is above every threshold: an evaluation fires and latches nothing (R119,
R121). -/
structure StagesRest (p : List Byte) (s : State) : Prop where
  above : ∀ n : Fin 4, stageThreshold s n < ((SampleRec.parse p).freq.toNat : Int)
  stopped : ∀ n : Fin 4, s.shed.timers[n] = none
  unlatched : anyLatched s = false

/-- The first record a step adds to the notice queue of link `l` is `n`, or the queue was full and takes none (R173). -/
def toldFirst (s t : State) (l : Link) (n : Notice) : Prop := noticesAfter s l n <+: noticesOf t l

/-- A record that satisfies `p` stands in the notice queue of link `l`, or the queue is full (R173). -/
def toldOf (t : State) (l : Link) (p : Notice → Prop) : Prop :=
  (∃ n ∈ noticesOf t l, p n) ∨ Config.noticeCapacity ≤ (noticesOf t l).length

/-- The StartOrdered events of units that a serving started, offered one after another (R54). -/
def startsOffered (starts : List (Fin 8)) (s : State) : State :=
  starts.foldl (fun s j => offer .startOrdered (some (j.val + 1)) 0 s) s

/-- The serving of a command has started genset `i`: it is Starting under its crank window, in a slot taken now for a reason now
In service; it was an Available candidate, entry is complete and link G Active (R54, R64 to R66). -/
structure StartedNow (i : Fin 8) (t : State) : Prop where
  state : t.gens[i].state = .starting
  window : t.gens[i].phaseTimer = some (after t.clock (secs t.cfg.settings.windows.crank))
  slot : ∃ u r, (t.arb.slot1 = some u ∨ t.arb.slot2 = some u) ∧ u.unit = i ∧ u.since = t.clock
    ∧ t.arb.get u.kind = some r ∧ r.stage = .inService
  candidate : t.gens[i].available = true ∧ t.gens[i].authority = .coordinated
  served : t.entry.complete = true ∧ linkActive t .G = true

/-- A command leaves genset `i` in state `st` under the phase timer `w`, or the serving that follows has started it, which it
may where `st` is a candidate's state (R48, R65, R66). -/
def leftIn (i : Fin 8) (st : UnitState) (w : Option Time) (t : State) : Prop :=
  (t.gens[i].state = st ∧ t.gens[i].phaseTimer = w) ∨ (st ∈ [UnitState.stopped, .cooldown] ∧ StartedNow i t)

/-! ## What a statement reads of a black start (R153 to R163) -/

/-- The BlackStartPhase notice of the change to `phase` at the clock time of `s` stands in the queue of each link, or the queue
is full (R148, R173). -/
def phaseTold (s t : State) (phase : Phase) (why : Cause) : Prop := ∀ l : Link, toldOf t l fun n =>
  n.kind = .blackStartPhase ∧ n.subject = .phase phase ∧ n.cause = .code why ∧ n.time = s.clock

/-- A reason that has been withdrawn: none is held, or one In service is marked withdrawn (R62). -/
def reasonEnded (k : ReasonKind) (t : State) : Prop := ∀ r, t.arb.get k = some r → r.stage = .inService ∧ r.withdrawn = true

/-- The BlackStart reason stands as a plan step raises it: with need 0, for the unit named or for none, not marked withdrawn
(R160). -/
def blackStartRaised (named : Option (Fin 8)) (t : State) : Prop :=
  ∃ r, t.arb.get .blackStart = some r ∧ r.need = 0 ∧ r.named = named ∧ r.withdrawn = false

/-- One failed attempt to energise has been counted: the third enters Failed with cause Attempts; before it the BlackStart
reason stands or a coordinated unit is up or on its way, or the search found no candidate and Failed is entered for that
(R154, R155). -/
structure AttemptCounted (s t : State) : Prop where
  count : t.seq.attempts = s.seq.attempts + 1
  third : 3 ≤ s.seq.attempts + 1 →
    t.seq.phase = .failed ∧ t.seq.failure = some .attempts ∧ phaseTold s t .failed .attempts
  before : s.seq.attempts + 1 < 3 →
    (t.seq.phase = .energising ∧ ((t.arb.get .blackStart).isSome = true
      ∨ ∃ i : Fin 8, t.cfg.gensets[i].present = true ∧ t.gens[i].authority = .coordinated
        ∧ t.gens[i].state ∈ [UnitState.online, .starting, .synchronising]))
    ∨ (t.seq.phase = .failed ∧ t.seq.failure = some .noCandidate ∧ phaseTold s t .failed .noCandidate)

/-- Plan step `n`, numbered from 1, where the plan reaches it. -/
def planned (s : State) (n : Nat) : Option PlanStep :=
  if 1 ≤ n ∧ n ≤ s.cfg.planLength then s.cfg.plan[n - 1]? else none

/-- A feeder of class `c` that a CLOSE CLASS step still waits for: present, and Shed or Closing (R159). -/
def closesStill (s : State) (c : Fin 8) (k : Fin 24) : Prop :=
  s.cfg.feeders[k].present = true ∧ s.cfg.feeders[k].cls = c.val ∧ s.feeders[k].state ∈ [FeederState.shed, .closing]

/-- A step that a command made current is current still at its end, as the state there shows: it had something left to do or
to wait for (R157 to R162). -/
def staysCurrent (t : State) : StepAct → Prop
  | .closeFeeder k => t.feeders[k].state ≠ .closed
  | .closeClass c => ∃ k : Fin 24, closesStill t c k ∧ t.feeders[k].state = .shed
  | .startUnit none | .wait _ => True
  | .startUnit (some u) => coordOnline t u = false
  | .waitBand _ hold => 1 ≤ hold
  | .releasePv _ _ | .endPlan => False

/-- A step that completes at once as it becomes current, as the state at the end of the command shows (R158, R160, R161). -/
def passesAtOnce (t : State) : StepAct → Prop
  | .closeFeeder k => t.feeders[k].state = .closed
  | .startUnit (some u) => coordOnline t u = true
  | .releasePv _ _ => True
  | .closeClass _ | .startUnit none | .wait _ | .waitBand _ _ | .endPlan => False

/-- Step `n` of the plan has become current in a command taken in `s`: the pointer stands at it, its step timer runs from the
clock time for its timeout or its time, and a START UNIT step has its reason raised (R157, R160, R161). -/
structure StepBegun (n : Nat) (x : PlanStep) (s t : State) : Prop where
  pointer : t.seq.phase = .rebuilding ∧ t.seq.pointer = some n
  timer : t.seq.stepTimer = (stepSeconds x).map fun sec => after s.clock (secs sec)
  raised : ∀ named, x.act = .startUnit named → blackStartRaised named t

/-- The plan has ended: phase Idle, no pointer, no step timer, no step claim, no failure cause, counts 0, no cap on any group,
the BlackStart reason withdrawn, and BlackStartComplete told to the four links (R103, R163). -/
structure PlanEnded (s t : State) : Prop where
  items : t.seq.phase = .idle ∧ t.seq.pointer = none ∧ t.seq.stepTimer = none ∧ t.seq.bandSpell = none
    ∧ t.seq.stepClaim = none ∧ t.seq.failure = none ∧ t.seq.attempts = 0 ∧ t.seq.collapses = 0
  caps : ∀ g : Fin 8, t.pvs[g].cap = none
  reason : reasonEnded .blackStart t
  told : ∀ l : Link, toldOf t l fun n => n.kind = .blackStartComplete ∧ n.time = s.clock

/-- The caps after a plan step has been passed: RELEASE PV sets the cap of its group where that is Coordinated (R161). -/
def capsPassed (a : StepAct) (s t : State) : Prop :=
  ∀ h : Fin 8, t.pvs[h].cap = match a with
    | .releasePv g cap => if h = g ∧ s.pvs[g].authority = .coordinated then some cap else s.pvs[h].cap
    | .closeFeeder _ | .closeClass _ | .startUnit _ | .wait _ | .waitBand _ _ | .endPlan => s.pvs[h].cap

/-- Step `p` of the plan has ended, by completion or Skip (0 for the entry to Rebuilding): the pointer has moved to a later step
of the plan or the plan has ended, which it does behind its last step and at an END step. The next step is current where it has
something left to do; where it completes at once, the step behind it is. The BlackStart reason of a START UNIT step, and that of
Energising, is withdrawn unless a START UNIT step has become current (R157, R160, R161, R163). -/
structure StepEnded (p : Nat) (s t : State) : Prop where
  moved : PlanEnded s t ∨ (t.seq.phase = .rebuilding ∧ ∃ q, t.seq.pointer = some q ∧ p < q ∧ q ≤ s.cfg.planLength)
  last : s.cfg.planLength ≤ p ∨ (planned s (p + 1)).map (·.act) = some .endPlan → PlanEnded s t
  next : ∀ x, planned s (p + 1) = some x → staysCurrent t x.act →
    StepBegun (p + 1) x s t ∧ ∀ h : Fin 8, t.pvs[h].cap = s.pvs[h].cap
  through : ∀ x y, planned s (p + 1) = some x → passesAtOnce t x.act → planned s (p + 2) = some y → staysCurrent t y.act →
    StepBegun (p + 2) y s t ∧ capsPassed x.act s t
  reason : s.seq.phase = .energising ∨ (∃ named, currentAct s = some (.startUnit named)) →
    (∀ named, currentAct t ≠ some (.startUnit named)) → reasonEnded .blackStart t

/-! ## The bound of the orders (R172) -/

/-- The genset an order of link G names. -/
def Order.unit : Order → Option (Fin 8)
  | .start i | .stop i | .recall i => some i
  | .ceiling _ | .openSet _ | .close _ => none

/-- The feeders an order of link F names. -/
def Order.feeders : Order → List (Fin 24)
  | .openSet ks => ks
  | .close k => [k]
  | .start _ | .stop _ | .recall _ | .ceiling _ => []

/-- R172, over the orders not yet begun: link G names no genset twice, link P holds one CEILING order at most, link F names
no feeder in two orders, and link S holds none. -/
structure OrderLaw (s : State) : Prop where
  onS : s.links.S.orders = []
  onG : ∀ o ∈ s.links.G.orders, o.unit.isSome = true
  onceG : (s.links.G.orders.map Order.unit).Nodup
  onP : ∀ o ∈ s.links.P.orders, o.isCeiling = true
  onceP : s.links.P.orders.length ≤ 1
  onF : ∀ o ∈ s.links.F.orders, o.feeders ≠ []
  onceF : s.links.F.orders.Pairwise fun a b => ∀ k ∈ a.feeders, k ∉ b.feeders

/-! ## Laws over the start slots and the margin -/

/-- R64, R75, R76: a unit is in a slot exactly while it is Starting or Synchronising, in one slot at most, and a Local unit
is in none of the states that an order leads to. -/
structure SlotLaw (s : State) : Prop where
  busy : ∀ i : Fin 8, (unitSlot s i).isSome ↔ s.gens[i].state ∈ [UnitState.starting, .synchronising]
  once : ∀ u v : SlotUse, s.arb.slot1 = some u → s.arb.slot2 = some v → u.unit ≠ v.unit
  local_ : ∀ i : Fin 8, s.gens[i].authority = .byPlant → s.gens[i].state ∈ [UnitState.unknown, .stopped, .online]

/-- R153: in Clearing and Energising no claim is Pending or Granted, and every Coordinated PV group holds cap 0 and issued
ceiling 0. -/
def ClearedLaw (s : State) : Prop :=
  s.seq.phase ∈ [Phase.clearing, .energising] →
    (∀ c ∈ s.book.claims, c.live = false)
      ∧ ∀ g : Fin 8, s.pvs[g].authority = .coordinated → s.pvs[g].issued = some 0 ∧ s.pvs[g].cap = some 0

/-- R5, R7: the claim total is that of the list, and the margin is the headroom less the required reserve and the claim
total. -/
def MarginLaw (s : State) : Prop :=
  s.book.terms.Cl = claimTotal s
    ∧ s.book.terms.M = (s.book.terms.H : Int) - s.book.terms.RR - s.book.terms.Cl

end Sys2Proof.Machine
end

