-- ==== Sys2Proof/WellFormed.lean ====
section
/-! DEFINITION. Which commands a line can deliver: a payload fits a frame, a list request holds no more entries than its
kind allows, and a request of two links comes on one of them. Every command has a meaning all the same: an ill-formed
request is answered by the refusal R169 gives it. -/

namespace Sys2Proof

/-- A payload is at most 120 bytes long (09_station_links.md, envelope; R168). -/
def payloadFits (p : List Byte) : Bool := p.length ≤ 120

/-- The checks of one command. -/
def Instr.wf : Instr → Bool
  | .sample _ p _ => payloadFits p
  | .frameRefused _ _ _ p => payloadFits p
  | .set _ p => payloadFits p
  | .setRing _ r => r.length = 8
  | .cancelClaim l _ _ => l = .S || l = .F
  | .unitStatus _ es => es.length ≤ 8
  | .availability _ es => es.length ≤ 8
  | .pvReport _ es => es.length ≤ 8
  | .feederStatus _ es => es.length ≤ 24
  | .claimWaitExpiry id => id ≠ 0
  | .claimLifetimeExpiry id => id ≠ 0
  | .claimSettleExpiry id => id ≠ 0
  | .powerOn | .resetInput | .restart _ | .entryWindowExpiry | .sampleGapTimerExpiry | .heldSampleAgeStep
  | .stageTimerExpiry _ | .stepTimeout | .waitStepExpiry | .energisingWindowExpiry | .crankWindowExpiry _
  | .syncWindowExpiry _ | .unloadWindowExpiry _ | .cooldownHoldExpiry _ | .minRunExpiry _ | .recallWindowExpiry _
  | .openingRelayWindowExpiry _ | .closingRelayWindowExpiry _ | .shedSettleExpiry | .restoreHoldOffExpiry
  | .linkSilent _ | .frameError _ _ | .interByteTimeout _ | .replyOverrun _ | .outboundFrameSent _ | .read _ _ _ _
  | .startUnit _ _ | .stopUnit _ _ | .clearLockout _ _ | .recallUnit _ _ | .claimReserve _ _ _ _
  | .blackStartBegin _ | .blackStartAbort _ | .blackStartRetry _ | .resyncSamples _ | .snapshot _ _ | .readTally _ _
  | .restoreHold _ _ | .adoptFeeder _ _ | .fetchNotice _ _ | .presence _ _ | .unitReport _ _ _ | .releaseUnit _ _
  | .returnUnit _ _ | .releaseGroup _ _ | .returnGroup _ _ | .breakerReport _ _ _ | .claimFeeder _ _ _ _ => true

end Sys2Proof
end

