-- ==== Sys2Proof/Certificates/Slice0/Obligations.lean ====
section
/-! DEFINITION. The statements for the provers: what the numbered rules of spec/ say that a command does, with what it
leaves unchanged, and the laws that every step keeps. A frame is written as an equation: the state after, with the fields
that may change put back, is the state before. The links' fields are told apart by the accessors of Safety.lean, for
every step ends with each idle line beginning its next frame (R171). -/

section
open Sys2Proof Sys2Proof.Machine

/-! ## The block's step -/

/-- The front command of the queue is carried out on the state with the rest of the queue (log 1). -/
def Obligations.StepRunsFrontCommand : Prop :=
  ∀ (c : Instr) (rest : List Instr) (s : State),
    s.pending = c :: rest → step s = exec c { s with pending := rest }

/-- On an empty queue a millisecond passes: the clock counts one, the available ages step, and each timer that has reached
its expiry at the new clock time joins the queue as its command, in a free order; nothing else joins, and where the claims have
their ids once (R8) no command joins twice (00_scope.md, Time; R188). That there is such a tick is log 1, when a timer has reached its expiry is log 2, that the order is free is log
4, that a frame's timeout is due at 11 ms is log 14, and that the ages step inside the tick is log 38. -/
def Obligations.EmptyQueueTicks : Prop :=
  ∀ s : State, s.pending = [] → ∃ t, step s = .next t
    ∧ t.clock = s.clock + 1
    ∧ (∀ g : Fin 8, t.pvs[g] = stepAge (s.clock + 1) s.pvs[g])
    ∧ t.pending.Perm (dueEvents (countClock s))
    ∧ (ClaimListLaw s → t.pending.Nodup)
    ∧ { t with clock := s.clock, pvs := s.pvs, pending := [], free := s.free } = s
    ∧ (let expired := fun (w : Time) => reached (s.clock + 1) w = true
       let joins := fun (c : Instr) (timer : Option Time) => c ∈ t.pending ↔ ∃ w, timer = some w ∧ expired w
       joins .entryWindowExpiry s.entry.window
        ∧ joins .sampleGapTimerExpiry s.lock.gapNext
        ∧ joins .heldSampleAgeStep s.lock.ageNext
        ∧ (∀ n : Fin 4, joins (.stageTimerExpiry n) s.shed.timers[n])
        ∧ joins .shedSettleExpiry s.shed.settle
        ∧ joins .restoreHoldOffExpiry s.rest.holdOff
        ∧ joins .energisingWindowExpiry (if s.seq.phase = .energising then s.seq.window else none)
        ∧ joins .stepTimeout (match currentAct s with
            | some (.wait _) | none => none
            | some _ => s.seq.stepTimer)
        ∧ joins .waitStepExpiry (match currentAct s with
            | some (.wait _) => s.seq.stepTimer
            | _ => none)
        ∧ (∀ i : Fin 8,
            let timerIn := fun (st : UnitState) => if s.gens[i].state = st then s.gens[i].phaseTimer else none
            joins (.crankWindowExpiry i) (timerIn .starting)
              ∧ joins (.syncWindowExpiry i) (timerIn .synchronising)
              ∧ joins (.unloadWindowExpiry i) (timerIn .unloading)
              ∧ joins (.cooldownHoldExpiry i) (timerIn .cooldown)
              ∧ joins (.minRunExpiry i) (match s.gens[i].minRun with
                  | .running w => some w
                  | .absent | .elapsed => none)
              ∧ joins (.recallWindowExpiry i) s.gens[i].recallWindow)
        ∧ (∀ id : Byte,
            let named := s.book.claims.filter fun c => BitVec.ofNat 8 c.id = id
            (.claimWaitExpiry id ∈ t.pending ↔ ∃ c ∈ named, ∃ w, c.state = .pending w ∧ expired w)
              ∧ (.claimLifetimeExpiry id ∈ t.pending ↔ ∃ c ∈ named, ∃ w, c.state = .granted w ∧ expired w)
              ∧ (.claimSettleExpiry id ∈ t.pending ↔ ∃ c ∈ named, ∃ w, c.state = .applied w ∧ expired w))
        ∧ (∀ k : Fin 24,
            let windowIn := fun (st : FeederState) => if s.feeders[k].state = st then s.feeders[k].relayWindow else none
            joins (.openingRelayWindowExpiry k) (windowIn .opening) ∧ joins (.closingRelayWindowExpiry k) (windowIn .closing))
        ∧ (∀ l : Link, joins (.linkSilent l) (if linkActive s l then some (s.links.get l).silenceDue else none))
        ∧ (∀ line : Line, joins (.interByteTimeout line) (match framerOf s line with
            | .inFrame _ last => some (after last 11)
            | .hunting => none)))

/-- No command changes the queue or the strap pins, and none but power-on and the reset input changes the clock or the
rates read from the straps (R188; log 1). -/
def Obligations.CommandsLeaveQueueAndClock : Prop :=
  ∀ (c : Instr) (s t : State), exec c s = .next t →
    t.pending = s.pending ∧ t.pins.linkStrap = s.pins.linkStrap ∧ t.pins.sampleStrap = s.pins.sampleStrap
      ∧ (c ≠ .powerOn → c ≠ .resetInput → t.clock = s.clock ∧ t.pins = s.pins)

/-! ## Entry and restart (12) -/

/-- Power-on and the reset input, from any state: the rates are read from the straps, the clock is 0, the store is loaded
whole, every dynamic record takes its reset value, and the entry window runs for 10 s (R188, with R27, R45, R74, R87, R109,
R132, R147, R167, R178, R187). -/
def Obligations.PowerOnStartsEntry : Prop :=
  ∀ (c : Instr) (s : State), c = .powerOn ∨ c = .resetInput → ∃ t, exec c s = .next t
    ∧ t.clock = 0 ∧ t.cfg = s.store ∧ t.store = s.store
    ∧ t.entry = ⟨false, some 10000, false⟩
    ∧ t.lock = State.resetLock
    ∧ t.book = State.resetBook
        ⟨0, 0, 0, 0, 0, 0, s.store.settings.book.rfloor, 0, 0 - (s.store.settings.book.rfloor : Int), 0, 0, 0, 0⟩
    ∧ (∀ i : Fin 8, t.gens[i] = State.resetGenset) ∧ t.arb = State.resetArbiter
    ∧ (∀ g : Fin 8, t.pvs[g] = State.resetPvGroup s.store.pvs[g].rating) ∧ t.cur = State.resetCurtail
    ∧ (∀ k : Fin 24, t.feeders[k] = State.resetFeeder) ∧ t.shed = State.resetShed
    ∧ t.rest = State.resetRestoration ∧ t.seq = State.resetSequencer
    ∧ (∀ l : Link, t.links.get l = State.resetLink 0 (after 0 (s.store.settings.links.silence * 100)))
    ∧ t.sampleFramer = .hunting ∧ t.tally = State.resetTally
    ∧ t.pins = { s.pins with linkRate := s.pins.linkStrap, sampleRate := s.pins.sampleStrap }
    ∧ t.pending = s.pending ∧ t.free = s.free

/-- RESTART with a place for its reply: entry starts afresh from the running clock, the store is loaded, every dynamic
record takes its reset value but the tallies and the rates are kept, the RESTART reply alone stays in a queue, each silence
timer starts again under the stored silence time, and each link holds one Restarted notice; a frame begun before, on a link
or on the sample input, is dropped (log 13). The book has no claim, no dwell, no guard and the no-candidate flag clear, and
its margin terms are those of no unit, no PV output and no claim under the stored reserve floor (R27, R45, R74, R87, R109,
R132, R147, R178, R187, R191). -/
def Obligations.RestartStartsAfresh : Prop :=
  ∀ (tag : Byte) (s : State), repliesFull s .S = false → ∃ t, exec (.restart tag) s = .next t
    ∧ t.clock = s.clock ∧ t.cfg = s.store ∧ t.store = s.store
    ∧ t.entry = ⟨false, some (after s.clock 10000), false⟩
    ∧ t.lock = State.resetLock ∧ t.book.claims = [] ∧ t.book.nextId = 1
    ∧ t.book.shortfallDwell = none ∧ t.book.surplusDwell = none ∧ t.book.guard = none ∧ t.book.noCandidate = false
    ∧ t.book.terms =
        ⟨0, 0, 0, 0, 0, 0, s.store.settings.book.rfloor, 0, 0 - (s.store.settings.book.rfloor : Int), 0, 0, 0, 0⟩
    ∧ (∀ i : Fin 8, t.gens[i] = State.resetGenset) ∧ t.arb = State.resetArbiter
    ∧ (∀ g : Fin 8, t.pvs[g] = State.resetPvGroup s.store.pvs[g].rating) ∧ t.cur = State.resetCurtail
    ∧ (∀ k : Fin 24, t.feeders[k] = State.resetFeeder) ∧ t.shed = State.resetShed
    ∧ t.rest = State.resetRestoration ∧ t.seq = State.resetSequencer
    ∧ t.sampleFramer = .hunting ∧ t.tally = s.tally ∧ t.pins = s.pins ∧ t.pending = s.pending ∧ t.free = s.free
    ∧ replyLine (t.links.get .S) = [replyTo 0x10 tag (answer .done)]
    ∧ (∀ l : Link, l ≠ .S → replyLine (t.links.get l) = [])
    ∧ (∀ l : Link, orderLine (t.links.get l) = [] ∧ linkActive t l = true ∧ (t.links.get l).overflow = 0
        ∧ (t.links.get l).framer = .hunting ∧ (t.links.get l).silenceFrom = s.clock
        ∧ (t.links.get l).silenceDue = after s.clock (s.store.settings.links.silence * 100)
        ∧ noticesOf t l = [⟨.restarted, 0, .none, .code .none, 0, s.clock⟩])

/-- The entry window expires: while resolution is Open each present Unknown genset becomes Stopped, or LockedOut where it is
Coordinated with its lockout flag set (a Local one is Stopped: log 41), and Unavailable, each present Unknown feeder becomes
Faulted, resolution closes, and entry completes when the lock is Locked (R74, R132, R189). With resolution closed nothing but
the window changes, on any record of the machine; a link on which nothing is being sent then begins the next reply or order
that waits in its queue, as after any command (log 11). -/
def Obligations.EntryWindowAppliesFallbacks : Prop :=
  ∀ (w : Time) (s : State), s.entry.window = some w → reached s.clock w = true →
    ∃ t, exec .entryWindowExpiry s = .next t
      ∧ t.entry.window = none ∧ t.entry.resolved = true ∧ t.cfg = s.cfg
      ∧ (t.entry.complete = true ↔ s.entry.complete = true ∨ (s.entry.resolved = false ∧ s.lock.mode = .locked))
      ∧ (s.entry.resolved = false → ∀ i : Fin 8, s.cfg.gensets[i].present = true → s.gens[i].state = .unknown →
          t.gens[i].state = (if s.gens[i].authority = .coordinated then stoppedState s i else .stopped)
            ∧ t.gens[i].available = false
            ∧ t.gens[i].authority = s.gens[i].authority)
      ∧ (∀ k : Fin 24, t.feeders[k].state =
          if s.entry.resolved = false ∧ feederIn s .unknown k = true then .faulted else s.feeders[k].state)
      ∧ (s.entry.resolved = true →
          { t with entry := s.entry, links := s.links } = s ∧ t.entry = { s.entry with window := none }
          ∧ ∀ l : Link,
            let c := s.links.get l
            let d := t.links.get l
            { d with sending := c.sending, replies := c.replies, orders := c.orders } = c
              ∧ replyLine d = replyLine c ∧ orderLine d = orderLine c
              ∧ (c.sending ≠ none ∨ (c.replies = [] ∧ c.orders = []) → d = c))

/-! ## Bus samples (02) -/

/-- A well-formed sample that carries the expected number and is good, in Verify or Locked: it is counted or entered in
the window, it becomes the held sample of age 0, the eighth in Verify leads to Locked, the quality is the one the lock
then gives, and each present genset's last output is its clamped entry (R28, R29, R31, R33, R34, R36, R38, R46). That the
eighth also enters the new window is log 20, read from the worked sequence of chapter 2. A sample that leaves the quality as
it is hands the state to the evaluation, which is all that follows it (R35, R36, R44). -/
def Obligations.SampleInSequenceAccepted : Prop :=
  ∀ (p : List Byte) (s : State), p.length = 40 → s.lock.mode ≠ .hunt →
    s.lock.expected = some (SampleRec.parse p).seq → (SampleRec.parse p).good = true →
    ∃ t, exec (.sample 0x60 p true) s = .next t
      ∧ t.lock = settledLock (lockAfterGood (SampleRec.parse p) s.clock (gapRestarted s.clock s.lock))
      ∧ (∀ i : Fin 8, t.gens[i].lastOutput =
          if s.cfg.gensets[i].present then clampTo s.cfg.gensets[i].rating (SampleRec.parse p).gens[i].toInt
          else s.gens[i].lastOutput)
      ∧ (SteadySample p s → t = finish (evaluate (sampled p s)))

/-- A well-formed sample in Hunt becomes the reference whatever it carries: Verify with a count of 0, the expected number
its own plus one, the held sample and its age kept, no evaluation, and one judgement offered (R32, R44). -/
def Obligations.SampleInHuntIsReference : Prop :=
  ∀ (p : List Byte) (s : State), p.length = 40 → s.lock.mode = .hunt →
    ∃ t, exec (.sample 0x60 p true) s = .next t
      ∧ t.lock = settledLock (lockAfterReference (SampleRec.parse p) (gapRestarted s.clock s.lock))
      ∧ t.tally = (offer (if (SampleRec.parse p).good then .sampleGood else .sampleBad) none 0 s).tally
      ∧ t.book.claims = s.book.claims ∧ t.gens = s.gens ∧ t.feeders = s.feeders ∧ t.pvs = s.pvs ∧ t.cfg = s.cfg
      ∧ t.seq = s.seq ∧ t.rest = s.rest

/-- A well-formed sample whose number differs from the expected one: a repeat is one bad judgement and no more, whatever the
record holds; a gap of k is k bad judgements, at most 64, each with its own effect; then, where the gap cost the lock, the
record is the reference, and else it is judged as one in sequence, good or bad on its bus state and frequency (R29, R30, R32,
R33, R34). Each judgement of a repeat or a gap, in Hunt too, is offered as one SampleBad, with LockLost at the one that costs a
Locked lock, and then the record's own as SampleGood or SampleBad; a change to Stale may start units after them (R41, R44). A
good record kept starts an evaluation, which may offer events of other kinds: there the tallies that take only the lock's own
three kinds are stated. That a loss from Locked keeps the verify count is log 21. -/
def Obligations.SequenceGapJudged : Prop :=
  ∀ (p : List Byte) (e : Byte) (s : State), p.length = 40 → s.lock.mode ≠ .hunt → s.lock.expected = some e →
    let r := SampleRec.parse p
    let k := (r.seq - e).toNat
    let l0 := gapRestarted s.clock s.lock
    let l1 := lockAfterBads (min k 64) l0
    let bads := fun (n : Nat) => badsOffered n s
    let offered := fun (u t : State) => ∃ starts, t.tally = (startsOffered starts { u with lock := t.lock }).tally
      ∧ (t.lock.quality ≠ .stale → starts = [])
    let lockOnly := fun (c : TallyCfg) => ∀ e : EventKind, c.events.getLsbD e.place = true →
      e ∈ [EventKind.sampleGood, .sampleBad, .lockLost]
    1 ≤ k →
    ∃ t, exec (.sample 0x60 p true) s = .next t
      ∧ (k = 255 → t.lock = settledLock (lockAfterBad l0) ∧ offered (bads 1) t)
      ∧ (k ≠ 255 → l1.mode = .hunt → t.lock = settledLock (lockAfterReference r l1)
          ∧ t.tally = (offer (if r.good then .sampleGood else .sampleBad) none 0 (bads (min k 64))).tally)
      ∧ (k ≠ 255 → l1.mode ≠ .hunt → r.good = true → t.lock = settledLock (lockAfterGood r s.clock l1)
          ∧ ∀ i : Fin 16, lockOnly s.cfg.tallies[i] →
            t.tally.live[i] = (offer .sampleGood none 0 (bads (min k 64))).tally.live[i])
      ∧ (k ≠ 255 → l1.mode ≠ .hunt → r.good = false →
          t.lock = settledLock (movedOn (lockAfterBad { l1 with expected := some r.seq }))
            ∧ offered (bads (min k 64 + 1)) t)

/-- A malformed sample, a sample in sequence whose frequency is out of range, and an expiry of the sample gap timer record
one bad judgement and move the expected number on where it is present; the held sample is kept, and no evaluation follows. A
sample restarts the gap timer, the expiry sets it 100 ms on (R29, R31, R32, R33, R34). The judgement is offered as SampleBad,
and as LockLost where it costs a Locked lock; a wrong check offers a FrameError event with index 5 ahead of them, and a
change to Stale may start units after them (R28, R34, R41, R44, R168). That a loss from Locked keeps the verify count is log
21. -/
def Obligations.BadJudgementTaken : Prop :=
  let offered := fun (checked : Bool) (s t : State) =>
    let a := if checked then s else offer .frameError (some 5) 0 s
    let b := offer .sampleBad none 0 a
    let c := if s.lock.mode = .locked ∧ 6 ≤ badCount (pushJudgement false s.lock.window) then offer .lockLost none 0 b else b
    ∃ starts, t.tally = (startsOffered starts { c with lock := t.lock }).tally ∧ (t.lock.quality ≠ .stale → starts = [])
  (∀ (kind : Byte) (p : List Byte) (ok : Bool) (s : State), (ok && sampleWellFormed kind p) = false →
    ∃ t, exec (.sample kind p ok) s = .next t
      ∧ t.lock = settledLock (movedOn (lockAfterBad (gapRestarted s.clock s.lock)))
      ∧ offered ok s t
      ∧ t.book.claims = s.book.claims ∧ t.feeders = s.feeders ∧ t.pvs = s.pvs ∧ t.cfg = s.cfg ∧ t.rest = s.rest)
  ∧ (∀ (p : List Byte) (s : State), p.length = 40 → s.lock.mode ≠ .hunt →
    s.lock.expected = some (SampleRec.parse p).seq → (SampleRec.parse p).good = false →
    ∃ t, exec (.sample 0x60 p true) s = .next t
      ∧ t.lock = settledLock (movedOn (lockAfterBad (gapRestarted s.clock s.lock)))
      ∧ offered true s t
      ∧ t.book.claims = s.book.claims ∧ t.feeders = s.feeders ∧ t.pvs = s.pvs ∧ t.cfg = s.cfg ∧ t.rest = s.rest)
  ∧ (∀ (g : Time) (s : State), s.lock.gapNext = some g → reached s.clock g = true →
    ∃ t, exec .sampleGapTimerExpiry s = .next t
      ∧ t.lock = settledLock (movedOn (lockAfterBad { s.lock with gapNext := some (after g 100) }))
      ∧ offered true s t
      ∧ t.book.claims = s.book.claims ∧ t.feeders = s.feeders ∧ t.pvs = s.pvs ∧ t.cfg = s.cfg ∧ t.rest = s.rest)

/-- A step of the held-sample age, and RESYNC SAMPLES, settle the quality level (R38, R43). A change to Stale cancels the
dwells and the guard (R26), the stage timers and the release spell (R41, R122, R123), the dead spell (R149, R164) and the
band spell (R162), keeps the claims and the latches (R26, R41) and every PV record (R107), and raises the Blind reason
where a candidate stands ready, after entry, in Idle or Rebuilding (R41). -/
def Obligations.AgeAndResyncSettleQuality : Prop :=
  let stale := fun (s t : State) =>
    t.book.shortfallDwell = none ∧ t.book.surplusDwell = none ∧ t.book.guard = none
      ∧ t.book.claims = s.book.claims ∧ t.shed.latches = s.shed.latches ∧ t.shed.spell = none
      ∧ (∀ n : Fin 4, t.shed.timers[n] = none) ∧ t.seq.deadSpell = none ∧ t.seq.bandSpell = none
      ∧ t.pvs = s.pvs
      ∧ (s.entry.complete = true → s.seq.phase.watchesShortfall = true → units.any (candidate s) = true →
          (t.arb.get .blind).isSome = true)
  (∀ (a : Time) (s : State), s.lock.ageNext = some a → reached s.clock a = true →
    ∃ t, exec .heldSampleAgeStep s = .next t
      ∧ t.lock = settledLock { s.lock with age := s.lock.age.map (· + 1), ageNext := some (after a 100) }
      ∧ (s.lock.quality ≠ .stale → t.lock.quality = .stale → stale s t))
  ∧ (∀ (tag : Byte) (s : State), Ready s .S →
    ∃ t, exec (.resyncSamples tag) s = .next t
      ∧ t.lock = settledLock (huntingLock 0 s.lock)
      ∧ Answered .S 0x0B tag (answer .done) s t
      ∧ (s.lock.quality ≠ .stale → t.lock.quality = .stale → stale s t))

/-! ## Claims (01) -/

/-- CLAIM RESERVE in range, after entry, outside Clearing and Energising, with a place in the list: granted at once in
Full where the margin covers it, Pending where it waits, refused otherwise, each with its reply, its tally event and the
margin recomputed (R5, R8, R9, R10, R11, R18). That the margin is recomputed with cf, Rfloor and N-1 cover as they then
stand, also between a SET of them and the next evaluation, is log 48, the model's reading. A claim asked with lifetime 0
is marked as taking the setting, for a later grant (log 47). Out of range it is refused with Refused-Range before any
other check; before entry completes with Refused-Quality, in Clearing and Energising with Refused-State, with 16 claims in
the list with Refused-Busy, the first of these that holds; each refusal changes nothing and carries an absent claim id and
the margin (R10, R18). -/
def Obligations.ReserveClaimAnswered : Prop :=
  (∀ (tag : Byte) (amount : BitVec 16) (wait : Byte) (lifetime : BitVec 16) (s : State),
    Ready s .S → 1 ≤ amount.toNat → amount.toNat ≤ 50000 → wait.toNat ≤ 120 → lifetime.toNat ≤ 600 →
    s.entry.complete = true → s.seq.phase ≠ .clearing → s.seq.phase ≠ .energising → s.book.claims.length < 16 →
    let full := s.lock.quality = .full
    let covered := 0 ≤ s.book.terms.M - (amount.toNat : Int)
    let life := if lifetime.toNat = 0 then s.cfg.settings.book.claimLifetime else lifetime.toNat
    let id := newClaimId s
    let claim := fun st => (⟨id, .linkS, .reserve, amount.toNat, life, lifetime = 0, st⟩ : Claim)
    ∃ t, exec (.claimReserve tag amount wait lifetime) s = .next t
      ∧ (full → covered →
          t.book.claims = s.book.claims ++ [claim (.granted (after s.clock (secs life)))]
            ∧ Answered .S 0x08 tag ⟨.done, [u1 id, i4 t.book.terms.M]⟩ s t
            ∧ t.tally = (offer .claimGranted none 0 s).tally)
      ∧ (¬(full ∧ covered) → wait.toNat ≠ 0 →
          t.book.claims = s.book.claims ++ [claim (.pending (after s.clock (secs wait.toNat)))]
            ∧ Answered .S 0x08 tag ⟨.pending, [u1 id, i4 t.book.terms.M]⟩ s t ∧ t.tally = s.tally)
      ∧ (¬(full ∧ covered) → wait.toNat = 0 →
          t.book = s.book ∧ t.tally = (offer .claimRefused none 0 s).tally
            ∧ (full → Answered .S 0x08 tag ⟨.refusedReserve, [u1 0, i4 s.book.terms.M]⟩ s t)
            ∧ (¬full → Answered .S 0x08 tag ⟨.refusedQuality, [u1 0, i4 s.book.terms.M]⟩ s t))
      ∧ (t.book.claims ≠ s.book.claims →
          t.book.nextId = idAfter id ∧ t.book.terms = computeTerms t ∧ t.book.terms.Cl = claimTotal s + amount.toNat)
      ∧ { t with book := s.book, links := s.links, tally := s.tally } = s)
  ∧ (∀ (tag : Byte) (amount : BitVec 16) (wait : Byte) (lifetime : BitVec 16) (s : State), Ready s .S →
    let inRange := 1 ≤ amount.toNat ∧ amount.toNat ≤ 50000 ∧ wait.toNat ≤ 120 ∧ lifetime.toNat ≤ 600
    let open_ := s.seq.phase ≠ .clearing ∧ s.seq.phase ≠ .energising
    let refused := fun (st : Status) => exec (.claimReserve tag amount wait lifetime) s =
      .next (replied .S 0x08 tag ⟨st, [u1 0, i4 s.book.terms.M]⟩ s)
    (¬inRange → refused .refusedRange)
    ∧ (inRange → s.entry.complete = false → refused .refusedQuality)
    ∧ (inRange → s.entry.complete = true → ¬open_ → refused .refusedState)
    ∧ (inRange → s.entry.complete = true → open_ → 16 ≤ s.book.claims.length → refused .refusedBusy))

/-- CLAIM FEEDER of a present Shed, OpenHeld or Faulted feeder that no claim names, in Idle with no stage latched: the claim
is made for the pickup need, granted, Pending or refused as any claim, and the reply carries the id, the need and the margin
(R10, R11, R137, R142). A claim asked with lifetime 0 is marked as taking the setting (log 47). A wait or lifetime out of
range is refused with Refused-Range before any other check; then Refused-Quality before entry completes, Refused-State where
the feeder is not present or in another state, a stage is latched, the phase is not Idle or a claim names the feeder, and
Refused-Busy with 16 claims in the list, the first of these that holds; each refusal changes nothing (R10, R142). The fields
of the first are log 32. That the need of a tie uses the cloud factor as it then stands, also before the next evaluation, is log
67. -/
def Obligations.FeederClaimAnswered : Prop :=
  (∀ (tag feeder wait : Byte) (lifetime : BitVec 16) (k : Fin 24) (s : State),
    Ready s .F → feederIndex feeder = some k → wait.toNat ≤ 120 → lifetime.toNat ≤ 600 → s.entry.complete = true →
    s.cfg.feeders[k].present = true → s.feeders[k].state ∈ [FeederState.shed, .openHeld, .faulted] →
    anyLatched s = false → s.seq.phase = .idle → feederClaimed s k = false → s.book.claims.length < 16 →
    let need := pickupNeed s k
    let full := s.lock.quality = .full
    let covered := 0 ≤ s.book.terms.M - (need : Int)
    let life := if lifetime.toNat = 0 then s.cfg.settings.book.claimLifetime else lifetime.toNat
    let id := newClaimId s
    let claim := fun st => (⟨id, .linkF, .feeder k, need, life, lifetime = 0, st⟩ : Claim)
    ∃ t, exec (.claimFeeder tag feeder wait lifetime) s = .next t
      ∧ (full → covered →
          t.book.claims = s.book.claims ++ [claim (.granted (after s.clock (secs life)))]
            ∧ Answered .F 0x32 tag ⟨.done, [u1 id, u2 need, i4 t.book.terms.M]⟩ s t
            ∧ t.tally = (offer .claimGranted (some (k.val + 1)) 0 s).tally)
      ∧ (¬(full ∧ covered) → wait.toNat ≠ 0 →
          t.book.claims = s.book.claims ++ [claim (.pending (after s.clock (secs wait.toNat)))]
            ∧ Answered .F 0x32 tag ⟨.pending, [u1 id, u2 need, i4 t.book.terms.M]⟩ s t ∧ t.tally = s.tally)
      ∧ (¬(full ∧ covered) → wait.toNat = 0 →
          t.book = s.book ∧ t.tally = (offer .claimRefused (some (k.val + 1)) 0 s).tally
            ∧ (full → Answered .F 0x32 tag ⟨.refusedReserve, [u1 0, u2 need, i4 s.book.terms.M]⟩ s t)
            ∧ (¬full → Answered .F 0x32 tag ⟨.refusedQuality, [u1 0, u2 need, i4 s.book.terms.M]⟩ s t))
      ∧ { t with book := s.book, links := s.links, tally := s.tally } = s)
  ∧ (∀ (tag feeder wait : Byte) (lifetime : BitVec 16) (k : Fin 24) (s : State), Ready s .F → feederIndex feeder = some k →
    let inRange := wait.toNat ≤ 120 ∧ lifetime.toNat ≤ 600
    let free := s.cfg.feeders[k].present = true ∧ s.feeders[k].state ∈ [FeederState.shed, .openHeld, .faulted]
      ∧ (∀ n : Fin 4, s.shed.latches[n] = false) ∧ s.seq.phase = .idle ∧ ∀ c ∈ s.book.claims, c.purpose ≠ .feeder k
    let refused := fun (st : Status) => exec (.claimFeeder tag feeder wait lifetime) s =
      .next (replied .F 0x32 tag ⟨st, [u1 0, u2 (pickupNeed s k), i4 s.book.terms.M]⟩ s)
    (¬inRange → refused .refusedRange)
    ∧ (inRange → s.entry.complete = false → refused .refusedQuality)
    ∧ (inRange → s.entry.complete = true → ¬free → refused .refusedState)
    ∧ (inRange → s.entry.complete = true → free → 16 ≤ s.book.claims.length → refused .refusedBusy))

/-- CANCEL CLAIM on links S and F: an id of 0 is out of range, an id no claim holds and a claim of another holder are
refused; otherwise the claim leaves in whatever state it is, the margin is recomputed, and no notice is placed (R19). That
the recomputation, at any state, takes cf, Rfloor and N-1 cover as they then stand, also between a SET of them and the
next evaluation, is log 48, the model's reading. -/
def Obligations.ClaimCancelled : Prop :=
  ∀ (l : Link) (h : Holder) (tag id : Byte) (s : State), (l = .S ∧ h = .linkS) ∨ (l = .F ∧ h = .linkF) → Ready s l →
    (id = 0 → exec (.cancelClaim l tag id) s = .next (replied l 0x09 tag (answer .refusedRange) s))
    ∧ (id ≠ 0 → claimById s id.toNat = none →
        exec (.cancelClaim l tag id) s = .next (replied l 0x09 tag (answer .refusedState) s))
    ∧ (∀ c, id ≠ 0 → claimById s id.toNat = some c → c.holder ≠ h →
        exec (.cancelClaim l tag id) s = .next (replied l 0x09 tag (answer .refusedRights) s))
    ∧ (∀ c, id ≠ 0 → claimById s id.toNat = some c → c.holder = h → ∃ t, exec (.cancelClaim l tag id) s = .next t
        ∧ t.book.claims = s.book.claims.filter (fun x => x.id ≠ id.toNat)
        ∧ t.book.terms = computeTerms t
        ∧ Answered l 0x09 tag (answer .done) s t
        ∧ (∀ m : Link, noticesOf t m = noticesOf s m)
        ∧ { t with book := s.book, links := s.links, seq := s.seq } = s)

/-- A Pending claim at its wait expiry, a Granted one at its lifetime expiry and an Applied one at its settle expiry leave
the list, and the margin is recomputed: over terms that stood as computed, M rises by the claim's amount (R5, R7, R16),
and Cl falls by it. That the recomputation, at any state, takes cf, Rfloor and N-1 cover as they then stand, also between
a SET of them and the next evaluation, is log 48, the model's reading. The first two offer their tally event and are told
to the holder's link and link S, or as the refusal of the release for a ReleaseCover claim that waited; the third is
neither offered nor told (R13, R15, R16, R81). -/
def Obligations.ClaimExpiriesTaken : Prop :=
  ∀ (id : Byte) (c : Claim) (w : Time) (s : State), claimById s id.toNat = some c → reached s.clock w = true →
    let rest := s.book.claims.filter (fun x => x.id ≠ id.toNat)
    let rises := fun (t : State) =>
      ClaimListLaw s → s.book.terms = computeTerms s →
        t.book.terms.M = s.book.terms.M + (c.amount : Int) ∧ t.book.terms.Cl + c.amount = s.book.terms.Cl
    (c.state = .pending w → ∃ t, exec (.claimWaitExpiry id) s = .next t
        ∧ t.book.claims = rest ∧ t.book.terms = computeTerms t ∧ rises t
        ∧ t.tally = (offer .claimRefused c.index 0 s).tally
        ∧ (c.holder ≠ .releaseCover → ∀ l ∈ c.holder.links,
            noticesOf t l = noticesAfter s l ⟨.claimOutcome, c.index.getD 0, .outcome .refused, .code .wait, c.id, s.clock⟩)
        ∧ (∀ i : Fin 8, c.holder = .releaseCover → c.purpose = .unit i → t.gens[i].pendingRelease = none
            ∧ ∀ l ∈ [Link.G, .S], noticesOf t l =
                noticesAfter s l ⟨.authorityOutcome, i.val + 1, .outcome .refused, .code .wait, c.id, s.clock⟩)
        ∧ { t with book := s.book, links := s.links, seq := s.seq, tally := s.tally, gens := s.gens } = s)
    ∧ (c.state = .granted w → ∃ t, exec (.claimLifetimeExpiry id) s = .next t
        ∧ t.book.claims = rest ∧ t.book.terms = computeTerms t ∧ rises t
        ∧ t.tally = (offer .claimExpired c.index 0 s).tally
        ∧ (∀ l ∈ c.holder.links, noticesOf t l =
            noticesAfter s l ⟨.claimOutcome, c.index.getD 0, .outcome .expired, .code .lifetime, c.id, s.clock⟩)
        ∧ { t with book := s.book, links := s.links, seq := s.seq, tally := s.tally } = s)
    ∧ (c.state = .applied w → ∃ t, exec (.claimSettleExpiry id) s = .next t
        ∧ t.book.claims = rest ∧ t.book.terms = computeTerms t ∧ rises t
        ∧ (ClaimListLaw s → MarginLaw s → t.book.terms.Cl + c.amount = s.book.terms.Cl)
        ∧ (∀ l : Link, noticesOf t l = noticesOf s l)
        ∧ { t with book := s.book, links := s.links, seq := s.seq } = s)

/-- At an evaluation in Full with M at least 0 every Pending claim becomes Granted in its place, with the lifetime it
asked for, or the setting's as it then stands where it asked for that (R9, R12; log 47), and the margin stays; in any
other quality, or with M below 0, none does (claims that cover a release are left out of this first clause). A sample
that starts an evaluation in Idle, Rebuilding or Failed (the manual leaves no claim Pending in Clearing and
Energising), on a Live bus or, in Failed, on either, does so to every Pending claim of links S and F, on the margin of
that evaluation, and one that covers the release of an Online unit becomes Applied with its settle expiry: the unit is
handed over, Local and tracked Online, without timers or pending release, the outcome told to links G and S with cause
Grant (R12, R14, R77, R79, R81). R81 leaves a grant and a surplus STOP of the same unit to the event taken first: that
the grants of an evaluation come before its surplus STOP is log 6. -/
def Obligations.PendingClaimsGranted : Prop :=
  let granted := fun (s : State) (c : Claim) =>
    let life := if c.bySetting then s.cfg.settings.book.claimLifetime else c.lifetime
    if c.isPending then { c with lifetime := life, state := .granted (after s.clock (secs life)) } else c
  (∀ s : State,
    (s.lock.quality = .full → 0 ≤ s.book.terms.M → ClaimListLaw s → (∀ c ∈ s.book.claims, c.holder ≠ .releaseCover) →
      (grantPending s).book = { s.book with claims := s.book.claims.map (granted s) })
    ∧ (s.lock.quality ≠ .full ∨ s.book.terms.M < 0 → grantPending s = s))
  ∧ (∀ (p : List Byte) (s : State), SteadySample p s → DeadTestRests p s →
    s.seq.phase ∈ [Phase.idle, .rebuilding, .failed] → ClaimListLaw s →
    let M := (computeTerms (sampled p s)).M
    let settled := after s.clock (secs s.cfg.settings.book.claimSettle)
    ∃ t, exec (.sample 0x60 p true) s = .next t
      ∧ (∀ c ∈ s.book.claims, c.isPending = true → c.holder ∈ [Holder.linkS, .linkF] →
          (∀ i : Fin 8, s.gens[i].pendingRelease ≠ some c.id) →
        (s.lock.quality = .full → 0 ≤ M → granted s c ∈ t.book.claims)
          ∧ (s.lock.quality ≠ .full ∨ M < 0 → c ∈ t.book.claims))
      ∧ (∀ (c : Claim) (i : Fin 8), s.lock.quality = .full → 0 ≤ M → c ∈ s.book.claims → c.isPending = true →
          c.holder = .releaseCover → c.purpose = .unit i → s.gens[i].state = .online →
          (∀ j : Fin 8, s.gens[j].pendingRelease = some c.id ↔ j = i) →
        { granted s c with state := .applied settled } ∈ t.book.claims
          ∧ t.gens[i].authority = .byPlant ∧ t.gens[i].state = .online ∧ t.gens[i].pendingRelease = none
          ∧ t.gens[i].phaseTimer = none ∧ t.gens[i].minRun = .absent
          ∧ ∀ l ∈ [Link.G, .S], toldOf t l fun n =>
            n = ⟨.authorityOutcome, i.val + 1, .outcome .byPlant, .code .grant, c.id, s.clock⟩))

/-! ## Evaluations (01) -/

/-- The Reserve Book at a sample that starts an evaluation, in every phase, with M, the excess and D of that sample, at
which no dead-bus test acts: on a Live bus, or on either in Clearing, Energising and Failed. At M of 0 or more the
shortfall dwell is cancelled, and in Idle and Rebuilding the Shortfall reason is withdrawn and the no-candidate flag
clear. Below 0, in Idle and Rebuilding the dwell starts or goes on, and the reason is raised when it has run and refreshed
while held, with need -M (R20; log 55); in Clearing, Energising and Failed no dwell is started and no Shortfall reason
raised (R20). In every phase the Overload reason stands with the excess as its need while that is positive (R23), and the
Trip reason ends once margin and load are covered (R63). In Idle the minimum-load guard starts, goes on, acts and starts
again, or is cancelled, and its act opens the ties chosen or places MinLoadGap, whose index of 0 is log 72; in every other
phase it is cancelled (R25). Where generation is covered and no claim waits, the stop test of R24 on the tail unit in Idle
runs the surplus dwell and orders its STOP; in every other phase the dwell is cancelled and no STOP is ordered (R24). -/
def Obligations.EvaluationDecides : Prop :=
  ∀ (p : List Byte) (s : State), SteadySample p s → DeadTestRests p s →
    let u := sampled p s
    let T := computeTerms u
    let b := s.cfg.settings.book
    let standing := fun (r : Option Reason) (need : Int) =>
      ∃ x, r = some x ∧ (x.need : Int) = need ∧ x.named = none ∧ x.withdrawn = false
    let ended := fun (r : Option Reason) => ∀ x, r = some x → x.stage = .inService ∧ x.withdrawn = true
    let idle := s.seq.phase = .idle
    let watches := s.seq.phase ∈ [Phase.idle, .rebuilding]
    let dwellRan := ranFor s.clock s.book.shortfallDwell (secs b.startDelay)
    let guards := idle ∧ 0 < T.D ∧ (linkActive s .P = false
      ∨ ∀ g : Fin 8, s.pvs[g].authority = .coordinated → s.pvs[g].issued = some 0)
    let opensTies := linkActive s .P = false ∨ ∃ (k : Fin 24) (g : Fin 8),
      s.cfg.feeders[k].kind = .sourceTie ∧ s.cfg.feeders[k].linked = some g ∧ s.pvs[g].authority = .byPlant
    let ties := takeUntil (tieOutput u) T.D.toNat (tieOrder u)
    let guardRan := ranFor s.clock s.book.guard (secs b.guardTime)
    let surplusRan := ranFor s.clock s.book.surplusDwell (secs b.surplusDwell)
    ∃ t, exec (.sample 0x60 p true) s = .next t
      ∧ (0 ≤ T.M → t.book.shortfallDwell = none
          ∧ (watches → t.book.noCandidate = false ∧ ended t.arb.shortfall))
      ∧ (T.M < 0 → ¬watches → (s.book.shortfallDwell = none → t.book.shortfallDwell = none)
          ∧ (s.arb.shortfall = none → t.arb.shortfall = none))
      ∧ (T.M < 0 → watches → t.book.shortfallDwell = some (runningFrom s.clock s.book.shortfallDwell)
          ∧ (shortfallHeld s = true ∨ dwellRan → standing t.arb.shortfall (0 - T.M))
          ∧ (s.arb.shortfall = none → ¬dwellRan → t.arb.shortfall = none))
      ∧ (0 < T.excess → standing t.arb.overload T.excess)
      ∧ (T.excess ≤ 0 → ended t.arb.overload)
      ∧ (0 ≤ T.M → T.excess ≤ 0 → ended t.arb.trip)
      ∧ (¬guards → t.book.guard = none)
      ∧ (guards → ¬guardRan → t.book.guard = some (runningFrom s.clock s.book.guard))
      ∧ (guards → guardRan → t.book.guard = some s.clock
          ∧ (¬opensTies → toldOf t .S (fun n => n = ⟨.minLoadGap, 0, .none, .amount T.D, 0, s.clock⟩))
          ∧ (opensTies → linkActive s .F = true → ties ≠ [] → .openSet (ascending ties) ∈ orderLine (t.links.get .F)
              ∧ ∀ k ∈ ties, t.feeders[k].state = .opening ∧ t.feeders[k].shedCause = some .sourceTie))
      ∧ (¬idle → t.book.surplusDwell = none
          ∧ ∀ i : Fin 8, .stop i ∈ orderLine (t.links.get .G) → .stop i ∈ orderLine (s.links.get .G))
      ∧ (idle → Covered p s →
          ((s.cfg.ring.filter (coordOnline s)).getLast? = none → t.book.surplusDwell = none ∧ t.gens = u.gens)
          ∧ ∀ c, (s.cfg.ring.filter (coordOnline s)).getLast? = some c →
            let others := (coordUnits s).filter fun i => i ≠ c
            let cover := if b.n1 = true ∧ 2 ≤ others.length then largest (others.map fun i => s.cfg.gensets[i].rating) else 0
            let passes := s.lock.quality = .full ∧ linkActive s .G = true ∧ 2 ≤ (coordUnits s).length
              ∧ s.gens[c].minRun = .elapsed ∧ s.arb.slot1 = none ∧ s.arb.slot2 = none
              ∧ (b.surplusMargin : Int) ≤ (T.H : Int) - s.cfg.gensets[c].rating - max b.rfloor (max T.Nc cover) - T.Cl
            (¬passes → t.book.surplusDwell = none ∧ t.gens = u.gens)
            ∧ (passes → ¬surplusRan →
                t.book.surplusDwell = some (runningFrom s.clock s.book.surplusDwell) ∧ t.gens = u.gens)
            ∧ (passes → surplusRan → t.book.surplusDwell = none ∧ t.gens[c].state = .unloading
                ∧ .stop c ∈ orderLine (t.links.get .G)))

/-! ## Gensets and the Start Arbiter (03) -/

/-- START UNIT before entry completes, outside Idle, with link G Silent or of a unit that is no candidate is refused with
Refused-State, and with an Operator reason held with Refused-Busy; nothing else changes (R70). With slot 1 free and no
other reason held, the unit enters Starting in slot 1 with its crank window, a START order stands last in link G's queue,
StartOrdered is offered, and the reply is Done (R54, R64, R66, R70). With slot 1 busy and every held reason In service,
the Operator reason is held Pending, naming the unit with need 0, and the reply is Pending; nothing else changes (R62,
R64, R70). Whatever reasons are held, the reply is Done where the serving starts the unit, and Pending where it does not,
with the Operator reason waiting and the unit as it was; slot 1, if free, is taken now, and not for the Operator reason
where a Pending reason of another kind, all of which stand above it, has a candidate (R64, R65, R66, R70). STOP UNIT is
refused with Refused-Quality while quality is not Full, then with Refused-State for a unit that is not present,
Coordinated and Online, before entry completes, outside Idle or with link G Silent, then with Refused-Reserve for the only
coordinated online unit; nothing else changes (R71). For one of several, in Full, the unit enters Unloading with its
window, a STOP order is queued, a pending release ends with its claim, and the reply is Done (R57, R71, R81). -/
def Obligations.StartAndStopUnit : Prop :=
  ∀ (tag unit : Byte) (i : Fin 8) (s : State), Ready s .S → unitIndex unit = some i →
    let may := s.entry.complete = true ∧ s.seq.phase = .idle ∧ linkActive s .G = true
    let startable := may ∧ candidate s i = true
    let started := fun (st : Status) (u : State) =>
      exec (.startUnit tag unit) s = .next (replied .S 0x04 tag (answer st) u)
    let stopRefused := fun (st : Status) => exec (.stopUnit tag unit) s = .next (replied .S 0x05 tag (answer st) s)
    let waiting : Reason := ⟨0, some i, .pending, false, false⟩
    (¬startable → started .refusedState s)
    ∧ (startable → s.arb.operator ≠ none → started .refusedBusy s)
    ∧ (startable → i ∈ s.cfg.ring → (∀ k : ReasonKind, s.arb.get k = none) → s.arb.slot1 = none →
      ∃ t, exec (.startUnit tag unit) s = .next t
        ∧ t.gens[i].state = .starting ∧ t.gens[i].phaseTimer = some (after s.clock (secs s.cfg.settings.windows.crank))
        ∧ (∀ j : Fin 8, j ≠ i → t.gens[j] = s.gens[j])
        ∧ t.arb.slot1 = some ⟨i, .operator, s.clock⟩ ∧ t.arb.slot2 = s.arb.slot2
        ∧ orderedLast .G (.start i) t
        ∧ t.tally = (offer .startOrdered (some (i.val + 1)) 0 s).tally
        ∧ Answered .S 0x04 tag (answer .done) s t
        ∧ { t with gens := s.gens, arb := s.arb, book := s.book, links := s.links, tally := s.tally } = s)
    ∧ (startable → s.arb.operator = none → s.arb.slot1 ≠ none →
      (∀ (k : ReasonKind) (r : Reason), s.arb.get k = some r → r.stage = .inService) →
      started .pending { s with arb := { s.arb with operator := some waiting } })
    ∧ (startable → i ∈ s.cfg.ring → s.arb.operator = none →
      ∃ t, exec (.startUnit tag unit) s = .next t
        ∧ (t.gens[i].state = .starting → StartedNow i t ∧ Answered .S 0x04 tag (answer .done) s t)
        ∧ (t.gens[i].state ≠ .starting → t.gens[i] = s.gens[i] ∧ t.arb.operator = some waiting
            ∧ Answered .S 0x04 tag (answer .pending) s t)
        ∧ (∀ u : SlotUse, s.arb.slot1 = some u → t.arb.slot1 = some u)
        ∧ (s.arb.slot1 = none → ∃ u : SlotUse, t.arb.slot1 = some u ∧ u.since = s.clock
            ∧ (u.kind = .operator → u.unit = i)
            ∧ (∀ (k : ReasonKind) (r : Reason), k ≠ .operator → s.arb.get k = some r → r.stage = .pending →
                candidatesFor s k r ≠ [] → u.kind ≠ .operator))
        ∧ t.book.claims = s.book.claims
        ∧ { t with gens := s.gens, arb := s.arb, book := s.book, links := s.links, tally := s.tally } = s)
    ∧ (s.lock.quality ≠ .full → stopRefused .refusedQuality)
    ∧ (s.lock.quality = .full → ¬(may ∧ coordOnline s i = true) → stopRefused .refusedState)
    ∧ (s.lock.quality = .full → may → coordOnline s i = true → (coordUnits s).length ≤ 1 → stopRefused .refusedReserve)
    ∧ (s.lock.quality = .full → may → coordOnline s i = true → 2 ≤ (coordUnits s).length →
      ∃ t, exec (.stopUnit tag unit) s = .next t
        ∧ t.gens[i].state = .unloading ∧ t.gens[i].phaseTimer = some (after s.clock (secs s.cfg.settings.windows.unload))
        ∧ t.gens[i].minRun = .absent ∧ t.gens[i].pendingRelease = none
        ∧ (∀ id : Nat, s.gens[i].pendingRelease = some id → ∀ c ∈ t.book.claims, c.id ≠ id)
        ∧ .stop i ∈ orderLine (t.links.get .G)
        ∧ Answered .S 0x05 tag (answer .done) s t
        ∧ t.cfg = s.cfg ∧ t.feeders = s.feeders ∧ t.pvs = s.pvs ∧ t.lock = s.lock)

/-- CLEAR LOCKOUT of a present unit clears the count and the flag through to the store, and a LockedOut unit becomes
Stopped without a phase timer, or is started at once by the serving that follows (R48, R66, R72). RECALL UNIT of a Local
unit queues its RECALL order and sets its recall window to 60 s. It is refused, with nothing else changed, with Refused-State for
a Coordinated unit, before entry completes and with link G Silent, and then with Refused-Busy while the recall window runs
(R84). -/
def Obligations.ClearLockoutAndRecallTaken : Prop :=
  ∀ (tag unit : Byte) (i : Fin 8) (s : State), Ready s .S → unitIndex unit = some i → s.cfg.gensets[i].present = true →
    (∃ t, exec (.clearLockout tag unit) s = .next t
      ∧ t.cfg = { s.cfg with gensets := s.cfg.gensets.set i { s.cfg.gensets[i] with failCount := 0, lockout := false } }
      ∧ t.store = { s.store with
          gensets := s.store.gensets.set i { s.store.gensets[i] with failCount := 0, lockout := false } }
      ∧ (s.gens[i].state ≠ .lockedOut → t.gens = s.gens)
      ∧ (s.gens[i].state = .lockedOut → leftIn i .stopped none t)
      ∧ Answered .S 0x06 tag (answer .done) s t)
    ∧ (s.gens[i].authority = .byPlant → s.entry.complete = true → linkActive s .G = true →
        s.gens[i].recallWindow = none →
        ∃ t, exec (.recallUnit tag unit) s = .next t
          ∧ t.gens[i] = { s.gens[i] with recallWindow := some (after s.clock 60000) }
          ∧ (∀ j : Fin 8, j ≠ i → t.gens[j] = s.gens[j])
          ∧ orderedLast .G (.recall i) t
          ∧ Answered .S 0x07 tag (answer .done) s t
          ∧ { t with gens := s.gens, links := s.links } = s)
    ∧ (let refused := fun (st : Status) =>
         exec (.recallUnit tag unit) s = .next (replied .S 0x07 tag (answer st) s)
       let may := s.gens[i].authority = .byPlant ∧ s.entry.complete = true ∧ linkActive s .G = true
       (¬may → refused .refusedState) ∧ (may → s.gens[i].recallWindow ≠ none → refused .refusedBusy))

/-- A request that names a unit, group or feeder outside its range, or tells an event outside its vocabulary, is refused with
Refused-Range, and one that names a unit or feeder whose record is not present with Refused-State; nothing else changes (R46,
R49, R70, R71, R72, R78, R83, R84, R85, R86, R115, R142). The fields of CLAIM FEEDER's refusals are log 32. -/
def Obligations.SubjectsOutOfRangeRefused : Prop :=
  ∀ (tag b x : Byte) (lifetime : BitVec 16) (s : State),
    (unitIndex b = none →
      (Ready s .S → ∀ c ∈ [(Instr.startUnit tag b, (0x04 : Byte)), (.stopUnit tag b, 0x05), (.clearLockout tag b, 0x06),
          (.recallUnit tag b, 0x07)], exec c.1 s = .next (replied .S c.2 tag (answer .refusedRange) s))
      ∧ (Ready s .G → ∀ c ∈ [(Instr.unitReport tag b x, (0x20 : Byte)), (.releaseUnit tag b, 0x23),
          (.returnUnit tag b, 0x24)], exec c.1 s = .next (replied .G c.2 tag (answer .refusedRange) s))
      ∧ (Ready s .P → ∀ c ∈ [(Instr.releaseGroup tag b, (0x29 : Byte)), (.returnGroup tag b, 0x2A)],
          exec c.1 s = .next (replied .P c.2 tag (answer .refusedRange) s)))
    ∧ (feederIndex b = none → Ready s .F →
        exec (.breakerReport tag b x) s = .next (replied .F 0x30 tag (answer .refusedRange) s)
        ∧ exec (.claimFeeder tag b x lifetime) s =
            .next (replied .F 0x32 tag ⟨.refusedRange, [u1 0, absentField 2, i4 s.book.terms.M]⟩ s))
    ∧ (unitEvent x = none → Ready s .G →
        exec (.unitReport tag b x) s = .next (replied .G 0x20 tag (answer .refusedRange) s))
    ∧ (breakerEvent x = none → Ready s .F →
        exec (.breakerReport tag b x) s = .next (replied .F 0x30 tag (answer .refusedRange) s))
    ∧ (∀ i : Fin 8, unitIndex b = some i → s.cfg.gensets[i].present = false →
        (Ready s .S → ∀ c ∈ [(Instr.startUnit tag b, (0x04 : Byte)), (.clearLockout tag b, 0x06), (.recallUnit tag b, 0x07)],
          exec c.1 s = .next (replied .S c.2 tag (answer .refusedState) s))
        ∧ (Ready s .S → exec (.stopUnit tag b) s = .next (replied .S 0x05 tag
            (answer (if s.lock.quality = .full then .refusedState else .refusedQuality)) s))
        ∧ (Ready s .G → ∀ c ∈ [(Instr.releaseUnit tag b, (0x23 : Byte)), (.returnUnit tag b, 0x24)],
          exec c.1 s = .next (replied .G c.2 tag (answer .refusedState) s))
        ∧ (Ready s .G → unitEvent x ≠ none →
          exec (.unitReport tag b x) s = .next (replied .G 0x20 tag (answer .refusedState) s)))
    ∧ (∀ k : Fin 24, feederIndex b = some k → s.cfg.feeders[k].present = false → Ready s .F →
        (breakerEvent x ≠ none →
          exec (.breakerReport tag b x) s = .next (replied .F 0x30 tag (answer .refusedState) s))
        ∧ (s.entry.complete = true → x.toNat ≤ 120 → lifetime.toNat ≤ 600 → exec (.claimFeeder tag b x lifetime) s =
            .next (replied .F 0x32 tag ⟨.refusedState, [u1 0, u2 (pickupNeed s k), i4 s.book.terms.M]⟩ s)))

/-- UNIT REPORT for a present unit sets its last states and moves it as the table of R50 says: Starting to
Synchronising on Running, to Online on BreakerClosed with its slot freed, to a start failure, its slot freed, on
StartFailed and Tripped; adoption from Stopped and Cooldown; the end of a stop on BreakerOpen, in Cooldown under its
hold timer or, with a hold of 0, Stopped or LockedOut by the flag, and a fault stop on Tripped, with the unit at the
ring's tail; an agreeing report changes nothing else, and a disagreeing one places Discrepancy. A failure counts, and
leaves the unit without timer, LockedOut where the flag stands after the count and Stopped otherwise. Each of these
holds unless the serving that follows has started the unit, which it does to a Stopped or Cooldown candidate alone. A
start failure in Energising of a unit that serves the BlackStart reason is one failed attempt (AttemptCounted), and no other
start failure counts one (R154, R155). A Local unit's tracked state follows its breaker, and an Unknown unit stays Unknown
(R47, R48, R49, R50, R54, R55, R56, R57, R58, R59, R61, R66). -/
def Obligations.UnitReportMovesUnit : Prop :=
  ∀ (tag unit event : Byte) (i : Fin 8) (e : UnitEvent) (s : State), Ready s .G → unitIndex unit = some i →
    unitEvent event = some e → s.cfg.gensets[i].present = true →
    let st := s.gens[i].state
    let coord := s.gens[i].authority = .coordinated
    let told := s.gens.set i (lastStates e s.gens[i])
    let g := s.cfg.gensets[i]
    let count := min 5 (g.failCount + 1)
    let locked := g.lockout || decide (g.failLimit ≤ count)
    let failed := fun (t : State) =>
      t.cfg.gensets[i] = { g with failCount := count, lockout := locked }
        ∧ t.cfg.ring = ringTail i s.cfg.ring ∧ leftIn i (if locked then .lockedOut else .stopped) none t
    let hold := s.cfg.settings.windows.cooldown
    ∃ t, exec (.unitReport tag unit event) s = .next t
      ∧ Answered .G 0x20 tag (answer .done) s t
      ∧ t.gens[i].engineRunning = (lastStates e s.gens[i]).engineRunning
      ∧ t.gens[i].breakerClosed = (lastStates e s.gens[i]).breakerClosed
      ∧ (st = .unknown → t.gens = told ∧ (∀ l : Link, noticesOf t l = noticesOf s l)
          ∧ { t with gens := s.gens, links := s.links } = s)
      ∧ (coord → st = .starting → e = .running → t.gens[i].state = .synchronising
          ∧ t.gens[i].phaseTimer = some (after s.clock (secs s.cfg.settings.windows.sync)))
      ∧ (coord → st ∈ [UnitState.starting, .synchronising] → e = .breakerClosed → t.gens[i].state = .online
          ∧ t.gens[i].phaseTimer = none ∧ t.gens[i].minRun = freshMinRun s ∧ unitSlot t i = none)
      ∧ (coord → st ∈ [UnitState.starting, .synchronising] → e ∈ [UnitEvent.startFailed, .tripped] → failed t
          ∧ (s.seq.phase = .energising → servedKind s i = some .blackStart → AttemptCounted s t)
          ∧ (s.seq.phase ≠ .energising ∨ servedKind s i ≠ some .blackStart → t.seq.attempts = s.seq.attempts)
          ∧ (t.gens[i].state ≠ .starting → unitSlot t i = none)
          ∧ ∃ starts, t.tally = (startsOffered starts (offer .startFailed (some (i.val + 1)) 0 s)).tally)
      ∧ (coord → st ∈ [UnitState.stopped, .cooldown] → e = .breakerClosed → t.gens[i].state = .online
          ∧ t.gens[i].phaseTimer = none ∧ t.gens[i].minRun = freshMinRun s ∧ t.cfg = s.cfg)
      ∧ (coord → st = .unloading → e = .breakerOpen →
          t.cfg = { s.cfg with ring := ringTail i s.cfg.ring }
            ∧ (hold ≠ 0 → leftIn i .cooldown (some (after s.clock (secs hold))) t)
            ∧ (hold = 0 → leftIn i (stoppedState s i) none t))
      ∧ (coord → st ∈ [UnitState.unloading, .cooldown] → e = .tripped → failed t
          ∧ ∃ starts, t.tally = (startsOffered starts s).tally)
      ∧ (coord → (e = .breakerOpen ∧ st ∈ [UnitState.stopped, .starting, .synchronising, .cooldown, .lockedOut])
            ∨ (e = .breakerClosed ∧ st ∈ [UnitState.online, .unloading]) →
          t.gens = told ∧ t.cfg = s.cfg ∧ t.arb = s.arb ∧ t.book = s.book ∧ ∀ l : Link, noticesOf t l = noticesOf s l)
      ∧ (coord → (st, e) ∈ [(UnitState.stopped, UnitEvent.running), (.stopped, .startFailed), (.stopped, .tripped),
            (.synchronising, .running), (.online, .running), (.online, .startFailed), (.unloading, .running),
            (.unloading, .startFailed), (.cooldown, .running), (.cooldown, .startFailed), (.lockedOut, .running),
            (.lockedOut, .startFailed), (.lockedOut, .breakerClosed), (.lockedOut, .tripped)] →
          t.gens = told ∧ { t with gens := s.gens, links := s.links } = s
            ∧ noticesOf t .S = noticesAfter s .S ⟨.discrepancy, i.val + 1, .unit st, .code e.cause, 0, s.clock⟩
            ∧ ∀ l : Link, l ≠ .S → noticesOf t l = noticesOf s l)
      ∧ (¬coord → st ≠ .unknown → e = .breakerClosed → t.gens[i].state = .online)
      ∧ (¬coord → st ≠ .unknown → e ∈ [UnitEvent.breakerOpen, .tripped] → t.gens[i].state = .stopped)

/-- A trip of a Coordinated Online unit: its fail count rises, the lockout flag is set at the limit, the unit goes to the
ring's tail, and a Trip event with the unit's index carries its last output, before the StartOrdered events of the units
the serving starts. Without a pending release the unit is LockedOut where the flag stands after the count and Stopped
otherwise, without timer, unless the serving that follows starts it from Stopped (R47, R60, R66). With a release pending
the unit is handed over once the trip is handled: Local and tracked Stopped, without timers or pending release, the
outcome told to links G and S with cause Trip, and its ReleaseCover claim Applied with its settle expiry (R14, R77, R79,
R81). In Idle, Rebuilding and Failed a last output above 0 is the need of the Trip reason, or raises the need of the one
held; in the other phases, and at 0, the need stays (R47, R60, R62, R68). In Energising the trip is one failed attempt
(AttemptCounted), in any other phase the sequencer stays as it was (R154, R155). That a need past 960,000 kW is kept as it is, is
log 62. -/
def Obligations.TripTaken : Prop :=
  ∀ (tag unit event : Byte) (i : Fin 8) (s : State), Ready s .G → unitIndex unit = some i →
    unitEvent event = some .breakerOpen ∨ unitEvent event = some .tripped → s.cfg.gensets[i].present = true →
    s.gens[i].state = .online → s.gens[i].authority = .coordinated →
    let g := s.cfg.gensets[i]
    let count := min 5 (g.failCount + 1)
    let locked := g.lockout || decide (g.failLimit ≤ count)
    let lost := s.gens[i].lastOutput
    let need := fun (x : State) => (x.arb.get .trip).map (·.need)
    ∃ t, exec (.unitReport tag unit event) s = .next t
      ∧ Answered .G 0x20 tag (answer .done) s t
      ∧ t.cfg.gensets[i] = { g with failCount := count, lockout := locked }
      ∧ t.cfg.ring = ringTail i s.cfg.ring
      ∧ (s.gens[i].pendingRelease = none → leftIn i (if locked then .lockedOut else .stopped) none t)
      ∧ (∀ id : Nat, s.gens[i].pendingRelease = some id →
          t.gens[i].authority = .byPlant ∧ t.gens[i].pendingRelease = none
          ∧ t.gens[i].state = .stopped ∧ t.gens[i].phaseTimer = none ∧ t.gens[i].minRun = .absent
          ∧ (∀ l ∈ [Link.G, .S], toldOf t l fun n =>
              n = ⟨.authorityOutcome, i.val + 1, .outcome .byPlant, .code .trip, id, s.clock⟩)
          ∧ ∀ c ∈ s.book.claims, c.id = id → id ≠ 0 → c.live = true → c.holder = .releaseCover →
              { c with state := .applied (after s.clock (secs s.cfg.settings.book.claimSettle)) } ∈ t.book.claims)
      ∧ (∃ starts, t.tally = (startsOffered starts (offer .trip (some (i.val + 1)) lost s)).tally
          ∧ ∀ j ∈ starts, t.gens[j].state = .starting)
      ∧ (0 < lost → s.seq.phase ∈ [Phase.idle, .rebuilding, .failed] → need t = some ((need s).getD 0 + lost))
      ∧ (lost = 0 ∨ s.seq.phase ∈ [Phase.clearing, .energising] → need t = need s)
      ∧ (s.seq.phase = .energising → AttemptCounted s t)
      ∧ (s.seq.phase ≠ .energising → t.seq = s.seq)
      ∧ t.feeders = s.feeders ∧ t.lock = s.lock

/-- The timers of a unit. The crank window and the sync window are a start failure, and free the slot: with link G Active
the fail count rises, the unit goes to the ring's tail, and it is LockedOut where the flag stands after the count and
Stopped otherwise, unless the serving starts it again; with link G Silent neither changes, and the unit is Stopped or
LockedOut by the flag as it stands (R47, R56, R66, R73). In Energising the failure of a unit that serves the BlackStart reason
is one failed attempt, with link G Silent too (AttemptCounted), and no other one counts (R154, R155). An unload window returns it to Online with a fresh min-run timer
(R57), a cooldown hold makes it Stopped or LockedOut by the flag, unless the serving starts it (R47, R58), a min-run timer
becomes elapsed (R48), and a recall window ends with its notice for link S, the unit staying Local (R84). -/
def Obligations.UnitTimersEnd : Prop :=
  ∀ (i : Fin 8) (s : State),
    (∀ (c : Instr) (st : UnitState),
      (c = .crankWindowExpiry i ∧ st = .starting) ∨ (c = .syncWindowExpiry i ∧ st = .synchronising) →
      s.gens[i].state = st → due s.clock s.gens[i].phaseTimer = true →
      let g := s.cfg.gensets[i]
      let count := min 5 (g.failCount + 1)
      let locked := g.lockout || decide (g.failLimit ≤ count)
      ∃ t, exec c s = .next t
        ∧ (t.gens[i].state ≠ .starting → unitSlot t i = none)
        ∧ (linkActive s .G = true →
            t.cfg.gensets[i] = { g with failCount := count, lockout := locked }
              ∧ t.cfg.ring = ringTail i s.cfg.ring ∧ leftIn i (if locked then .lockedOut else .stopped) none t
              ∧ ∃ starts, t.tally = (startsOffered starts (offer .startFailed (some (i.val + 1)) 0 s)).tally)
        ∧ (linkActive s .G = false →
            t.cfg = s.cfg ∧ t.gens[i].state = stoppedState s i ∧ t.gens[i].phaseTimer = none
              ∧ t.tally = (offer .startFailed (some (i.val + 1)) 0 s).tally)
        ∧ (s.seq.phase = .energising → servedKind s i = some .blackStart → AttemptCounted s t)
        ∧ (s.seq.phase ≠ .energising ∨ servedKind s i ≠ some .blackStart → t.seq.attempts = s.seq.attempts)
        ∧ t.feeders = s.feeders ∧ t.lock = s.lock)
    ∧ (s.gens[i].state = .unloading → due s.clock s.gens[i].phaseTimer = true →
      ∃ t, exec (.unloadWindowExpiry i) s = .next t
        ∧ t.gens[i].state = .online ∧ t.gens[i].phaseTimer = none ∧ t.cfg = s.cfg
        ∧ (s.gens[i].authority = .coordinated → t.gens[i].minRun = freshMinRun s)
        ∧ ((noticesOf s .S).length ≤ 14 →
            ⟨.stopFailed, i.val + 1, .none, .code .none, 0, s.clock⟩ ∈ noticesOf t .S))
    ∧ (s.gens[i].state = .cooldown → due s.clock s.gens[i].phaseTimer = true →
      ∃ t, exec (.cooldownHoldExpiry i) s = .next t
        ∧ leftIn i (stoppedState s i) none t ∧ t.cfg = s.cfg)
    ∧ (∀ m : Time, s.gens[i].minRun = .running m → reached s.clock m = true →
      ∃ t, exec (.minRunExpiry i) s = .next t
        ∧ t.gens = s.gens.set i { s.gens[i] with minRun := .elapsed } ∧ { t with gens := s.gens, links := s.links } = s)
    ∧ (due s.clock s.gens[i].recallWindow = true →
      ∃ t, exec (.recallWindowExpiry i) s = .next t
        ∧ t.gens = s.gens.set i { s.gens[i] with recallWindow := none }
        ∧ noticesOf t .S = noticesAfter s .S ⟨.recallExpired, i.val + 1, .none, .code .none, 0, s.clock⟩
        ∧ { t with gens := s.gens, links := s.links } = s)

/-- A UNIT STATUS entry for a present Unknown unit resolves it: the authority is the control field, a Closed breaker makes
it Online, an Open one Stopped, or LockedOut by the flag where it is Coordinated, and resolution closes where nothing is
left Unknown (R51, R189). One for a resolved Coordinated unit moves it as the table of R52 says: a failure leaves it
LockedOut where the flag stands after the count and Stopped otherwise, a completed stop in Cooldown under its hold timer
or, with a hold of 0, Stopped or LockedOut by the flag, and the end of a cooldown Stopped or LockedOut, each unless the
serving that follows has started it (R47, R48, R52, R57, R58, R66); a trip with a release pending hands it over, Local and
tracked Stopped (R79, R81); in Energising a trip, and a start failure of a unit that serves the BlackStart reason, is one failed
attempt (R154, R155). One for a Local unit sets its tracked state, and a control field that differs from the
authority places Discrepancy (R51). An entry that names no present unit, or one named before in the list, is skipped, and
the reply is Clamped (R51). That an entry with a code outside its vocabulary is read, with that value free, is log 10; the
cause of the Discrepancy is log 24. AVAILABILITY sets each present unit's availability to what the last entry naming it
declares, Available alone counting as such; the reply is Clamped when an entry was skipped or its code is neither (R53).
-/
def Obligations.UnitListsTaken : Prop :=
  (∀ (tag : Byte) (e : UnitEntry) (i : Fin 8) (s : State), Ready s .G → unitIndex e.unit = some i →
    s.cfg.gensets[i].present = true → s.gens[i].state = .unknown →
    let r := unitStanding e
    ∃ t, exec (.unitStatus tag [e]) s = .next t
      ∧ Answered .G 0x21 tag (answer .done) s t
      ∧ t.gens[i].authority = r.control ∧ t.gens[i].engineRunning = r.running ∧ t.gens[i].breakerClosed = r.closed
      ∧ (r.closed = true → t.gens[i].state = .online)
      ∧ (r.closed = false → r.control = .byPlant → t.gens[i].state = .stopped)
      ∧ (r.closed = false → r.control = .coordinated →
          leftIn i (stoppedState s i) none t)
      ∧ (t.entry.resolved = true ↔ s.entry.resolved = true ∨ allResolved t = true)
      ∧ t.cfg = s.cfg ∧ t.feeders = s.feeders)
  ∧ (∀ (tag : Byte) (e : UnitEntry) (i : Fin 8) (s : State), Ready s .G → unitIndex e.unit = some i →
    s.cfg.gensets[i].present = true → s.entry.resolved = true →
    let r := unitStanding e
    let st := s.gens[i].state
    let coord := s.gens[i].authority = .coordinated
    let told := s.gens.set i { s.gens[i] with engineRunning := r.running, breakerClosed := r.closed }
    let note := fun (why : Cause) => (⟨.discrepancy, i.val + 1, .unit st, .code why, 0, s.clock⟩ : Notice)
    let g := s.cfg.gensets[i]
    let count := min 5 (g.failCount + 1)
    let locked := g.lockout || decide (g.failLimit ≤ count)
    let failed := fun (t : State) => t.cfg.gensets[i] = { g with failCount := count, lockout := locked }
      ∧ t.cfg.ring = ringTail i s.cfg.ring
    let left := leftIn i (if locked then .lockedOut else .stopped) none
    let hold := s.cfg.settings.windows.cooldown
    let agrees := (st, r.running, r.closed) ∈ [(UnitState.stopped, false, false), (.starting, false, false),
      (.synchronising, true, false), (.online, true, true), (.unloading, false, true), (.unloading, true, true),
      (.cooldown, true, false), (.lockedOut, false, false)]
    st ≠ .unknown →
    ∃ t, exec (.unitStatus tag [e]) s = .next t
      ∧ Answered .G 0x21 tag (answer .done) s t
      ∧ t.gens[i].engineRunning = r.running ∧ t.gens[i].breakerClosed = r.closed
      ∧ (coord → st ∈ [UnitState.stopped, .cooldown, .starting, .synchronising] → r.closed = true →
          t.gens[i].state = .online ∧ t.gens[i].phaseTimer = none ∧ t.gens[i].minRun = freshMinRun s ∧ t.cfg = s.cfg)
      ∧ (coord → st = .starting → r.running = true → r.closed = false → t.gens[i].state = .synchronising
          ∧ t.gens[i].phaseTimer = some (after s.clock (secs s.cfg.settings.windows.sync)))
      ∧ (coord → st = .synchronising → r.running = false → r.closed = false → failed t ∧ left t
          ∧ (s.seq.phase = .energising → servedKind s i = some .blackStart → AttemptCounted s t)
          ∧ (t.gens[i].state ≠ .starting → unitSlot t i = none))
      ∧ (coord → st = .online → r.running = false ∨ r.closed = false → failed t
          ∧ (s.seq.phase = .energising → AttemptCounted s t)
          ∧ (s.gens[i].pendingRelease = none → left t)
          ∧ (s.gens[i].pendingRelease ≠ none → t.gens[i].authority = .byPlant ∧ t.gens[i].pendingRelease = none
              ∧ t.gens[i].state = .stopped ∧ t.gens[i].phaseTimer = none)
          ∧ ∃ starts, t.tally = (startsOffered starts (offer .trip (some (i.val + 1)) s.gens[i].lastOutput s)).tally)
      ∧ (coord → st = .unloading → r.closed = false →
          t.cfg = { s.cfg with ring := ringTail i s.cfg.ring }
            ∧ (hold ≠ 0 → leftIn i .cooldown (some (after s.clock (secs hold))) t)
            ∧ (hold = 0 → leftIn i (stoppedState s i) none t))
      ∧ (coord → st = .cooldown → r.running = false → r.closed = false → t.cfg = s.cfg
          ∧ leftIn i (stoppedState s i) none t)
      ∧ (coord → agrees → r.control = .coordinated → t.gens = told ∧ { t with gens := s.gens, links := s.links } = s
          ∧ ∀ l : Link, noticesOf t l = noticesOf s l)
      ∧ (coord → agrees → r.control = .byPlant → t.gens = told ∧ { t with gens := s.gens, links := s.links } = s
          ∧ noticesOf t .S = noticesAfter s .S (note .status))
      ∧ (coord → st = .stopped → r.running = true → r.closed = false →
          t.gens = told ∧ noticesOf t .S = noticesAfter s .S (note .running))
      ∧ (coord → st = .lockedOut → r.running = true ∨ r.closed = true →
          t.gens = told ∧ noticesOf t .S = noticesAfter s .S (note .status))
      ∧ (¬coord → t.gens[i].state = (if r.closed then .online else .stopped) ∧ t.cfg = s.cfg
          ∧ (r.control = .coordinated → toldOf t .S (fun n => n = note .status))))
  ∧ (∀ (tag : Byte) (es fs : List UnitEntry) (e : UnitEntry) (s : State), Ready s .G → es.length + fs.length < 8 →
    (∀ i : Fin 8, unitIndex e.unit = some i →
      s.cfg.gensets[i].present = false ∨ ∃ d ∈ es, unitIndex d.unit = some i) →
    ∃ t v, exec (.unitStatus tag (es ++ e :: fs)) s = .next t ∧ exec (.unitStatus tag (es ++ fs)) s = .next v
      ∧ Answered .G 0x21 tag (answer .clamped) s t ∧ { t with links := v.links } = v
      ∧ ∀ l : Link, noticesOf t l = noticesOf v l)
  ∧ (∀ (tag : Byte) (es : List AvailEntry) (s : State), Ready s .G → es.length ≤ 8 →
    let clean := fun (e : AvailEntry) =>
      (unitIndex e.unit).any (fun i => s.cfg.gensets[i].present) && (e.declaration = 0 || e.declaration = 1)
    ∃ t, exec (.availability tag es) s = .next t
      ∧ (∀ i : Fin 8, t.gens[i].available =
          match (es.filter fun e => unitIndex e.unit = some i).getLast? with
          | some e => if s.cfg.gensets[i].present then decide (e.declaration = 1) else s.gens[i].available
          | none => s.gens[i].available)
      ∧ Answered .G 0x22 tag (answer (if es.all clean then .done else .clamped)) s t
      ∧ t.cfg = s.cfg ∧ t.feeders = s.feeders ∧ t.lock = s.lock ∧ t.pvs = s.pvs)

/-! ## Unit Authority (04) -/

/-- RELEASE UNIT in Idle of a present Coordinated unit with no release pending: a Stopped, Cooldown or LockedOut unit, and
an Online one that the margin can spare in Full, is handed over at once; an Online one that it cannot waits under a
ReleaseCover claim of its headroom (R78, R79, R80). Of a Local unit nothing changes and the reply is Done. It is refused,
with nothing else changed: Refused-Range for an index outside 1..8; Refused-State for a unit not present, one Unknown,
Starting, Synchronising or Unloading, outside Idle, and with a release pending; Refused-Quality for an Online one before
entry completes; and for one that the margin cannot spare Refused-State where a claim names it, and Refused-Busy with 16
claims in the list (R78, R80). RETURN UNIT makes a Local unit Coordinated, in the state its breaker gives, Online or else
Stopped or LockedOut by the flag unless the serving starts it, and ends a pending release with its claim (R66, R81, R83).
Of a Coordinated unit with no release pending nothing changes and the reply is Done; an index outside 1..8 is refused with
Refused-Range and a unit not present with Refused-State (R83). That a Done reply of RELEASE UNIT carries no claim id is
log 45. That the headroom, also as the amount of the claim, is taken from the last output is log 71. -/
def Obligations.ReleaseAndReturnUnit : Prop :=
  ∀ (tag unit : Byte) (s : State), Ready s .G →
    let released := fun (st : Status) => exec (.releaseUnit tag unit) s = .next (replied .G 0x23 tag (answer st) s)
    let returned := fun (st : Status) => exec (.returnUnit tag unit) s = .next (replied .G 0x24 tag (answer st) s)
    (unitIndex unit = none → released .refusedRange ∧ returned .refusedRange)
    ∧ ∀ i : Fin 8, unitIndex unit = some i →
      (s.cfg.gensets[i].present = false → released .refusedState ∧ returned .refusedState)
      ∧ (s.cfg.gensets[i].present = true →
        let g := s.gens[i]
        let spare := s.lock.quality = .full ∧ 0 ≤ s.book.terms.M - (releaseHeadroom s i : Int)
        let id := newClaimId s
        (g.authority = .coordinated → s.seq.phase = .idle → g.pendingRelease = none →
          (g.state ∈ [UnitState.stopped, .cooldown, .lockedOut] ∨ (g.state = .online ∧ s.entry.complete = true ∧ spare)) →
          ∃ t, exec (.releaseUnit tag unit) s = .next t
            ∧ t.gens[i].authority = .byPlant ∧ t.gens[i].state = (if g.state = .online then .online else .stopped)
            ∧ t.gens[i].phaseTimer = none ∧ t.gens[i].minRun = .absent
            ∧ t.book.claims = s.book.claims ∧ t.cfg = s.cfg
            ∧ Answered .G 0x23 tag (answer .done) s t)
        ∧ (g.authority = .coordinated → s.seq.phase = .idle → g.pendingRelease = none → g.state = .online →
            s.entry.complete = true → ¬spare → s.cfg.settings.book.releaseWait ≠ 0 → s.book.claims.length < 16 →
            (∀ c ∈ s.book.claims, c.purpose ≠ .unit i) →
            ∃ t, exec (.releaseUnit tag unit) s = .next t
              ∧ t.gens = s.gens.set i { g with pendingRelease := some id }
              ∧ t.book.claims = s.book.claims ++ [⟨id, .releaseCover, .unit i, max 1 (releaseHeadroom s i),
                  s.cfg.settings.book.claimLifetime, true, .pending (after s.clock (secs s.cfg.settings.book.releaseWait))⟩]
              ∧ Answered .G 0x23 tag ⟨.pending, [u1 id]⟩ s t
              ∧ { t with gens := s.gens, book := s.book, links := s.links } = s)
        ∧ (g.authority = .byPlant → ∃ t, exec (.returnUnit tag unit) s = .next t
            ∧ t.gens[i].authority = .coordinated ∧ t.gens[i].recallWindow = none
            ∧ (g.state ≠ .unknown → g.breakerClosed = true → t.gens[i].state = .online
                ∧ t.gens[i].minRun = freshMinRun s)
            ∧ (g.state ≠ .unknown → g.breakerClosed = false →
                leftIn i (stoppedState s i) (if g.state = stoppedState s i then g.phaseTimer else none) t)
            ∧ t.cfg = s.cfg ∧ Answered .G 0x24 tag (answer .done) s t)
        ∧ (∀ id : Nat, g.authority = .coordinated → g.pendingRelease = some id →
            ∃ t, exec (.returnUnit tag unit) s = .next t
              ∧ t.gens = s.gens.set i { g with pendingRelease := none }
              ∧ (∀ c ∈ t.book.claims, c.id ≠ id)
              ∧ Answered .G 0x24 tag (answer .done) s t)
        ∧ (g.authority = .byPlant → released .done)
        ∧ (g.authority = .coordinated → g.state ∈ [UnitState.unknown, .starting, .synchronising, .unloading]
            ∨ s.seq.phase ≠ .idle ∨ g.pendingRelease ≠ none → released .refusedState)
        ∧ (g.authority = .coordinated → s.seq.phase = .idle → g.pendingRelease = none → g.state = .online →
            let named := ∃ c ∈ s.book.claims, c.purpose = .unit i
            (s.entry.complete = false → released .refusedQuality)
            ∧ (s.entry.complete = true → ¬spare → named → released .refusedState)
            ∧ (s.entry.complete = true → ¬spare → ¬named → 16 ≤ s.book.claims.length → released .refusedBusy))
        ∧ (g.authority = .coordinated → g.pendingRelease = none → returned .done))

/-- RELEASE GROUP of a Coordinated group: Local, without ceiling and cap, its entry taken from every CEILING order not yet
begun, the outcome told to links P and S, the margin recomputed. RETURN GROUP of a Local one: Coordinated, its ceiling at
its clamped output in Idle, at 0 under cap 0 in every other phase, and a full order owed (R77, R85, R86). RELEASE GROUP of a
Local group and RETURN GROUP of a Coordinated one are answered Done and change nothing (R85, R86). That the margin
recomputed, at any state, takes cf, Rfloor and N-1 cover as they then stand, also between a SET of them and the next
evaluation, is log 48, the model's reading. -/
def Obligations.GroupReleasedAndReturned : Prop :=
  ∀ (tag group : Byte) (g : Fin 8) (s : State), Ready s .P → unitIndex group = some g →
    let told := fun (o : OutcomeWord) (c : Cause) =>
      (⟨.authorityOutcome, g.val + 9, .outcome o, .code c, 0, s.clock⟩ : Notice)
    (s.pvs[g].authority = .coordinated → ∃ t, exec (.releaseGroup tag group) s = .next t
      ∧ t.pvs = s.pvs.set g { s.pvs[g] with authority := .byPlant, issued := none, cap := none }
      ∧ (∀ es : List (Fin 8 × Nat), .ceiling es ∈ (t.links.get .P).orders → ∀ e ∈ es, e.1 ≠ g)
      ∧ (∀ l ∈ [Link.P, .S], noticesOf t l = noticesAfter s l (told .byPlant .release))
      ∧ t.book.terms = computeTerms t
      ∧ Answered .P 0x29 tag (answer .done) s t
      ∧ { t with pvs := s.pvs, book := s.book, links := s.links } = s)
    ∧ (s.pvs[g].authority = .byPlant → ∃ t, exec (.returnGroup tag group) s = .next t
      ∧ t.pvs = s.pvs.set g (if s.seq.phase = .idle
          then { s.pvs[g] with authority := .coordinated, issued := some (min s.cfg.pvs[g].rating (pvOut s g)) }
          else { s.pvs[g] with authority := .coordinated, issued := some 0, cap := some 0 })
      ∧ t.cur = { s.cur with fullOwed := true }
      ∧ (∀ l ∈ [Link.P, .S], noticesOf t l = noticesAfter s l (told .coordinated .return))
      ∧ t.book.terms = computeTerms t
      ∧ Answered .P 0x2A tag (answer .done) s t
      ∧ { t with pvs := s.pvs, cur := s.cur, book := s.book, links := s.links } = s)
    ∧ (s.pvs[g].authority = .byPlant →
        exec (.releaseGroup tag group) s = .next (replied .P 0x29 tag (answer .done) s))
    ∧ (s.pvs[g].authority = .coordinated →
        exec (.returnGroup tag group) s = .next (replied .P 0x2A tag (answer .done) s))

/-! ## Solar curtailment (05) -/

/-- PV REPORT: the first entry naming a group sets its available power, clamped to the rating, and its age, and confirms a
Coordinated group's ceiling when it shows it held; nothing else changes, and the reply is Clamped when an entry was skipped
or a power was clamped (R90, R91, R92). -/
def Obligations.PvReportTaken : Prop :=
  ∀ (tag : Byte) (es : List PvEntry) (s : State), Ready s .P → es.length ≤ 8 →
    let names := es.map fun e => unitIndex e.group
    let clean := names.all Option.isSome && decide names.Nodup
      && es.all (fun e => (unitIndex e.group).any fun g => e.available.toNat ≤ s.cfg.pvs[g].rating)
    ∃ t, exec (.pvReport tag es) s = .next t
      ∧ (∀ g : Fin 8, t.pvs[g] =
          match es.find? fun e => unitIndex e.group = some g with
          | some e => { s.pvs[g] with
              available := min s.cfg.pvs[g].rating e.available.toNat
              age := some 0
              ageNext := some (after s.clock 100)
              awaiting := s.pvs[g].awaiting && !(s.pvs[g].authority = .coordinated && e.held ≠ 0xFFFF
                && s.pvs[g].issued = some e.held.toNat) }
          | none => s.pvs[g])
      ∧ Answered .P 0x28 tag (answer (if clean then .done else .clamped)) s t
      ∧ { t with pvs := s.pvs, links := s.links } = s

/-- A sample that starts an evaluation on a Live bus, in every phase, computes the ceilings while link P is Active: the
bases and their sum, the over-frequency reduction, the target, the previous total, the bucket's leak, reopening and
admission, the new total and the reduction (R94 to R98), the shares class by class, none above its base, a class touched
only once the one before it gives its whole base (R100 to R102), the computed ceiling, outside Idle at most the group's
cap of its rating, rounded down, with none released as 0, and the issued one (R102, R104), and the CEILING order, queued
when a ceiling changed or a full order is owed, which clears that flag and sets every listed group awaiting (R105). While
link P is Silent the bucket leaks and nothing else happens (R106). In Idle, Clearing and Failed the caps stay (R103); in
Energising and Rebuilding the plan may move them, and nothing else of a group that is not computed. A tally that takes
CurtailedEnergy alone then counts one event, without index, in the quality in force, or adds its amount: over the
coordinated groups, the available power in use above the ceiling issued; where link P is Silent there is no event (R108).
The shares of a class sum to its part of the reduction, each within its member's base, whatever the weights (R101, R102).
-/
def Obligations.CeilingsComputedAndIssued : Prop :=
  (∀ (part : Nat) (ms : List Member), (∀ m ∈ ms, m.share = 0 ∧ m.clamped = false ∧ 1 ≤ m.weight) →
    part ≤ (ms.map (·.base)).sum →
    ((shareClass part ms).map (·.share)).sum = part
      ∧ (∀ m ∈ shareClass part ms, m.share ≤ m.base)
      ∧ (shareClass part ms).map (fun m => (m.group, m.base)) = ms.map (fun m => (m.group, m.base)))
  ∧ (∀ (p : List Byte) (s : State), SteadySample p s → (SampleRec.parse p).live = true →
    let u := sampled p s
    let c := s.cfg.settings.curtail
    let groups := coordGroups s
    let base := fun (g : Fin 8) => min s.cfg.pvs[g].rating (availableInUse u g)
    let sb := (groups.map base).sum
    let above := ((SampleRec.parse p).freq.toNat : Int) - (s.cfg.settings.links.nominal + c.ofOffset : Nat)
    let cut := min sb (ceilDiv (sb * above.toNat * c.gain) 100000)
    let target := min sb (computeTerms u).A - cut
    let before := (groups.map fun g => min (s.pvs[g].issued.getD 0) (base g)).sum
    let level := s.cur.bucket - c.rampRate / 10
    let opened := s.cur.bucketOpen || decide (level ≤ c.reopen)
    let rise := if opened = true ∧ s.lock.quality = .full then min (target - before) (c.capacity - level) else 0
    let total := if target ≤ before then target else before + rise
    let red := sb - total
    let shares := shareFrom u 4 0 red
    let shared := fun (g : Fin 8) => match shares.find? (fun m => m.group = g) with
      | some m => m.base - m.share
      | none => s.cfg.pvs[g].rating
    let ceiling := fun (g : Fin 8) => if s.seq.phase = .idle then shared g
      else min (shared g) (s.cfg.pvs[g].rating * s.pvs[g].cap.getD 0 / 100)
    let only := fun (c : TallyCfg) => ∀ k : EventKind, c.events.getLsbD k.place = true ↔ k = .curtailedEnergy
    let taken := fun (c : TallyCfg) => c.filter = 0
      ∧ (c.qualifier = .any ∨ (c.qualifier = .fullOnly ↔ s.lock.quality = .full))
    let refusedPower := fun (t : State) => (groups.map fun g => availableInUse u g - t.pvs[g].issued.getD 0).sum
    let moves := fun (g : Fin 8) (v : Nat) => ceiling g ≠ v
      ∧ (c.changeStep ≤ (ceiling g - v) + (v - ceiling g) ∨ ceiling g = 0 ∨ ceiling g = s.cfg.pvs[g].rating)
      ∧ (s.lock.quality = .full ∨ ceiling g < v)
    ∃ t, exec (.sample 0x60 p true) s = .next t
      ∧ (linkActive s .P = false → t.cur = { s.cur with bucket := level }
          ∧ (∀ g : Fin 8, { t.pvs[g] with cap := s.pvs[g].cap } = s.pvs[g])
          ∧ orderLine (t.links.get .P) = orderLine (s.links.get .P)
          ∧ ∀ i : Fin 16, only s.cfg.tallies[i] → t.tally.live[i] = s.tally.live[i])
      ∧ (s.seq.phase ∉ [Phase.energising, .rebuilding] → ∀ g : Fin 8, t.pvs[g].cap = s.pvs[g].cap)
      ∧ (linkActive s .P = true → ∀ i : Fin 16, only s.cfg.tallies[i] →
          (taken s.cfg.tallies[i] → t.tally.live[i] = min 1099511627775
            (s.tally.live[i] + if s.cfg.tallies[i].mode = .count then 1 else refusedPower t))
          ∧ (¬taken s.cfg.tallies[i] → t.tally.live[i] = s.tally.live[i]))
      ∧ (linkActive s .P = true →
          t.cur = { s.cur with
            bucket := if target ≤ before then level else level + rise
            bucketOpen := if target ≤ before then s.cur.bucketOpen else opened && level + rise ≠ c.capacity
            fullOwed := false
            sumBase := sb, rof := cut, target := target, prevTotal := before, newTotal := total, reduction := red }
          ∧ (∀ g ∈ groups, t.pvs[g].base = base g ∧ t.pvs[g].computed = ceiling g
              ∧ ∀ v, s.pvs[g].issued = some v →
                (moves g v → t.pvs[g].issued = some (ceiling g)) ∧ (¬moves g v → t.pvs[g].issued = some v))
          ∧ (∀ g : Fin 8, g ∉ groups → { t.pvs[g] with cap := s.pvs[g].cap } = s.pvs[g])
          ∧ ((∃ g ∈ groups, t.pvs[g].issued ≠ s.pvs[g].issued) ∨ s.cur.fullOwed = true →
              orderedLast .P (.ceiling (groups.map fun g => (g, t.pvs[g].issued.getD 0))) t
                ∧ ∀ g ∈ groups, t.pvs[g].awaiting = true)
          ∧ ((∀ g ∈ groups, t.pvs[g].issued = s.pvs[g].issued) → s.cur.fullOwed = false →
              orderLine (t.links.get .P) = orderLine (s.links.get .P)
                ∧ ∀ g ∈ groups, t.pvs[g].awaiting = s.pvs[g].awaiting)
          ∧ ((∀ g ∈ groups, 1 ≤ s.cfg.pvs[g].weight ∧ s.cfg.pvs[g].cls ≤ 3) → (shares.map (·.share)).sum = red
              ∧ (∀ m ∈ shares, m.group ∈ groups ∧ m.base = base m.group ∧ m.share ≤ m.base)
              ∧ ∀ m ∈ shares, ∀ n ∈ shares, s.cfg.pvs[m.group].cls < s.cfg.pvs[n.group].cls → m.share = m.base)))

/-! ## Feeder shedding (06) -/

/-- The stages. At a sample that starts an evaluation on a Live bus in Idle, Rebuilding or Failed: a stage at or below its
threshold starts its timer, or fires at once with a delay of 0; above the reset band its timer is cancelled, and in the band
a running one goes on (R119); a RoCoF at or below the advance threshold fires stages 1 and 2 where their timers run (R120). A
stage that fires with link F Active opens its feeders under an OPEN SET order and latches; with link F Silent its timer
simply ends (R112, R121, R131). While a stage is latched, a release spell at or above the restore frequency starts, goes on,
and at its time releases every latch (R122); that it releases a stage that fires at that same evaluation too is the model's
reading, log 28. A stage timer at its expiry fires its stage: every present Closed Load feeder of the stage below class 7
enters Opening with cause UnderFrequency and its relay window, no other feeder changes, and the order stands last in link F's
queue (R111, R112, R121, R131). -/
def Obligations.StagesFireAndRelease : Prop :=
  let listed := fun (s : State) (n : Fin 4) (k : Fin 24) =>
    s.cfg.feeders[k].present = true ∧ s.feeders[k].state = .closed
      ∧ s.cfg.feeders[k].kind = .load ∧ s.cfg.feeders[k].stage = n.val + 1 ∧ s.cfg.feeders[k].cls < 7
  (∀ (n : Fin 4) (s : State), due s.clock s.shed.timers[n] = true →
    ∃ t, exec (.stageTimerExpiry n) s = .next t
      ∧ t.shed.timers[n] = none ∧ t.cfg = s.cfg ∧ t.lock = s.lock
      ∧ (∀ m : Fin 4, m ≠ n → t.shed.timers[m] = s.shed.timers[m] ∧ t.shed.latches[m] = s.shed.latches[m])
      ∧ (linkActive s .F = true → t.shed.latches[n] = true
          ∧ (∀ k : Fin 24, listed s n k → t.feeders[k].state = .opening ∧ t.feeders[k].shedCause = some .underFrequency
              ∧ t.feeders[k].relayWindow = some (after s.clock (s.cfg.settings.shed.relayWindow * 100)))
          ∧ (∀ k : Fin 24, ¬listed s n k → t.feeders[k] = s.feeders[k])
          ∧ (∀ c ∈ t.book.claims, restorationClaim c = true → ∀ k : Fin 24, ¬listed s n k)
          ∧ ((∃ k : Fin 24, listed s n k) → ∃ fs, orderedLast .F (.openSet fs) t ∧ fs.Pairwise (· < ·)
              ∧ ∀ k : Fin 24, k ∈ fs ↔ listed s n k))
      ∧ (linkActive s .F = false →
          { t with shed := s.shed, links := s.links } = s ∧ t.shed.latches[n] = s.shed.latches[n]))
  ∧ (∀ (p : List Byte) (s : State), SteadySample p s → (SampleRec.parse p).live = true →
    s.seq.phase ∈ [Phase.idle, .rebuilding, .failed] →
    let f := ((SampleRec.parse p).freq.toNat : Int)
    let c := s.cfg.settings.shed
    let threshold := fun (n : Fin 4) => (s.cfg.settings.links.nominal : Int) - c.offsets[n]
    let advanced := fun (n : Fin 4) => (SampleRec.parse p).rocof.toInt ≤ c.rocofAdvance ∧ n.val < 2
    let starts := fun (n : Fin 4) => f ≤ threshold n ∧ s.shed.latches[n] = false ∧ s.shed.timers[n] = none
    let runs := fun (n : Fin 4) => s.shed.timers[n] ≠ none ∧ f ≤ threshold n + c.resetBand
    let fires := fun (n : Fin 4) => (starts n ∧ (c.delays[n] = 0 ∨ advanced n)) ∨ (runs n ∧ advanced n)
    let low := f < (s.cfg.settings.links.nominal : Int) - s.cfg.settings.restore.freqOffset
    let released := ranFor s.clock s.shed.spell (secs c.latchRelease)
    ∃ t, exec (.sample 0x60 p true) s = .next t
      ∧ (∀ n : Fin 4,
          (fires n → t.shed.timers[n] = none
            ∧ (linkActive s .F = true → (anyLatched s = false → t.shed.latches[n] = true)
                ∧ ∀ k : Fin 24, listed s n k → t.feeders[k].state = .opening
                  ∧ ∃ fs, k ∈ fs ∧ .openSet fs ∈ orderLine (t.links.get .F)))
          ∧ (¬fires n → starts n → t.shed.timers[n] = some (after s.clock c.delays[n]))
          ∧ (¬fires n → ¬starts n → runs n → t.shed.timers[n] = s.shed.timers[n])
          ∧ (¬starts n → ¬runs n → t.shed.timers[n] = none)
          ∧ (¬fires n ∨ linkActive s .F = false → anyLatched s = false → t.shed.latches[n] = false))
      ∧ (anyLatched s = false → t.shed.spell = s.shed.spell)
      ∧ (anyLatched s = true → low → t.shed.spell = none
          ∧ ∀ n : Fin 4, s.shed.latches[n] = true → t.shed.latches[n] = true)
      ∧ (anyLatched s = true → ¬low → ¬released → t.shed.spell = some (runningFrom s.clock s.shed.spell)
          ∧ ∀ n : Fin 4, s.shed.latches[n] = true → t.shed.latches[n] = true)
      ∧ (anyLatched s = true → ¬low → released → t.shed.spell = none ∧ ∀ n : Fin 4, t.shed.latches[n] = false))

/-- The relay windows: a feeder in Opening becomes Faulted and the settle timer starts; one in Closing becomes Faulted and
the claims naming it leave the list, alone where the sequencer is neither Clearing nor Rebuilding (R17, R111, R113, R114).
The settle timer and the restore hold-off become absent at their expiries, with nothing else changed (R125, R133). -/
def Obligations.ShedTimersEnd : Prop :=
  (∀ (k : Fin 24) (s : State), due s.clock s.feeders[k].relayWindow = true →
    (s.feeders[k].state = .opening → ∃ t, exec (.openingRelayWindowExpiry k) s = .next t
      ∧ t.feeders = s.feeders.set k { s.feeders[k] with state := .faulted, relayWindow := none }
      ∧ t.shed.settle = some (after s.clock (s.cfg.settings.shed.settleTime * 100)) ∧ t.cfg = s.cfg)
    ∧ (s.feeders[k].state = .closing → ∃ t, exec (.closingRelayWindowExpiry k) s = .next t
      ∧ t.feeders = s.feeders.set k { s.feeders[k] with state := .faulted, relayWindow := none }
      ∧ (∀ c ∈ t.book.claims, namesFeeder k c = false ∧ c ∈ s.book.claims)
      ∧ (s.seq.phase ∈ [Phase.idle, .energising, .failed] →
          t.book.claims = s.book.claims.filter (fun c => !namesFeeder k c))
      ∧ t.shed = s.shed ∧ t.cfg = s.cfg))
  ∧ (∀ s : State, due s.clock s.shed.settle = true → ∃ t, exec .shedSettleExpiry s = .next t
      ∧ t.shed = { s.shed with settle := none } ∧ { t with shed := s.shed, links := s.links } = s)
  ∧ (∀ s : State, due s.clock s.rest.holdOff = true → ∃ t, exec .restoreHoldOffExpiry s = .next t
      ∧ t.rest = { s.rest with holdOff := none } ∧ { t with rest := s.rest, links := s.links } = s)

/-- A breaker of a present, resolved feeder reported closed, by BREAKER REPORT or by a FEEDER STATUS entry: Shed, Closing,
OpenHeld and Faulted become Closed, or Opening again in Clearing, and each Pending or Granted claim naming it becomes
Applied with its settle expiry; in Clearing the shed event then withdraws what Restoration still holds. One that was Shed
or OpenHeld with no claim naming it places UnclaimedClose with its load estimate, and no other does (R14, R17, R114, R116,
R129). Reported open: Closed and Faulted become OpenHeld and Opening becomes Shed; in every other state nothing changes
(R115). The FeederState notice carries the cause Report or Status (R111, R117). BREAKER REPORT leaves an Unknown feeder; a
FEEDER STATUS entry resolves it to Closed, with its claim Applied, or to OpenHeld with cause Manual, and the measured load
of a feeder that is then Closed becomes its load estimate, clamped and written through to the store (R117). Resolution
closes where the list leaves no present genset and no present feeder Unknown (R189). An entry that names no present
feeder, or one named before in the list, is skipped, and the reply is Clamped (R117). That an entry with a breaker code
outside its vocabulary is read, with the state free, is log 10. That in Clearing an entry shown Closed is ordered open
before its load is judged, so the feeder is in Opening, its load is not read and the reply is Done, is log 27. -/
def Obligations.FeederReportsTaken : Prop :=
  let settled := fun (s : State) (k : Fin 24) => s.book.claims.map fun c =>
    if namesFeeder k c && c.live then
      { c with state := .applied (after s.clock (secs s.cfg.settings.book.claimSettle)) }
    else c
  let moved := fun (s : State) (k : Fin 24) (new : FeederState) (t : State) =>
    t.feeders[k].state = new ∧ ∀ j : Fin 24, j ≠ k → t.feeders[j] = s.feeders[j]
  let told := fun (s : State) (k : Fin 24) (new : FeederState) (why : Cause) (t : State) =>
    ∀ l ∈ [Link.S, .F], toldOf t l fun n => n = ⟨.feederState, k.val + 1, .feeder new, .code why, 0, s.clock⟩
  let closes := fun (s : State) (k : Fin 24) (why : Cause) (t : State) =>
    moved s k (if s.seq.phase = .clearing then .opening else .closed) t ∧ told s k .closed why t
      ∧ t.feeders[k].shedCause = (if s.seq.phase = .clearing then some .blackStart else none) ∧ t.feeders[k].timeOpened = none
      ∧ t.book.claims = if s.seq.phase = .clearing
          then (settled s k).filter (fun c => !restorationClaim c) else settled s k
  let opens := fun (s : State) (k : Fin 24) (new : FeederState) (why : Cause) (t : State) =>
    moved s k new t ∧ told s k new why t ∧ t.feeders[k].timeOpened = some s.clock
      ∧ (s.seq.phase ≠ .clearing → t.book.claims = s.book.claims)
  let reported := fun (s : State) (k : Fin 24) (closed : Bool) (why : Cause) (t : State) =>
    let st := s.feeders[k].state
    let unclaimed := st ∈ [FeederState.shed, .openHeld] ∧ ∀ c ∈ s.book.claims, c.purpose ≠ .feeder k
    (closed = true →
      (st ∈ [FeederState.shed, .closing, .openHeld, .faulted] → closes s k why t)
      ∧ (unclaimed → toldOf t .S fun n =>
          n = ⟨.unclaimedClose, k.val + 1, .feeder .closed, .amount s.cfg.feeders[k].estimate, 0, s.clock⟩)
      ∧ (¬unclaimed → ∀ n ∈ noticesOf t .S, n.kind = .unclaimedClose → n ∈ noticesOf s .S))
    ∧ (closed = false →
      (st ∈ [FeederState.closed, .faulted] → opens s k .openHeld why t)
      ∧ (st = .opening → opens s k .shed why t ∧ t.feeders[k].shedCause = s.feeders[k].shedCause))
  (∀ (tag feeder event : Byte) (k : Fin 24) (closed : Bool) (s : State), Ready s .F → feederIndex feeder = some k →
    s.cfg.feeders[k].present = true → breakerEvent event = some closed →
    let still := if closed then [FeederState.unknown, .closed, .opening] else [FeederState.unknown, .shed, .closing, .openHeld]
    ∃ t, exec (.breakerReport tag feeder event) s = .next t
      ∧ Answered .F 0x30 tag (answer .done) s t
      ∧ reported s k closed .report t ∧ t.cfg = s.cfg
      ∧ (s.feeders[k].state ∈ still → { t with links := s.links } = s))
  ∧ (∀ (tag : Byte) (e : FeederEntry) (k : Fin 24) (s : State), Ready s .F → feederIndex e.feeder = some k →
    s.cfg.feeders[k].present = true →
    let st := s.feeders[k].state
    let closed := entryClosed e
    let still := if closed then [FeederState.closed, .opening] else [FeederState.shed, .closing, .openHeld]
    let measured := fun (c : Tables) =>
      { c with feeders := c.feeders.set k { c.feeders[k] with estimate := min 20000 e.load.toNat } }
    ∃ t, exec (.feederStatus tag [e]) s = .next t
      ∧ (t.feeders[k].state = .closed → t.cfg = measured s.cfg ∧ t.store = measured s.store
          ∧ Answered .F 0x31 tag (answer (if 20000 < e.load.toNat then .clamped else .done)) s t)
      ∧ (t.feeders[k].state ≠ .closed → t.cfg = s.cfg ∧ t.store = s.store ∧ Answered .F 0x31 tag (answer .done) s t)
      ∧ (t.entry.resolved = true ↔ s.entry.resolved = true ∨ allResolved t = true)
      ∧ (st ≠ .unknown → reported s k closed .status t)
      ∧ (st ∈ still → s.entry.resolved = true → { t with links := s.links, cfg := s.cfg, store := s.store } = s)
      ∧ (st = .unknown → closed = true → closes s k .status t)
      ∧ (st = .unknown → closed = false → opens s k .openHeld .status t ∧ t.feeders[k].shedCause = some .manual))
  ∧ (∀ (tag : Byte) (es fs : List FeederEntry) (e : FeederEntry) (s : State), Ready s .F → es.length + fs.length < 24 →
    (∀ k : Fin 24, feederIndex e.feeder = some k →
      s.cfg.feeders[k].present = false ∨ ∃ d ∈ es, feederIndex d.feeder = some k) →
    ∃ t v, exec (.feederStatus tag (es ++ e :: fs)) s = .next t ∧ exec (.feederStatus tag (es ++ fs)) s = .next v
      ∧ Answered .F 0x31 tag (answer .clamped) s t ∧ { t with links := v.links } = v
      ∧ ∀ l : Link, noticesOf t l = noticesOf v l)

/-- The feeders taken for an amount: all eligible, in the order of R124 with no eligible feeder passed over, as few as
reach the amount, and all of them where they fall short of it (R124). At a sample that starts an evaluation at which no
dead-bus test acts, with link F Active, they enter Opening under one OPEN SET order in ascending index (R112, R124): for
-M, in Idle alone, when M is negative and the dwell has run the shed delay, or the start delay with link G Silent or no
candidate left, and no feeder is in Opening and no settle time runs (R21, R125); for the excess less what is in Opening
already, when that is positive and no shortfall is due to be shed, in every phase (R23, R126). Outside Idle no feeder is
opened for a shortfall, and its mark is clear (R21, R127). The mark of an amount not covered is set or cleared (R127);
that overload's mark is judged on the amount left after the feeders in Opening is log 46, the model's reading of R127's
amount asked. R112 leaves the order of two acts of one evaluation open: that these feeders are selected before the stages
act, and carry the Shortfall or Overload cause where a stage that fires at the same evaluation lists them too, is log 6.
-/
def Obligations.ShedSelectionOpensFeeders : Prop :=
  (∀ (amount : Nat) (s : State), 1 ≤ amount →
    let fs := shedSelection s amount
    let sum := fun (ks : List (Fin 24)) => (ks.map fun k => s.cfg.feeders[k].estimate).sum
    fs.Nodup
    ∧ (∀ k ∈ fs, s.cfg.feeders[k].present = true ∧ s.feeders[k].state = .closed ∧ s.cfg.feeders[k].kind = .load
        ∧ s.cfg.feeders[k].cls ≤ 6)
    ∧ fs.Pairwise (fun j k => shedsBefore s j k = true)
    ∧ (∀ k : Fin 24, eligibleToShed s k = true → k ∉ fs → ∀ j ∈ fs, shedsBefore s j k = true)
    ∧ (amount ≤ sum (feederIds.filter (eligibleToShed s)) → amount ≤ sum fs)
    ∧ (sum (feederIds.filter (eligibleToShed s)) < amount → ∀ k : Fin 24, eligibleToShed s k = true → k ∈ fs)
    ∧ sum fs.dropLast < amount)
  ∧ (∀ (p : List Byte) (s : State), SteadySample p s → DeadTestRests p s →
    let T := computeTerms (sampled p s)
    let sum := fun (ks : List (Fin 24)) => (ks.map fun k => s.cfg.feeders[k].estimate).sum
    let ran := fun (n : Nat) => ranFor s.clock s.book.shortfallDwell (secs n)
    let idle := s.seq.phase = .idle
    let asked := idle ∧ T.M < 0 ∧ (ran s.cfg.settings.book.shedDelay ∨ (ran s.cfg.settings.book.startDelay
      ∧ (linkActive s .G = false
        ∨ (s.book.noCandidate = true ∧ shortfallHeld s = true ∧ units.all (fun i => !candidate s i) = true))))
    let quiet := ¬idle ∨ 0 ≤ T.M ∨ (¬ran s.cfg.settings.book.shedDelay ∧ ¬ran s.cfg.settings.book.startDelay)
    let opening := sum (feederIds.filter (feederIn s .opening))
    let sheds := fun (t : State) (why : Cause) (amount : Nat) => ∀ fs, fs = shedSelection s amount →
      (∀ k ∈ fs, t.feeders[k] = { s.feeders[k] with
        state := .opening
        shedCause := some why
        relayWindow := some (after s.clock (s.cfg.settings.shed.relayWindow * 100)) })
      ∧ (fs ≠ [] → .openSet (feederIds.filter (· ∈ fs)) ∈ orderLine (t.links.get .F)
          ∧ t.rest.holdOff = some (after s.clock (secs s.cfg.settings.restore.holdOffTime)))
    ∃ t, exec (.sample 0x60 p true) s = .next t
      ∧ (linkActive s .F = true → asked → T.excess ≤ 0 → s.shed.settle = none →
          (∀ k : Fin 24, feederIn s .opening k = false) → sheds t .shortfall (0 - T.M).toNat
            ∧ t.shed.uncoveredShortfall = decide (sum (shedSelection s (0 - T.M).toNat) < (0 - T.M).toNat))
      ∧ (0 ≤ T.M → t.shed.uncoveredShortfall = false)
      ∧ (¬idle → t.shed.uncoveredShortfall = false
          ∧ ∀ k : Fin 24, t.feeders[k].shedCause = some .shortfall → s.feeders[k].shedCause = some .shortfall)
      ∧ (linkActive s .F = true → quiet → (opening : Int) < T.excess → sheds t .overload (T.excess.toNat - opening)
          ∧ t.shed.uncoveredOverload = decide (sum (shedSelection s (T.excess.toNat - opening)) < T.excess.toNat - opening))
      ∧ (T.excess ≤ 0 → t.shed.uncoveredOverload = false))

/-! ## Restoration (07) -/

/-- The Restoration Unit at an evaluation whose gates hold restores the chosen feeder, the qualifying one of lowest restore
rank and then lowest index, when the bucket and the margin admit its need: a Granted Restoration claim, the bucket charged,
a CLOSE order last in link F's queue, the feeder in Closing, and the ClaimGranted and Restore events, the second with the need;
held back, it names what held it back, Busy for a full claim list (R8, R134, R136, R138). A sample that starts an evaluation in
Idle, with generation covered and no stop, guard or stage at work, does so after the bucket's leak, on the margin of that
evaluation (R133 to R135). -/
def Obligations.RestoreClosesChosenFeeder : Prop :=
  let claim := fun (s : State) (k : Fin 24) => (⟨newClaimId s, .restoration, .feeder k, pickupNeed s k,
    s.cfg.settings.book.claimLifetime, true,
    .granted (after s.clock (secs s.cfg.settings.book.claimLifetime))⟩ : Claim)
  (∀ (k : Fin 24) (s : State), restoreGates s = true → chooseRestore s = some k → s.entry.complete = true →
    let need := pickupNeed s k
    let t := restorationEvaluates true s
    (qualifies s k = true ∧ ∀ j : Fin 24, qualifies s j = true → j = k ∨ restoresBefore s k j = true)
    ∧ (bucketAdmits s need = false → t = setNext (some ⟨k, need, .bucket⟩) s)
    ∧ (bucketAdmits s need = true → s.book.terms.M - (need : Int) < 0 → t = setNext (some ⟨k, need, .margin⟩) s)
    ∧ (bucketAdmits s need = true → 0 ≤ s.book.terms.M - (need : Int) → 16 ≤ s.book.claims.length →
        t = setNext (some ⟨k, need, .busy⟩) s)
    ∧ (bucketAdmits s need = true → 0 ≤ s.book.terms.M - (need : Int) → s.book.claims.length < 16 →
        t.feeders[k].state = .closing ∧ (∀ j : Fin 24, j ≠ k → t.feeders[j] = s.feeders[j])
          ∧ t.book.claims = s.book.claims ++ [claim s k]
          ∧ t.rest = { s.rest with bucket := min s.cfg.settings.restore.capacity (s.rest.bucket + need), next := none }
          ∧ orderedLast .F (.close k) t
          ∧ t.tally = (offer .restore (some (k.val + 1)) need (offer .claimGranted (some (k.val + 1)) 0 s)).tally
          ∧ { t with feeders := s.feeders, book := s.book, rest := s.rest, links := s.links, tally := s.tally } = s))
  ∧ (∀ (p : List Byte) (k : Fin 24) (s : State), SteadySample p s → (SampleRec.parse p).live = true → s.seq.phase = .idle →
    Covered p s → StagesRest p s → (computeTerms (sampled p s)).D ≤ 0 →
    s.book.surplusDwell = none → 1 ≤ s.cfg.settings.book.surplusDwell → s.cfg.settings.book.surplusDwell ≤ 3600 →
    s.lock.quality = .full → s.rest.hold = false → s.rest.holdOff = none → linkActive s .F = true →
    restoreFreq s ≤ ((SampleRec.parse p).freq.toNat : Int) → (∀ j : Fin 24, s.feeders[j].state ≠ .closing) →
    (∀ c ∈ s.book.claims, c.holder ≠ .restoration) → chooseRestore s = some k →
    let leaked := { s with rest := { s.rest with bucket := s.rest.bucket - s.cfg.settings.restore.rate / 10 } }
    let need := pickupNeed s k
    let M := (computeTerms (sampled p s)).M
    ∃ t, exec (.sample 0x60 p true) s = .next t
      ∧ (bucketAdmits leaked need = false →
          t.rest = { leaked.rest with next := some ⟨k, need, .bucket⟩ } ∧ t.feeders = s.feeders)
      ∧ (bucketAdmits leaked need = true → M - (need : Int) < 0 →
          t.rest = { leaked.rest with next := some ⟨k, need, .margin⟩ } ∧ t.feeders = s.feeders)
      ∧ (bucketAdmits leaked need = true → 0 ≤ M - (need : Int) → s.book.claims.length < 16 →
          t.feeders[k].state = .closing ∧ (∀ j : Fin 24, j ≠ k → t.feeders[j] = s.feeders[j])
            ∧ t.book.claims = s.book.claims ++ [claim s k]
            ∧ t.rest = { leaked.rest with
                bucket := min s.cfg.settings.restore.capacity (leaked.rest.bucket + need), next := none }
            ∧ orderedLast .F (.close k) t))

/-- RESTORE HOLD sets or clears the restore-hold flag with reply Done, touches nothing else, and refuses any other value with
Refused-Range; it is taken in every quality and phase and during entry. While the flag is set the restore gates do not hold, and
READ returns the flag (R141). ADOPT FEEDER of a present OpenHeld feeder makes it Shed, with its shed cause and time opened kept;
of any other it is refused with Refused-State, and out of range with Refused-Range (R118). -/
def Obligations.HoldSetAndFeederAdopted : Prop :=
  (∀ (tag value : Byte) (s : State), Ready s .S →
    (value = 0 ∨ value = 1 → exec (.restoreHold tag value) s =
      .next (replied .S 0x0E tag (answer .done) { s with rest := { s.rest with hold := decide (value = 1) } }))
    ∧ (1 < value.toNat → exec (.restoreHold tag value) s = .next (replied .S 0x0E tag (answer .refusedRange) s)))
  ∧ (∀ s : State, s.rest.hold = true → restoreGates s = false)
  ∧ (∀ s : State, ∃ fs, readFields s 10 0 = some fs ∧ flag s.rest.hold ∈ fs)
  ∧ (∀ (tag feeder : Byte) (s : State), Ready s .S →
    (feederIndex feeder = none →
      exec (.adoptFeeder tag feeder) s = .next (replied .S 0x0F tag (answer .refusedRange) s))
    ∧ (∀ k : Fin 24, feederIndex feeder = some k → feederIn s .openHeld k = false →
        exec (.adoptFeeder tag feeder) s = .next (replied .S 0x0F tag (answer .refusedState) s))
    ∧ (∀ k : Fin 24, feederIndex feeder = some k → feederIn s .openHeld k = true →
        ∃ t, exec (.adoptFeeder tag feeder) s = .next t
          ∧ t.feeders = s.feeders.set k { s.feeders[k] with state := .shed, relayWindow := none }
          ∧ (∀ l ∈ [Link.S, .F], s.seq.phase = .idle → noticesOf t l =
              noticesAfter s l ⟨.feederState, k.val + 1, .feeder .shed, .code .adopt, 0, s.clock⟩)
          ∧ t.cfg = s.cfg ∧ (s.seq.phase = .idle → { t with feeders := s.feeders, links := s.links } = s)
          ∧ Answered .S 0x0F tag (answer .done) s t))

/-! ## Black start (08) -/

/-- BLACK START BEGIN after entry in Idle, and RETRY in Failed: the phase leaves for Clearing, or on to Energising and to
Failed where Clearing and the search complete at once; every claim is withdrawn, no dwell, guard, stage timer or spell runs,
every Coordinated group holds cap 0 and ceiling 0, and with link F Active every present Closed or Faulted feeder enters
Opening under one OPEN SET order. The CEILING order with every ceiling 0 stands last in link P's queue, or is owed while link
P is Silent or quality Stale; that queuing it leaves the full-order flag as it was is log 34, the model's reading of R103.
Every reason but that of the sequencer is withdrawn. BEGIN sets each Coordinated genset Online Stopped, or LockedOut by the flag,
without timers, unless the serving has started it since, with a Discrepancy notice for link S of subject Stopped and cause Begin;
a Local one keeps its state. BEGIN before entry completes or outside Idle, and RETRY outside Failed, are refused with
Refused-State, and nothing else changes (R17, R26, R47, R103, R112, R123, R129, R150, R151, R152, R165). -/
def Obligations.BlackStartEntersClearing : Prop :=
  ∀ (c : Instr) (tag : Byte) (s : State), Ready s .S →
    let taken := (c = .blackStartBegin tag ∧ s.entry.complete = true ∧ s.seq.phase = .idle)
      ∨ (c = .blackStartRetry tag ∧ s.seq.phase = .failed)
    (c = .blackStartBegin tag ∨ c = .blackStartRetry tag → ¬taken →
      exec c s = .next (replied .S 0x0A tag (answer .refusedState) s))
    ∧ (taken → ∃ t, exec c s = .next t
      ∧ t.seq.phase ∈ [Phase.clearing, .energising, .failed]
      ∧ (t.seq.phase = .failed → t.seq.failure = some .noCandidate)
      ∧ t.seq.collapses = 0 ∧ t.seq.pointer = none
      ∧ t.book.claims = [] ∧ t.book.shortfallDwell = none ∧ t.book.surplusDwell = none ∧ t.book.guard = none
      ∧ t.shed.latches = s.shed.latches ∧ t.shed.spell = none ∧ (∀ n : Fin 4, t.shed.timers[n] = none)
      ∧ (∀ g : Fin 8, t.pvs[g] = if s.pvs[g].authority = .coordinated
          then { s.pvs[g] with cap := some 0, issued := some 0, awaiting := true } else s.pvs[g])
      ∧ (linkActive s .F = true → ∀ k : Fin 24, s.cfg.feeders[k].present = true →
          s.feeders[k].state ∈ [FeederState.closed, .faulted] →
          t.feeders[k].state = .opening ∧ t.feeders[k].shedCause = some .blackStart)
      ∧ (linkActive s .F = true → ∀ fs, fs = (feederIds.filter fun k => feederIn s .closed k || feederIn s .faulted k) →
          fs ≠ [] → orderedLast .F (.openSet fs) t)
      ∧ (linkActive s .P = true → s.lock.quality ≠ .stale → t.cur = s.cur
          ∧ orderedLast .P (.ceiling ((coordGroups s).map fun g => (g, 0))) t)
      ∧ (linkActive s .P = false ∨ s.lock.quality = .stale → t.cur = { s.cur with fullOwed := true }
          ∧ orderLine (t.links.get .P) = orderLine (s.links.get .P))
      ∧ (linkActive s .F = false → t.seq.phase = .clearing ∧ t.feeders = s.feeders)
      ∧ (∀ k : ReasonKind, k ≠ .blackStart → reasonEnded k t)
      ∧ (c = .blackStartBegin tag → ∀ i : Fin 8, coordOnline t i = false
          ∧ (coordOnline s i = true → leftIn i (stoppedState s i) none t ∧ t.gens[i].minRun = .absent
              ∧ toldOf t .S fun n => n = ⟨.discrepancy, i.val + 1, .unit .stopped, .code .begin, 0, s.clock⟩)
          ∧ (s.gens[i].authority = .byPlant → t.gens[i].state = s.gens[i].state))
      ∧ t.cfg = s.cfg ∧ t.lock = s.lock
      ∧ Answered .S 0x0A tag (answer .done) s t)

/-- BLACK START ABORT is taken in any phase: the dead-bus test is disarmed; in Idle nothing else changes; in any other phase
the sequencer's timers, spells, pointer, claim, counts and failure are cleared, BlackStart's Pending and Granted claims and
its reason are withdrawn, every cap becomes absent, and the phase becomes Idle (R103, R166). That the shed record stays whole,
with the item by which Clearing may still order listed feeders open, is log 51. -/
def Obligations.BlackStartAborted : Prop :=
  ∀ (tag : Byte) (s : State), Ready s .S →
    (s.seq.phase = .idle → exec (.blackStartAbort tag) s =
      .next (replied .S 0x0A tag (answer .done) { s with seq := { s.seq with armed := false } }))
    ∧ (s.seq.phase ≠ .idle → ∃ t, exec (.blackStartAbort tag) s = .next t
        ∧ t.seq = ⟨.idle, false, none, none, 0, 0, none, none, none, none, none⟩
        ∧ t.book.claims = s.book.claims.filter (fun c => !blackStartClaim c)
        ∧ reasonEnded .blackStart t
        ∧ (∀ g : Fin 8, t.pvs[g] = { s.pvs[g] with cap := none })
        ∧ t.gens = s.gens ∧ t.feeders = s.feeders ∧ t.cfg = s.cfg ∧ t.lock = s.lock ∧ t.shed = s.shed
        ∧ Answered .S 0x0A tag (answer .done) s t)

/-- The sequencer's timers: the energising window enters Failed with cause Window (R156); a step's timeout enters Failed
with cause StepFail, the pointer left on the step, or skips on, which ends the step (R157); the time of a WAIT step completes
it (R161). A step that ends so leads to a later step or to the end of the plan: the next step starts its timer, raises the
BlackStart reason where it is START UNIT, and where it completes at once, as RELEASE PV does by setting the cap of its group,
the step behind it is current (StepEnded; R157, R160, R161, R163). -/
def Obligations.SequencerTimersExpire : Prop :=
  ∀ s : State,
    (s.seq.phase = .energising → due s.clock s.seq.window = true →
      ∃ t, exec .energisingWindowExpiry s = .next t
        ∧ t.seq.phase = .failed ∧ t.seq.failure = some .window ∧ t.seq.window = none
        ∧ t.book.claims = s.book.claims.filter (fun c => !blackStartClaim c) ∧ t.pvs = s.pvs ∧ t.feeders = s.feeders)
    ∧ (∀ (p : Nat) (step : PlanStep), s.seq.phase = .rebuilding → s.seq.pointer = some p → pointedStep s = some step →
        due s.clock s.seq.stepTimer = true →
        ((∀ n : Nat, step.act ≠ .wait n) → ∃ t, exec .stepTimeout s = .next t
          ∧ t.feeders = s.feeders ∧ t.cfg = s.cfg
          ∧ (step.failOnTimeout = true → t.seq.phase = .failed ∧ t.seq.failure = some .stepFail
              ∧ t.seq.pointer = some p ∧ t.seq.stepTimer = none)
          ∧ (step.failOnTimeout = false → StepEnded p s t))
        ∧ (∀ n : Nat, step.act = .wait n → ∃ t, exec .waitStepExpiry s = .next t
          ∧ t.feeders = s.feeders ∧ t.cfg = s.cfg ∧ StepEnded p s t))

/-- The sequencer at a sample that starts an evaluation. In Idle, with no claim waiting, the dead-bus test: a Live sample
arms it; armed, on a Dead one with no coordinated genset Online or Synchronising, the dead spell starts or goes on, and at
2.0 s Clearing is entered with cause DeadBus and every claim withdrawn; a coordinated genset there cancels it (R149, R151).
In Energising, with no overload and no claim waiting, the energised test enters Rebuilding, where the plan starts at its first
step (StepEnded) and may run to its end, or changes nothing (R156, R157). In Rebuilding a Live sample cancels the dead spell, and on a Dead one it runs; at 2.0 s the
collapse drops every coordinated genset Online and enters Clearing again, or Failed at the third (R164). A CLOSE FEEDER step
whose gates, bucket and margin allow it closes its feeder under a BlackStart claim, and so does a CLOSE CLASS step with the
present Shed feeder of its class of lowest restore rank and then lowest index; where bucket or margin hold that one back, the
step waits for it (R158, R159). -/
def Obligations.SequencerJudgesSample : Prop :=
  ∀ (p : List Byte) (s : State), SteadySample p s →
    let u := sampled p s
    let T := computeTerms u
    let live := (SampleRec.parse p).live = true
    let waiting := ∃ c ∈ s.book.claims, c.isPending = true
    let up := ∃ i : Fin 8, s.cfg.gensets[i].present = true ∧ s.gens[i].authority = .coordinated
      ∧ s.gens[i].state ∈ [UnitState.online, .synchronising]
    let spell := some (runningFrom s.clock s.seq.deadSpell)
    let confirmed := ranFor s.clock s.seq.deadSpell 2000
    let judged := fun (t : State) => { t.seq with stepClaim := s.seq.stepClaim }
    let entered := phaseTold s
    let first := fun (c : Fin 8) (k : Fin 24) =>
      let shed := fun (j : Fin 24) => s.cfg.feeders[j].present = true ∧ s.cfg.feeders[j].cls = c.val ∧ s.feeders[j].state = .shed
      shed k ∧ ∀ j : Fin 24, shed j → j ≠ k → s.cfg.feeders[k].rank < s.cfg.feeders[j].rank
        ∨ (s.cfg.feeders[k].rank = s.cfg.feeders[j].rank ∧ k < j)
    (s.seq.phase = .idle → ¬waiting → ∃ t, exec (.sample 0x60 p true) s = .next t
      ∧ (live → judged t = { s.seq with armed := true, deadSpell := none })
      ∧ (¬live → s.seq.armed = false → judged t = s.seq)
      ∧ (¬live → s.seq.armed = true → up → judged t = { s.seq with deadSpell := none })
      ∧ (¬live → s.seq.armed = true → ¬up → ¬confirmed → judged t = { s.seq with deadSpell := spell })
      ∧ (¬live → s.seq.armed = true → ¬up → confirmed → entered t .clearing .deadBus
          ∧ t.seq.phase ∈ [Phase.clearing, .energising, .failed] ∧ t.book.claims = [] ∧ t.seq.deadSpell = none))
    ∧ (s.seq.phase = .energising → ¬waiting → T.excess ≤ 0 →
        let off := ((SampleRec.parse p).freq.toNat : Int) - s.cfg.settings.links.nominal
        let passes := live ∧ -500 ≤ off ∧ off ≤ 500 ∧ ∃ i : Fin 8, coordOnline s i = true
        ∃ t, exec (.sample 0x60 p true) s = .next t
          ∧ (¬passes → judged t = s.seq)
          ∧ (passes → entered t .rebuilding .energised ∧ t.seq.window = none ∧ StepEnded 0 s t))
    ∧ (s.seq.phase = .rebuilding → ∃ t, exec (.sample 0x60 p true) s = .next t
        ∧ (live → t.seq.deadSpell = none)
        ∧ (¬live → ¬confirmed → t.seq.phase = .idle ∨ (t.seq.phase = .rebuilding ∧ t.seq.deadSpell = spell))
        ∧ (¬live → confirmed → t.seq.collapses = s.seq.collapses + 1 ∧ (∀ i : Fin 8, coordOnline t i = false)
            ∧ (s.seq.collapses < 2 → entered t .clearing .collapse
                ∧ t.seq.phase ∈ [Phase.clearing, .energising, .failed] ∧ t.book.claims = [])
            ∧ (2 ≤ s.seq.collapses → entered t .failed .collapse
                ∧ t.seq.phase = .failed ∧ t.seq.failure = some .collapse))
        ∧ (∀ k : Fin 24, live →
            (currentAct s = some (.closeFeeder k) ∨ ∃ c : Fin 8, currentAct s = some (.closeClass c) ∧ first c k) →
            s.lock.quality = .full → linkActive s .F = true → Covered p s → StagesRest p s → (∀ j : Fin 24, s.feeders[j].state ≠ .closing) →
            (∀ c ∈ s.book.claims, c.holder ≠ .blackStart ∧ c.purpose ≠ .feeder k) → s.cfg.feeders[k].present = true →
            s.feeders[k].state ∈ [FeederState.shed, .openHeld] → s.book.claims.length < 16 →
            let leaked := { s with rest := { s.rest with bucket := s.rest.bucket - s.cfg.settings.restore.rate / 10 } }
            let need := pickupNeed s k
            let life := s.cfg.settings.book.claimLifetime
            (bucketAdmits leaked need = false ∨ T.M < (need : Int) →
              t.feeders = s.feeders ∧ t.book.claims = s.book.claims ∧ t.rest.bucket = leaked.rest.bucket
                ∧ t.seq = { s.seq with deadSpell := none })
            ∧ (bucketAdmits leaked need = true → (need : Int) ≤ T.M →
              t.feeders[k].state = .closing ∧ (∀ j : Fin 24, j ≠ k → t.feeders[j] = s.feeders[j])
                ∧ t.book.claims = s.book.claims ++ [⟨newClaimId s, .blackStart, .feeder k, need, life, true,
                    .granted (after s.clock (secs life))⟩]
                ∧ t.seq = { s.seq with deadSpell := none, stepClaim := some (newClaimId s) }
                ∧ t.rest.bucket = min s.cfg.settings.restore.capacity (leaked.rest.bucket + need)
                ∧ orderedLast .F (.close k) t)))

/-- The steps of the plan, as they complete and as they wait. WAIT BAND at a sample that starts an evaluation: in the band on a
Live bus the spell starts or goes on, and at the hold time the step ends; outside it, or on a Dead bus, the spell is cancelled
(R162). CLOSE CLASS ends at such a sample, at a closed report and at the end of a closing relay window once no present feeder of
its class is Shed or Closing, and waits otherwise (R159). CLOSE FEEDER ends when its feeder is Closed (R158). START UNIT ends when the unit that the BlackStart
reason was in service for reaches Online, for no unit named any of them, and for a unit named that one; the unit named ends it
however it comes Online, by a start for another reason, by adoption, by a stop that is not confirmed or by its return to
Coordinated; where another unit comes Online the reason is raised again, naming the step's unit (R160). What the end of a step
brings, the raise of the next START UNIT step and the cap a RELEASE PV step sets among it, is StepEnded (R157, R160, R161). A
sample completes no WAIT step and no START UNIT step without a unit (R160, R161). That CLOSE CLASS is judged at the change of a
feeder of another class too is log 30. -/
def Obligations.PlanStepsTaken : Prop :=
  ∀ (n : Nat) (s : State), s.seq.phase = .rebuilding → s.seq.pointer = some n →
    let stays := fun (t : State) => t.seq.phase = .rebuilding ∧ t.seq.pointer = some n ∧ t.seq.stepTimer = s.seq.stepTimer
    (∀ p : List Byte, SteadySample p s →
      let live := (SampleRec.parse p).live = true
      let off := ((SampleRec.parse p).freq.toNat : Int) - s.cfg.settings.links.nominal
      let goesOn := live ∨ ¬ranFor s.clock s.seq.deadSpell 2000
      ∃ t, exec (.sample 0x60 p true) s = .next t
        ∧ (∀ band hold : Nat, currentAct s = some (.waitBand band hold) →
            let steady := live ∧ -(band : Int) ≤ off ∧ off ≤ band
            let ran := ranFor s.clock s.seq.bandSpell (secs hold)
            (steady → ran → StepEnded n s t)
            ∧ (steady → ¬ran → stays t ∧ t.seq.bandSpell = some (runningFrom s.clock s.seq.bandSpell))
            ∧ (¬steady → goesOn → stays t ∧ t.seq.bandSpell = none))
        ∧ (∀ c : Fin 8, currentAct s = some (.closeClass c) → goesOn →
            ((∀ k : Fin 24, ¬closesStill s c k) → StepEnded n s t) ∧ ((∃ k : Fin 24, closesStill s c k) → stays t))
        ∧ (∀ k : Fin 24, currentAct s = some (.closeFeeder k) → s.feeders[k].state = .closed → Covered p s → StagesRest p s →
            goesOn → StepEnded n s t)
        ∧ (∀ sec : Nat, currentAct s = some (.wait sec) → goesOn → stays t)
        ∧ (currentAct s = some (.startUnit none) → goesOn → stays t))
    ∧ (∀ (tag feeder event : Byte) (k : Fin 24), Ready s .F → feederIndex feeder = some k → breakerEvent event = some true →
        s.cfg.feeders[k].present = true → s.feeders[k].state ∈ [FeederState.shed, .closing, .openHeld, .faulted] →
        ∃ t, exec (.breakerReport tag feeder event) s = .next t
          ∧ (currentAct s = some (.closeFeeder k) → StepEnded n s t)
          ∧ (∀ j : Fin 24, currentAct s = some (.closeFeeder j) → j ≠ k → s.feeders[j].state ≠ .closed → t.seq = s.seq)
          ∧ (∀ c : Fin 8, currentAct s = some (.closeClass c) →
              ((∀ j : Fin 24, j ≠ k → ¬closesStill s c j) → StepEnded n s t)
              ∧ ((∃ j : Fin 24, j ≠ k ∧ closesStill s c j) → t.seq = s.seq)))
    ∧ (∀ (k : Fin 24) (c : Fin 8), s.feeders[k].state = .closing → due s.clock s.feeders[k].relayWindow = true →
        currentAct s = some (.closeClass c) →
        ∃ t, exec (.closingRelayWindowExpiry k) s = .next t
          ∧ ((∀ j : Fin 24, j ≠ k → ¬closesStill s c j) → StepEnded n s t)
          ∧ ((∃ j : Fin 24, j ≠ k ∧ closesStill s c j) → stays t))
    ∧ (∀ (named : Option (Fin 8)) (i : Fin 8), currentAct s = some (.startUnit named) → s.cfg.gensets[i].present = true →
      let g := s.gens[i]
      let coord := g.authority = .coordinated
      (∀ tag unit event : Byte, Ready s .G → unitIndex unit = some i → unitEvent event = some .breakerClosed → coord →
        g.state ∈ [UnitState.stopped, .starting, .synchronising, .cooldown] →
        let served := g.state ∈ [UnitState.starting, .synchronising] ∧ servedKind s i = some .blackStart
        ∃ t, exec (.unitReport tag unit event) s = .next t
          ∧ (named = some i ∨ (named = none ∧ served) → StepEnded n s t)
          ∧ (named = none → ¬served → stays t)
          ∧ (∀ u : Fin 8, named = some u → u ≠ i → coordOnline s u = false → stays t
              ∧ (served → blackStartRaised (some u) t)))
      ∧ (named = some i → g.state = .unloading → coord → due s.clock g.phaseTimer = true →
          ∃ t, exec (.unloadWindowExpiry i) s = .next t ∧ StepEnded n s t)
      ∧ (∀ tag unit : Byte, Ready s .G → unitIndex unit = some i → named = some i → g.authority = .byPlant →
          g.state ≠ .unknown → g.breakerClosed = true →
          ∃ t, exec (.returnUnit tag unit) s = .next t ∧ StepEnded n s t))

/-! ## Station links (09) -/

/-- A link at its silence time falls Silent, with a LinkSilent notice for link S, its queues left as they are; for link P
a full order is owed and the margin is recomputed. The first good frame on a Silent link, whatever it asks, be it refused
or completed while 8 replies wait, makes it Active, restarts its silence timer and places a LinkReturned notice for link S
before any other, and is then taken (R3, R105, R168, R175). That the margin recomputed for link P, at any state, takes cf,
Rfloor and N-1 cover as they then stand, also between a SET of them and the next evaluation, is log 48, the model's
reading. RESTART, which clears every queue, and FETCH NOTICE on link S, which may take the notice itself, are left out of
the last clause. -/
def Obligations.LinkSilenceAndReturn : Prop :=
  ∀ (l : Link) (s : State),
    (linkActive s l = true → reached s.clock (s.links.get l).silenceDue = true →
      ∃ t, exec (.linkSilent l) s = .next t
        ∧ linkActive t l = false
        ∧ noticesOf t .S = noticesAfter s .S ⟨.linkSilent, linkIndex l, .none, .code .none, 0, s.clock⟩
        ∧ (∀ m : Link, m ≠ .S → noticesOf t m = noticesOf s m)
        ∧ (∀ m : Link, m ≠ l → linkActive t m = linkActive s m)
        ∧ (∀ m : Link, replyLine (t.links.get m) = replyLine (s.links.get m)
            ∧ orderLine (t.links.get m) = orderLine (s.links.get m))
        ∧ (l = .P → t.cur = { s.cur with fullOwed := true } ∧ t.book.terms = computeTerms t)
        ∧ { t with links := s.links, cur := s.cur, book := s.book } = s
        ∧ (l ≠ .P → t.cur = s.cur ∧ t.book = s.book))
    ∧ (∀ tag : Byte, linkActive s l = false → repliesFull s l = false → ∃ t, exec (.presence l tag) s = .next t
        ∧ linkActive t l = true ∧ (t.links.get l).silenceFrom = s.clock
        ∧ (t.links.get l).silenceDue = after s.clock (s.cfg.settings.links.silence * 100)
        ∧ (l ≠ .F → l ≠ .G →
            noticesOf t .S = noticesAfter s .S ⟨.linkReturned, linkIndex l, .none, .code .none, 0, s.clock⟩)
        ∧ (replyLine (t.links.get l)).length = (replyLine (s.links.get l)).length + 1)
    ∧ (∀ c : Instr, linkActive s l = false →
        ((∃ kind tag p, requestFrame c = some (l, kind, tag, p)
            ∨ (c = .frameRefused l kind tag p ∧ (frameRefusal l kind p).isSome = true))
          ∨ (c = .replyOverrun l ∧ repliesFull s l = true)) →
        (∀ tag, c ≠ .restart tag ∧ c ≠ .fetchNotice .S tag) → ∃ t, exec c s = .next t
          ∧ linkActive t l = true ∧ (t.links.get l).silenceFrom = s.clock
          ∧ (t.links.get l).silenceDue = after s.clock (s.cfg.settings.links.silence * 100)
          ∧ toldFirst s t .S ⟨.linkReturned, linkIndex l, .none, .code .none, 0, s.clock⟩)

/-- Bad frames. A byte that comes more than 10 ms after the one before it in a frame begun abandons that frame, and so does
the inter-byte timeout: a FrameError event with the line's index, and the framer hunts again. A frame whose length byte
exceeds 120, or whose check is wrong, ends with its framer hunting and its frame error in the queue; that command offers the
FrameError event and changes nothing else, a frame begun since included. On the sample input a wrong check is a malformed
sample besides (R28, R168; logs 14, 15). A good frame that a check of R169 refuses gets exactly one reply, with its refusal,
and changes nothing else: an unknown kind, then a kind not permitted on the link, then a wrong length; BLACK START with an
action above 2 is out of range (R150, R169, R170; log 31). A good frame completed while 8 replies wait is a FrameError event
that restarts the silence timer, without reply (R170). -/
def Obligations.BadFramesHandled : Prop :=
  let counted := fun (line : Line) (s t : State) =>
    t.tally = (offer .frameError (some (lineIndex line)) 0 s).tally
      ∧ (∀ l : Link, (t.links.get l).silenceFrom = (s.links.get l).silenceFrom
          ∧ replyLine (t.links.get l) = replyLine (s.links.get l)
          ∧ orderLine (t.links.get l) = orderLine (s.links.get l) ∧ noticesOf t l = noticesOf s l)
      ∧ (∀ m : Line, m ≠ line → framerOf t m = framerOf s m)
      ∧ { t with links := s.links, sampleFramer := s.sampleFramer, tally := s.tally } = s
  (∀ (line : Line) (bs : List Byte) (last : Time) (b : Byte) (s : State), framerOf s line = .inFrame bs last →
    (reached s.clock (after last 11) = true →
      (∃ t, exec (.interByteTimeout line) s = .next t ∧ framerOf t line = .hunting ∧ counted line s t)
      ∧ ∃ t, receiveByte line b s = receiveByte line b t ∧ framerOf t line = .hunting ∧ counted line s t)
    ∧ (reached s.clock (after last 11) = false →
      exec (.interByteTimeout line) s = .next (finish s)
      ∧ (∀ kind tag, bs = [kind, tag] → 120 < b.toNat → receiveByte line b s =
          setFramer line .hunting { s with pending := s.pending ++ [.frameError line .tooLong] })
      ∧ (∀ kind tag len p lo, bs = kind :: tag :: len :: p ++ [lo] → len.toNat ≤ 120 → p.length = len.toNat →
          b ++ lo ≠ frameCheck (kind :: tag :: len :: p) → receiveByte line b s =
            setFramer line .hunting { s with pending := s.pending ++ [match line with
              | .station _ => .frameError line .wrongCheck
              | .sample => .sample kind p false] })))
  ∧ (∀ (line : Line) (why : FrameFault) (s : State), line ≠ .sample ∨ why = .tooLong →
    ∃ t, exec (.frameError line why) s = .next t ∧ framerOf t line = framerOf s line ∧ counted line s t)
  ∧ (∀ s : State, exec (.frameError .sample .wrongCheck) s = exec (.sample 0 [] false) s)
  ∧ (∀ (l : Link) (kind tag : Byte) (p : List Byte) (st : Status) (s : State), Ready s l →
    frameRefusal l kind p = some st → exec (.frameRefused l kind tag p) s = .next (replied l kind tag (answer st) s))
  ∧ (∀ (l : Link) (kind : Byte) (p : List Byte),
      (kindLinks kind = none → frameRefusal l kind p = some .refusedKind)
      ∧ (∀ ls, kindLinks kind = some ls →
          (l ∉ ls → frameRefusal l kind p = some .refusedRights)
          ∧ (l ∈ ls → lengthFits kind p.length = false → frameRefusal l kind p = some .refusedLength)))
  ∧ (∀ action : Byte, 2 < action.toNat → frameRefusal .S 0x0A [action] = some .refusedRange)
  ∧ (∀ (l : Link) (s : State), linkActive s l = true → repliesFull s l = true →
      exec (.replyOverrun l) s = .next (finish (offer .frameError (some (linkIndex l)) 0 (restartSilence l s))))

/-- The frame being sent leaves the line, and the next begins at once: the oldest reply, or on an Active link with no reply
waiting the oldest order; a Silent link holds its orders (R170, R171; log 11). -/
def Obligations.NextFrameBegins : Prop :=
  ∀ (l : Link) (s : State), ∃ t, exec (.outboundFrameSent l) s = .next t
    ∧ (∀ r rs, (s.links.get l).replies = r :: rs →
        (t.links.get l).sending = some (.reply r) ∧ (t.links.get l).replies = rs
          ∧ (t.links.get l).orders = (s.links.get l).orders)
    ∧ (∀ o os, (s.links.get l).replies = [] → (s.links.get l).orders = o :: os →
        (linkActive s l = true → (t.links.get l).sending = some (.order o) ∧ (t.links.get l).orders = os)
        ∧ (linkActive s l = false → (t.links.get l).sending = none ∧ (t.links.get l).orders = o :: os))
    ∧ ((s.links.get l).replies = [] → (s.links.get l).orders = [] → (t.links.get l).sending = none)
    ∧ (∀ m : Link, noticesOf t m = noticesOf s m ∧ linkActive t m = linkActive s m)
    ∧ { t with links := s.links } = s

/-- R174. FETCH NOTICE takes the oldest record from the requesting link's queue: the reply carries the number left, the
overflow count and the record where there was one, and the count is then 0; no other queue is read. -/
def Obligations.NoticeFetched : Prop :=
  ∀ (l : Link) (tag : Byte) (s : State), Ready s l →
    let c := s.links.get l
    ∃ t, exec (.fetchNotice l tag) s = .next t
      ∧ noticesOf t l = c.notices.drop 1 ∧ (t.links.get l).overflow = 0
      ∧ (∀ m : Link, m ≠ l → noticesOf t m = noticesOf s m ∧ (t.links.get m).overflow = (s.links.get m).overflow)
      ∧ (∀ n rest, c.notices = n :: rest →
          Answered l 0x11 tag ⟨.done, [u1 rest.length, u1 c.overflow] ++ n.fields⟩ s t)
      ∧ (c.notices = [] → Answered l 0x11 tag ⟨.done, [u1 0, u1 c.overflow]⟩ s t)
      ∧ { t with links := s.links } = s

/-- PRESENCE answers with the clock time, the notices waiting, entry, quality and phase; READ with the fields of its
selector, or Refused-Range outside its table; READ TALLY with the snapshot time and values, or Refused-Range above 16. None
changes anything else (R176, R177, R187). The fields of the fourteen selectors are those of the owning records, in the order
of the record tables and of their READ rules (R7, R36, R46, R62, R64, R68, R75, R88, R110, R146, R148, R176); where those leave the form of a field
open, it is the model's: logs 16 (settings groups 4 and 6), 17 (codes by place, an empty claim place), 18 (the time left of
an elapsed min-run timer), 19 (the expiry and the time remaining both), 50 (the order in READ 6, that of the record table), 52 (READ 14), 56 (the ages)
and 63 (the elapsed times). READ 14 counts the reply or order being sent among those that wait (log 12), and READ 6 sends the
acceptance time of the held sample (log 69). -/
def Obligations.QueriesAnswered : Prop :=
  (∀ (l : Link) (tag : Byte) (s : State), Ready s l →
    exec (.presence l tag) s = .next (replied l 0x12 tag ⟨.done, [u4 s.clock.toNat, u1 (noticesOf s l).length,
      flag s.entry.complete, u1 s.lock.quality.wire, u1 s.seq.phase.wire]⟩ s))
  ∧ (∀ (l : Link) (tag sel index : Byte) (s : State), Ready s l →
      (∀ fs, readFields (restartSilence l s) sel index = some fs →
        exec (.read l tag sel index) s = .next (replied l 0x01 tag ⟨.done, fs⟩ s))
      ∧ (readFields s sel index = none →
          exec (.read l tag sel index) s = .next (replied l 0x01 tag (answer .refusedRange) s)))
  ∧ (∀ (tag n : Byte) (s : State), Ready s .S →
      (n = 0 → exec (.readTally tag n) s = .next (replied .S 0x0D tag
        ⟨.done, optTime s.tally.snapTime :: s.tally.snap.toList.map tallyField⟩ s))
      ∧ (∀ i : Fin 16, n.toNat = i.val + 1 → exec (.readTally tag n) s = .next (replied .S 0x0D tag
          ⟨.done, [optTime s.tally.snapTime, tallyField s.tally.snap[i]] ++ s.cfg.tallies[i].fields⟩ s))
      ∧ (16 < n.toNat → exec (.readTally tag n) s = .next (replied .S 0x0D tag (answer .refusedRange) s)))
  ∧ (∀ (b : Byte) (s : State),
    let now := s.clock
    let reads := fun (sel : Byte) (fs : List WireField) => readFields s sel b = some fs
    let left := fun (size : Nat) (w : Option Time) => [optTime w, optRemaining size now w]
    let step := fun (p : PlanStep) =>
      [u1 p.act.kind, u2 p.act.operand1, u2 p.act.operand2, u2 p.timeout, flag p.failOnTimeout]
    (∀ i : Fin 8, unitIndex b = some i →
      let c := s.cfg.gensets[i]
      let g := s.gens[i]
      let cover := g.pendingRelease.bind fun id => s.book.claims.find? fun x => x.id = id
      reads 1 [flag c.present, u2 c.rating, u1 c.minLoad, flag c.capable, u1 c.failLimit, u1 c.failCount, flag c.lockout,
        flag g.available, u1 g.authority.wire, u1 g.state.wire, optTime g.phaseTimer,
        (match g.minRun with | .absent => absentField 4 | .running w => u4 w.toNat | .elapsed => u4 1),
        u2 g.lastOutput, flag g.breakerClosed, flag g.engineRunning, optField 1 (unitSlot s i),
        optField 1 ((servedKind s i).map ReasonKind.wire), optRemaining 4 now g.phaseTimer,
        (match g.minRun with | .absent => absentField 4 | .running w => u4 (remaining now w) | .elapsed => u4 0),
        u1 (g.pendingRelease.getD 0), optTime (cover.bind Claim.waitExpiry), optTime g.recallWindow,
        optRemaining 2 now g.recallWindow])
    ∧ (∀ g : Fin 8, unitIndex b = some g →
      let c := s.cfg.pvs[g]
      let p := s.pvs[g]
      reads 2 [u2 c.rating, u1 c.weight, u1 c.cls, u1 (((linkedTie s.cfg g).map (·.val + 1)).getD 0), u1 p.authority.wire,
        u2 p.available, (match p.age with | some steps => u4 (steps * 100) | none => u4 1), u2 p.base, u2 p.computed,
        optField 2 p.issued, optField 1 p.cap, flag p.awaiting])
    ∧ (∀ k : Fin 24, feederIndex b = some k →
      let c := s.cfg.feeders[k]
      let f := s.feeders[k]
      reads 3 ([flag c.present, u1 (if c.kind = .load then 0 else 1), u1 ((c.linked.map (·.val + 1)).getD 0), u1 c.cls,
        u1 c.stage, u2 c.estimate, u2 c.coldLoad, u1 c.rank, flag c.auto, u1 f.state.wire,
        optField 1 (f.shedCause.map Cause.wire), optTime f.timeOpened] ++ left 2 f.relayWindow))
    ∧ (1 ≤ b.toNat → b.toNat ≤ 16 →
      (s.book.claims.length < b.toNat → reads 4 [u1 s.book.claims.length])
      ∧ ∀ c, s.book.claims[b.toNat - 1]? = some c → reads 4 (u1 s.book.claims.length :: u1 c.id :: u1 c.holder.wire
          :: ((match c.purpose with
            | .feeder k => [u1 0, u1 (k.val + 1)]
            | .reserve => [u1 1, u1 0]
            | .unit i => [u1 2, u1 (i.val + 1)])
          ++ [u2 c.amount, u1 (match c.state with | .pending _ => 0 | .granted _ => 1 | .applied _ => 2), u2 c.lifetime,
            optTime c.waitExpiry, optTime c.lifetimeExpiry, optTime c.settleExpiry])))
    ∧ (b = 0 →
      let m := s.book.terms
      let ran := fun (d : Option Time) => [flag d.isSome, optElapsed now d]
      let l := s.lock
      let c := s.cur
      let h := s.shed
      let r := s.rest
      let q := s.seq
      let slot := fun (u : Option SlotUse) => [optField 1 (u.map (·.unit.val + 1)), optField 1 (u.map (·.kind.wire)),
        optField 4 (u.map (·.since.toNat))]
      reads 5 ([u4 m.H, u4 m.pvTot, u4 m.pvCoord, u4 m.pvLoc, u4 m.Nc, u2 m.Nu, u4 m.RR, u4 m.Cl, i4 m.M, u4 m.L, u4 m.A,
        i4 m.D, i4 m.excess] ++ ran s.book.shortfallDwell ++ ran s.book.surplusDwell ++ ran s.book.guard
        ++ [flag s.book.noCandidate])
      ∧ (let state := [u1 l.mode.wire, optField 1 (l.expected.map (·.toNat)), u1 l.verifyCount, u1 l.window.length,
           u1 (badCount l.window)]
         let age := [match l.age with | some steps => u4 (steps * 100) | none => u4 1, u1 l.quality.wire]
         (l.held = none → reads 6 (state ++ [absentField 1, absentField 1, absentField 4, absentField 2]
           ++ List.replicate 16 (absentField 2) ++ absentField 4 :: age))
         ∧ ∀ (x : SampleRec) (at_ : Time), l.held = some ⟨x, at_⟩ → reads 6 (state
           ++ [u1 x.seq.toNat, u1 x.bus.toNat, u4 x.freq.toNat, i2 x.rocof.toInt] ++ x.gens.toList.map (fun v => i2 v.toInt)
           ++ x.pvs.toList.map (fun v => u2 v.toNat) ++ u4 at_.toNat :: age))
      ∧ reads 7 ((reasonKinds.flatMap fun k => match s.arb.get k with
          | some x => [u1 k.wire, u4 x.need, optField 1 (x.named.map (·.val + 1)), u1 (if x.stage = .pending then 0 else 1),
              flag x.withdrawn, flag x.noCandidate]
          | none => []) ++ slot s.arb.slot1 ++ slot s.arb.slot2 ++ s.cfg.ring.map fun i => u1 (i.val + 1))
      ∧ reads 8 [u2 c.bucket, u1 (if c.bucketOpen then 0 else 1), flag c.fullOwed, u4 c.sumBase, u4 c.rof, u4 c.target,
          u4 c.prevTotal, u4 c.newTotal, u4 c.reduction]
      ∧ reads 9 ((List.finRange 4).flatMap (fun n => left 2 h.timers[n]) ++ (List.finRange 4).map (fun n => flag h.latches[n])
          ++ [optTime h.spell, optElapsed now h.spell] ++ left 2 h.settle
          ++ [flag h.uncoveredShortfall, flag h.uncoveredOverload, flag h.relistAllowed, u1 (openingCount s)])
      ∧ reads 10 (left 4 r.holdOff ++ [u2 r.bucket, flag r.hold, optField 1 (r.next.map (·.feeder.val + 1)),
          optField 2 (r.next.map (·.need)),
          optField 1 (r.next.map fun n => match n.why with | .bucket => 0 | .margin => 1 | .busy => 2)])
      ∧ (let state := [u1 q.phase.wire, flag q.armed, optTime q.deadSpell, optTime q.window, u1 q.attempts, u1 q.collapses,
           optField 1 q.pointer, optTime q.stepTimer, optTime q.bandSpell, u1 (q.stepClaim.getD 0),
           optField 1 (q.failure.map Cause.wire), optRemaining 4 now q.window, optRemaining 4 now q.stepTimer,
           optElapsed now q.deadSpell, optElapsed now q.bandSpell]
         (q.pointer = none →
           reads 11 (state ++ [absentField 1, absentField 2, absentField 2, absentField 2, absentField 1]))
         ∧ ∀ (n : Nat) (h : n < 32), q.pointer = some (n + 1) → reads 11 (state ++ step s.cfg.plan[n]))
      ∧ reads 12 [u1 s.cfg.planLength])
    ∧ (∀ n : Fin 32, b.toNat = n.val + 1 → reads 12 (step s.cfg.plan[n]))
    ∧ (let x := s.cfg.settings.book
       let w := s.cfg.settings.windows
       let c := s.cfg.settings.curtail
       let h := s.cfg.settings.shed
       let r := s.cfg.settings.restore
       (b = 1 → reads 13 [u1 x.cf, u2 x.rfloor, flag x.n1, u1 x.startDelay, u2 x.shedDelay, u2 x.surplusMargin,
         u2 x.surplusDwell, u2 x.guardTime, u2 x.claimLifetime, u1 x.claimSettle, u1 x.releaseWait])
        ∧ (b = 2 → reads 13 [u1 w.crank, u2 w.sync, u2 w.unload, u2 w.cooldown, u2 w.minRun])
        ∧ (b = 3 → reads 13 [u2 c.ofOffset, u1 c.gain, u2 c.rampRate, u2 c.capacity, u2 c.reopen, u1 c.changeStep])
        ∧ (b = 4 → reads 13 ([u2 (h.relayWindow * 100), u2 (h.settleTime * 100)] ++ h.offsets.toList.map u2
            ++ h.delays.toList.map u2 ++ [u2 h.resetBand, i2 h.rocofAdvance, u2 h.latchRelease]))
        ∧ (b = 5 → reads 13 [u2 r.freqOffset, u2 r.holdOffTime, u2 r.rate, u2 r.capacity])
        ∧ (b = 6 → reads 13 [u2 (s.cfg.settings.links.silence * 100), u2 s.cfg.settings.links.nominal]))
    ∧ (∀ l : Link, b.toNat = linkIndex l →
      let c := s.links.get l
      reads 14 [u1 (if c.active then 0 else 1), u4 (elapsed now c.silenceFrom), u1 (replyLine c).length,
        u1 (orderLine c).length, u1 c.notices.length, u1 c.overflow])
    ∧ (∀ sel : Byte, readFields s sel b = none ↔
      let n := b.toNat
      sel = 0 ∨ 14 < sel.toNat ∨ (sel ∈ [(1 : Byte), 2] ∧ (n = 0 ∨ 8 < n)) ∨ (sel = 3 ∧ (n = 0 ∨ 24 < n))
        ∨ (sel = 4 ∧ (n = 0 ∨ 16 < n)) ∨ (5 ≤ sel.toNat ∧ sel.toNat ≤ 11 ∧ n ≠ 0) ∨ (sel = 12 ∧ 32 < n)
        ∨ (sel = 13 ∧ (n = 0 ∨ 6 < n)) ∨ (sel = 14 ∧ (n = 0 ∨ 4 < n))))

/-- The bytes of the frame of any well-formed request, received one after another by a hunting framer of its link, put
exactly that request at the end of the queue and leave the framer hunting: no field of a request is lost, and the frame
check accepts its own frames (R168, R169; log 9). -/
def Obligations.FrameBytesBecomeCommand : Prop :=
  ∀ (i : Instr) (l : Link) (kind tag : Byte) (p : List Byte) (s : State), i.wf = true →
    requestFrame i = some (l, kind, tag, p) → (s.links.get l).framer = .hunting →
    commandOfFrame l kind tag p = i
    ∧ (frameBytes kind tag p).foldl (fun s b => receiveByte (.station l) b s) s = { s with pending := s.pending ++ [i] }

/-! ## Plant tables and settings (10) -/

/-- SET of a settings group with the length of its record writes each field, clamped to its range, to the tables and to the
store; the reply is Done when nothing was clamped and Clamped otherwise. A bucket above its new capacity becomes the
capacity, and the ramp bucket then closes (R99, R134); nothing else changes (R179, R180, R181, R183). The layout of the
records of groups 4 and 6, with their times in milliseconds, is log 16. -/
def Obligations.SetWritesSettings : Prop :=
  ∀ (tag : Byte) (r : List Byte) (s : State), Ready s .S →
    let one := fun (i : Nat) => (byteAt r i).toNat
    let two := fun (i : Nat) => one i + 256 * one (i + 1)
    let hold := fun (lo hi v : Nat) => max lo (min hi v)
    let steps := fun (lo hi v : Nat) => hold lo hi v / 100
    let written := fun (group : Byte) (f : Settings → Settings) (clean : Prop) (post : State → Prop) =>
      ∃ t, exec (.set tag (1 :: group :: r)) s = .next t
        ∧ t.cfg = { s.cfg with settings := f s.cfg.settings } ∧ t.store = { s.store with settings := f s.store.settings }
        ∧ (clean → Answered .S 0x02 tag (answer .done) s t) ∧ (¬clean → Answered .S 0x02 tag (answer .clamped) s t)
        ∧ post t
    let rest := fun (t : State) => { t with cfg := s.cfg, store := s.store, links := s.links } = s
    (r.length = 17 →
      let v : BookSettings := ⟨hold 0 100 (one 0), hold 0 50000 (two 1), decide (one 3 = 1), hold 0 60 (one 4),
        hold 5 300 (two 5), hold 0 10000 (two 7), hold 30 3600 (two 9), hold 10 600 (two 11), hold 1 600 (two 13),
        hold 1 60 (one 15), hold 1 120 (one 16)⟩
      written 1 (fun c => { c with book := v }) ([one 0, two 1, one 4, two 5, two 7, two 9, two 11, two 13, one 15, one 16]
        = [v.cf, v.rfloor, v.startDelay, v.shedDelay, v.surplusMargin, v.surplusDwell, v.guardTime, v.claimLifetime,
          v.claimSettle, v.releaseWait] ∧ one 3 ≤ 1) rest)
    ∧ (r.length = 9 →
      let v : WindowSettings := ⟨hold 5 120 (one 0), hold 10 300 (two 1), hold 10 300 (two 3), hold 0 900 (two 5),
        hold 0 7200 (two 7)⟩
      written 2 (fun c => { c with windows := v })
        ([one 0, two 1, two 3, two 5, two 7] = [v.crank, v.sync, v.unload, v.cooldown, v.minRun]) rest)
    ∧ (r.length = 10 →
      let v : CurtailSettings := ⟨hold 50 3000 (two 0), hold 0 200 (one 2), hold 10 10000 (two 3), hold 50 50000 (two 5),
        hold 0 50000 (two 7), hold 1 100 (one 9)⟩
      v.reopen ≤ v.capacity → written 3 (fun c => { c with curtail := v })
        ([two 0, one 2, two 3, two 5, two 7, one 9] = [v.ofOffset, v.gain, v.rampRate, v.capacity, v.reopen, v.changeStep])
        (fun t => rest { t with cur := s.cur } ∧ t.cur = if v.capacity < s.cur.bucket
          then { s.cur with bucket := v.capacity, bucketOpen := false } else s.cur))
    ∧ (r.length = 26 →
      let offset := fun (n : Fin 4) => hold 100 10000 (two (4 + 2 * n.val))
      let delay := fun (n : Fin 4) => steps 0 5000 (two (12 + 2 * n.val)) * 100
      let advance := max (-20000) (min (-100) (le16 r 22).toInt)
      let v : ShedSettings := ⟨steps 200 10000 (two 0), steps 500 10000 (two 2), Vector.ofFn offset, Vector.ofFn delay,
        hold 0 1000 (two 20), advance, hold 1 600 (two 24)⟩
      offset 0 < offset 1 → offset 1 < offset 2 → offset 2 < offset 3 → written 4 (fun c => { c with shed := v })
        ([two 0, two 2, two 20, two 24] = [v.relayWindow * 100, v.settleTime * 100, v.resetBand, v.latchRelease]
          ∧ advance = (le16 r 22).toInt ∧ ∀ n : Fin 4, offset n = two (4 + 2 * n.val) ∧ delay n = two (12 + 2 * n.val)) rest)
    ∧ (r.length = 8 →
      let v : RestoreSettings := ⟨hold 0 3000 (two 0), hold 5 900 (two 2), hold 10 10000 (two 4), hold 50 50000 (two 6)⟩
      written 5 (fun c => { c with restore := v })
        ([two 0, two 2, two 4, two 6] = [v.freqOffset, v.holdOffTime, v.rate, v.capacity])
        (fun t => rest { t with rest := s.rest } ∧ t.rest = { s.rest with bucket := min s.rest.bucket v.capacity }))
    ∧ (r.length = 4 → two 2 = 50000 ∨ two 2 = 60000 →
      written 6 (fun c => { c with links := ⟨steps 500 10000 (two 0), two 2⟩ })
        (two 0 = steps 500 10000 (two 0) * 100) rest)

/-- SET refused: a selector or index outside its table with Refused-Range, a record of another length with Refused-Length (of a
payload with no byte Refused-Length; of one with the selector alone Refused-Length too, or Refused-Range where the selector is
outside its table: log 31), a
plan record outside Idle, the plan length included, with Refused-State; a genset record while its unit is Starting,
Synchronising or Unloading, or one that makes it not present while it is Online or a release or a recall of it waits, and a
feeder record while it is Opening or Closing, or one that makes it not present while a claim names it, with Refused-State;
and a record whose clamped values have a structural error with Refused-Range: a reopen level above the ramp capacity, stage
offsets that do not rise, a nominal frequency other than 50,000 or 60,000 mHz, a feeder of unknown kind, with a stage above
4, or a tie with a group above 8 or one that another tie names, a step of unknown kind, with an on-timeout that is neither
code or an operand 1 outside the range of its kind, and a tally with an event kind, filter, mode or qualifier outside its
set. The state is otherwise as it was (R179, R180, R181, R182). The records of groups 4 and 6 are log 16, the tally's event
mask is log 17. -/
def Obligations.SetRefusals : Prop :=
  ∀ (tag sel index : Byte) (r : List Byte) (s : State), Ready s .S →
    let refused := fun (st : Status) =>
      exec (.set tag (sel :: index :: r)) s = .next (replied .S 0x02 tag (answer st) s)
    (sel.toNat = 0 ∨ 6 < sel.toNat → refused .refusedRange)
    ∧ (sel = 1 → index = 0 ∨ 6 < index.toNat → refused .refusedRange)
    ∧ (sel = 2 ∨ sel = 3 → index = 0 ∨ 8 < index.toNat → refused .refusedRange)
    ∧ (sel = 4 → index = 0 ∨ 24 < index.toNat → refused .refusedRange)
    ∧ (sel = 5 → 32 < index.toNat → refused .refusedRange)
    ∧ (let short := fun (p : List Byte) (st : Status) => exec (.set tag p) s = .next (replied .S 0x02 tag (answer st) s)
       short [] .refusedLength
        ∧ (1 ≤ sel.toNat → sel.toNat ≤ 6 → short [sel] .refusedLength)
        ∧ (sel = 0 ∨ 6 < sel.toNat → short [sel] .refusedRange))
    ∧ (sel = 6 → index = 0 ∨ 16 < index.toNat → refused .refusedRange)
    ∧ (∀ target, setTarget sel index = some target → r.length ≠ target.length → refused .refusedLength)
    ∧ (sel = 5 → index.toNat ≤ 32 → r.length = (if index = 0 then 1 else 8) → s.seq.phase ≠ .idle → refused .refusedState)
    ∧ (sel = 1 → index = 6 → r.length = 4 → (le16 r 2).toNat ≠ 50000 → (le16 r 2).toNat ≠ 60000 → refused .refusedRange)
    ∧ (∀ i : Fin 8, sel = 2 → unitIndex index = some i → r.length = 6 →
        s.gens[i].state ∈ [UnitState.starting, .synchronising, .unloading]
          ∨ (s.cfg.gensets[i].present = true ∧ byteAt r 0 ≠ 1 ∧ (s.gens[i].state = .online
            ∨ s.gens[i].pendingRelease.isSome = true ∨ s.gens[i].recallWindow.isSome = true)) → refused .refusedState)
    ∧ (∀ k : Fin 24, sel = 4 → feederIndex index = some k → r.length = 11 →
        s.feeders[k].state ∈ [FeederState.opening, .closing]
          ∨ (s.cfg.feeders[k].present = true ∧ byteAt r 0 ≠ 1 ∧ ∃ c ∈ s.book.claims, c.purpose = .feeder k) →
        refused .refusedState)
    ∧ (let one := fun (i : Nat) => (byteAt r i).toNat
       let two := fun (i : Nat) => one i + 256 * one (i + 1)
       let hold := fun (lo hi v : Nat) => max lo (min hi v)
       let offset := fun (n : Nat) => hold 100 10000 (two (4 + 2 * n))
       (sel = 1 → index = 3 → r.length = 10 → hold 50 50000 (two 5) < hold 0 50000 (two 7) → refused .refusedRange)
        ∧ (sel = 1 → index = 4 → r.length = 26 → ¬(offset 0 < offset 1 ∧ offset 1 < offset 2 ∧ offset 2 < offset 3) →
            refused .refusedRange)
        ∧ (∀ k : Fin 24, sel = 4 → feederIndex index = some k → r.length = 11 → feederInFlight s k r = false →
            1 < one 1 ∨ 4 < one 4
              ∨ (one 1 = 1 ∧ (8 < one 2 ∨ ∃ (g : Fin 8) (j : Fin 24), unitIndex (byteAt r 2) = some g ∧ j ≠ k
                ∧ s.cfg.feeders[j].kind = .sourceTie ∧ s.cfg.feeders[j].linked = some g)) →
            refused .refusedRange)
        ∧ (sel = 5 → 1 ≤ index.toNat → index.toNat ≤ 32 → r.length = 8 → s.seq.phase = .idle →
            6 < one 0 ∨ 1 < one 7 ∨ (one 0 ∈ [0, 3] ∧ two 1 = 0) ∨ (one 0 = 0 ∧ 24 < two 1) ∨ (one 0 = 1 ∧ 7 < two 1)
              ∨ (one 0 ∈ [2, 3] ∧ 8 < two 1) → refused .refusedRange)
        ∧ (sel = 6 → 1 ≤ index.toNat → index.toNat ≤ 16 → r.length = 5 →
            16384 ≤ two 0 ∨ 24 < one 2 ∨ 1 < one 3 ∨ 2 < one 4 → refused .refusedRange))

/-- SET of a genset, PV group, feeder, plan or tally record with the length of its record writes each numeric field, clamped
to its range, each yes-or-no field and each choice, to the tables and to the store; the reply is Done when nothing was
changed to fit and Clamped otherwise (R46, R88, R110, R179, R181, R183, R184). A genset or feeder made not present becomes
Unknown (R182); a lowered PV rating clamps the available power and the issued ceiling, and a clamped ceiling owes a full
order (R88). SET RING of eight indices that hold each of G1 to G8 once makes them the duty ring, in their order, through to
the store; any other eight are refused with Refused-Range (R69). The record of a
tally, five bytes with its event set as a two-byte mask, is log 17. That a lowered rating leaves the computed ceiling as it was
is log 66. -/
def Obligations.SetWritesTables : Prop :=
  (∀ (tag index : Byte) (r : List Byte) (s : State), Ready s .S →
    let one := fun (i : Nat) => (byteAt r i).toNat
    let two := fun (i : Nat) => one i + 256 * one (i + 1)
    let hold := fun (lo hi v : Nat) => max lo (min hi v)
    let yes := fun (i : Nat) => decide (one i = 1)
    let written := fun (selector : Byte) (f : Tables → Tables) (clean : Prop) (post : State → Prop) =>
      ∃ t, exec (.set tag (selector :: index :: r)) s = .next t ∧ t.cfg = f s.cfg ∧ t.store = f s.store
        ∧ (clean → Answered .S 0x02 tag (answer .done) s t) ∧ (¬clean → Answered .S 0x02 tag (answer .clamped) s t)
        ∧ post t
    let rest := fun (t : State) => { t with cfg := s.cfg, store := s.store, links := s.links } = s
    (∀ i : Fin 8, unitIndex index = some i → r.length = 6 → gensetInFlight s i r = false →
      let old := s.cfg.gensets[i]
      let v : GensetCfg := ⟨yes 0, hold 50 20000 (two 1), hold 0 60 (one 3), yes 4, hold 1 5 (one 5), old.failCount,
        old.lockout⟩
      written 2 (fun c => { c with gensets := c.gensets.set i v })
        ([two 1, one 3, one 5] = [v.rating, v.minLoad, v.failLimit] ∧ one 0 ≤ 1 ∧ one 4 ≤ 1)
        (fun t => (v.present = false → t.gens[i].state = .unknown) ∧ (v.present = old.present → v.present = true → rest t)))
    ∧ (∀ g : Fin 8, unitIndex index = some g → r.length = 4 →
      let old := s.pvs[g]
      let v : PvCfg := ⟨hold 10 20000 (two 0), hold 1 100 (one 2), hold 0 3 (one 3)⟩
      let clamped := { old with available := min old.available v.rating, issued := old.issued.map (min v.rating) }
      written 3 (fun c => { c with pvs := c.pvs.set g v }) ([two 0, one 2, one 3] = [v.rating, v.weight, v.cls])
        (fun t => rest { t with pvs := s.pvs, cur := s.cur }
          ∧ (s.cfg.pvs[g].rating ≤ v.rating → t.pvs = s.pvs ∧ t.cur = s.cur)
          ∧ (v.rating < s.cfg.pvs[g].rating → t.pvs = s.pvs.set g clamped
              ∧ t.cur = if clamped.issued = old.issued then s.cur else { s.cur with fullOwed := true })))
    ∧ (∀ k : Fin 24, feederIndex index = some k → r.length = 11 → feederInFlight s k r = false → one 4 ≤ 4 →
      let numbers := [hold 0 7 (one 3), hold 0 20000 (two 5), hold 100 400 (two 7), hold 1 24 (one 9)]
      let clean := [one 3, two 5, two 7, one 9] = numbers ∧ one 0 ≤ 1 ∧ one 10 ≤ 1
      let cfg := fun (kind : FeederKind) (g : Option (Fin 8)) => (⟨yes 0, kind, g, hold 0 7 (one 3), one 4,
        hold 0 20000 (two 5), hold 100 400 (two 7), hold 1 24 (one 9), yes 10⟩ : FeederCfg)
      let post := fun (t : State) => (s.cfg.feeders[k].present = true → yes 0 = false →
          t.feeders[k].state = .unknown ∧ t.feeders[k].shedCause = none ∧ t.feeders[k].timeOpened = none)
        ∧ (yes 0 = s.cfg.feeders[k].present → rest t)
      (one 1 = 0 → written 4 (fun c => { c with feeders := c.feeders.set k (cfg .load none) }) (clean ∧ one 2 = 0) post)
      ∧ (one 1 = 1 → one 2 = 0 →
          written 4 (fun c => { c with feeders := c.feeders.set k (cfg .sourceTie none) }) clean post)
      ∧ (∀ g : Fin 8, one 1 = 1 → unitIndex (byteAt r 2) = some g →
          (∀ j : Fin 24, j ≠ k → s.cfg.feeders[j].kind = .sourceTie → s.cfg.feeders[j].linked ≠ some g) →
          written 4 (fun c => { c with feeders := c.feeders.set k (cfg .sourceTie (some g)) }) clean post))
    ∧ (index = 0 → r.length = 1 → s.seq.phase = .idle →
      written 5 (fun c => { c with planLength := hold 0 32 (one 0) }) (one 0 ≤ 32) rest)
    ∧ (∀ n : Fin 32, index.toNat = n.val + 1 → r.length = 8 → s.seq.phase = .idle → one 7 ≤ 1 →
      let a := two 1
      let b := two 3
      let plan := fun (act : StepAct) (clean : Prop) => written 5
        (fun c => { c with plan := c.plan.set n ⟨act, hold 1 3600 (two 5), yes 7⟩ })
        (clean ∧ two 5 = hold 1 3600 (two 5)) rest
      (∀ k : Fin 24, one 0 = 0 → a = k.val + 1 → plan (.closeFeeder k) (b = 0))
      ∧ (∀ c : Fin 8, one 0 = 1 → a = c.val → plan (.closeClass c) (b = 0))
      ∧ (one 0 = 2 → a = 0 → plan (.startUnit none) (b = 0))
      ∧ (∀ i : Fin 8, one 0 = 2 → a = i.val + 1 → plan (.startUnit (some i)) (b = 0))
      ∧ (∀ g : Fin 8, one 0 = 3 → a = g.val + 1 → plan (.releasePv g (hold 0 100 b)) (b ≤ 100))
      ∧ (one 0 = 4 → plan (.wait (hold 1 3600 a)) (a = hold 1 3600 a ∧ b = 0))
      ∧ (one 0 = 5 → plan (.waitBand (hold 50 3000 a) (hold 1 600 b)) (a = hold 50 3000 a ∧ b = hold 1 600 b))
      ∧ (one 0 = 6 → plan .endPlan (a = 0 ∧ b = 0)))
    ∧ (∀ n : Fin 16, index.toNat = n.val + 1 → r.length = 5 → two 0 < 16384 → one 2 ≤ 24 → one 3 ≤ 1 →
      let v := fun (q : Qualifier) =>
        (⟨BitVec.ofNat 14 (two 0), one 2, if one 3 = 0 then .count else .accumulate, q⟩ : TallyCfg)
      let tally := fun (q : Qualifier) => written 6 (fun c => { c with tallies := c.tallies.set n (v q) }) True rest
      (one 4 = 0 → tally .any) ∧ (one 4 = 1 → tally .fullOnly) ∧ (one 4 = 2 → tally .notFullOnly)))
  ∧ (∀ (tag : Byte) (indices : List Byte) (s : State), Ready s .S → indices.length = 8 →
    (∀ r : List (Fin 8), indices.map unitIndex = r.map some → r.Nodup →
      ∃ t, exec (.setRing tag indices) s = .next t
        ∧ t.cfg = { s.cfg with ring := r } ∧ t.store = { s.store with ring := r }
        ∧ Answered .S 0x03 tag (answer .done) s t
        ∧ { t with cfg := s.cfg, store := s.store, links := s.links } = s)
    ∧ ((∀ r : List (Fin 8), indices.map unitIndex = r.map some → ¬r.Nodup) →
        exec (.setRing tag indices) s = .next (replied .S 0x03 tag (answer .refusedRange) s)))

/-! ## Tallies (11) -/

/-- An event offered to the Tally Unit is taken by each tally whose event set holds its kind, whose filter is 0 or the event's
index, and whose qualifier admits the quality; it adds 1 in Count mode and its amount in Accumulate mode, and no tally passes
2^40 - 1; the snapshot stays (R184, R185). So a frame error adds to each tally that takes it with its line's index, and a stage
that fires in Idle with link F Active adds, for each feeder it opens, 1 or the feeder's load estimate (R121, R168). -/
def Obligations.TalliesCountEvents : Prop :=
  let takes := fun (s : State) (c : TallyCfg) (k : EventKind) (index : Option Nat) =>
    c.events.getLsbD k.place = true ∧ (c.filter = 0 ∨ index = some c.filter)
      ∧ (c.qualifier = .any ∨ (c.qualifier = .fullOnly ∧ s.lock.quality = .full)
        ∨ (c.qualifier = .notFullOnly ∧ s.lock.quality ≠ .full))
  let adds := fun (c : TallyCfg) (amount : Nat) => if c.mode = .count then 1 else amount
  (∀ (k : EventKind) (index : Option Nat) (amount : Nat) (i : Fin 16) (s : State),
    let t := offer k index amount s
    (takes s s.cfg.tallies[i] k index →
      t.tally.live[i] = min 1099511627775 (s.tally.live[i] + adds s.cfg.tallies[i] amount))
    ∧ (¬takes s s.cfg.tallies[i] k index → t.tally.live[i] = s.tally.live[i])
    ∧ t.tally.snap = s.tally.snap ∧ t.tally.snapTime = s.tally.snapTime ∧ { t with tally := s.tally } = s)
  ∧ (∀ (l : Link) (why : FrameFault) (i : Fin 16) (s : State),
    ∃ t, exec (.frameError (.station l) why) s = .next t
      ∧ (takes s s.cfg.tallies[i] .frameError (some (linkIndex l)) →
          t.tally.live[i] = min 1099511627775 (s.tally.live[i] + adds s.cfg.tallies[i] 0))
      ∧ (¬takes s s.cfg.tallies[i] .frameError (some (linkIndex l)) → t.tally.live[i] = s.tally.live[i]))
  ∧ (∀ (n : Fin 4) (i : Fin 16) (s : State), due s.clock s.shed.timers[n] = true → linkActive s .F = true →
    s.seq.phase = .idle → TallyLaw s →
    let c := s.cfg.tallies[i]
    ∀ fs : List (Fin 24), fs.Nodup → (∀ k : Fin 24, k ∈ fs ↔ k ∈ stageList s n ∧
      takes s c .underFrequencyShed (some (k.val + 1))) →
    ∃ t, exec (.stageTimerExpiry n) s = .next t
      ∧ t.tally.live[i] =
          min 1099511627775 (s.tally.live[i] + (fs.map fun k => adds c s.cfg.feeders[k].estimate).sum))

/-- R186. SNAPSHOT copies the sixteen live values and the clock time to the snapshot, then with Zero each live value becomes
0; the reply is Done and carries the snapshot time; any other option is refused with Refused-Range. -/
def Obligations.SnapshotTaken : Prop :=
  ∀ (tag option : Byte) (s : State), Ready s .S →
    (option = 0 → exec (.snapshot tag option) s = .next (replied .S 0x0C tag ⟨.done, [u4 s.clock.toNat]⟩
      { s with tally := ⟨s.tally.live, s.tally.live, some s.clock⟩ }))
    ∧ (option = 1 → exec (.snapshot tag option) s = .next (replied .S 0x0C tag ⟨.done, [u4 s.clock.toNat]⟩
        { s with tally := ⟨Vector.replicate 16 0, s.tally.live, some s.clock⟩ }))
    ∧ (1 < option.toNat → exec (.snapshot tag option) s = .next (replied .S 0x0C tag (answer .refusedRange) s))

/-! ## Laws of the whole machine -/

/-- While quality is not Full, no claim becomes Granted and no STOP or CLOSE order is issued, whatever the command (R39), and no
sample raises an issued ceiling: the part acts on what falls, not on what rises (R40, R104, R107). -/
def Obligations.NothingRisesOutsideFull : Prop :=
  ∀ (c : Instr) (s t : State), exec c s = .next t → t.lock.quality ≠ .full →
    (∀ x ∈ t.book.claims, ∀ w : Time, x.state = .granted w → x ∈ s.book.claims)
    ∧ (∀ i : Fin 8, .stop i ∈ orderLine (t.links.get .G) → .stop i ∈ orderLine (s.links.get .G))
    ∧ (∀ k : Fin 24, .close k ∈ orderLine (t.links.get .F) → .close k ∈ orderLine (s.links.get .F))
    ∧ (∀ (kind : Byte) (p : List Byte) (ok : Bool), c = .sample kind p ok →
        ∀ (g : Fin 8) (v w : Nat), s.pvs[g].issued = some v → t.pvs[g].issued = some w → w ≤ v)

/-- Whatever the command, a change is told: a change of the quality level by QualityChange to all four links (R38), a change
of a genset's state by UnitState to links S and G (R48), a lockout flag set by UnitLockout to links S and G (R47), and a
change of a feeder's state by FeederState to links S and F (R111), each at the clock time and dropped only by a full queue
(R173). Power-on, the reset input and RESTART, which set every record afresh, and FETCH NOTICE, which may take the record at
once, are left out. -/
def Obligations.ChangesAreTold : Prop :=
  ∀ (c : Instr) (s t : State), exec c s = .next t → c ≠ .powerOn → c ≠ .resetInput →
    (∀ tag, c ≠ .restart tag) → (∀ l tag, c ≠ .fetchNotice l tag) →
    let told := fun (l : Link) (kind : NoticeKind) (index : Nat) (subject : Subject) => toldOf t l fun n =>
      n.kind = kind ∧ n.index = index ∧ n.subject = subject ∧ n.time = s.clock
    (t.lock.quality ≠ s.lock.quality → ∀ l : Link, toldOf t l fun n =>
      n = ⟨.qualityChange, 0, .quality t.lock.quality, .quality s.lock.quality, 0, s.clock⟩)
    ∧ (∀ i : Fin 8, t.gens[i].state ≠ s.gens[i].state → ∀ l ∈ [Link.S, .G],
        told l .unitState (i.val + 1) (.unit t.gens[i].state))
    ∧ (∀ i : Fin 8, s.cfg.gensets[i].lockout = false → t.cfg.gensets[i].lockout = true → ∀ l ∈ [Link.S, .G],
        told l .unitLockout (i.val + 1) (.unit .lockedOut))
    ∧ (∀ k : Fin 24, t.feeders[k].state ≠ s.feeders[k].state → ∀ l ∈ [Link.S, .F],
        told l .feederState (k.val + 1) (.feeder t.feeders[k].state))

/-- Every law below holds right after reset (the factory store is the model's choice, log 7). -/
def Obligations.ResetMeetsLaws : Prop :=
  StoreLaw State.reset ∧ RingLaw State.reset ∧ TallyLaw State.reset ∧ QueueLaw State.reset ∧ LineLaw State.reset
    ∧ OrderLaw State.reset
    ∧ QualityLaw State.reset ∧ WindowLaw State.reset ∧ CeilingLaw State.reset ∧ BucketLaw State.reset
    ∧ ClosingLaw State.reset ∧ RelayWindowLaw State.reset ∧ PhaseTimerLaw State.reset ∧ SlotLaw State.reset
    ∧ ClaimListLaw State.reset ∧ MarginLaw State.reset ∧ ClearedLaw State.reset

/-- Every step keeps the store equal to the working tables and the duty ring a ring of the eight gensets (R68, R183), and every
tally within 2^40 - 1 (R185). -/
def Obligations.TablesAndTalliesStaySound : Prop :=
  (KeptByStep fun s => StoreLaw s ∧ RingLaw s) ∧ KeptByStep TallyLaw

/-- Every step keeps the replies and notices within their places (R170, R173), with no idle line that may begin a frame
(R171; log 11), the reply being sent counted among the 8 (log 12); and the orders not yet begun within theirs, no subject
named by two of them (R172), so that they are at most 8 on link G, 1 on link P and 24 on link F. -/
def Obligations.QueuesStayBounded : Prop :=
  (KeptByStep fun s => QueueLaw s ∧ LineLaw s)
    ∧ KeptByStep OrderLaw
    ∧ ∀ s, OrderLaw s → s.links.G.orders.length ≤ 8 ∧ s.links.P.orders.length ≤ 1 ∧ s.links.F.orders.length ≤ 24

/-- Every step keeps the quality level that of the lock, and the judgement window within its bounds (R34, R38). -/
def Obligations.LockStaysSound : Prop := KeptByStep fun s => QualityLaw s ∧ WindowLaw s

/-- Every step keeps each issued ceiling within its rating and both buckets within their capacities (R89, R97, R134). -/
def Obligations.CeilingsAndBucketsStayBounded : Prop := KeptByStep fun s => CeilingLaw s ∧ BucketLaw s

/-- Every step keeps at most one feeder in Closing and the relay windows in Opening and Closing alone (R111, R139). -/
def Obligations.FeedersStaySound : Prop := KeptByStep fun s => ClosingLaw s ∧ RelayWindowLaw s

/-- Every step keeps the phase timers to the states that have one and the slots to the units starting, with no Local unit in
a state an order leads to (R48, R64, R75, R76). -/
def Obligations.UnitsStaySound : Prop := KeptByStep fun s => PhaseTimerLaw s ∧ SlotLaw s

/-- Every step keeps the claim list within its bounds with its ids and subjects single, and the margin the headroom less the
required reserve and the claim total (R5, R7, R8); and every step keeps the law of a black start: while the phase is Clearing or
Energising no claim is Pending or Granted, and every Coordinated PV group holds cap 0 and issued ceiling 0 (R153). -/
def Obligations.ClaimsAndMarginStaySound : Prop :=
  (KeptByStep fun s => ClaimListLaw s ∧ MarginLaw s) ∧ KeptByStep ClearedLaw

end
end

