-- ==== Sys2Proof/Laws/State.lean ====
section
/-! SUPPORT. One lemma per field per update: what an operation that updates one or two fields leaves as it was. Every one is
true by `rfl`, so no later proof unfolds a record update. -/

namespace Sys2Proof.Machine

variable (s : State)

/-! ### modLink -/

@[simp] theorem modLink_clock (l : Link) (f : LinkCtl → LinkCtl) : (modLink l f s).clock = s.clock := rfl
@[simp] theorem modLink_lock (l : Link) (f : LinkCtl → LinkCtl) : (modLink l f s).lock = s.lock := rfl
@[simp] theorem modLink_book (l : Link) (f : LinkCtl → LinkCtl) : (modLink l f s).book = s.book := rfl
@[simp] theorem modLink_gens (l : Link) (f : LinkCtl → LinkCtl) : (modLink l f s).gens = s.gens := rfl
@[simp] theorem modLink_arb (l : Link) (f : LinkCtl → LinkCtl) : (modLink l f s).arb = s.arb := rfl
@[simp] theorem modLink_pvs (l : Link) (f : LinkCtl → LinkCtl) : (modLink l f s).pvs = s.pvs := rfl
@[simp] theorem modLink_cur (l : Link) (f : LinkCtl → LinkCtl) : (modLink l f s).cur = s.cur := rfl
@[simp] theorem modLink_feeders (l : Link) (f : LinkCtl → LinkCtl) : (modLink l f s).feeders = s.feeders := rfl
@[simp] theorem modLink_shed (l : Link) (f : LinkCtl → LinkCtl) : (modLink l f s).shed = s.shed := rfl
@[simp] theorem modLink_rest (l : Link) (f : LinkCtl → LinkCtl) : (modLink l f s).rest = s.rest := rfl
@[simp] theorem modLink_seq (l : Link) (f : LinkCtl → LinkCtl) : (modLink l f s).seq = s.seq := rfl
@[simp] theorem modLink_sampleFramer (l : Link) (f : LinkCtl → LinkCtl) : (modLink l f s).sampleFramer = s.sampleFramer := rfl
@[simp] theorem modLink_tally (l : Link) (f : LinkCtl → LinkCtl) : (modLink l f s).tally = s.tally := rfl
@[simp] theorem modLink_entry (l : Link) (f : LinkCtl → LinkCtl) : (modLink l f s).entry = s.entry := rfl
@[simp] theorem modLink_cfg (l : Link) (f : LinkCtl → LinkCtl) : (modLink l f s).cfg = s.cfg := rfl
@[simp] theorem modLink_store (l : Link) (f : LinkCtl → LinkCtl) : (modLink l f s).store = s.store := rfl
@[simp] theorem modLink_pins (l : Link) (f : LinkCtl → LinkCtl) : (modLink l f s).pins = s.pins := rfl
@[simp] theorem modLink_pending (l : Link) (f : LinkCtl → LinkCtl) : (modLink l f s).pending = s.pending := rfl
@[simp] theorem modLink_free (l : Link) (f : LinkCtl → LinkCtl) : (modLink l f s).free = s.free := rfl

/-! ### modGen -/

@[simp] theorem modGen_clock (i : Fin 8) (f : Genset → Genset) : (modGen i f s).clock = s.clock := rfl
@[simp] theorem modGen_lock (i : Fin 8) (f : Genset → Genset) : (modGen i f s).lock = s.lock := rfl
@[simp] theorem modGen_book (i : Fin 8) (f : Genset → Genset) : (modGen i f s).book = s.book := rfl
@[simp] theorem modGen_arb (i : Fin 8) (f : Genset → Genset) : (modGen i f s).arb = s.arb := rfl
@[simp] theorem modGen_pvs (i : Fin 8) (f : Genset → Genset) : (modGen i f s).pvs = s.pvs := rfl
@[simp] theorem modGen_cur (i : Fin 8) (f : Genset → Genset) : (modGen i f s).cur = s.cur := rfl
@[simp] theorem modGen_feeders (i : Fin 8) (f : Genset → Genset) : (modGen i f s).feeders = s.feeders := rfl
@[simp] theorem modGen_shed (i : Fin 8) (f : Genset → Genset) : (modGen i f s).shed = s.shed := rfl
@[simp] theorem modGen_rest (i : Fin 8) (f : Genset → Genset) : (modGen i f s).rest = s.rest := rfl
@[simp] theorem modGen_seq (i : Fin 8) (f : Genset → Genset) : (modGen i f s).seq = s.seq := rfl
@[simp] theorem modGen_links (i : Fin 8) (f : Genset → Genset) : (modGen i f s).links = s.links := rfl
@[simp] theorem modGen_sampleFramer (i : Fin 8) (f : Genset → Genset) : (modGen i f s).sampleFramer = s.sampleFramer := rfl
@[simp] theorem modGen_tally (i : Fin 8) (f : Genset → Genset) : (modGen i f s).tally = s.tally := rfl
@[simp] theorem modGen_entry (i : Fin 8) (f : Genset → Genset) : (modGen i f s).entry = s.entry := rfl
@[simp] theorem modGen_cfg (i : Fin 8) (f : Genset → Genset) : (modGen i f s).cfg = s.cfg := rfl
@[simp] theorem modGen_store (i : Fin 8) (f : Genset → Genset) : (modGen i f s).store = s.store := rfl
@[simp] theorem modGen_pins (i : Fin 8) (f : Genset → Genset) : (modGen i f s).pins = s.pins := rfl
@[simp] theorem modGen_pending (i : Fin 8) (f : Genset → Genset) : (modGen i f s).pending = s.pending := rfl
@[simp] theorem modGen_free (i : Fin 8) (f : Genset → Genset) : (modGen i f s).free = s.free := rfl

/-! ### modPv -/

@[simp] theorem modPv_clock (g : Fin 8) (f : PvGroup → PvGroup) : (modPv g f s).clock = s.clock := rfl
@[simp] theorem modPv_lock (g : Fin 8) (f : PvGroup → PvGroup) : (modPv g f s).lock = s.lock := rfl
@[simp] theorem modPv_book (g : Fin 8) (f : PvGroup → PvGroup) : (modPv g f s).book = s.book := rfl
@[simp] theorem modPv_gens (g : Fin 8) (f : PvGroup → PvGroup) : (modPv g f s).gens = s.gens := rfl
@[simp] theorem modPv_arb (g : Fin 8) (f : PvGroup → PvGroup) : (modPv g f s).arb = s.arb := rfl
@[simp] theorem modPv_cur (g : Fin 8) (f : PvGroup → PvGroup) : (modPv g f s).cur = s.cur := rfl
@[simp] theorem modPv_feeders (g : Fin 8) (f : PvGroup → PvGroup) : (modPv g f s).feeders = s.feeders := rfl
@[simp] theorem modPv_shed (g : Fin 8) (f : PvGroup → PvGroup) : (modPv g f s).shed = s.shed := rfl
@[simp] theorem modPv_rest (g : Fin 8) (f : PvGroup → PvGroup) : (modPv g f s).rest = s.rest := rfl
@[simp] theorem modPv_seq (g : Fin 8) (f : PvGroup → PvGroup) : (modPv g f s).seq = s.seq := rfl
@[simp] theorem modPv_links (g : Fin 8) (f : PvGroup → PvGroup) : (modPv g f s).links = s.links := rfl
@[simp] theorem modPv_sampleFramer (g : Fin 8) (f : PvGroup → PvGroup) : (modPv g f s).sampleFramer = s.sampleFramer := rfl
@[simp] theorem modPv_tally (g : Fin 8) (f : PvGroup → PvGroup) : (modPv g f s).tally = s.tally := rfl
@[simp] theorem modPv_entry (g : Fin 8) (f : PvGroup → PvGroup) : (modPv g f s).entry = s.entry := rfl
@[simp] theorem modPv_cfg (g : Fin 8) (f : PvGroup → PvGroup) : (modPv g f s).cfg = s.cfg := rfl
@[simp] theorem modPv_store (g : Fin 8) (f : PvGroup → PvGroup) : (modPv g f s).store = s.store := rfl
@[simp] theorem modPv_pins (g : Fin 8) (f : PvGroup → PvGroup) : (modPv g f s).pins = s.pins := rfl
@[simp] theorem modPv_pending (g : Fin 8) (f : PvGroup → PvGroup) : (modPv g f s).pending = s.pending := rfl
@[simp] theorem modPv_free (g : Fin 8) (f : PvGroup → PvGroup) : (modPv g f s).free = s.free := rfl

/-! ### modFeeder -/

@[simp] theorem modFeeder_clock (k : Fin 24) (f : Feeder → Feeder) : (modFeeder k f s).clock = s.clock := rfl
@[simp] theorem modFeeder_lock (k : Fin 24) (f : Feeder → Feeder) : (modFeeder k f s).lock = s.lock := rfl
@[simp] theorem modFeeder_book (k : Fin 24) (f : Feeder → Feeder) : (modFeeder k f s).book = s.book := rfl
@[simp] theorem modFeeder_gens (k : Fin 24) (f : Feeder → Feeder) : (modFeeder k f s).gens = s.gens := rfl
@[simp] theorem modFeeder_arb (k : Fin 24) (f : Feeder → Feeder) : (modFeeder k f s).arb = s.arb := rfl
@[simp] theorem modFeeder_pvs (k : Fin 24) (f : Feeder → Feeder) : (modFeeder k f s).pvs = s.pvs := rfl
@[simp] theorem modFeeder_cur (k : Fin 24) (f : Feeder → Feeder) : (modFeeder k f s).cur = s.cur := rfl
@[simp] theorem modFeeder_shed (k : Fin 24) (f : Feeder → Feeder) : (modFeeder k f s).shed = s.shed := rfl
@[simp] theorem modFeeder_rest (k : Fin 24) (f : Feeder → Feeder) : (modFeeder k f s).rest = s.rest := rfl
@[simp] theorem modFeeder_seq (k : Fin 24) (f : Feeder → Feeder) : (modFeeder k f s).seq = s.seq := rfl
@[simp] theorem modFeeder_links (k : Fin 24) (f : Feeder → Feeder) : (modFeeder k f s).links = s.links := rfl
@[simp] theorem modFeeder_sampleFramer (k : Fin 24) (f : Feeder → Feeder) : (modFeeder k f s).sampleFramer = s.sampleFramer := rfl
@[simp] theorem modFeeder_tally (k : Fin 24) (f : Feeder → Feeder) : (modFeeder k f s).tally = s.tally := rfl
@[simp] theorem modFeeder_entry (k : Fin 24) (f : Feeder → Feeder) : (modFeeder k f s).entry = s.entry := rfl
@[simp] theorem modFeeder_cfg (k : Fin 24) (f : Feeder → Feeder) : (modFeeder k f s).cfg = s.cfg := rfl
@[simp] theorem modFeeder_store (k : Fin 24) (f : Feeder → Feeder) : (modFeeder k f s).store = s.store := rfl
@[simp] theorem modFeeder_pins (k : Fin 24) (f : Feeder → Feeder) : (modFeeder k f s).pins = s.pins := rfl
@[simp] theorem modFeeder_pending (k : Fin 24) (f : Feeder → Feeder) : (modFeeder k f s).pending = s.pending := rfl
@[simp] theorem modFeeder_free (k : Fin 24) (f : Feeder → Feeder) : (modFeeder k f s).free = s.free := rfl

/-! ### writeThrough -/

@[simp] theorem writeThrough_clock (f : Tables → Tables) : (writeThrough f s).clock = s.clock := rfl
@[simp] theorem writeThrough_lock (f : Tables → Tables) : (writeThrough f s).lock = s.lock := rfl
@[simp] theorem writeThrough_book (f : Tables → Tables) : (writeThrough f s).book = s.book := rfl
@[simp] theorem writeThrough_gens (f : Tables → Tables) : (writeThrough f s).gens = s.gens := rfl
@[simp] theorem writeThrough_arb (f : Tables → Tables) : (writeThrough f s).arb = s.arb := rfl
@[simp] theorem writeThrough_pvs (f : Tables → Tables) : (writeThrough f s).pvs = s.pvs := rfl
@[simp] theorem writeThrough_cur (f : Tables → Tables) : (writeThrough f s).cur = s.cur := rfl
@[simp] theorem writeThrough_feeders (f : Tables → Tables) : (writeThrough f s).feeders = s.feeders := rfl
@[simp] theorem writeThrough_shed (f : Tables → Tables) : (writeThrough f s).shed = s.shed := rfl
@[simp] theorem writeThrough_rest (f : Tables → Tables) : (writeThrough f s).rest = s.rest := rfl
@[simp] theorem writeThrough_seq (f : Tables → Tables) : (writeThrough f s).seq = s.seq := rfl
@[simp] theorem writeThrough_links (f : Tables → Tables) : (writeThrough f s).links = s.links := rfl
@[simp] theorem writeThrough_sampleFramer (f : Tables → Tables) : (writeThrough f s).sampleFramer = s.sampleFramer := rfl
@[simp] theorem writeThrough_tally (f : Tables → Tables) : (writeThrough f s).tally = s.tally := rfl
@[simp] theorem writeThrough_entry (f : Tables → Tables) : (writeThrough f s).entry = s.entry := rfl
@[simp] theorem writeThrough_pins (f : Tables → Tables) : (writeThrough f s).pins = s.pins := rfl
@[simp] theorem writeThrough_pending (f : Tables → Tables) : (writeThrough f s).pending = s.pending := rfl
@[simp] theorem writeThrough_free (f : Tables → Tables) : (writeThrough f s).free = s.free := rfl

/-! ### modGensetCfg -/

@[simp] theorem modGensetCfg_clock (i : Fin 8) (f : GensetCfg → GensetCfg) : (modGensetCfg i f s).clock = s.clock := rfl
@[simp] theorem modGensetCfg_lock (i : Fin 8) (f : GensetCfg → GensetCfg) : (modGensetCfg i f s).lock = s.lock := rfl
@[simp] theorem modGensetCfg_book (i : Fin 8) (f : GensetCfg → GensetCfg) : (modGensetCfg i f s).book = s.book := rfl
@[simp] theorem modGensetCfg_gens (i : Fin 8) (f : GensetCfg → GensetCfg) : (modGensetCfg i f s).gens = s.gens := rfl
@[simp] theorem modGensetCfg_arb (i : Fin 8) (f : GensetCfg → GensetCfg) : (modGensetCfg i f s).arb = s.arb := rfl
@[simp] theorem modGensetCfg_pvs (i : Fin 8) (f : GensetCfg → GensetCfg) : (modGensetCfg i f s).pvs = s.pvs := rfl
@[simp] theorem modGensetCfg_cur (i : Fin 8) (f : GensetCfg → GensetCfg) : (modGensetCfg i f s).cur = s.cur := rfl
@[simp] theorem modGensetCfg_feeders (i : Fin 8) (f : GensetCfg → GensetCfg) : (modGensetCfg i f s).feeders = s.feeders := rfl
@[simp] theorem modGensetCfg_shed (i : Fin 8) (f : GensetCfg → GensetCfg) : (modGensetCfg i f s).shed = s.shed := rfl
@[simp] theorem modGensetCfg_rest (i : Fin 8) (f : GensetCfg → GensetCfg) : (modGensetCfg i f s).rest = s.rest := rfl
@[simp] theorem modGensetCfg_seq (i : Fin 8) (f : GensetCfg → GensetCfg) : (modGensetCfg i f s).seq = s.seq := rfl
@[simp] theorem modGensetCfg_links (i : Fin 8) (f : GensetCfg → GensetCfg) : (modGensetCfg i f s).links = s.links := rfl
@[simp] theorem modGensetCfg_sampleFramer (i : Fin 8) (f : GensetCfg → GensetCfg) : (modGensetCfg i f s).sampleFramer = s.sampleFramer := rfl
@[simp] theorem modGensetCfg_tally (i : Fin 8) (f : GensetCfg → GensetCfg) : (modGensetCfg i f s).tally = s.tally := rfl
@[simp] theorem modGensetCfg_entry (i : Fin 8) (f : GensetCfg → GensetCfg) : (modGensetCfg i f s).entry = s.entry := rfl
@[simp] theorem modGensetCfg_pins (i : Fin 8) (f : GensetCfg → GensetCfg) : (modGensetCfg i f s).pins = s.pins := rfl
@[simp] theorem modGensetCfg_pending (i : Fin 8) (f : GensetCfg → GensetCfg) : (modGensetCfg i f s).pending = s.pending := rfl
@[simp] theorem modGensetCfg_free (i : Fin 8) (f : GensetCfg → GensetCfg) : (modGensetCfg i f s).free = s.free := rfl

/-! ### modFeederCfg -/

@[simp] theorem modFeederCfg_clock (k : Fin 24) (f : FeederCfg → FeederCfg) : (modFeederCfg k f s).clock = s.clock := rfl
@[simp] theorem modFeederCfg_lock (k : Fin 24) (f : FeederCfg → FeederCfg) : (modFeederCfg k f s).lock = s.lock := rfl
@[simp] theorem modFeederCfg_book (k : Fin 24) (f : FeederCfg → FeederCfg) : (modFeederCfg k f s).book = s.book := rfl
@[simp] theorem modFeederCfg_gens (k : Fin 24) (f : FeederCfg → FeederCfg) : (modFeederCfg k f s).gens = s.gens := rfl
@[simp] theorem modFeederCfg_arb (k : Fin 24) (f : FeederCfg → FeederCfg) : (modFeederCfg k f s).arb = s.arb := rfl
@[simp] theorem modFeederCfg_pvs (k : Fin 24) (f : FeederCfg → FeederCfg) : (modFeederCfg k f s).pvs = s.pvs := rfl
@[simp] theorem modFeederCfg_cur (k : Fin 24) (f : FeederCfg → FeederCfg) : (modFeederCfg k f s).cur = s.cur := rfl
@[simp] theorem modFeederCfg_feeders (k : Fin 24) (f : FeederCfg → FeederCfg) : (modFeederCfg k f s).feeders = s.feeders := rfl
@[simp] theorem modFeederCfg_shed (k : Fin 24) (f : FeederCfg → FeederCfg) : (modFeederCfg k f s).shed = s.shed := rfl
@[simp] theorem modFeederCfg_rest (k : Fin 24) (f : FeederCfg → FeederCfg) : (modFeederCfg k f s).rest = s.rest := rfl
@[simp] theorem modFeederCfg_seq (k : Fin 24) (f : FeederCfg → FeederCfg) : (modFeederCfg k f s).seq = s.seq := rfl
@[simp] theorem modFeederCfg_links (k : Fin 24) (f : FeederCfg → FeederCfg) : (modFeederCfg k f s).links = s.links := rfl
@[simp] theorem modFeederCfg_sampleFramer (k : Fin 24) (f : FeederCfg → FeederCfg) : (modFeederCfg k f s).sampleFramer = s.sampleFramer := rfl
@[simp] theorem modFeederCfg_tally (k : Fin 24) (f : FeederCfg → FeederCfg) : (modFeederCfg k f s).tally = s.tally := rfl
@[simp] theorem modFeederCfg_entry (k : Fin 24) (f : FeederCfg → FeederCfg) : (modFeederCfg k f s).entry = s.entry := rfl
@[simp] theorem modFeederCfg_pins (k : Fin 24) (f : FeederCfg → FeederCfg) : (modFeederCfg k f s).pins = s.pins := rfl
@[simp] theorem modFeederCfg_pending (k : Fin 24) (f : FeederCfg → FeederCfg) : (modFeederCfg k f s).pending = s.pending := rfl
@[simp] theorem modFeederCfg_free (k : Fin 24) (f : FeederCfg → FeederCfg) : (modFeederCfg k f s).free = s.free := rfl

/-! ### moveToTail -/

@[simp] theorem moveToTail_clock (i : Fin 8) : (moveToTail i s).clock = s.clock := rfl
@[simp] theorem moveToTail_lock (i : Fin 8) : (moveToTail i s).lock = s.lock := rfl
@[simp] theorem moveToTail_book (i : Fin 8) : (moveToTail i s).book = s.book := rfl
@[simp] theorem moveToTail_gens (i : Fin 8) : (moveToTail i s).gens = s.gens := rfl
@[simp] theorem moveToTail_arb (i : Fin 8) : (moveToTail i s).arb = s.arb := rfl
@[simp] theorem moveToTail_pvs (i : Fin 8) : (moveToTail i s).pvs = s.pvs := rfl
@[simp] theorem moveToTail_cur (i : Fin 8) : (moveToTail i s).cur = s.cur := rfl
@[simp] theorem moveToTail_feeders (i : Fin 8) : (moveToTail i s).feeders = s.feeders := rfl
@[simp] theorem moveToTail_shed (i : Fin 8) : (moveToTail i s).shed = s.shed := rfl
@[simp] theorem moveToTail_rest (i : Fin 8) : (moveToTail i s).rest = s.rest := rfl
@[simp] theorem moveToTail_seq (i : Fin 8) : (moveToTail i s).seq = s.seq := rfl
@[simp] theorem moveToTail_links (i : Fin 8) : (moveToTail i s).links = s.links := rfl
@[simp] theorem moveToTail_sampleFramer (i : Fin 8) : (moveToTail i s).sampleFramer = s.sampleFramer := rfl
@[simp] theorem moveToTail_tally (i : Fin 8) : (moveToTail i s).tally = s.tally := rfl
@[simp] theorem moveToTail_entry (i : Fin 8) : (moveToTail i s).entry = s.entry := rfl
@[simp] theorem moveToTail_pins (i : Fin 8) : (moveToTail i s).pins = s.pins := rfl
@[simp] theorem moveToTail_pending (i : Fin 8) : (moveToTail i s).pending = s.pending := rfl
@[simp] theorem moveToTail_free (i : Fin 8) : (moveToTail i s).free = s.free := rfl

/-! ### raiseFailCount -/

@[simp] theorem raiseFailCount_clock (i : Fin 8) : (raiseFailCount i s).clock = s.clock := rfl
@[simp] theorem raiseFailCount_lock (i : Fin 8) : (raiseFailCount i s).lock = s.lock := rfl
@[simp] theorem raiseFailCount_book (i : Fin 8) : (raiseFailCount i s).book = s.book := rfl
@[simp] theorem raiseFailCount_gens (i : Fin 8) : (raiseFailCount i s).gens = s.gens := rfl
@[simp] theorem raiseFailCount_arb (i : Fin 8) : (raiseFailCount i s).arb = s.arb := rfl
@[simp] theorem raiseFailCount_pvs (i : Fin 8) : (raiseFailCount i s).pvs = s.pvs := rfl
@[simp] theorem raiseFailCount_cur (i : Fin 8) : (raiseFailCount i s).cur = s.cur := rfl
@[simp] theorem raiseFailCount_feeders (i : Fin 8) : (raiseFailCount i s).feeders = s.feeders := rfl
@[simp] theorem raiseFailCount_shed (i : Fin 8) : (raiseFailCount i s).shed = s.shed := rfl
@[simp] theorem raiseFailCount_rest (i : Fin 8) : (raiseFailCount i s).rest = s.rest := rfl
@[simp] theorem raiseFailCount_seq (i : Fin 8) : (raiseFailCount i s).seq = s.seq := rfl
@[simp] theorem raiseFailCount_links (i : Fin 8) : (raiseFailCount i s).links = s.links := rfl
@[simp] theorem raiseFailCount_sampleFramer (i : Fin 8) : (raiseFailCount i s).sampleFramer = s.sampleFramer := rfl
@[simp] theorem raiseFailCount_tally (i : Fin 8) : (raiseFailCount i s).tally = s.tally := rfl
@[simp] theorem raiseFailCount_entry (i : Fin 8) : (raiseFailCount i s).entry = s.entry := rfl
@[simp] theorem raiseFailCount_pins (i : Fin 8) : (raiseFailCount i s).pins = s.pins := rfl
@[simp] theorem raiseFailCount_pending (i : Fin 8) : (raiseFailCount i s).pending = s.pending := rfl
@[simp] theorem raiseFailCount_free (i : Fin 8) : (raiseFailCount i s).free = s.free := rfl

/-! ### setSettings -/

@[simp] theorem setSettings_clock (f : Settings → Settings) : (setSettings f s).clock = s.clock := rfl
@[simp] theorem setSettings_lock (f : Settings → Settings) : (setSettings f s).lock = s.lock := rfl
@[simp] theorem setSettings_book (f : Settings → Settings) : (setSettings f s).book = s.book := rfl
@[simp] theorem setSettings_gens (f : Settings → Settings) : (setSettings f s).gens = s.gens := rfl
@[simp] theorem setSettings_arb (f : Settings → Settings) : (setSettings f s).arb = s.arb := rfl
@[simp] theorem setSettings_pvs (f : Settings → Settings) : (setSettings f s).pvs = s.pvs := rfl
@[simp] theorem setSettings_cur (f : Settings → Settings) : (setSettings f s).cur = s.cur := rfl
@[simp] theorem setSettings_feeders (f : Settings → Settings) : (setSettings f s).feeders = s.feeders := rfl
@[simp] theorem setSettings_shed (f : Settings → Settings) : (setSettings f s).shed = s.shed := rfl
@[simp] theorem setSettings_rest (f : Settings → Settings) : (setSettings f s).rest = s.rest := rfl
@[simp] theorem setSettings_seq (f : Settings → Settings) : (setSettings f s).seq = s.seq := rfl
@[simp] theorem setSettings_links (f : Settings → Settings) : (setSettings f s).links = s.links := rfl
@[simp] theorem setSettings_sampleFramer (f : Settings → Settings) : (setSettings f s).sampleFramer = s.sampleFramer := rfl
@[simp] theorem setSettings_tally (f : Settings → Settings) : (setSettings f s).tally = s.tally := rfl
@[simp] theorem setSettings_entry (f : Settings → Settings) : (setSettings f s).entry = s.entry := rfl
@[simp] theorem setSettings_pins (f : Settings → Settings) : (setSettings f s).pins = s.pins := rfl
@[simp] theorem setSettings_pending (f : Settings → Settings) : (setSettings f s).pending = s.pending := rfl
@[simp] theorem setSettings_free (f : Settings → Settings) : (setSettings f s).free = s.free := rfl

/-! ### offer -/

@[simp] theorem offer_clock (k : EventKind) (i : Option Nat) (a : Nat) : (offer k i a s).clock = s.clock := rfl
@[simp] theorem offer_lock (k : EventKind) (i : Option Nat) (a : Nat) : (offer k i a s).lock = s.lock := rfl
@[simp] theorem offer_book (k : EventKind) (i : Option Nat) (a : Nat) : (offer k i a s).book = s.book := rfl
@[simp] theorem offer_gens (k : EventKind) (i : Option Nat) (a : Nat) : (offer k i a s).gens = s.gens := rfl
@[simp] theorem offer_arb (k : EventKind) (i : Option Nat) (a : Nat) : (offer k i a s).arb = s.arb := rfl
@[simp] theorem offer_pvs (k : EventKind) (i : Option Nat) (a : Nat) : (offer k i a s).pvs = s.pvs := rfl
@[simp] theorem offer_cur (k : EventKind) (i : Option Nat) (a : Nat) : (offer k i a s).cur = s.cur := rfl
@[simp] theorem offer_feeders (k : EventKind) (i : Option Nat) (a : Nat) : (offer k i a s).feeders = s.feeders := rfl
@[simp] theorem offer_shed (k : EventKind) (i : Option Nat) (a : Nat) : (offer k i a s).shed = s.shed := rfl
@[simp] theorem offer_rest (k : EventKind) (i : Option Nat) (a : Nat) : (offer k i a s).rest = s.rest := rfl
@[simp] theorem offer_seq (k : EventKind) (i : Option Nat) (a : Nat) : (offer k i a s).seq = s.seq := rfl
@[simp] theorem offer_links (k : EventKind) (i : Option Nat) (a : Nat) : (offer k i a s).links = s.links := rfl
@[simp] theorem offer_sampleFramer (k : EventKind) (i : Option Nat) (a : Nat) : (offer k i a s).sampleFramer = s.sampleFramer := rfl
@[simp] theorem offer_entry (k : EventKind) (i : Option Nat) (a : Nat) : (offer k i a s).entry = s.entry := rfl
@[simp] theorem offer_cfg (k : EventKind) (i : Option Nat) (a : Nat) : (offer k i a s).cfg = s.cfg := rfl
@[simp] theorem offer_store (k : EventKind) (i : Option Nat) (a : Nat) : (offer k i a s).store = s.store := rfl
@[simp] theorem offer_pins (k : EventKind) (i : Option Nat) (a : Nat) : (offer k i a s).pins = s.pins := rfl
@[simp] theorem offer_pending (k : EventKind) (i : Option Nat) (a : Nat) : (offer k i a s).pending = s.pending := rfl
@[simp] theorem offer_free (k : EventKind) (i : Option Nat) (a : Nat) : (offer k i a s).free = s.free := rfl

/-! ### placeReply -/

@[simp] theorem placeReply_clock (l : Link) (r : Reply) : (placeReply l r s).clock = s.clock := rfl
@[simp] theorem placeReply_lock (l : Link) (r : Reply) : (placeReply l r s).lock = s.lock := rfl
@[simp] theorem placeReply_book (l : Link) (r : Reply) : (placeReply l r s).book = s.book := rfl
@[simp] theorem placeReply_gens (l : Link) (r : Reply) : (placeReply l r s).gens = s.gens := rfl
@[simp] theorem placeReply_arb (l : Link) (r : Reply) : (placeReply l r s).arb = s.arb := rfl
@[simp] theorem placeReply_pvs (l : Link) (r : Reply) : (placeReply l r s).pvs = s.pvs := rfl
@[simp] theorem placeReply_cur (l : Link) (r : Reply) : (placeReply l r s).cur = s.cur := rfl
@[simp] theorem placeReply_feeders (l : Link) (r : Reply) : (placeReply l r s).feeders = s.feeders := rfl
@[simp] theorem placeReply_shed (l : Link) (r : Reply) : (placeReply l r s).shed = s.shed := rfl
@[simp] theorem placeReply_rest (l : Link) (r : Reply) : (placeReply l r s).rest = s.rest := rfl
@[simp] theorem placeReply_seq (l : Link) (r : Reply) : (placeReply l r s).seq = s.seq := rfl
@[simp] theorem placeReply_sampleFramer (l : Link) (r : Reply) : (placeReply l r s).sampleFramer = s.sampleFramer := rfl
@[simp] theorem placeReply_tally (l : Link) (r : Reply) : (placeReply l r s).tally = s.tally := rfl
@[simp] theorem placeReply_entry (l : Link) (r : Reply) : (placeReply l r s).entry = s.entry := rfl
@[simp] theorem placeReply_cfg (l : Link) (r : Reply) : (placeReply l r s).cfg = s.cfg := rfl
@[simp] theorem placeReply_store (l : Link) (r : Reply) : (placeReply l r s).store = s.store := rfl
@[simp] theorem placeReply_pins (l : Link) (r : Reply) : (placeReply l r s).pins = s.pins := rfl
@[simp] theorem placeReply_pending (l : Link) (r : Reply) : (placeReply l r s).pending = s.pending := rfl
@[simp] theorem placeReply_free (l : Link) (r : Reply) : (placeReply l r s).free = s.free := rfl

/-! ### queueUnitOrder -/

@[simp] theorem queueUnitOrder_clock (o : Order) (i : Fin 8) : (queueUnitOrder o i s).clock = s.clock := rfl
@[simp] theorem queueUnitOrder_lock (o : Order) (i : Fin 8) : (queueUnitOrder o i s).lock = s.lock := rfl
@[simp] theorem queueUnitOrder_book (o : Order) (i : Fin 8) : (queueUnitOrder o i s).book = s.book := rfl
@[simp] theorem queueUnitOrder_gens (o : Order) (i : Fin 8) : (queueUnitOrder o i s).gens = s.gens := rfl
@[simp] theorem queueUnitOrder_arb (o : Order) (i : Fin 8) : (queueUnitOrder o i s).arb = s.arb := rfl
@[simp] theorem queueUnitOrder_pvs (o : Order) (i : Fin 8) : (queueUnitOrder o i s).pvs = s.pvs := rfl
@[simp] theorem queueUnitOrder_cur (o : Order) (i : Fin 8) : (queueUnitOrder o i s).cur = s.cur := rfl
@[simp] theorem queueUnitOrder_feeders (o : Order) (i : Fin 8) : (queueUnitOrder o i s).feeders = s.feeders := rfl
@[simp] theorem queueUnitOrder_shed (o : Order) (i : Fin 8) : (queueUnitOrder o i s).shed = s.shed := rfl
@[simp] theorem queueUnitOrder_rest (o : Order) (i : Fin 8) : (queueUnitOrder o i s).rest = s.rest := rfl
@[simp] theorem queueUnitOrder_seq (o : Order) (i : Fin 8) : (queueUnitOrder o i s).seq = s.seq := rfl
@[simp] theorem queueUnitOrder_sampleFramer (o : Order) (i : Fin 8) : (queueUnitOrder o i s).sampleFramer = s.sampleFramer := rfl
@[simp] theorem queueUnitOrder_tally (o : Order) (i : Fin 8) : (queueUnitOrder o i s).tally = s.tally := rfl
@[simp] theorem queueUnitOrder_entry (o : Order) (i : Fin 8) : (queueUnitOrder o i s).entry = s.entry := rfl
@[simp] theorem queueUnitOrder_cfg (o : Order) (i : Fin 8) : (queueUnitOrder o i s).cfg = s.cfg := rfl
@[simp] theorem queueUnitOrder_store (o : Order) (i : Fin 8) : (queueUnitOrder o i s).store = s.store := rfl
@[simp] theorem queueUnitOrder_pins (o : Order) (i : Fin 8) : (queueUnitOrder o i s).pins = s.pins := rfl
@[simp] theorem queueUnitOrder_pending (o : Order) (i : Fin 8) : (queueUnitOrder o i s).pending = s.pending := rfl
@[simp] theorem queueUnitOrder_free (o : Order) (i : Fin 8) : (queueUnitOrder o i s).free = s.free := rfl

/-! ### queueFeederOrder -/

@[simp] theorem queueFeederOrder_clock (o : Order) (fs : List (Fin 24)) : (queueFeederOrder o fs s).clock = s.clock := rfl
@[simp] theorem queueFeederOrder_lock (o : Order) (fs : List (Fin 24)) : (queueFeederOrder o fs s).lock = s.lock := rfl
@[simp] theorem queueFeederOrder_book (o : Order) (fs : List (Fin 24)) : (queueFeederOrder o fs s).book = s.book := rfl
@[simp] theorem queueFeederOrder_gens (o : Order) (fs : List (Fin 24)) : (queueFeederOrder o fs s).gens = s.gens := rfl
@[simp] theorem queueFeederOrder_arb (o : Order) (fs : List (Fin 24)) : (queueFeederOrder o fs s).arb = s.arb := rfl
@[simp] theorem queueFeederOrder_pvs (o : Order) (fs : List (Fin 24)) : (queueFeederOrder o fs s).pvs = s.pvs := rfl
@[simp] theorem queueFeederOrder_cur (o : Order) (fs : List (Fin 24)) : (queueFeederOrder o fs s).cur = s.cur := rfl
@[simp] theorem queueFeederOrder_feeders (o : Order) (fs : List (Fin 24)) : (queueFeederOrder o fs s).feeders = s.feeders := rfl
@[simp] theorem queueFeederOrder_shed (o : Order) (fs : List (Fin 24)) : (queueFeederOrder o fs s).shed = s.shed := rfl
@[simp] theorem queueFeederOrder_rest (o : Order) (fs : List (Fin 24)) : (queueFeederOrder o fs s).rest = s.rest := rfl
@[simp] theorem queueFeederOrder_seq (o : Order) (fs : List (Fin 24)) : (queueFeederOrder o fs s).seq = s.seq := rfl
@[simp] theorem queueFeederOrder_sampleFramer (o : Order) (fs : List (Fin 24)) : (queueFeederOrder o fs s).sampleFramer = s.sampleFramer := rfl
@[simp] theorem queueFeederOrder_tally (o : Order) (fs : List (Fin 24)) : (queueFeederOrder o fs s).tally = s.tally := rfl
@[simp] theorem queueFeederOrder_entry (o : Order) (fs : List (Fin 24)) : (queueFeederOrder o fs s).entry = s.entry := rfl
@[simp] theorem queueFeederOrder_cfg (o : Order) (fs : List (Fin 24)) : (queueFeederOrder o fs s).cfg = s.cfg := rfl
@[simp] theorem queueFeederOrder_store (o : Order) (fs : List (Fin 24)) : (queueFeederOrder o fs s).store = s.store := rfl
@[simp] theorem queueFeederOrder_pins (o : Order) (fs : List (Fin 24)) : (queueFeederOrder o fs s).pins = s.pins := rfl
@[simp] theorem queueFeederOrder_pending (o : Order) (fs : List (Fin 24)) : (queueFeederOrder o fs s).pending = s.pending := rfl
@[simp] theorem queueFeederOrder_free (o : Order) (fs : List (Fin 24)) : (queueFeederOrder o fs s).free = s.free := rfl

/-! ### queueCeilingOrder -/

@[simp] theorem queueCeilingOrder_clock (es : List (Fin 8 × Nat)) : (queueCeilingOrder es s).clock = s.clock := rfl
@[simp] theorem queueCeilingOrder_lock (es : List (Fin 8 × Nat)) : (queueCeilingOrder es s).lock = s.lock := rfl
@[simp] theorem queueCeilingOrder_book (es : List (Fin 8 × Nat)) : (queueCeilingOrder es s).book = s.book := rfl
@[simp] theorem queueCeilingOrder_gens (es : List (Fin 8 × Nat)) : (queueCeilingOrder es s).gens = s.gens := rfl
@[simp] theorem queueCeilingOrder_arb (es : List (Fin 8 × Nat)) : (queueCeilingOrder es s).arb = s.arb := rfl
@[simp] theorem queueCeilingOrder_pvs (es : List (Fin 8 × Nat)) : (queueCeilingOrder es s).pvs = s.pvs := rfl
@[simp] theorem queueCeilingOrder_cur (es : List (Fin 8 × Nat)) : (queueCeilingOrder es s).cur = s.cur := rfl
@[simp] theorem queueCeilingOrder_feeders (es : List (Fin 8 × Nat)) : (queueCeilingOrder es s).feeders = s.feeders := rfl
@[simp] theorem queueCeilingOrder_shed (es : List (Fin 8 × Nat)) : (queueCeilingOrder es s).shed = s.shed := rfl
@[simp] theorem queueCeilingOrder_rest (es : List (Fin 8 × Nat)) : (queueCeilingOrder es s).rest = s.rest := rfl
@[simp] theorem queueCeilingOrder_seq (es : List (Fin 8 × Nat)) : (queueCeilingOrder es s).seq = s.seq := rfl
@[simp] theorem queueCeilingOrder_sampleFramer (es : List (Fin 8 × Nat)) : (queueCeilingOrder es s).sampleFramer = s.sampleFramer := rfl
@[simp] theorem queueCeilingOrder_tally (es : List (Fin 8 × Nat)) : (queueCeilingOrder es s).tally = s.tally := rfl
@[simp] theorem queueCeilingOrder_entry (es : List (Fin 8 × Nat)) : (queueCeilingOrder es s).entry = s.entry := rfl
@[simp] theorem queueCeilingOrder_cfg (es : List (Fin 8 × Nat)) : (queueCeilingOrder es s).cfg = s.cfg := rfl
@[simp] theorem queueCeilingOrder_store (es : List (Fin 8 × Nat)) : (queueCeilingOrder es s).store = s.store := rfl
@[simp] theorem queueCeilingOrder_pins (es : List (Fin 8 × Nat)) : (queueCeilingOrder es s).pins = s.pins := rfl
@[simp] theorem queueCeilingOrder_pending (es : List (Fin 8 × Nat)) : (queueCeilingOrder es s).pending = s.pending := rfl
@[simp] theorem queueCeilingOrder_free (es : List (Fin 8 × Nat)) : (queueCeilingOrder es s).free = s.free := rfl

/-! ### finish -/

@[simp] theorem finish_clock : (finish s).clock = s.clock := rfl
@[simp] theorem finish_lock : (finish s).lock = s.lock := rfl
@[simp] theorem finish_book : (finish s).book = s.book := rfl
@[simp] theorem finish_gens : (finish s).gens = s.gens := rfl
@[simp] theorem finish_arb : (finish s).arb = s.arb := rfl
@[simp] theorem finish_pvs : (finish s).pvs = s.pvs := rfl
@[simp] theorem finish_cur : (finish s).cur = s.cur := rfl
@[simp] theorem finish_feeders : (finish s).feeders = s.feeders := rfl
@[simp] theorem finish_shed : (finish s).shed = s.shed := rfl
@[simp] theorem finish_rest : (finish s).rest = s.rest := rfl
@[simp] theorem finish_seq : (finish s).seq = s.seq := rfl
@[simp] theorem finish_sampleFramer : (finish s).sampleFramer = s.sampleFramer := rfl
@[simp] theorem finish_tally : (finish s).tally = s.tally := rfl
@[simp] theorem finish_entry : (finish s).entry = s.entry := rfl
@[simp] theorem finish_cfg : (finish s).cfg = s.cfg := rfl
@[simp] theorem finish_store : (finish s).store = s.store := rfl
@[simp] theorem finish_pins : (finish s).pins = s.pins := rfl
@[simp] theorem finish_pending : (finish s).pending = s.pending := rfl
@[simp] theorem finish_free : (finish s).free = s.free := rfl

/-! ### spendFree -/

@[simp] theorem spendFree_clock : (spendFree s).clock = s.clock := rfl
@[simp] theorem spendFree_lock : (spendFree s).lock = s.lock := rfl
@[simp] theorem spendFree_book : (spendFree s).book = s.book := rfl
@[simp] theorem spendFree_gens : (spendFree s).gens = s.gens := rfl
@[simp] theorem spendFree_arb : (spendFree s).arb = s.arb := rfl
@[simp] theorem spendFree_pvs : (spendFree s).pvs = s.pvs := rfl
@[simp] theorem spendFree_cur : (spendFree s).cur = s.cur := rfl
@[simp] theorem spendFree_feeders : (spendFree s).feeders = s.feeders := rfl
@[simp] theorem spendFree_shed : (spendFree s).shed = s.shed := rfl
@[simp] theorem spendFree_rest : (spendFree s).rest = s.rest := rfl
@[simp] theorem spendFree_seq : (spendFree s).seq = s.seq := rfl
@[simp] theorem spendFree_links : (spendFree s).links = s.links := rfl
@[simp] theorem spendFree_sampleFramer : (spendFree s).sampleFramer = s.sampleFramer := rfl
@[simp] theorem spendFree_tally : (spendFree s).tally = s.tally := rfl
@[simp] theorem spendFree_entry : (spendFree s).entry = s.entry := rfl
@[simp] theorem spendFree_cfg : (spendFree s).cfg = s.cfg := rfl
@[simp] theorem spendFree_store : (spendFree s).store = s.store := rfl
@[simp] theorem spendFree_pins : (spendFree s).pins = s.pins := rfl
@[simp] theorem spendFree_pending : (spendFree s).pending = s.pending := rfl

/-! ### recompute -/

@[simp] theorem recompute_clock : (recompute s).clock = s.clock := rfl
@[simp] theorem recompute_lock : (recompute s).lock = s.lock := rfl
@[simp] theorem recompute_gens : (recompute s).gens = s.gens := rfl
@[simp] theorem recompute_arb : (recompute s).arb = s.arb := rfl
@[simp] theorem recompute_pvs : (recompute s).pvs = s.pvs := rfl
@[simp] theorem recompute_cur : (recompute s).cur = s.cur := rfl
@[simp] theorem recompute_feeders : (recompute s).feeders = s.feeders := rfl
@[simp] theorem recompute_shed : (recompute s).shed = s.shed := rfl
@[simp] theorem recompute_rest : (recompute s).rest = s.rest := rfl
@[simp] theorem recompute_seq : (recompute s).seq = s.seq := rfl
@[simp] theorem recompute_links : (recompute s).links = s.links := rfl
@[simp] theorem recompute_sampleFramer : (recompute s).sampleFramer = s.sampleFramer := rfl
@[simp] theorem recompute_tally : (recompute s).tally = s.tally := rfl
@[simp] theorem recompute_entry : (recompute s).entry = s.entry := rfl
@[simp] theorem recompute_cfg : (recompute s).cfg = s.cfg := rfl
@[simp] theorem recompute_store : (recompute s).store = s.store := rfl
@[simp] theorem recompute_pins : (recompute s).pins = s.pins := rfl
@[simp] theorem recompute_pending : (recompute s).pending = s.pending := rfl
@[simp] theorem recompute_free : (recompute s).free = s.free := rfl

/-! ### putReason -/

@[simp] theorem putReason_clock (k : ReasonKind) (r : Option Reason) : (putReason k r s).clock = s.clock := rfl
@[simp] theorem putReason_lock (k : ReasonKind) (r : Option Reason) : (putReason k r s).lock = s.lock := rfl
@[simp] theorem putReason_book (k : ReasonKind) (r : Option Reason) : (putReason k r s).book = s.book := rfl
@[simp] theorem putReason_gens (k : ReasonKind) (r : Option Reason) : (putReason k r s).gens = s.gens := rfl
@[simp] theorem putReason_pvs (k : ReasonKind) (r : Option Reason) : (putReason k r s).pvs = s.pvs := rfl
@[simp] theorem putReason_cur (k : ReasonKind) (r : Option Reason) : (putReason k r s).cur = s.cur := rfl
@[simp] theorem putReason_feeders (k : ReasonKind) (r : Option Reason) : (putReason k r s).feeders = s.feeders := rfl
@[simp] theorem putReason_shed (k : ReasonKind) (r : Option Reason) : (putReason k r s).shed = s.shed := rfl
@[simp] theorem putReason_rest (k : ReasonKind) (r : Option Reason) : (putReason k r s).rest = s.rest := rfl
@[simp] theorem putReason_seq (k : ReasonKind) (r : Option Reason) : (putReason k r s).seq = s.seq := rfl
@[simp] theorem putReason_links (k : ReasonKind) (r : Option Reason) : (putReason k r s).links = s.links := rfl
@[simp] theorem putReason_sampleFramer (k : ReasonKind) (r : Option Reason) : (putReason k r s).sampleFramer = s.sampleFramer := rfl
@[simp] theorem putReason_tally (k : ReasonKind) (r : Option Reason) : (putReason k r s).tally = s.tally := rfl
@[simp] theorem putReason_entry (k : ReasonKind) (r : Option Reason) : (putReason k r s).entry = s.entry := rfl
@[simp] theorem putReason_cfg (k : ReasonKind) (r : Option Reason) : (putReason k r s).cfg = s.cfg := rfl
@[simp] theorem putReason_store (k : ReasonKind) (r : Option Reason) : (putReason k r s).store = s.store := rfl
@[simp] theorem putReason_pins (k : ReasonKind) (r : Option Reason) : (putReason k r s).pins = s.pins := rfl
@[simp] theorem putReason_pending (k : ReasonKind) (r : Option Reason) : (putReason k r s).pending = s.pending := rfl
@[simp] theorem putReason_free (k : ReasonKind) (r : Option Reason) : (putReason k r s).free = s.free := rfl

/-! ### freeSlot -/

@[simp] theorem freeSlot_clock (i : Fin 8) : (freeSlot i s).clock = s.clock := rfl
@[simp] theorem freeSlot_lock (i : Fin 8) : (freeSlot i s).lock = s.lock := rfl
@[simp] theorem freeSlot_book (i : Fin 8) : (freeSlot i s).book = s.book := rfl
@[simp] theorem freeSlot_gens (i : Fin 8) : (freeSlot i s).gens = s.gens := rfl
@[simp] theorem freeSlot_pvs (i : Fin 8) : (freeSlot i s).pvs = s.pvs := rfl
@[simp] theorem freeSlot_cur (i : Fin 8) : (freeSlot i s).cur = s.cur := rfl
@[simp] theorem freeSlot_feeders (i : Fin 8) : (freeSlot i s).feeders = s.feeders := rfl
@[simp] theorem freeSlot_shed (i : Fin 8) : (freeSlot i s).shed = s.shed := rfl
@[simp] theorem freeSlot_rest (i : Fin 8) : (freeSlot i s).rest = s.rest := rfl
@[simp] theorem freeSlot_seq (i : Fin 8) : (freeSlot i s).seq = s.seq := rfl
@[simp] theorem freeSlot_links (i : Fin 8) : (freeSlot i s).links = s.links := rfl
@[simp] theorem freeSlot_sampleFramer (i : Fin 8) : (freeSlot i s).sampleFramer = s.sampleFramer := rfl
@[simp] theorem freeSlot_tally (i : Fin 8) : (freeSlot i s).tally = s.tally := rfl
@[simp] theorem freeSlot_entry (i : Fin 8) : (freeSlot i s).entry = s.entry := rfl
@[simp] theorem freeSlot_cfg (i : Fin 8) : (freeSlot i s).cfg = s.cfg := rfl
@[simp] theorem freeSlot_store (i : Fin 8) : (freeSlot i s).store = s.store := rfl
@[simp] theorem freeSlot_pins (i : Fin 8) : (freeSlot i s).pins = s.pins := rfl
@[simp] theorem freeSlot_pending (i : Fin 8) : (freeSlot i s).pending = s.pending := rfl
@[simp] theorem freeSlot_free (i : Fin 8) : (freeSlot i s).free = s.free := rfl

/-! ### startSettle -/

@[simp] theorem startSettle_clock : (startSettle s).clock = s.clock := rfl
@[simp] theorem startSettle_lock : (startSettle s).lock = s.lock := rfl
@[simp] theorem startSettle_book : (startSettle s).book = s.book := rfl
@[simp] theorem startSettle_gens : (startSettle s).gens = s.gens := rfl
@[simp] theorem startSettle_arb : (startSettle s).arb = s.arb := rfl
@[simp] theorem startSettle_pvs : (startSettle s).pvs = s.pvs := rfl
@[simp] theorem startSettle_cur : (startSettle s).cur = s.cur := rfl
@[simp] theorem startSettle_feeders : (startSettle s).feeders = s.feeders := rfl
@[simp] theorem startSettle_rest : (startSettle s).rest = s.rest := rfl
@[simp] theorem startSettle_seq : (startSettle s).seq = s.seq := rfl
@[simp] theorem startSettle_links : (startSettle s).links = s.links := rfl
@[simp] theorem startSettle_sampleFramer : (startSettle s).sampleFramer = s.sampleFramer := rfl
@[simp] theorem startSettle_tally : (startSettle s).tally = s.tally := rfl
@[simp] theorem startSettle_entry : (startSettle s).entry = s.entry := rfl
@[simp] theorem startSettle_cfg : (startSettle s).cfg = s.cfg := rfl
@[simp] theorem startSettle_store : (startSettle s).store = s.store := rfl
@[simp] theorem startSettle_pins : (startSettle s).pins = s.pins := rfl
@[simp] theorem startSettle_pending : (startSettle s).pending = s.pending := rfl
@[simp] theorem startSettle_free : (startSettle s).free = s.free := rfl

/-! ### restartHoldOff -/

@[simp] theorem restartHoldOff_clock : (restartHoldOff s).clock = s.clock := rfl
@[simp] theorem restartHoldOff_lock : (restartHoldOff s).lock = s.lock := rfl
@[simp] theorem restartHoldOff_book : (restartHoldOff s).book = s.book := rfl
@[simp] theorem restartHoldOff_gens : (restartHoldOff s).gens = s.gens := rfl
@[simp] theorem restartHoldOff_arb : (restartHoldOff s).arb = s.arb := rfl
@[simp] theorem restartHoldOff_pvs : (restartHoldOff s).pvs = s.pvs := rfl
@[simp] theorem restartHoldOff_cur : (restartHoldOff s).cur = s.cur := rfl
@[simp] theorem restartHoldOff_feeders : (restartHoldOff s).feeders = s.feeders := rfl
@[simp] theorem restartHoldOff_shed : (restartHoldOff s).shed = s.shed := rfl
@[simp] theorem restartHoldOff_seq : (restartHoldOff s).seq = s.seq := rfl
@[simp] theorem restartHoldOff_links : (restartHoldOff s).links = s.links := rfl
@[simp] theorem restartHoldOff_sampleFramer : (restartHoldOff s).sampleFramer = s.sampleFramer := rfl
@[simp] theorem restartHoldOff_tally : (restartHoldOff s).tally = s.tally := rfl
@[simp] theorem restartHoldOff_entry : (restartHoldOff s).entry = s.entry := rfl
@[simp] theorem restartHoldOff_cfg : (restartHoldOff s).cfg = s.cfg := rfl
@[simp] theorem restartHoldOff_store : (restartHoldOff s).store = s.store := rfl
@[simp] theorem restartHoldOff_pins : (restartHoldOff s).pins = s.pins := rfl
@[simp] theorem restartHoldOff_pending : (restartHoldOff s).pending = s.pending := rfl
@[simp] theorem restartHoldOff_free : (restartHoldOff s).free = s.free := rfl

/-! ### chargeBucket -/

@[simp] theorem chargeBucket_clock (n : Nat) : (chargeBucket n s).clock = s.clock := rfl
@[simp] theorem chargeBucket_lock (n : Nat) : (chargeBucket n s).lock = s.lock := rfl
@[simp] theorem chargeBucket_book (n : Nat) : (chargeBucket n s).book = s.book := rfl
@[simp] theorem chargeBucket_gens (n : Nat) : (chargeBucket n s).gens = s.gens := rfl
@[simp] theorem chargeBucket_arb (n : Nat) : (chargeBucket n s).arb = s.arb := rfl
@[simp] theorem chargeBucket_pvs (n : Nat) : (chargeBucket n s).pvs = s.pvs := rfl
@[simp] theorem chargeBucket_cur (n : Nat) : (chargeBucket n s).cur = s.cur := rfl
@[simp] theorem chargeBucket_feeders (n : Nat) : (chargeBucket n s).feeders = s.feeders := rfl
@[simp] theorem chargeBucket_shed (n : Nat) : (chargeBucket n s).shed = s.shed := rfl
@[simp] theorem chargeBucket_seq (n : Nat) : (chargeBucket n s).seq = s.seq := rfl
@[simp] theorem chargeBucket_links (n : Nat) : (chargeBucket n s).links = s.links := rfl
@[simp] theorem chargeBucket_sampleFramer (n : Nat) : (chargeBucket n s).sampleFramer = s.sampleFramer := rfl
@[simp] theorem chargeBucket_tally (n : Nat) : (chargeBucket n s).tally = s.tally := rfl
@[simp] theorem chargeBucket_entry (n : Nat) : (chargeBucket n s).entry = s.entry := rfl
@[simp] theorem chargeBucket_cfg (n : Nat) : (chargeBucket n s).cfg = s.cfg := rfl
@[simp] theorem chargeBucket_store (n : Nat) : (chargeBucket n s).store = s.store := rfl
@[simp] theorem chargeBucket_pins (n : Nat) : (chargeBucket n s).pins = s.pins := rfl
@[simp] theorem chargeBucket_pending (n : Nat) : (chargeBucket n s).pending = s.pending := rfl
@[simp] theorem chargeBucket_free (n : Nat) : (chargeBucket n s).free = s.free := rfl

/-! ### applyClaims -/

@[simp] theorem applyClaims_clock (p : Claim → Bool) : (applyClaims p s).clock = s.clock := rfl
@[simp] theorem applyClaims_lock (p : Claim → Bool) : (applyClaims p s).lock = s.lock := rfl
@[simp] theorem applyClaims_gens (p : Claim → Bool) : (applyClaims p s).gens = s.gens := rfl
@[simp] theorem applyClaims_arb (p : Claim → Bool) : (applyClaims p s).arb = s.arb := rfl
@[simp] theorem applyClaims_pvs (p : Claim → Bool) : (applyClaims p s).pvs = s.pvs := rfl
@[simp] theorem applyClaims_cur (p : Claim → Bool) : (applyClaims p s).cur = s.cur := rfl
@[simp] theorem applyClaims_feeders (p : Claim → Bool) : (applyClaims p s).feeders = s.feeders := rfl
@[simp] theorem applyClaims_shed (p : Claim → Bool) : (applyClaims p s).shed = s.shed := rfl
@[simp] theorem applyClaims_rest (p : Claim → Bool) : (applyClaims p s).rest = s.rest := rfl
@[simp] theorem applyClaims_seq (p : Claim → Bool) : (applyClaims p s).seq = s.seq := rfl
@[simp] theorem applyClaims_links (p : Claim → Bool) : (applyClaims p s).links = s.links := rfl
@[simp] theorem applyClaims_sampleFramer (p : Claim → Bool) : (applyClaims p s).sampleFramer = s.sampleFramer := rfl
@[simp] theorem applyClaims_tally (p : Claim → Bool) : (applyClaims p s).tally = s.tally := rfl
@[simp] theorem applyClaims_entry (p : Claim → Bool) : (applyClaims p s).entry = s.entry := rfl
@[simp] theorem applyClaims_cfg (p : Claim → Bool) : (applyClaims p s).cfg = s.cfg := rfl
@[simp] theorem applyClaims_store (p : Claim → Bool) : (applyClaims p s).store = s.store := rfl
@[simp] theorem applyClaims_pins (p : Claim → Bool) : (applyClaims p s).pins = s.pins := rfl
@[simp] theorem applyClaims_pending (p : Claim → Bool) : (applyClaims p s).pending = s.pending := rfl
@[simp] theorem applyClaims_free (p : Claim → Bool) : (applyClaims p s).free = s.free := rfl

/-! ### enterClaim -/

@[simp] theorem enterClaim_clock (c : Claim) : (enterClaim c s).clock = s.clock := rfl
@[simp] theorem enterClaim_lock (c : Claim) : (enterClaim c s).lock = s.lock := rfl
@[simp] theorem enterClaim_gens (c : Claim) : (enterClaim c s).gens = s.gens := rfl
@[simp] theorem enterClaim_arb (c : Claim) : (enterClaim c s).arb = s.arb := rfl
@[simp] theorem enterClaim_pvs (c : Claim) : (enterClaim c s).pvs = s.pvs := rfl
@[simp] theorem enterClaim_cur (c : Claim) : (enterClaim c s).cur = s.cur := rfl
@[simp] theorem enterClaim_feeders (c : Claim) : (enterClaim c s).feeders = s.feeders := rfl
@[simp] theorem enterClaim_shed (c : Claim) : (enterClaim c s).shed = s.shed := rfl
@[simp] theorem enterClaim_rest (c : Claim) : (enterClaim c s).rest = s.rest := rfl
@[simp] theorem enterClaim_seq (c : Claim) : (enterClaim c s).seq = s.seq := rfl
@[simp] theorem enterClaim_links (c : Claim) : (enterClaim c s).links = s.links := rfl
@[simp] theorem enterClaim_sampleFramer (c : Claim) : (enterClaim c s).sampleFramer = s.sampleFramer := rfl
@[simp] theorem enterClaim_tally (c : Claim) : (enterClaim c s).tally = s.tally := rfl
@[simp] theorem enterClaim_entry (c : Claim) : (enterClaim c s).entry = s.entry := rfl
@[simp] theorem enterClaim_cfg (c : Claim) : (enterClaim c s).cfg = s.cfg := rfl
@[simp] theorem enterClaim_store (c : Claim) : (enterClaim c s).store = s.store := rfl
@[simp] theorem enterClaim_pins (c : Claim) : (enterClaim c s).pins = s.pins := rfl
@[simp] theorem enterClaim_pending (c : Claim) : (enterClaim c s).pending = s.pending := rfl
@[simp] theorem enterClaim_free (c : Claim) : (enterClaim c s).free = s.free := rfl

/-! ### cancelDecisions -/

@[simp] theorem cancelDecisions_clock : (cancelDecisions s).clock = s.clock := rfl
@[simp] theorem cancelDecisions_lock : (cancelDecisions s).lock = s.lock := rfl
@[simp] theorem cancelDecisions_gens : (cancelDecisions s).gens = s.gens := rfl
@[simp] theorem cancelDecisions_arb : (cancelDecisions s).arb = s.arb := rfl
@[simp] theorem cancelDecisions_pvs : (cancelDecisions s).pvs = s.pvs := rfl
@[simp] theorem cancelDecisions_cur : (cancelDecisions s).cur = s.cur := rfl
@[simp] theorem cancelDecisions_feeders : (cancelDecisions s).feeders = s.feeders := rfl
@[simp] theorem cancelDecisions_shed : (cancelDecisions s).shed = s.shed := rfl
@[simp] theorem cancelDecisions_rest : (cancelDecisions s).rest = s.rest := rfl
@[simp] theorem cancelDecisions_seq : (cancelDecisions s).seq = s.seq := rfl
@[simp] theorem cancelDecisions_links : (cancelDecisions s).links = s.links := rfl
@[simp] theorem cancelDecisions_sampleFramer : (cancelDecisions s).sampleFramer = s.sampleFramer := rfl
@[simp] theorem cancelDecisions_tally : (cancelDecisions s).tally = s.tally := rfl
@[simp] theorem cancelDecisions_entry : (cancelDecisions s).entry = s.entry := rfl
@[simp] theorem cancelDecisions_cfg : (cancelDecisions s).cfg = s.cfg := rfl
@[simp] theorem cancelDecisions_store : (cancelDecisions s).store = s.store := rfl
@[simp] theorem cancelDecisions_pins : (cancelDecisions s).pins = s.pins := rfl
@[simp] theorem cancelDecisions_pending : (cancelDecisions s).pending = s.pending := rfl
@[simp] theorem cancelDecisions_free : (cancelDecisions s).free = s.free := rfl

/-! ### cancelStages -/

@[simp] theorem cancelStages_clock : (cancelStages s).clock = s.clock := rfl
@[simp] theorem cancelStages_lock : (cancelStages s).lock = s.lock := rfl
@[simp] theorem cancelStages_book : (cancelStages s).book = s.book := rfl
@[simp] theorem cancelStages_gens : (cancelStages s).gens = s.gens := rfl
@[simp] theorem cancelStages_arb : (cancelStages s).arb = s.arb := rfl
@[simp] theorem cancelStages_pvs : (cancelStages s).pvs = s.pvs := rfl
@[simp] theorem cancelStages_cur : (cancelStages s).cur = s.cur := rfl
@[simp] theorem cancelStages_feeders : (cancelStages s).feeders = s.feeders := rfl
@[simp] theorem cancelStages_rest : (cancelStages s).rest = s.rest := rfl
@[simp] theorem cancelStages_seq : (cancelStages s).seq = s.seq := rfl
@[simp] theorem cancelStages_links : (cancelStages s).links = s.links := rfl
@[simp] theorem cancelStages_sampleFramer : (cancelStages s).sampleFramer = s.sampleFramer := rfl
@[simp] theorem cancelStages_tally : (cancelStages s).tally = s.tally := rfl
@[simp] theorem cancelStages_entry : (cancelStages s).entry = s.entry := rfl
@[simp] theorem cancelStages_cfg : (cancelStages s).cfg = s.cfg := rfl
@[simp] theorem cancelStages_store : (cancelStages s).store = s.store := rfl
@[simp] theorem cancelStages_pins : (cancelStages s).pins = s.pins := rfl
@[simp] theorem cancelStages_pending : (cancelStages s).pending = s.pending := rfl
@[simp] theorem cancelStages_free : (cancelStages s).free = s.free := rfl

/-! ### setStageTimer -/

@[simp] theorem setStageTimer_clock (n : Fin 4) (t : Option Time) : (setStageTimer n t s).clock = s.clock := rfl
@[simp] theorem setStageTimer_lock (n : Fin 4) (t : Option Time) : (setStageTimer n t s).lock = s.lock := rfl
@[simp] theorem setStageTimer_book (n : Fin 4) (t : Option Time) : (setStageTimer n t s).book = s.book := rfl
@[simp] theorem setStageTimer_gens (n : Fin 4) (t : Option Time) : (setStageTimer n t s).gens = s.gens := rfl
@[simp] theorem setStageTimer_arb (n : Fin 4) (t : Option Time) : (setStageTimer n t s).arb = s.arb := rfl
@[simp] theorem setStageTimer_pvs (n : Fin 4) (t : Option Time) : (setStageTimer n t s).pvs = s.pvs := rfl
@[simp] theorem setStageTimer_cur (n : Fin 4) (t : Option Time) : (setStageTimer n t s).cur = s.cur := rfl
@[simp] theorem setStageTimer_feeders (n : Fin 4) (t : Option Time) : (setStageTimer n t s).feeders = s.feeders := rfl
@[simp] theorem setStageTimer_rest (n : Fin 4) (t : Option Time) : (setStageTimer n t s).rest = s.rest := rfl
@[simp] theorem setStageTimer_seq (n : Fin 4) (t : Option Time) : (setStageTimer n t s).seq = s.seq := rfl
@[simp] theorem setStageTimer_links (n : Fin 4) (t : Option Time) : (setStageTimer n t s).links = s.links := rfl
@[simp] theorem setStageTimer_sampleFramer (n : Fin 4) (t : Option Time) : (setStageTimer n t s).sampleFramer = s.sampleFramer := rfl
@[simp] theorem setStageTimer_tally (n : Fin 4) (t : Option Time) : (setStageTimer n t s).tally = s.tally := rfl
@[simp] theorem setStageTimer_entry (n : Fin 4) (t : Option Time) : (setStageTimer n t s).entry = s.entry := rfl
@[simp] theorem setStageTimer_cfg (n : Fin 4) (t : Option Time) : (setStageTimer n t s).cfg = s.cfg := rfl
@[simp] theorem setStageTimer_store (n : Fin 4) (t : Option Time) : (setStageTimer n t s).store = s.store := rfl
@[simp] theorem setStageTimer_pins (n : Fin 4) (t : Option Time) : (setStageTimer n t s).pins = s.pins := rfl
@[simp] theorem setStageTimer_pending (n : Fin 4) (t : Option Time) : (setStageTimer n t s).pending = s.pending := rfl
@[simp] theorem setStageTimer_free (n : Fin 4) (t : Option Time) : (setStageTimer n t s).free = s.free := rfl

/-! ### latchStage -/

@[simp] theorem latchStage_clock (n : Fin 4) : (latchStage n s).clock = s.clock := rfl
@[simp] theorem latchStage_lock (n : Fin 4) : (latchStage n s).lock = s.lock := rfl
@[simp] theorem latchStage_book (n : Fin 4) : (latchStage n s).book = s.book := rfl
@[simp] theorem latchStage_gens (n : Fin 4) : (latchStage n s).gens = s.gens := rfl
@[simp] theorem latchStage_arb (n : Fin 4) : (latchStage n s).arb = s.arb := rfl
@[simp] theorem latchStage_pvs (n : Fin 4) : (latchStage n s).pvs = s.pvs := rfl
@[simp] theorem latchStage_cur (n : Fin 4) : (latchStage n s).cur = s.cur := rfl
@[simp] theorem latchStage_feeders (n : Fin 4) : (latchStage n s).feeders = s.feeders := rfl
@[simp] theorem latchStage_rest (n : Fin 4) : (latchStage n s).rest = s.rest := rfl
@[simp] theorem latchStage_seq (n : Fin 4) : (latchStage n s).seq = s.seq := rfl
@[simp] theorem latchStage_links (n : Fin 4) : (latchStage n s).links = s.links := rfl
@[simp] theorem latchStage_sampleFramer (n : Fin 4) : (latchStage n s).sampleFramer = s.sampleFramer := rfl
@[simp] theorem latchStage_tally (n : Fin 4) : (latchStage n s).tally = s.tally := rfl
@[simp] theorem latchStage_entry (n : Fin 4) : (latchStage n s).entry = s.entry := rfl
@[simp] theorem latchStage_cfg (n : Fin 4) : (latchStage n s).cfg = s.cfg := rfl
@[simp] theorem latchStage_store (n : Fin 4) : (latchStage n s).store = s.store := rfl
@[simp] theorem latchStage_pins (n : Fin 4) : (latchStage n s).pins = s.pins := rfl
@[simp] theorem latchStage_pending (n : Fin 4) : (latchStage n s).pending = s.pending := rfl
@[simp] theorem latchStage_free (n : Fin 4) : (latchStage n s).free = s.free := rfl

/-! ### setShortfallDwell -/

@[simp] theorem setShortfallDwell_clock (t : Option Time) : (setShortfallDwell t s).clock = s.clock := rfl
@[simp] theorem setShortfallDwell_lock (t : Option Time) : (setShortfallDwell t s).lock = s.lock := rfl
@[simp] theorem setShortfallDwell_gens (t : Option Time) : (setShortfallDwell t s).gens = s.gens := rfl
@[simp] theorem setShortfallDwell_arb (t : Option Time) : (setShortfallDwell t s).arb = s.arb := rfl
@[simp] theorem setShortfallDwell_pvs (t : Option Time) : (setShortfallDwell t s).pvs = s.pvs := rfl
@[simp] theorem setShortfallDwell_cur (t : Option Time) : (setShortfallDwell t s).cur = s.cur := rfl
@[simp] theorem setShortfallDwell_feeders (t : Option Time) : (setShortfallDwell t s).feeders = s.feeders := rfl
@[simp] theorem setShortfallDwell_shed (t : Option Time) : (setShortfallDwell t s).shed = s.shed := rfl
@[simp] theorem setShortfallDwell_rest (t : Option Time) : (setShortfallDwell t s).rest = s.rest := rfl
@[simp] theorem setShortfallDwell_seq (t : Option Time) : (setShortfallDwell t s).seq = s.seq := rfl
@[simp] theorem setShortfallDwell_links (t : Option Time) : (setShortfallDwell t s).links = s.links := rfl
@[simp] theorem setShortfallDwell_sampleFramer (t : Option Time) : (setShortfallDwell t s).sampleFramer = s.sampleFramer := rfl
@[simp] theorem setShortfallDwell_tally (t : Option Time) : (setShortfallDwell t s).tally = s.tally := rfl
@[simp] theorem setShortfallDwell_entry (t : Option Time) : (setShortfallDwell t s).entry = s.entry := rfl
@[simp] theorem setShortfallDwell_cfg (t : Option Time) : (setShortfallDwell t s).cfg = s.cfg := rfl
@[simp] theorem setShortfallDwell_store (t : Option Time) : (setShortfallDwell t s).store = s.store := rfl
@[simp] theorem setShortfallDwell_pins (t : Option Time) : (setShortfallDwell t s).pins = s.pins := rfl
@[simp] theorem setShortfallDwell_pending (t : Option Time) : (setShortfallDwell t s).pending = s.pending := rfl
@[simp] theorem setShortfallDwell_free (t : Option Time) : (setShortfallDwell t s).free = s.free := rfl

/-! ### setSurplusDwell -/

@[simp] theorem setSurplusDwell_clock (t : Option Time) : (setSurplusDwell t s).clock = s.clock := rfl
@[simp] theorem setSurplusDwell_lock (t : Option Time) : (setSurplusDwell t s).lock = s.lock := rfl
@[simp] theorem setSurplusDwell_gens (t : Option Time) : (setSurplusDwell t s).gens = s.gens := rfl
@[simp] theorem setSurplusDwell_arb (t : Option Time) : (setSurplusDwell t s).arb = s.arb := rfl
@[simp] theorem setSurplusDwell_pvs (t : Option Time) : (setSurplusDwell t s).pvs = s.pvs := rfl
@[simp] theorem setSurplusDwell_cur (t : Option Time) : (setSurplusDwell t s).cur = s.cur := rfl
@[simp] theorem setSurplusDwell_feeders (t : Option Time) : (setSurplusDwell t s).feeders = s.feeders := rfl
@[simp] theorem setSurplusDwell_shed (t : Option Time) : (setSurplusDwell t s).shed = s.shed := rfl
@[simp] theorem setSurplusDwell_rest (t : Option Time) : (setSurplusDwell t s).rest = s.rest := rfl
@[simp] theorem setSurplusDwell_seq (t : Option Time) : (setSurplusDwell t s).seq = s.seq := rfl
@[simp] theorem setSurplusDwell_links (t : Option Time) : (setSurplusDwell t s).links = s.links := rfl
@[simp] theorem setSurplusDwell_sampleFramer (t : Option Time) : (setSurplusDwell t s).sampleFramer = s.sampleFramer := rfl
@[simp] theorem setSurplusDwell_tally (t : Option Time) : (setSurplusDwell t s).tally = s.tally := rfl
@[simp] theorem setSurplusDwell_entry (t : Option Time) : (setSurplusDwell t s).entry = s.entry := rfl
@[simp] theorem setSurplusDwell_cfg (t : Option Time) : (setSurplusDwell t s).cfg = s.cfg := rfl
@[simp] theorem setSurplusDwell_store (t : Option Time) : (setSurplusDwell t s).store = s.store := rfl
@[simp] theorem setSurplusDwell_pins (t : Option Time) : (setSurplusDwell t s).pins = s.pins := rfl
@[simp] theorem setSurplusDwell_pending (t : Option Time) : (setSurplusDwell t s).pending = s.pending := rfl
@[simp] theorem setSurplusDwell_free (t : Option Time) : (setSurplusDwell t s).free = s.free := rfl

/-! ### setGuard -/

@[simp] theorem setGuard_clock (t : Option Time) : (setGuard t s).clock = s.clock := rfl
@[simp] theorem setGuard_lock (t : Option Time) : (setGuard t s).lock = s.lock := rfl
@[simp] theorem setGuard_gens (t : Option Time) : (setGuard t s).gens = s.gens := rfl
@[simp] theorem setGuard_arb (t : Option Time) : (setGuard t s).arb = s.arb := rfl
@[simp] theorem setGuard_pvs (t : Option Time) : (setGuard t s).pvs = s.pvs := rfl
@[simp] theorem setGuard_cur (t : Option Time) : (setGuard t s).cur = s.cur := rfl
@[simp] theorem setGuard_feeders (t : Option Time) : (setGuard t s).feeders = s.feeders := rfl
@[simp] theorem setGuard_shed (t : Option Time) : (setGuard t s).shed = s.shed := rfl
@[simp] theorem setGuard_rest (t : Option Time) : (setGuard t s).rest = s.rest := rfl
@[simp] theorem setGuard_seq (t : Option Time) : (setGuard t s).seq = s.seq := rfl
@[simp] theorem setGuard_links (t : Option Time) : (setGuard t s).links = s.links := rfl
@[simp] theorem setGuard_sampleFramer (t : Option Time) : (setGuard t s).sampleFramer = s.sampleFramer := rfl
@[simp] theorem setGuard_tally (t : Option Time) : (setGuard t s).tally = s.tally := rfl
@[simp] theorem setGuard_entry (t : Option Time) : (setGuard t s).entry = s.entry := rfl
@[simp] theorem setGuard_cfg (t : Option Time) : (setGuard t s).cfg = s.cfg := rfl
@[simp] theorem setGuard_store (t : Option Time) : (setGuard t s).store = s.store := rfl
@[simp] theorem setGuard_pins (t : Option Time) : (setGuard t s).pins = s.pins := rfl
@[simp] theorem setGuard_pending (t : Option Time) : (setGuard t s).pending = s.pending := rfl
@[simp] theorem setGuard_free (t : Option Time) : (setGuard t s).free = s.free := rfl

/-! ### setNext -/

@[simp] theorem setNext_clock (n : Option NextFeeder) : (setNext n s).clock = s.clock := rfl
@[simp] theorem setNext_lock (n : Option NextFeeder) : (setNext n s).lock = s.lock := rfl
@[simp] theorem setNext_book (n : Option NextFeeder) : (setNext n s).book = s.book := rfl
@[simp] theorem setNext_gens (n : Option NextFeeder) : (setNext n s).gens = s.gens := rfl
@[simp] theorem setNext_arb (n : Option NextFeeder) : (setNext n s).arb = s.arb := rfl
@[simp] theorem setNext_pvs (n : Option NextFeeder) : (setNext n s).pvs = s.pvs := rfl
@[simp] theorem setNext_cur (n : Option NextFeeder) : (setNext n s).cur = s.cur := rfl
@[simp] theorem setNext_feeders (n : Option NextFeeder) : (setNext n s).feeders = s.feeders := rfl
@[simp] theorem setNext_shed (n : Option NextFeeder) : (setNext n s).shed = s.shed := rfl
@[simp] theorem setNext_seq (n : Option NextFeeder) : (setNext n s).seq = s.seq := rfl
@[simp] theorem setNext_links (n : Option NextFeeder) : (setNext n s).links = s.links := rfl
@[simp] theorem setNext_sampleFramer (n : Option NextFeeder) : (setNext n s).sampleFramer = s.sampleFramer := rfl
@[simp] theorem setNext_tally (n : Option NextFeeder) : (setNext n s).tally = s.tally := rfl
@[simp] theorem setNext_entry (n : Option NextFeeder) : (setNext n s).entry = s.entry := rfl
@[simp] theorem setNext_cfg (n : Option NextFeeder) : (setNext n s).cfg = s.cfg := rfl
@[simp] theorem setNext_store (n : Option NextFeeder) : (setNext n s).store = s.store := rfl
@[simp] theorem setNext_pins (n : Option NextFeeder) : (setNext n s).pins = s.pins := rfl
@[simp] theorem setNext_pending (n : Option NextFeeder) : (setNext n s).pending = s.pending := rfl
@[simp] theorem setNext_free (n : Option NextFeeder) : (setNext n s).free = s.free := rfl

/-! ### restoreLeak -/

@[simp] theorem restoreLeak_clock : (restoreLeak s).clock = s.clock := rfl
@[simp] theorem restoreLeak_lock : (restoreLeak s).lock = s.lock := rfl
@[simp] theorem restoreLeak_book : (restoreLeak s).book = s.book := rfl
@[simp] theorem restoreLeak_gens : (restoreLeak s).gens = s.gens := rfl
@[simp] theorem restoreLeak_arb : (restoreLeak s).arb = s.arb := rfl
@[simp] theorem restoreLeak_pvs : (restoreLeak s).pvs = s.pvs := rfl
@[simp] theorem restoreLeak_cur : (restoreLeak s).cur = s.cur := rfl
@[simp] theorem restoreLeak_feeders : (restoreLeak s).feeders = s.feeders := rfl
@[simp] theorem restoreLeak_shed : (restoreLeak s).shed = s.shed := rfl
@[simp] theorem restoreLeak_seq : (restoreLeak s).seq = s.seq := rfl
@[simp] theorem restoreLeak_links : (restoreLeak s).links = s.links := rfl
@[simp] theorem restoreLeak_sampleFramer : (restoreLeak s).sampleFramer = s.sampleFramer := rfl
@[simp] theorem restoreLeak_tally : (restoreLeak s).tally = s.tally := rfl
@[simp] theorem restoreLeak_entry : (restoreLeak s).entry = s.entry := rfl
@[simp] theorem restoreLeak_cfg : (restoreLeak s).cfg = s.cfg := rfl
@[simp] theorem restoreLeak_store : (restoreLeak s).store = s.store := rfl
@[simp] theorem restoreLeak_pins : (restoreLeak s).pins = s.pins := rfl
@[simp] theorem restoreLeak_pending : (restoreLeak s).pending = s.pending := rfl
@[simp] theorem restoreLeak_free : (restoreLeak s).free = s.free := rfl

/-! ### runDeadSpell -/

@[simp] theorem runDeadSpell_clock : (runDeadSpell s).clock = s.clock := rfl
@[simp] theorem runDeadSpell_lock : (runDeadSpell s).lock = s.lock := rfl
@[simp] theorem runDeadSpell_book : (runDeadSpell s).book = s.book := rfl
@[simp] theorem runDeadSpell_gens : (runDeadSpell s).gens = s.gens := rfl
@[simp] theorem runDeadSpell_arb : (runDeadSpell s).arb = s.arb := rfl
@[simp] theorem runDeadSpell_pvs : (runDeadSpell s).pvs = s.pvs := rfl
@[simp] theorem runDeadSpell_cur : (runDeadSpell s).cur = s.cur := rfl
@[simp] theorem runDeadSpell_feeders : (runDeadSpell s).feeders = s.feeders := rfl
@[simp] theorem runDeadSpell_shed : (runDeadSpell s).shed = s.shed := rfl
@[simp] theorem runDeadSpell_rest : (runDeadSpell s).rest = s.rest := rfl
@[simp] theorem runDeadSpell_links : (runDeadSpell s).links = s.links := rfl
@[simp] theorem runDeadSpell_sampleFramer : (runDeadSpell s).sampleFramer = s.sampleFramer := rfl
@[simp] theorem runDeadSpell_tally : (runDeadSpell s).tally = s.tally := rfl
@[simp] theorem runDeadSpell_entry : (runDeadSpell s).entry = s.entry := rfl
@[simp] theorem runDeadSpell_cfg : (runDeadSpell s).cfg = s.cfg := rfl
@[simp] theorem runDeadSpell_store : (runDeadSpell s).store = s.store := rfl
@[simp] theorem runDeadSpell_pins : (runDeadSpell s).pins = s.pins := rfl
@[simp] theorem runDeadSpell_pending : (runDeadSpell s).pending = s.pending := rfl
@[simp] theorem runDeadSpell_free : (runDeadSpell s).free = s.free := rfl

/-! ### cancelDeadSpell -/

@[simp] theorem cancelDeadSpell_clock : (cancelDeadSpell s).clock = s.clock := rfl
@[simp] theorem cancelDeadSpell_lock : (cancelDeadSpell s).lock = s.lock := rfl
@[simp] theorem cancelDeadSpell_book : (cancelDeadSpell s).book = s.book := rfl
@[simp] theorem cancelDeadSpell_gens : (cancelDeadSpell s).gens = s.gens := rfl
@[simp] theorem cancelDeadSpell_arb : (cancelDeadSpell s).arb = s.arb := rfl
@[simp] theorem cancelDeadSpell_pvs : (cancelDeadSpell s).pvs = s.pvs := rfl
@[simp] theorem cancelDeadSpell_cur : (cancelDeadSpell s).cur = s.cur := rfl
@[simp] theorem cancelDeadSpell_feeders : (cancelDeadSpell s).feeders = s.feeders := rfl
@[simp] theorem cancelDeadSpell_shed : (cancelDeadSpell s).shed = s.shed := rfl
@[simp] theorem cancelDeadSpell_rest : (cancelDeadSpell s).rest = s.rest := rfl
@[simp] theorem cancelDeadSpell_links : (cancelDeadSpell s).links = s.links := rfl
@[simp] theorem cancelDeadSpell_sampleFramer : (cancelDeadSpell s).sampleFramer = s.sampleFramer := rfl
@[simp] theorem cancelDeadSpell_tally : (cancelDeadSpell s).tally = s.tally := rfl
@[simp] theorem cancelDeadSpell_entry : (cancelDeadSpell s).entry = s.entry := rfl
@[simp] theorem cancelDeadSpell_cfg : (cancelDeadSpell s).cfg = s.cfg := rfl
@[simp] theorem cancelDeadSpell_store : (cancelDeadSpell s).store = s.store := rfl
@[simp] theorem cancelDeadSpell_pins : (cancelDeadSpell s).pins = s.pins := rfl
@[simp] theorem cancelDeadSpell_pending : (cancelDeadSpell s).pending = s.pending := rfl
@[simp] theorem cancelDeadSpell_free : (cancelDeadSpell s).free = s.free := rfl

/-! ### stepBand -/

@[simp] theorem stepBand_clock (b : Nat) : (stepBand b s).clock = s.clock := rfl
@[simp] theorem stepBand_lock (b : Nat) : (stepBand b s).lock = s.lock := rfl
@[simp] theorem stepBand_book (b : Nat) : (stepBand b s).book = s.book := rfl
@[simp] theorem stepBand_gens (b : Nat) : (stepBand b s).gens = s.gens := rfl
@[simp] theorem stepBand_arb (b : Nat) : (stepBand b s).arb = s.arb := rfl
@[simp] theorem stepBand_pvs (b : Nat) : (stepBand b s).pvs = s.pvs := rfl
@[simp] theorem stepBand_cur (b : Nat) : (stepBand b s).cur = s.cur := rfl
@[simp] theorem stepBand_feeders (b : Nat) : (stepBand b s).feeders = s.feeders := rfl
@[simp] theorem stepBand_shed (b : Nat) : (stepBand b s).shed = s.shed := rfl
@[simp] theorem stepBand_rest (b : Nat) : (stepBand b s).rest = s.rest := rfl
@[simp] theorem stepBand_links (b : Nat) : (stepBand b s).links = s.links := rfl
@[simp] theorem stepBand_sampleFramer (b : Nat) : (stepBand b s).sampleFramer = s.sampleFramer := rfl
@[simp] theorem stepBand_tally (b : Nat) : (stepBand b s).tally = s.tally := rfl
@[simp] theorem stepBand_entry (b : Nat) : (stepBand b s).entry = s.entry := rfl
@[simp] theorem stepBand_cfg (b : Nat) : (stepBand b s).cfg = s.cfg := rfl
@[simp] theorem stepBand_store (b : Nat) : (stepBand b s).store = s.store := rfl
@[simp] theorem stepBand_pins (b : Nat) : (stepBand b s).pins = s.pins := rfl
@[simp] theorem stepBand_pending (b : Nat) : (stepBand b s).pending = s.pending := rfl
@[simp] theorem stepBand_free (b : Nat) : (stepBand b s).free = s.free := rfl

/-! ### lockToHunt -/

@[simp] theorem lockToHunt_clock (n : Nat) : (lockToHunt n s).clock = s.clock := rfl
@[simp] theorem lockToHunt_book (n : Nat) : (lockToHunt n s).book = s.book := rfl
@[simp] theorem lockToHunt_gens (n : Nat) : (lockToHunt n s).gens = s.gens := rfl
@[simp] theorem lockToHunt_arb (n : Nat) : (lockToHunt n s).arb = s.arb := rfl
@[simp] theorem lockToHunt_pvs (n : Nat) : (lockToHunt n s).pvs = s.pvs := rfl
@[simp] theorem lockToHunt_cur (n : Nat) : (lockToHunt n s).cur = s.cur := rfl
@[simp] theorem lockToHunt_feeders (n : Nat) : (lockToHunt n s).feeders = s.feeders := rfl
@[simp] theorem lockToHunt_shed (n : Nat) : (lockToHunt n s).shed = s.shed := rfl
@[simp] theorem lockToHunt_rest (n : Nat) : (lockToHunt n s).rest = s.rest := rfl
@[simp] theorem lockToHunt_seq (n : Nat) : (lockToHunt n s).seq = s.seq := rfl
@[simp] theorem lockToHunt_links (n : Nat) : (lockToHunt n s).links = s.links := rfl
@[simp] theorem lockToHunt_sampleFramer (n : Nat) : (lockToHunt n s).sampleFramer = s.sampleFramer := rfl
@[simp] theorem lockToHunt_tally (n : Nat) : (lockToHunt n s).tally = s.tally := rfl
@[simp] theorem lockToHunt_entry (n : Nat) : (lockToHunt n s).entry = s.entry := rfl
@[simp] theorem lockToHunt_cfg (n : Nat) : (lockToHunt n s).cfg = s.cfg := rfl
@[simp] theorem lockToHunt_store (n : Nat) : (lockToHunt n s).store = s.store := rfl
@[simp] theorem lockToHunt_pins (n : Nat) : (lockToHunt n s).pins = s.pins := rfl
@[simp] theorem lockToHunt_pending (n : Nat) : (lockToHunt n s).pending = s.pending := rfl
@[simp] theorem lockToHunt_free (n : Nat) : (lockToHunt n s).free = s.free := rfl

/-! ### advanceExpected -/

@[simp] theorem advanceExpected_clock : (advanceExpected s).clock = s.clock := rfl
@[simp] theorem advanceExpected_book : (advanceExpected s).book = s.book := rfl
@[simp] theorem advanceExpected_gens : (advanceExpected s).gens = s.gens := rfl
@[simp] theorem advanceExpected_arb : (advanceExpected s).arb = s.arb := rfl
@[simp] theorem advanceExpected_pvs : (advanceExpected s).pvs = s.pvs := rfl
@[simp] theorem advanceExpected_cur : (advanceExpected s).cur = s.cur := rfl
@[simp] theorem advanceExpected_feeders : (advanceExpected s).feeders = s.feeders := rfl
@[simp] theorem advanceExpected_shed : (advanceExpected s).shed = s.shed := rfl
@[simp] theorem advanceExpected_rest : (advanceExpected s).rest = s.rest := rfl
@[simp] theorem advanceExpected_seq : (advanceExpected s).seq = s.seq := rfl
@[simp] theorem advanceExpected_links : (advanceExpected s).links = s.links := rfl
@[simp] theorem advanceExpected_sampleFramer : (advanceExpected s).sampleFramer = s.sampleFramer := rfl
@[simp] theorem advanceExpected_tally : (advanceExpected s).tally = s.tally := rfl
@[simp] theorem advanceExpected_entry : (advanceExpected s).entry = s.entry := rfl
@[simp] theorem advanceExpected_cfg : (advanceExpected s).cfg = s.cfg := rfl
@[simp] theorem advanceExpected_store : (advanceExpected s).store = s.store := rfl
@[simp] theorem advanceExpected_pins : (advanceExpected s).pins = s.pins := rfl
@[simp] theorem advanceExpected_pending : (advanceExpected s).pending = s.pending := rfl
@[simp] theorem advanceExpected_free : (advanceExpected s).free = s.free := rfl

/-! ### accept -/

@[simp] theorem accept_clock (r : SampleRec) : (accept r s).clock = s.clock := rfl
@[simp] theorem accept_book (r : SampleRec) : (accept r s).book = s.book := rfl
@[simp] theorem accept_arb (r : SampleRec) : (accept r s).arb = s.arb := rfl
@[simp] theorem accept_pvs (r : SampleRec) : (accept r s).pvs = s.pvs := rfl
@[simp] theorem accept_cur (r : SampleRec) : (accept r s).cur = s.cur := rfl
@[simp] theorem accept_feeders (r : SampleRec) : (accept r s).feeders = s.feeders := rfl
@[simp] theorem accept_shed (r : SampleRec) : (accept r s).shed = s.shed := rfl
@[simp] theorem accept_rest (r : SampleRec) : (accept r s).rest = s.rest := rfl
@[simp] theorem accept_seq (r : SampleRec) : (accept r s).seq = s.seq := rfl
@[simp] theorem accept_links (r : SampleRec) : (accept r s).links = s.links := rfl
@[simp] theorem accept_sampleFramer (r : SampleRec) : (accept r s).sampleFramer = s.sampleFramer := rfl
@[simp] theorem accept_tally (r : SampleRec) : (accept r s).tally = s.tally := rfl
@[simp] theorem accept_entry (r : SampleRec) : (accept r s).entry = s.entry := rfl
@[simp] theorem accept_cfg (r : SampleRec) : (accept r s).cfg = s.cfg := rfl
@[simp] theorem accept_store (r : SampleRec) : (accept r s).store = s.store := rfl
@[simp] theorem accept_pins (r : SampleRec) : (accept r s).pins = s.pins := rfl
@[simp] theorem accept_pending (r : SampleRec) : (accept r s).pending = s.pending := rfl
@[simp] theorem accept_free (r : SampleRec) : (accept r s).free = s.free := rfl

/-! ### restartSilence -/

@[simp] theorem restartSilence_clock (l : Link) : (restartSilence l s).clock = s.clock := rfl
@[simp] theorem restartSilence_lock (l : Link) : (restartSilence l s).lock = s.lock := rfl
@[simp] theorem restartSilence_book (l : Link) : (restartSilence l s).book = s.book := rfl
@[simp] theorem restartSilence_gens (l : Link) : (restartSilence l s).gens = s.gens := rfl
@[simp] theorem restartSilence_arb (l : Link) : (restartSilence l s).arb = s.arb := rfl
@[simp] theorem restartSilence_pvs (l : Link) : (restartSilence l s).pvs = s.pvs := rfl
@[simp] theorem restartSilence_cur (l : Link) : (restartSilence l s).cur = s.cur := rfl
@[simp] theorem restartSilence_feeders (l : Link) : (restartSilence l s).feeders = s.feeders := rfl
@[simp] theorem restartSilence_shed (l : Link) : (restartSilence l s).shed = s.shed := rfl
@[simp] theorem restartSilence_rest (l : Link) : (restartSilence l s).rest = s.rest := rfl
@[simp] theorem restartSilence_seq (l : Link) : (restartSilence l s).seq = s.seq := rfl
@[simp] theorem restartSilence_sampleFramer (l : Link) : (restartSilence l s).sampleFramer = s.sampleFramer := rfl
@[simp] theorem restartSilence_tally (l : Link) : (restartSilence l s).tally = s.tally := rfl
@[simp] theorem restartSilence_entry (l : Link) : (restartSilence l s).entry = s.entry := rfl
@[simp] theorem restartSilence_cfg (l : Link) : (restartSilence l s).cfg = s.cfg := rfl
@[simp] theorem restartSilence_store (l : Link) : (restartSilence l s).store = s.store := rfl
@[simp] theorem restartSilence_pins (l : Link) : (restartSilence l s).pins = s.pins := rfl
@[simp] theorem restartSilence_pending (l : Link) : (restartSilence l s).pending = s.pending := rfl
@[simp] theorem restartSilence_free (l : Link) : (restartSilence l s).free = s.free := rfl

/-! ### frameSent -/

@[simp] theorem frameSent_clock (l : Link) : (frameSent l s).clock = s.clock := rfl
@[simp] theorem frameSent_lock (l : Link) : (frameSent l s).lock = s.lock := rfl
@[simp] theorem frameSent_book (l : Link) : (frameSent l s).book = s.book := rfl
@[simp] theorem frameSent_gens (l : Link) : (frameSent l s).gens = s.gens := rfl
@[simp] theorem frameSent_arb (l : Link) : (frameSent l s).arb = s.arb := rfl
@[simp] theorem frameSent_pvs (l : Link) : (frameSent l s).pvs = s.pvs := rfl
@[simp] theorem frameSent_cur (l : Link) : (frameSent l s).cur = s.cur := rfl
@[simp] theorem frameSent_feeders (l : Link) : (frameSent l s).feeders = s.feeders := rfl
@[simp] theorem frameSent_shed (l : Link) : (frameSent l s).shed = s.shed := rfl
@[simp] theorem frameSent_rest (l : Link) : (frameSent l s).rest = s.rest := rfl
@[simp] theorem frameSent_seq (l : Link) : (frameSent l s).seq = s.seq := rfl
@[simp] theorem frameSent_sampleFramer (l : Link) : (frameSent l s).sampleFramer = s.sampleFramer := rfl
@[simp] theorem frameSent_tally (l : Link) : (frameSent l s).tally = s.tally := rfl
@[simp] theorem frameSent_entry (l : Link) : (frameSent l s).entry = s.entry := rfl
@[simp] theorem frameSent_cfg (l : Link) : (frameSent l s).cfg = s.cfg := rfl
@[simp] theorem frameSent_store (l : Link) : (frameSent l s).store = s.store := rfl
@[simp] theorem frameSent_pins (l : Link) : (frameSent l s).pins = s.pins := rfl
@[simp] theorem frameSent_pending (l : Link) : (frameSent l s).pending = s.pending := rfl
@[simp] theorem frameSent_free (l : Link) : (frameSent l s).free = s.free := rfl

/-! ### countClock -/

@[simp] theorem countClock_lock : (countClock s).lock = s.lock := rfl
@[simp] theorem countClock_book : (countClock s).book = s.book := rfl
@[simp] theorem countClock_gens : (countClock s).gens = s.gens := rfl
@[simp] theorem countClock_arb : (countClock s).arb = s.arb := rfl
@[simp] theorem countClock_cur : (countClock s).cur = s.cur := rfl
@[simp] theorem countClock_feeders : (countClock s).feeders = s.feeders := rfl
@[simp] theorem countClock_shed : (countClock s).shed = s.shed := rfl
@[simp] theorem countClock_rest : (countClock s).rest = s.rest := rfl
@[simp] theorem countClock_seq : (countClock s).seq = s.seq := rfl
@[simp] theorem countClock_links : (countClock s).links = s.links := rfl
@[simp] theorem countClock_sampleFramer : (countClock s).sampleFramer = s.sampleFramer := rfl
@[simp] theorem countClock_tally : (countClock s).tally = s.tally := rfl
@[simp] theorem countClock_entry : (countClock s).entry = s.entry := rfl
@[simp] theorem countClock_cfg : (countClock s).cfg = s.cfg := rfl
@[simp] theorem countClock_store : (countClock s).store = s.store := rfl
@[simp] theorem countClock_pins : (countClock s).pins = s.pins := rfl
@[simp] theorem countClock_pending : (countClock s).pending = s.pending := rfl
@[simp] theorem countClock_free : (countClock s).free = s.free := rfl

end Sys2Proof.Machine
end

