-- ==== Sys2Proof/Laws/Ops.lean ====
section
/-! SUPPORT. What each shared operation does to the record it names: the record after the change of one, the notice, reply
and order it places, and the change of a genset's and of a feeder's state. -/

namespace Sys2Proof.Machine

/-! ## One record changed -/

@[simp] theorem Links.get_set_self (ls : Links) (l : Link) (c : LinkCtl) : (ls.set l c).get l = c := by cases l <;> rfl

@[simp] theorem Links.get_set_ne (ls : Links) {l m : Link} (c : LinkCtl) (h : m ≠ l) : (ls.set l c).get m = ls.get m := by
  cases l <;> cases m <;> first | rfl | exact absurd rfl h

/-- Two sets of links are the same when each link is. -/
theorem Links.ext_get {a b : Links} (h : ∀ l, a.get l = b.get l) : a = b := by
  cases a; cases b
  have hS := h .S; have hG := h .G; have hP := h .P; have hF := h .F
  simp only [Links.get] at hS hG hP hF
  simp [hS, hG, hP, hF]

@[simp] theorem modLink_get_self (l : Link) (f : LinkCtl → LinkCtl) (s : State) :
    (modLink l f s).links.get l = f (s.links.get l) := by simp [modLink]

@[simp] theorem modLink_get_ne {l m : Link} (f : LinkCtl → LinkCtl) (s : State) (h : m ≠ l) :
    (modLink l f s).links.get m = s.links.get m := by simp [modLink, h]

@[simp] theorem modGen_gens_self (i : Fin 8) (f : Genset → Genset) (s : State) : (modGen i f s).gens[i] = f s.gens[i] := by
  simp [modGen]
@[simp] theorem modGen_gens_self_val (i : Fin 8) (f : Genset → Genset) (s : State) :
    (modGen i f s).gens[i.val] = f s.gens[i.val] := modGen_gens_self i f s

@[simp] theorem modGen_gens_ne {i j : Fin 8} (f : Genset → Genset) (s : State) (h : j ≠ i) :
    (modGen i f s).gens[j] = s.gens[j] := by
  simp [modGen, Fin.val_ne_iff.mpr (Ne.symm h)]
@[simp] theorem modGen_gens_ne_val {i j : Fin 8} (f : Genset → Genset) (s : State) (h : j ≠ i) :
    (modGen i f s).gens[j.val] = s.gens[j.val] := modGen_gens_ne f s h

@[simp] theorem modPv_pvs_self (g : Fin 8) (f : PvGroup → PvGroup) (s : State) : (modPv g f s).pvs[g] = f s.pvs[g] := by
  simp [modPv]
@[simp] theorem modPv_pvs_self_val (i : Fin 8) (f : PvGroup → PvGroup) (s : State) :
    (modPv i f s).pvs[i.val] = f s.pvs[i.val] := modPv_pvs_self i f s

@[simp] theorem modPv_pvs_ne {g j : Fin 8} (f : PvGroup → PvGroup) (s : State) (h : j ≠ g) :
    (modPv g f s).pvs[j] = s.pvs[j] := by
  simp [modPv, Fin.val_ne_iff.mpr (Ne.symm h)]
@[simp] theorem modPv_pvs_ne_val {i j : Fin 8} (f : PvGroup → PvGroup) (s : State) (h : j ≠ i) :
    (modPv i f s).pvs[j.val] = s.pvs[j.val] := modPv_pvs_ne f s h

@[simp] theorem modFeeder_feeders_self (k : Fin 24) (f : Feeder → Feeder) (s : State) :
    (modFeeder k f s).feeders[k] = f s.feeders[k] := by simp [modFeeder]
@[simp] theorem modFeeder_feeders_self_val (i : Fin 24) (f : Feeder → Feeder) (s : State) :
    (modFeeder i f s).feeders[i.val] = f s.feeders[i.val] := modFeeder_feeders_self i f s

@[simp] theorem modFeeder_feeders_ne {k j : Fin 24} (f : Feeder → Feeder) (s : State) (h : j ≠ k) :
    (modFeeder k f s).feeders[j] = s.feeders[j] := by
  simp [modFeeder, Fin.val_ne_iff.mpr (Ne.symm h)]
@[simp] theorem modFeeder_feeders_ne_val {i j : Fin 24} (f : Feeder → Feeder) (s : State) (h : j ≠ i) :
    (modFeeder i f s).feeders[j.val] = s.feeders[j.val] := modFeeder_feeders_ne f s h

/-! ## Notices (R173) -/

/-- A notice touches the notice queue and the overflow count of a link alone. -/
theorem LinkCtl.notify_others (n : Notice) (c : LinkCtl) :
    { c.notify n with notices := c.notices, overflow := c.overflow } = c := by
  unfold LinkCtl.notify; split <;> rfl

@[simp] theorem LinkCtl.notify_replies (n : Notice) (c : LinkCtl) : (c.notify n).replies = c.replies := by
  unfold LinkCtl.notify; split <;> rfl
@[simp] theorem LinkCtl.notify_orders (n : Notice) (c : LinkCtl) : (c.notify n).orders = c.orders := by
  unfold LinkCtl.notify; split <;> rfl
@[simp] theorem LinkCtl.notify_sending (n : Notice) (c : LinkCtl) : (c.notify n).sending = c.sending := by
  unfold LinkCtl.notify; split <;> rfl
@[simp] theorem LinkCtl.notify_active (n : Notice) (c : LinkCtl) : (c.notify n).active = c.active := by
  unfold LinkCtl.notify; split <;> rfl
@[simp] theorem LinkCtl.notify_framer (n : Notice) (c : LinkCtl) : (c.notify n).framer = c.framer := by
  unfold LinkCtl.notify; split <;> rfl
@[simp] theorem LinkCtl.notify_silenceFrom (n : Notice) (c : LinkCtl) : (c.notify n).silenceFrom = c.silenceFrom := by
  unfold LinkCtl.notify; split <;> rfl
@[simp] theorem LinkCtl.notify_silenceDue (n : Notice) (c : LinkCtl) : (c.notify n).silenceDue = c.silenceDue := by
  unfold LinkCtl.notify; split <;> rfl

/-- The record a block places (R173). -/
def placed (s : State) (kind : NoticeKind) (index : Nat) (subject : Subject) (cause : NoticeCause) (id : Nat) : Notice :=
  ⟨kind, index, subject, cause, id, s.clock⟩

/-- A link in the routing, once, takes the record; another is left as it was (R173). -/
theorem notify_get (ls : List Link) (kind : NoticeKind) (index : Nat) (subject : Subject) (cause : NoticeCause) (id : Nat)
    (s : State) (h : ls.Nodup) (l : Link) :
    (notify ls kind index subject cause id s).links.get l =
      if l ∈ ls then (s.links.get l).notify (placed s kind index subject cause id) else s.links.get l := by
  induction ls generalizing s with
  | nil => simp [notify]
  | cons m ms ih =>
    rw [List.nodup_cons] at h
    rw [show notify (m :: ms) kind index subject cause id s = notify ms kind index subject cause id
      (modLink m (LinkCtl.notify (placed s kind index subject cause id)) s) from rfl, ih _ h.2]
    by_cases e : l = m
    · subst e; simp [h.1]
    · simp [e, placed]

/-- A notice changes the links alone (R173). -/
theorem notify_others (ls : List Link) (kind : NoticeKind) (index : Nat) (subject : Subject) (cause : NoticeCause)
    (id : Nat) (s : State) : { notify ls kind index subject cause id s with links := s.links } = s := by
  have key : ∀ (ls : List Link) (s t : State), { s with links := t.links } = t →
      { notify ls kind index subject cause id s with links := t.links } = t := by
    intro ls
    induction ls with
    | nil => exact fun _ _ h => h
    | cons m ms ih => exact fun s t h => ih (modLink m _ s) t h
  exact key ls s s rfl

@[simp] theorem notify_clock (ls kind index subject cause id) (s : State) :
    (notify ls kind index subject cause id s).clock = s.clock := (congrArg State.clock (notify_others ls kind index subject cause id s) :)
@[simp] theorem notify_lock (ls kind index subject cause id) (s : State) :
    (notify ls kind index subject cause id s).lock = s.lock := (congrArg State.lock (notify_others ls kind index subject cause id s) :)
@[simp] theorem notify_book (ls kind index subject cause id) (s : State) :
    (notify ls kind index subject cause id s).book = s.book := (congrArg State.book (notify_others ls kind index subject cause id s) :)
@[simp] theorem notify_gens (ls kind index subject cause id) (s : State) :
    (notify ls kind index subject cause id s).gens = s.gens := (congrArg State.gens (notify_others ls kind index subject cause id s) :)
@[simp] theorem notify_arb (ls kind index subject cause id) (s : State) :
    (notify ls kind index subject cause id s).arb = s.arb := (congrArg State.arb (notify_others ls kind index subject cause id s) :)
@[simp] theorem notify_pvs (ls kind index subject cause id) (s : State) :
    (notify ls kind index subject cause id s).pvs = s.pvs := (congrArg State.pvs (notify_others ls kind index subject cause id s) :)
@[simp] theorem notify_cur (ls kind index subject cause id) (s : State) :
    (notify ls kind index subject cause id s).cur = s.cur := (congrArg State.cur (notify_others ls kind index subject cause id s) :)
@[simp] theorem notify_feeders (ls kind index subject cause id) (s : State) :
    (notify ls kind index subject cause id s).feeders = s.feeders := (congrArg State.feeders (notify_others ls kind index subject cause id s) :)
@[simp] theorem notify_shed (ls kind index subject cause id) (s : State) :
    (notify ls kind index subject cause id s).shed = s.shed := (congrArg State.shed (notify_others ls kind index subject cause id s) :)
@[simp] theorem notify_rest (ls kind index subject cause id) (s : State) :
    (notify ls kind index subject cause id s).rest = s.rest := (congrArg State.rest (notify_others ls kind index subject cause id s) :)
@[simp] theorem notify_seq (ls kind index subject cause id) (s : State) :
    (notify ls kind index subject cause id s).seq = s.seq := (congrArg State.seq (notify_others ls kind index subject cause id s) :)
@[simp] theorem notify_sampleFramer (ls kind index subject cause id) (s : State) :
    (notify ls kind index subject cause id s).sampleFramer = s.sampleFramer := (congrArg State.sampleFramer (notify_others ls kind index subject cause id s) :)
@[simp] theorem notify_tally (ls kind index subject cause id) (s : State) :
    (notify ls kind index subject cause id s).tally = s.tally := (congrArg State.tally (notify_others ls kind index subject cause id s) :)
@[simp] theorem notify_entry (ls kind index subject cause id) (s : State) :
    (notify ls kind index subject cause id s).entry = s.entry := (congrArg State.entry (notify_others ls kind index subject cause id s) :)
@[simp] theorem notify_cfg (ls kind index subject cause id) (s : State) :
    (notify ls kind index subject cause id s).cfg = s.cfg := (congrArg State.cfg (notify_others ls kind index subject cause id s) :)
@[simp] theorem notify_store (ls kind index subject cause id) (s : State) :
    (notify ls kind index subject cause id s).store = s.store := (congrArg State.store (notify_others ls kind index subject cause id s) :)
@[simp] theorem notify_pins (ls kind index subject cause id) (s : State) :
    (notify ls kind index subject cause id s).pins = s.pins := (congrArg State.pins (notify_others ls kind index subject cause id s) :)
@[simp] theorem notify_pending (ls kind index subject cause id) (s : State) :
    (notify ls kind index subject cause id s).pending = s.pending := (congrArg State.pending (notify_others ls kind index subject cause id s) :)
@[simp] theorem notify_free (ls kind index subject cause id) (s : State) :
    (notify ls kind index subject cause id s).free = s.free := (congrArg State.free (notify_others ls kind index subject cause id s) :)

/-! ## The end of a step (R171) -/

@[simp] theorem LinkCtl.pump_notices (c : LinkCtl) : c.pump.notices = c.notices := by
  unfold LinkCtl.pump; split <;> (try split) <;> (try split) <;> rfl
@[simp] theorem LinkCtl.pump_overflow (c : LinkCtl) : c.pump.overflow = c.overflow := by
  unfold LinkCtl.pump; split <;> (try split) <;> (try split) <;> rfl
@[simp] theorem LinkCtl.pump_active (c : LinkCtl) : c.pump.active = c.active := by
  unfold LinkCtl.pump; split <;> (try split) <;> (try split) <;> rfl
@[simp] theorem LinkCtl.pump_framer (c : LinkCtl) : c.pump.framer = c.framer := by
  unfold LinkCtl.pump; split <;> (try split) <;> (try split) <;> rfl
@[simp] theorem LinkCtl.pump_silenceFrom (c : LinkCtl) : c.pump.silenceFrom = c.silenceFrom := by
  unfold LinkCtl.pump; split <;> (try split) <;> (try split) <;> rfl
@[simp] theorem LinkCtl.pump_silenceDue (c : LinkCtl) : c.pump.silenceDue = c.silenceDue := by
  unfold LinkCtl.pump; split <;> (try split) <;> (try split) <;> rfl

/-- The next frame begun comes from the queue it was in: replies waiting, with the one being sent, stay the same, and so do
orders. -/
@[simp] theorem LinkCtl.pump_repliesWaiting (c : LinkCtl) : repliesWaiting c.pump = repliesWaiting c := by
  unfold LinkCtl.pump repliesWaiting
  cases hs : c.sending with
  | some f => simp [hs]
  | none =>
    cases hr : c.replies with
    | cons r rs => simp
    | nil => cases ha : c.active <;> cases ho : c.orders <;> simp [hr, hs]

@[simp] theorem finish_get (s : State) (l : Link) : (finish s).links.get l = (s.links.get l).pump := by cases l <;> rfl

/-- The end of a step changes the links alone. -/
theorem finish_others (s : State) : { finish s with links := s.links } = s := rfl

/-! ## Claims that leave (R7) -/

@[simp] theorem settleStepClaim_book (s : State) : (settleStepClaim s).book = s.book := by
  unfold settleStepClaim; split <;> (try split) <;> rfl

/-- The step claim alone is judged against the list. -/
theorem settleStepClaim_others (s : State) : { settleStepClaim s with seq := s.seq } = s := by
  unfold settleStepClaim; split <;> (try split) <;> rfl

/-- Claims that leave touch the book and the step claim alone. -/
theorem dropClaims_others (p : Claim → Bool) (s : State) : { dropClaims p s with book := s.book, seq := s.seq } = s := by
  unfold dropClaims
  split
  · exact (congrArg (fun t : State => { t with book := s.book }) (settleStepClaim_others { s with book := _ }) :)
  · rfl

@[simp] theorem dropClaims_clock (p) (s : State) : (dropClaims p s).clock = s.clock :=
  (congrArg State.clock (dropClaims_others p s) :)
@[simp] theorem dropClaims_lock (p) (s : State) : (dropClaims p s).lock = s.lock :=
  (congrArg State.lock (dropClaims_others p s) :)
@[simp] theorem dropClaims_gens (p) (s : State) : (dropClaims p s).gens = s.gens :=
  (congrArg State.gens (dropClaims_others p s) :)
@[simp] theorem dropClaims_arb (p) (s : State) : (dropClaims p s).arb = s.arb :=
  (congrArg State.arb (dropClaims_others p s) :)
@[simp] theorem dropClaims_pvs (p) (s : State) : (dropClaims p s).pvs = s.pvs :=
  (congrArg State.pvs (dropClaims_others p s) :)
@[simp] theorem dropClaims_cur (p) (s : State) : (dropClaims p s).cur = s.cur :=
  (congrArg State.cur (dropClaims_others p s) :)
@[simp] theorem dropClaims_feeders (p) (s : State) : (dropClaims p s).feeders = s.feeders :=
  (congrArg State.feeders (dropClaims_others p s) :)
@[simp] theorem dropClaims_shed (p) (s : State) : (dropClaims p s).shed = s.shed :=
  (congrArg State.shed (dropClaims_others p s) :)
@[simp] theorem dropClaims_rest (p) (s : State) : (dropClaims p s).rest = s.rest :=
  (congrArg State.rest (dropClaims_others p s) :)
@[simp] theorem dropClaims_links (p) (s : State) : (dropClaims p s).links = s.links :=
  (congrArg State.links (dropClaims_others p s) :)
@[simp] theorem dropClaims_sampleFramer (p) (s : State) : (dropClaims p s).sampleFramer = s.sampleFramer :=
  (congrArg State.sampleFramer (dropClaims_others p s) :)
@[simp] theorem dropClaims_tally (p) (s : State) : (dropClaims p s).tally = s.tally :=
  (congrArg State.tally (dropClaims_others p s) :)
@[simp] theorem dropClaims_entry (p) (s : State) : (dropClaims p s).entry = s.entry :=
  (congrArg State.entry (dropClaims_others p s) :)
@[simp] theorem dropClaims_cfg (p) (s : State) : (dropClaims p s).cfg = s.cfg :=
  (congrArg State.cfg (dropClaims_others p s) :)
@[simp] theorem dropClaims_store (p) (s : State) : (dropClaims p s).store = s.store :=
  (congrArg State.store (dropClaims_others p s) :)
@[simp] theorem dropClaims_pins (p) (s : State) : (dropClaims p s).pins = s.pins :=
  (congrArg State.pins (dropClaims_others p s) :)
@[simp] theorem dropClaims_pending (p) (s : State) : (dropClaims p s).pending = s.pending :=
  (congrArg State.pending (dropClaims_others p s) :)
@[simp] theorem dropClaims_free (p) (s : State) : (dropClaims p s).free = s.free :=
  (congrArg State.free (dropClaims_others p s) :)

/-- The claims left are those that do not satisfy the condition, in their order. -/
@[simp] theorem dropClaims_claims (p : Claim → Bool) (s : State) :
    (dropClaims p s).book.claims = s.book.claims.filter (fun c => !p c) := by
  unfold dropClaims
  split
  · simp [recompute]
  · next h => exact (List.filter_eq_self.mpr fun c hc => by simpa using fun e => h (List.any_eq_true.mpr ⟨c, hc, e⟩)).symm

@[simp] theorem dropClaims_nextId (p : Claim → Bool) (s : State) : (dropClaims p s).book.nextId = s.book.nextId := by
  unfold dropClaims; split
  · simp [recompute]
  · rfl

/-! ## The change of a genset's state (R48) -/

/-- A change of state touches the gensets, the margin terms and the notices alone. -/
theorem setUnitState_others (i : Fin 8) (st : UnitState) (why : Cause) (s : State) :
    { setUnitState i st why s with gens := s.gens, book := s.book, links := s.links } = s := by
  unfold setUnitState
  split
  · rfl
  · rfl

@[simp] theorem setUnitState_clock (i st why) (s : State) : (setUnitState i st why s).clock = s.clock :=
  (congrArg State.clock (setUnitState_others i st why s) :)
@[simp] theorem setUnitState_lock (i st why) (s : State) : (setUnitState i st why s).lock = s.lock :=
  (congrArg State.lock (setUnitState_others i st why s) :)
@[simp] theorem setUnitState_arb (i st why) (s : State) : (setUnitState i st why s).arb = s.arb :=
  (congrArg State.arb (setUnitState_others i st why s) :)
@[simp] theorem setUnitState_pvs (i st why) (s : State) : (setUnitState i st why s).pvs = s.pvs :=
  (congrArg State.pvs (setUnitState_others i st why s) :)
@[simp] theorem setUnitState_cur (i st why) (s : State) : (setUnitState i st why s).cur = s.cur :=
  (congrArg State.cur (setUnitState_others i st why s) :)
@[simp] theorem setUnitState_feeders (i st why) (s : State) : (setUnitState i st why s).feeders = s.feeders :=
  (congrArg State.feeders (setUnitState_others i st why s) :)
@[simp] theorem setUnitState_shed (i st why) (s : State) : (setUnitState i st why s).shed = s.shed :=
  (congrArg State.shed (setUnitState_others i st why s) :)
@[simp] theorem setUnitState_rest (i st why) (s : State) : (setUnitState i st why s).rest = s.rest :=
  (congrArg State.rest (setUnitState_others i st why s) :)
@[simp] theorem setUnitState_seq (i st why) (s : State) : (setUnitState i st why s).seq = s.seq :=
  (congrArg State.seq (setUnitState_others i st why s) :)
@[simp] theorem setUnitState_sampleFramer (i st why) (s : State) : (setUnitState i st why s).sampleFramer = s.sampleFramer :=
  (congrArg State.sampleFramer (setUnitState_others i st why s) :)
@[simp] theorem setUnitState_tally (i st why) (s : State) : (setUnitState i st why s).tally = s.tally :=
  (congrArg State.tally (setUnitState_others i st why s) :)
@[simp] theorem setUnitState_entry (i st why) (s : State) : (setUnitState i st why s).entry = s.entry :=
  (congrArg State.entry (setUnitState_others i st why s) :)
@[simp] theorem setUnitState_cfg (i st why) (s : State) : (setUnitState i st why s).cfg = s.cfg :=
  (congrArg State.cfg (setUnitState_others i st why s) :)
@[simp] theorem setUnitState_store (i st why) (s : State) : (setUnitState i st why s).store = s.store :=
  (congrArg State.store (setUnitState_others i st why s) :)
@[simp] theorem setUnitState_pins (i st why) (s : State) : (setUnitState i st why s).pins = s.pins :=
  (congrArg State.pins (setUnitState_others i st why s) :)
@[simp] theorem setUnitState_pending (i st why) (s : State) : (setUnitState i st why s).pending = s.pending :=
  (congrArg State.pending (setUnitState_others i st why s) :)
@[simp] theorem setUnitState_free (i st why) (s : State) : (setUnitState i st why s).free = s.free :=
  (congrArg State.free (setUnitState_others i st why s) :)

/-- The records after a change of state: that of the unit takes the fields of its new state, no other changes. -/
theorem setUnitState_gens (i : Fin 8) (st : UnitState) (why : Cause) (s : State) :
    (setUnitState i st why s).gens =
      if s.gens[i].state = st then s.gens else s.gens.set i (enterUnitState s i st s.gens[i]) := by
  unfold setUnitState; split <;> rfl

@[simp] theorem setUnitState_state (i : Fin 8) (st : UnitState) (why : Cause) (s : State) :
    (setUnitState i st why s).gens[i].state = st := by
  rw [setUnitState_gens]; split
  · assumption
  · simp [enterUnitState]
@[simp] theorem setUnitState_state_val (i : Fin 8) (st : UnitState) (why : Cause) (s : State) :
    (setUnitState i st why s).gens[i.val].state = st := setUnitState_state i st why s

@[simp] theorem setUnitState_authority (i : Fin 8) (st : UnitState) (why : Cause) (s : State) (j : Fin 8) :
    (setUnitState i st why s).gens[j].authority = s.gens[j].authority := by
  rw [setUnitState_gens]; split
  · rfl
  · by_cases h : j = i
    · subst h; simp [enterUnitState]
    · simp [Fin.val_ne_iff.mpr (Ne.symm h)]
@[simp] theorem setUnitState_authority_val (i : Fin 8) (st : UnitState) (why : Cause) (s : State) (j : Fin 8) :
    (setUnitState i st why s).gens[j.val].authority = s.gens[j.val].authority := setUnitState_authority i st why s j

@[simp] theorem setUnitState_gens_ne {i j : Fin 8} (st : UnitState) (why : Cause) (s : State) (h : j ≠ i) :
    (setUnitState i st why s).gens[j] = s.gens[j] := by
  rw [setUnitState_gens]; split
  · rfl
  · simp [Fin.val_ne_iff.mpr (Ne.symm h)]
@[simp] theorem setUnitState_gens_ne_val {i j : Fin 8} (st : UnitState) (why : Cause) (s : State) (h : j ≠ i) :
    (setUnitState i st why s).gens[j.val] = s.gens[j.val] := setUnitState_gens_ne st why s h

/-! ## The change of a feeder's state (R111) -/

/-- A change of state touches the feeders, the shed settle timer and the notices alone. -/
theorem setFeederState_others (k : Fin 24) (st : FeederState) (why : Cause) (s : State) :
    { setFeederState k st why s with feeders := s.feeders, shed := s.shed, links := s.links } = s := by
  unfold setFeederState
  split
  · rfl
  · by_cases h : s.feeders[k].state = .opening
    · simp only [if_pos h]; rfl
    · simp only [if_neg h]; rfl

@[simp] theorem setFeederState_clock (k st why) (s : State) : (setFeederState k st why s).clock = s.clock :=
  (congrArg State.clock (setFeederState_others k st why s) :)
@[simp] theorem setFeederState_lock (k st why) (s : State) : (setFeederState k st why s).lock = s.lock :=
  (congrArg State.lock (setFeederState_others k st why s) :)
@[simp] theorem setFeederState_book (k st why) (s : State) : (setFeederState k st why s).book = s.book :=
  (congrArg State.book (setFeederState_others k st why s) :)
@[simp] theorem setFeederState_gens (k st why) (s : State) : (setFeederState k st why s).gens = s.gens :=
  (congrArg State.gens (setFeederState_others k st why s) :)
@[simp] theorem setFeederState_arb (k st why) (s : State) : (setFeederState k st why s).arb = s.arb :=
  (congrArg State.arb (setFeederState_others k st why s) :)
@[simp] theorem setFeederState_pvs (k st why) (s : State) : (setFeederState k st why s).pvs = s.pvs :=
  (congrArg State.pvs (setFeederState_others k st why s) :)
@[simp] theorem setFeederState_cur (k st why) (s : State) : (setFeederState k st why s).cur = s.cur :=
  (congrArg State.cur (setFeederState_others k st why s) :)
@[simp] theorem setFeederState_rest (k st why) (s : State) : (setFeederState k st why s).rest = s.rest :=
  (congrArg State.rest (setFeederState_others k st why s) :)
@[simp] theorem setFeederState_seq (k st why) (s : State) : (setFeederState k st why s).seq = s.seq :=
  (congrArg State.seq (setFeederState_others k st why s) :)
@[simp] theorem setFeederState_sampleFramer (k st why) (s : State) : (setFeederState k st why s).sampleFramer = s.sampleFramer :=
  (congrArg State.sampleFramer (setFeederState_others k st why s) :)
@[simp] theorem setFeederState_tally (k st why) (s : State) : (setFeederState k st why s).tally = s.tally :=
  (congrArg State.tally (setFeederState_others k st why s) :)
@[simp] theorem setFeederState_entry (k st why) (s : State) : (setFeederState k st why s).entry = s.entry :=
  (congrArg State.entry (setFeederState_others k st why s) :)
@[simp] theorem setFeederState_cfg (k st why) (s : State) : (setFeederState k st why s).cfg = s.cfg :=
  (congrArg State.cfg (setFeederState_others k st why s) :)
@[simp] theorem setFeederState_store (k st why) (s : State) : (setFeederState k st why s).store = s.store :=
  (congrArg State.store (setFeederState_others k st why s) :)
@[simp] theorem setFeederState_pins (k st why) (s : State) : (setFeederState k st why s).pins = s.pins :=
  (congrArg State.pins (setFeederState_others k st why s) :)
@[simp] theorem setFeederState_pending (k st why) (s : State) : (setFeederState k st why s).pending = s.pending :=
  (congrArg State.pending (setFeederState_others k st why s) :)
@[simp] theorem setFeederState_free (k st why) (s : State) : (setFeederState k st why s).free = s.free :=
  (congrArg State.free (setFeederState_others k st why s) :)

/-- The records after a change of state: that of the feeder takes the fields of its new state, no other changes. -/
theorem setFeederState_feeders (k : Fin 24) (st : FeederState) (why : Cause) (s : State) :
    (setFeederState k st why s).feeders =
      if s.feeders[k].state = st then s.feeders else s.feeders.set k (enterFeederState s st s.feeders[k]) := by
  unfold setFeederState
  split
  · rfl
  · by_cases h : s.feeders[k].state = .opening
    · simp only [if_pos h]; rfl
    · simp only [if_neg h]; rfl

@[simp] theorem setFeederState_state (k : Fin 24) (st : FeederState) (why : Cause) (s : State) :
    (setFeederState k st why s).feeders[k].state = st := by
  rw [setFeederState_feeders]; split
  · assumption
  · simp [enterFeederState]
@[simp] theorem setFeederState_state_val (k : Fin 24) (st : FeederState) (why : Cause) (s : State) :
    (setFeederState k st why s).feeders[k.val].state = st := setFeederState_state k st why s

@[simp] theorem setFeederState_feeders_ne {k j : Fin 24} (st : FeederState) (why : Cause) (s : State) (h : j ≠ k) :
    (setFeederState k st why s).feeders[j] = s.feeders[j] := by
  rw [setFeederState_feeders]; split
  · rfl
  · simp [Fin.val_ne_iff.mpr (Ne.symm h)]
@[simp] theorem setFeederState_feeders_ne_val {k j : Fin 24} (st : FeederState) (why : Cause) (s : State) (h : j ≠ k) :
    (setFeederState k st why s).feeders[j.val] = s.feeders[j.val] := setFeederState_feeders_ne st why s h

end Sys2Proof.Machine
end

