-- ==== Sys2Proof/Laws/Curtailment.lean ====
section
/-! SUPPORT. What the Curtailment Unit's arithmetic can give: a share keeps its member's group and base, a computed ceiling
lies within the rating, an issued one rises in Full alone, and the ramp bucket stays within its capacity (05). -/

namespace Sys2Proof.Machine

/-! ## Shares (R100 to R102) -/

/-- The group and the base of a member, which sharing leaves as they are. -/
def Member.fixed (m : Member) : Fin 8 × Nat := (m.group, m.base)

theorem Member.take_fixed (amount w : Nat) (m : Member) : (m.take amount w).fixed = m.fixed := by
  unfold Member.take
  split
  · rfl
  · simp only []; split <;> rfl

theorem shareRounds_fixed (n amount : Nat) (ms : List Member) :
    (shareRounds n amount ms).map Member.fixed = ms.map Member.fixed := by
  induction n generalizing amount ms with
  | zero => rfl
  | succ n ih =>
    have step : (ms.map (Member.take amount (openWeight ms))).map Member.fixed = ms.map Member.fixed := by
      rw [List.map_map]; exact List.map_congr_left fun m _ => Member.take_fixed _ _ m
    unfold shareRounds
    simp only []
    split
    · rw [ih, step]
    · exact step

theorem placePass_fixed (left : Nat) (ms : List Member) : (placePass left ms).2.map Member.fixed = ms.map Member.fixed := by
  induction ms generalizing left with
  | nil => cases left <;> rfl
  | cons m ms ih =>
    cases left with
    | zero => rfl
    | succ left =>
      unfold placePass
      split
      · exact congrArg (m.fixed :: ·) (ih left)
      · exact congrArg (m.fixed :: ·) (ih (left + 1))

theorem placeRemainder_fixed (n left : Nat) (ms : List Member) :
    (placeRemainder n left ms).map Member.fixed = ms.map Member.fixed := by
  induction n generalizing left ms with
  | zero => rfl
  | succ n ih =>
    cases left with
    | zero => rfl
    | succ left => exact (ih _ _).trans (placePass_fixed _ _)

/-- Sharing gives each member of the class a share and changes nothing else of it. -/
theorem shareClass_fixed (part : Nat) (ms : List Member) : (shareClass part ms).map Member.fixed = ms.map Member.fixed :=
  (placeRemainder_fixed _ _ _).trans (shareRounds_fixed _ _ _)

/-- Every member shared among is a coordinated group with its base. -/
theorem shareFrom_base (s : State) (n cls left : Nat) :
    ∀ m ∈ shareFrom s n cls left, m.base = pvBase s m.group := by
  induction n generalizing cls left with
  | zero => intro m hm; simp [shareFrom] at hm
  | succ n ih =>
    intro m hm
    rw [shareFrom, List.mem_append] at hm
    rcases hm with hm | hm
    · by_cases h0 : min left ((classMembers s cls).map (·.base)).sum = 0
      · simp [h0] at hm
      · rw [if_neg h0] at hm
        have : m.fixed ∈ (classMembers s cls).map Member.fixed := by
          rw [← shareClass_fixed]; exact List.mem_map_of_mem hm
        obtain ⟨x, hx, e⟩ := List.mem_map.mp this
        obtain ⟨g, -, rfl⟩ := List.mem_map.mp hx
        simp only [Member.fixed, Prod.mk.injEq] at e
        rw [← e.1, ← e.2]
    · exact ih _ _ m hm

/-- A computed ceiling lies within the rating, before the caps and after them (R102). -/
theorem sharedCeiling_le (s : State) (n cls left : Nat) (g : Fin 8) :
    sharedCeiling s (shareFrom s n cls left) g ≤ s.cfg.pvs[g].rating := by
  unfold sharedCeiling
  split
  · next m hm =>
    have e := shareFrom_base s n cls left m (List.mem_of_find?_eq_some hm)
    have hg : m.group = g := by simpa using List.find?_some hm
    have : m.base ≤ s.cfg.pvs[g].rating := by rw [e, hg]; exact Nat.min_le_left _ _
    omega
  · exact Nat.le_refl _

theorem cappedCeiling_le (s : State) (g : Fin 8) (c : Nat) : cappedCeiling s g c ≤ c := by
  unfold cappedCeiling; split
  · exact Nat.le_refl _
  · exact Nat.min_le_left _ _

/-! ## Issuing (R104) -/

/-- A ceiling issued is the computed one or the one before. -/
theorem issueCeiling_eq (q : Quality) (step rating computed issued : Nat) :
    issueCeiling q step rating computed issued = computed ∨ issueCeiling q step rating computed issued = issued := by
  have key : ∀ moved : Bool, (if moved then computed else issued) = computed ∨
      (if moved then computed else issued) = issued := by
    intro moved; cases moved
    · exact .inr rfl
    · exact .inl rfl
  exact key _

/-- While quality is not Full no issued ceiling rises (R40, R104). -/
theorem issueCeiling_le {q : Quality} (h : q ≠ .full) (step rating computed issued : Nat) :
    issueCeiling q step rating computed issued ≤ issued := by
  have key : ∀ move : Bool, (if move && (q = .full || computed < issued) then computed else issued) ≤ issued := by
    intro move
    split
    · next e =>
      simp only [Bool.and_eq_true, Bool.or_eq_true, decide_eq_true_eq, h, false_or] at e
      exact Nat.le_of_lt e.2
    · exact Nat.le_refl _
  exact key _

/-! ## The ramp bucket (R97, R98) -/

/-- An evaluation keeps the ramp bucket within its capacity. -/
theorem rampStep_level (c : CurtailSettings) (q : Quality) (T E : Nat) (b : RampBucket) (h : b.level ≤ c.capacity) :
    (rampStep c q T E b).1.level ≤ c.capacity := by
  unfold rampStep
  split
  · simp only [rampLeak]; omega
  · have rise : ∀ (shut : Bool) (l : Nat), l ≤ c.capacity →
        l + (if shut then 0 else min (T - E) (c.capacity - l)) ≤ c.capacity := by
      intro shut l hl
      split <;> omega
    exact rise _ _ (Nat.le_trans (Nat.sub_le _ _) h)

end Sys2Proof.Machine
end

