-- ==== Sys2Proof/Laws/KeptServe.lean ====
section
/-! SUPPORT. What every shared operation keeps, said once. A property of states that the writes of a level keep is kept by
each operation made of those writes: one structure per level names the writes, and one lemma per operation carries the
property over it. A frame is the case where the property is `t.field = s.field`; an invariant is the case where it is the
invariant itself. This file: the serving of the Start Arbiter and what calls it. -/

namespace Sys2Proof.Machine

variable {P : State → Prop}

/-- The writes of a serving (03, R54, R66, R67), with the sequencer's entry to Failed that it may bring in Energising. -/
structure KeptServe (P : State → Prop) : Prop where
  notify : ∀ ls kind index subject cause claimId s, P s → P (notify ls kind index subject cause claimId s)
  book : ∀ (b : Book) (s : State), b.claims = s.book.claims → b.nextId = s.book.nextId → b.terms = s.book.terms →
    P s → P { s with book := b }
  putReason : ∀ k r s, P s → P (putReason k r s)
  begin : ∀ slot k r i s, candidate s i = true → slotFor s.arb k = some slot → P s → P (beginStart slot k r i s)
  failed : ∀ why s, s.seq.phase = .energising → P s → P (enterFailed why s)

namespace KeptServe

theorem withdrawReason (K : KeptServe P) (k : ReasonKind) {s : State} (h : P s) : P (withdrawReason k s) := by
  unfold Machine.withdrawReason
  split
  · exact h
  · split <;> exact K.putReason _ _ _ h

theorem withdrawShortfall (K : KeptServe P) {s : State} (h : P s) : P (withdrawShortfall s) :=
  K.book _ _ rfl rfl rfl (K.withdrawReason _ h)

theorem raiseReason (K : KeptServe P) (k : ReasonKind) (need : Nat) (named : Option (Fin 8)) {s : State} (h : P s) :
    P (raiseReason k need named s) := by
  unfold Machine.raiseReason
  split <;> exact K.putReason _ _ _ h

theorem noCandidateFound (K : KeptServe P) (k : ReasonKind) (r : Reason) {s : State} (h : P s) :
    P (noCandidateFound k r s) := by
  have told : ∀ r', P (notifyNoCandidate k r (Machine.putReason k r' s)) := fun _ => K.notify _ _ _ _ _ _ _ (K.putReason _ _ _ h)
  have marked : P (if r.noCandidate then s
      else notifyNoCandidate k r (Machine.putReason k (some { r with noCandidate := true }) s)) := by
    split
    · exact h
    · exact told _
  cases k <;> simp only [Machine.noCandidateFound]
  case operator => exact told _
  case shortfall => exact K.book _ _ rfl rfl rfl marked
  case blackStart =>
    generalize (if r.noCandidate = true then s else _) = s1 at marked ⊢
    split
    · next hp => exact K.failed _ _ hp marked
    · exact marked
  all_goals exact marked

/-- What the choice of R65 yields is one of the candidates. -/
theorem largestRated_mem {s : State} {cs : List (Fin 8)} {i : Fin 8} : largestRated s cs = some i → i ∈ cs := by
  induction cs generalizing i with
  | nil => simp [largestRated]
  | cons c cs ih =>
    simp only [largestRated]
    split
    · rintro ⟨⟩; simp
    · next j hj => split <;> rintro ⟨⟩ <;> simp [ih hj]

theorem chooseUnit_mem {s : State} {need : Nat} {cs : List (Fin 8)} {i : Fin 8} (h : chooseUnit s need cs = some i) :
    i ∈ cs := by
  unfold chooseUnit at h
  split at h
  · cases h; exact List.mem_of_find?_eq_some ‹_›
  · split at h
    · cases h; exact List.mem_of_find?_eq_some ‹_›
    · exact largestRated_mem h

theorem serveKind (K : KeptServe P) (k : ReasonKind) {s : State} (h : P s) : P (serveKind k s).1 := by
  unfold Machine.serveKind
  split
  · exact h
  · split
    · next hs =>
      split
      · next hc =>
        have hm := chooseUnit_mem hc
        simp only [candidatesFor, List.mem_filter, candidateFor, Bool.and_eq_true] at hm
        exact K.begin _ _ _ _ _ hm.2.1.1 hs h
      · exact K.noCandidateFound _ _ h
    · exact h

theorem servePass (K : KeptServe P) (ks : List ReasonKind) {s : State} (h : P s) : P (servePass ks s).1 := by
  induction ks generalizing s with
  | nil => exact h
  | cons k ks ih =>
    have hk := K.serveKind k h
    unfold Machine.servePass
    split <;> rename_i he <;> rw [he] at hk
    · exact hk
    · exact ih hk

theorem serveLoop (K : KeptServe P) (n : Nat) {s : State} (h : P s) : P (serveLoop n s) := by
  induction n generalizing s with
  | zero => exact h
  | succ n ih =>
    have hk := K.servePass reasonKinds h
    unfold Machine.serveLoop
    split <;> rename_i he <;> rw [he] at hk
    · exact ih hk
    · exact hk

/-- The serving keeps what its writes keep (R66). -/
theorem serve (K : KeptServe P) {s : State} (h : P s) : P (serve s) := by
  unfold Machine.serve
  split
  · exact K.serveLoop 3 h
  · exact h

theorem raiseAndServe (K : KeptServe P) (k : ReasonKind) (need : Nat) (named : Option (Fin 8)) {s : State} (h : P s) :
    P (raiseAndServe k need named s) := by
  unfold Machine.raiseAndServe
  split
  · exact K.serve (K.raiseReason _ _ _ h)
  · exact K.raiseReason _ _ _ h

theorem unitSettled (K : KeptServe P) {s : State} (h : P s) : P (unitSettled s) := by
  refine K.serve ?_
  unfold keepBlackStart
  split
  · exact K.raiseReason _ _ _ h
  · exact h

theorem raiseBlind (K : KeptServe P) {s : State} (h : P s) : P (raiseBlind s) := by
  unfold Machine.raiseBlind
  split
  · exact K.raiseAndServe _ _ _ h
  · exact h

theorem withdrawReasons (K : KeptServe P) {s : State} (h : P s) : P (withdrawReasons s) := by
  simp only [Machine.withdrawReasons, reasonKinds, List.foldl]
  iterate 6 apply K.withdrawReason
  exact h

theorem overloadDecision (K : KeptServe P) (excess : Int) {s : State} (h : P s) : P (overloadDecision excess s) := by
  unfold Machine.overloadDecision
  split
  · exact K.raiseAndServe _ _ _ h
  · exact K.withdrawReason _ h

theorem tripDecision (K : KeptServe P) (t : Terms) {s : State} (h : P s) : P (tripDecision t s) := by
  unfold Machine.tripDecision
  split
  · exact K.withdrawReason _ h
  · exact h

theorem shortfallDecision (K : KeptServe P) (M : Int) {s : State} (h : P s) : P (shortfallDecision M s) := by
  have dwell : ∀ t, P (setShortfallDwell t s) := fun _ => K.book _ _ rfl rfl rfl h
  unfold Machine.shortfallDecision
  split
  · simp only []
    split
    · exact K.withdrawShortfall (dwell _)
    · exact dwell _
  · split
    · simp only []
      split
      · exact K.raiseAndServe _ _ _ (dwell _)
      · exact dwell _
    · exact h

/-- The start of a unit is what a failed start gives back (R56). -/
theorem returnReason (K : KeptServe P) (k : ReasonKind) {s : State} (h : P s) : P (returnReason k s) := by
  unfold Machine.returnReason
  split
  · exact h
  · split <;> exact K.putReason _ _ _ h

theorem reasonMet (K : KeptServe P) (k : ReasonKind) (rating : Nat) {s : State} (h : P s) : P (reasonMet k rating s) := by
  unfold Machine.reasonMet
  split
  · exact h
  · cases k <;> simp only [] <;> (try split) <;> exact K.putReason _ _ _ h

end KeptServe

end Sys2Proof.Machine
end

