-- ==== Sys2Proof/Laws/KeptPlan.lean ====
section
/-! SUPPORT. What every shared operation keeps, continued from KeptServe.lean: the withdrawal of claims, the sequencer's own
changes, and the steps of its plan outside an evaluation. -/

namespace Sys2Proof.Machine

variable {P : State → Prop}

/-- A property kept by each step of a fold is kept by the fold. -/
theorem kept_foldl {α : Type} {f : State → α → State} (hf : ∀ s a, P s → P (f s a)) (xs : List α) {s : State} (h : P s) :
    P (xs.foldl f s) := by
  induction xs generalizing s with
  | nil => exact h
  | cons x xs ih => exact ih (hf _ _ h)

/-- The writes of the sequencer and the claim list outside an evaluation. -/
structure KeptStart (P : State → Prop) : Prop where
  notify : ∀ ls kind index subject cause claimId s, P s → P (notify ls kind index subject cause claimId s)
  offer : ∀ kind index amount s, P s → P (offer kind index amount s)
  book : ∀ (b : Book) (s : State), b.claims = s.book.claims → b.nextId = s.book.nextId → b.terms = s.book.terms →
    P s → P { s with book := b }
  seq : ∀ (q : Sequencer) (s : State), P s → P { s with seq := q }
  recompute : ∀ s, P s → P (recompute s)
  drop : ∀ p s, P s → P (dropClaims p s)
  putReason : ∀ k r s, P s → P (putReason k r s)
  gen : ∀ i f (s : State), (f s.gens[i]).state = s.gens[i].state → (f s.gens[i]).authority = s.gens[i].authority →
    (f s.gens[i]).phaseTimer = s.gens[i].phaseTimer → P s → P (modGen i f s)
  begin : ∀ slot k r i s, candidate s i = true → slotFor s.arb k = some slot → P s → P (beginStart slot k r i s)

namespace KeptStart

theorem endRelease (K : KeptStart P) (i : Fin 8) (o : OutcomeWord) (why : Cause) (id : Nat) {s : State} (h : P s) :
    P (endRelease i o why id s) := K.notify _ _ _ _ _ _ _ (K.gen _ _ _ rfl rfl rfl h)

theorem tellWithdrawn (K : KeptStart P) (why : Cause) (c : Claim) {s : State} (h : P s) : P (tellWithdrawn why c s) := by
  unfold Machine.tellWithdrawn
  split
  · split
    · exact K.endRelease _ _ _ _ h
    · exact K.notify _ _ _ _ _ _ _ h
  · exact h

theorem withdrawClaims (K : KeptStart P) (p : Claim → Bool) (why : Cause) {s : State} (h : P s) :
    P (withdrawClaims p why s) :=
  kept_foldl (fun _ _ h => K.tellWithdrawn _ _ h) _ (K.drop _ _ h)

theorem claimWaitEnds (K : KeptStart P) (id : Nat) {s : State} (h : P s) : P (claimWaitEnds id s) := by
  unfold Machine.claimWaitEnds
  split
  · exact h
  · split
    · split
      · refine K.offer _ _ _ _ ?_
        split
        · exact K.endRelease _ _ _ _ (K.drop _ _ h)
        · exact K.notify _ _ _ _ _ _ _ (K.drop _ _ h)
      · exact h
    · exact h

theorem claimLifetimeEnds (K : KeptStart P) (id : Nat) {s : State} (h : P s) : P (claimLifetimeEnds id s) := by
  unfold Machine.claimLifetimeEnds
  split
  · exact h
  · split
    · split
      · exact K.offer _ _ _ _ (K.notify _ _ _ _ _ _ _ (K.drop _ _ h))
      · exact h
    · exact h

theorem claimSettles (K : KeptStart P) (id : Nat) {s : State} (h : P s) : P (claimSettles id s) := by
  unfold Machine.claimSettles
  split
  · exact h
  · split
    · split
      · exact K.drop _ _ h
      · exact h
    · exact h

theorem enterPhase (K : KeptStart P) (p : Phase) (why : Cause) {s : State} (h : P s) : P (enterPhase p why s) :=
  K.notify _ _ _ _ _ _ _ (K.seq _ _ h)

theorem withdrawReason (K : KeptStart P) (k : ReasonKind) {s : State} (h : P s) : P (withdrawReason k s) := by
  unfold Machine.withdrawReason
  split
  · exact h
  · split <;> exact K.putReason _ _ _ h

/-- The entry to Failed keeps what its writes keep (R165). -/
theorem enterFailed (K : KeptStart P) (why : Cause) {s : State} (h : P s) : P (enterFailed why s) := by
  refine K.enterPhase _ _ (K.book _ _ rfl rfl rfl (K.withdrawReason _ (K.book _ _ rfl rfl rfl ?_)))
  exact K.withdrawReason _ (K.withdrawClaims _ _ (K.seq _ _ h))

/-- The writes of a serving are among them. -/
theorem toServe (K : KeptStart P) : KeptServe P where
  notify := K.notify
  book := K.book
  putReason := K.putReason
  begin := K.begin
  failed := fun _ _ _ h => K.enterFailed _ h

theorem serve (K : KeptStart P) {s : State} (h : P s) : P (serve s) := K.toServe.serve h

theorem raiseAndServe (K : KeptStart P) (k : ReasonKind) (need : Nat) (named : Option (Fin 8)) {s : State} (h : P s) :
    P (raiseAndServe k need named s) := K.toServe.raiseAndServe _ _ _ h

theorem unitSettled (K : KeptStart P) {s : State} (h : P s) : P (unitSettled s) := K.toServe.unitSettled h

theorem attemptFailed (K : KeptStart P) {s : State} (h : P s) : P (attemptFailed s) := by
  have h1 := K.seq { s.seq with attempts := s.seq.attempts + 1 } s h
  unfold Machine.attemptFailed
  split
  · simp only []
    split
    · exact K.enterFailed _ h1
    · exact h1
  · exact h

theorem enterEnergising (K : KeptStart P) {s : State} (h : P s) : P (enterEnergising s) :=
  K.raiseAndServe _ _ _ (K.enterPhase _ _ (K.seq _ _ h))

theorem judgeCleared (K : KeptStart P) {s : State} (h : P s) : P (judgeCleared s) := by
  unfold Machine.judgeCleared
  split
  · exact K.enterEnergising h
  · exact h

theorem endStep (K : KeptStart P) {s : State} (h : P s) : P (endStep s) := by
  refine K.seq _ _ ?_
  split
  · exact K.withdrawReason _ h
  · exact h

theorem cancelDecisions (K : KeptStart P) {s : State} (h : P s) : P (cancelDecisions s) := K.book _ _ rfl rfl rfl h

theorem deadSpell (K : KeptStart P) {s : State} (h : P s) : P (cancelDeadSpell s) ∧ P (runDeadSpell s) :=
  ⟨K.seq _ _ h, K.seq _ _ h⟩

end KeptStart

/-- The writes of the plan outside an evaluation: those of the sequencer, and the caps (R103). -/
structure KeptPlan (P : State → Prop) : Prop extends KeptStart P where
  cap : ∀ g (c : Option Nat) s, P s → P (modPv g (fun p => { p with cap := c }) s)

namespace KeptPlan

theorem clearCaps (K : KeptPlan P) {s : State} (h : P s) : P (clearCaps s) :=
  kept_foldl (fun _ g h => K.cap g none _ h) _ h

theorem planEnd (K : KeptPlan P) {s : State} (h : P s) : P (planEnd s) :=
  K.clearCaps (K.notify _ _ _ _ _ _ _ (K.seq _ _ (K.withdrawReason _ (K.seq _ _ h))))

theorem stepOpening (K : KeptPlan P) (a : StepAct) {s : State} (h : P s) : P (stepOpening a s) := by
  unfold Machine.stepOpening
  split <;> (try split) <;>
    first | exact h | exact K.raiseAndServe _ _ _ h | exact K.cap _ _ _ h

theorem openStep (K : KeptPlan P) {s : State} (h : P s) : P (openStep s) := by
  unfold Machine.openStep
  split
  · exact h
  · exact K.stepOpening _ (K.seq _ _ h)

/-- Steps that run on in succession; in an evaluation they act besides (R157). -/
theorem runStep (K : KeptPlan P) (n : Nat) (ev : PlanEvent) (acts : ev = .evaluation → ∀ s, P s → P (stepAtEvaluation s))
    {s : State} (h : P s) : P (runStep n ev s) := by
  induction n generalizing s with
  | zero => exact h
  | succ n ih =>
    have h2 : P (if ev = .evaluation then stepAtEvaluation (Machine.openStep s) else Machine.openStep s) := by
      split
      · next he => exact acts he _ (K.openStep h)
      · exact K.openStep h
    simp only [Machine.runStep]
    generalize (if ev = .evaluation then stepAtEvaluation (Machine.openStep s) else Machine.openStep s) = s2 at h2 ⊢
    by_cases hd : stepDone ev s2 = true
    · rw [if_pos hd]
      by_cases he : currentAct s2 = some .endPlan
      · rw [if_pos he]
        exact K.planEnd h2
      · rw [if_neg he]
        by_cases ho : planOver (Machine.endStep s2) = true
        · rw [if_pos ho]
          exact K.planEnd (K.endStep h2)
        · rw [if_neg ho]
          exact ih (K.endStep h2)
    · rw [if_neg hd]
      exact h2

theorem finishStep (K : KeptPlan P) (ev : PlanEvent) (acts : ev = .evaluation → ∀ s, P s → P (stepAtEvaluation s))
    {s : State} (h : P s) : P (finishStep ev s) := by
  unfold Machine.finishStep
  simp only []
  split
  · exact K.planEnd (K.endStep h)
  · exact K.runStep _ _ acts (K.endStep h)

/-- A step ends outside an evaluation (R157). -/
theorem finishStep_outside (K : KeptPlan P) {ev : PlanEvent} (e : ev ≠ .evaluation) {s : State} (h : P s) :
    P (Machine.finishStep ev s) := K.finishStep ev (fun x => absurd x e) h

theorem planAtFeederChange (K : KeptPlan P) {s : State} (h : P s) : P (planAtFeederChange s) := by
  unfold Machine.planAtFeederChange
  split <;> (try split) <;> first | exact h | exact K.finishStep_outside (ev := .feederChange) nofun h

theorem planAtUnitOnline (K : KeptPlan P) {s : State} (h : P s) : P (planAtUnitOnline s) := by
  unfold Machine.planAtUnitOnline
  split <;> (try split) <;> first | exact h | exact K.finishStep_outside (ev := .other) nofun h

theorem planAtRetired (K : KeptPlan P) (i : Fin 8) {s : State} (h : P s) : P (planAtRetired i s) := by
  unfold Machine.planAtRetired
  split <;> (try split) <;> first | exact h | exact K.finishStep_outside (ev := .other) nofun h | exact K.raiseAndServe _ _ _ h

/-- What follows a change of feeder states keeps what its writes keep (R152, R158, R159). -/
theorem feedersSettled (K : KeptPlan P) {s : State} (h : P s) : P (feedersSettled s) := by
  unfold Machine.feedersSettled
  split <;> first | exact h | exact K.judgeCleared h | exact K.planAtFeederChange h

theorem abortBlackStart (K : KeptPlan P) {s : State} (h : P s) : P (abortBlackStart s) := by
  unfold Machine.abortBlackStart
  simp only []
  split
  · exact K.seq _ _ h
  · exact K.clearCaps (K.enterPhase _ _ (K.withdrawReason _ (K.withdrawClaims _ _ (K.seq _ _ h))))

theorem stepTimerEnds (K : KeptPlan P) {s : State} (h : P s) : P (stepTimerEnds s) := by
  unfold Machine.stepTimerEnds
  split <;> (try split) <;> (try split) <;>
    first | exact h | exact K.enterFailed _ h | exact K.finishStep_outside (ev := .other) nofun h

theorem waitStepEnds (K : KeptPlan P) {s : State} (h : P s) : P (waitStepEnds s) := by
  unfold Machine.waitStepEnds
  split <;> (try split) <;> first | exact h | exact K.finishStep_outside (ev := .other) nofun h

end KeptPlan

end Sys2Proof.Machine
end

