-- ==== Sys2Proof/Laws/KeptFeeders.lean ====
section
/-! SUPPORT. What every shared operation keeps, continued from KeptPlan.lean: the acts and events of the Shed Table (06). -/

namespace Sys2Proof.Machine

variable {P : State → Prop}

/-- The writes of the Shed Table: those of the plan, the feeders, the shed items, the hold-off, and the claims that a report
applies. -/
structure KeptFeeders (P : State → Prop) : Prop extends KeptPlan P where
  openOrder : ∀ fs s, fs ≠ [] → P s → P (queueFeederOrder (.openSet fs) fs s)
  setFeeder : ∀ k st why s, st ≠ .closing → P s → P (setFeederState k st why s)
  feeder : ∀ k f (s : State), (f s.feeders[k]).state = s.feeders[k].state →
    (f s.feeders[k]).relayWindow = s.feeders[k].relayWindow → P s → P (modFeeder k f s)
  shed : ∀ (x : ShedTable) (s : State), P s → P { s with shed := x }
  rest : ∀ (r : Restoration) (s : State),
    (s.rest.bucket ≤ s.cfg.settings.restore.capacity → r.bucket ≤ s.cfg.settings.restore.capacity) →
    P s → P { s with rest := r }
  apply : ∀ p s, P s → P (applyClaims p s)

namespace KeptFeeders

theorem shedEvent (K : KeptFeeders P) (stage : Nat) (why : Cause) (amount : Nat) {s : State} (h : P s) :
    P (shedEvent stage why amount s) := K.withdrawClaims _ _ (K.rest _ _ (fun e => by simpa using e) (K.notify _ _ _ _ _ _ _ h))

theorem listFeeder (K : KeptFeeders P) (why : Cause) (k : Fin 24) {s : State} (h : P s) : P (listFeeder why s k) :=
  K.feeder _ _ _ rfl rfl (K.setFeeder _ _ _ _ nofun h)

/-- A shedding act keeps what its writes keep (R112, R130). -/
theorem openFeeders (K : KeptFeeders P) (fs : List (Fin 24)) (why : Cause) (stage amount : Nat) {s : State} (h : P s) :
    P (openFeeders fs why stage amount s) := by
  unfold Machine.openFeeders
  split
  · exact h
  · next e =>
    have some : fs ≠ [] := fun x => e (by simp [x])
    exact K.shedEvent _ _ _ (kept_foldl (fun _ _ h => K.listFeeder _ _ h) _ (K.openOrder _ _ some h))

theorem clearingListing (K : KeptFeeders P) {s : State} (h : P s) : P (clearingListing s) := by
  unfold Machine.clearingListing
  split
  · exact K.shed _ _ (K.openFeeders _ _ _ _ h)
  · exact h

theorem relistClosed (K : KeptFeeders P) (k : Fin 24) {s : State} (h : P s) : P (relistClosed k s) := by
  unfold Machine.relistClosed
  split
  · exact K.openFeeders _ _ _ _ h
  · exact h

theorem cancelStages (K : KeptFeeders P) {s : State} (h : P s) : P (cancelStages s) := K.shed _ _ h

theorem offerFeeders (K : KeptFeeders P) (e : EventKind) (fs : List (Fin 24)) {s : State} (h : P s) :
    P (offerFeeders e fs s) := kept_foldl (fun _ _ h => K.offer _ _ _ _ h) _ h

theorem setStageTimer (K : KeptFeeders P) (n : Fin 4) (t : Option Time) {s : State} (h : P s) :
    P (setStageTimer n t s) := K.shed _ _ h

theorem fireStage (K : KeptFeeders P) (n : Fin 4) {s : State} (h : P s) : P (fireStage n s) := by
  unfold Machine.fireStage
  simp only []
  split
  · exact K.shed _ _ (K.offerFeeders _ _ (K.openFeeders _ _ _ _ (K.setStageTimer _ _ h)))
  · exact K.setStageTimer _ _ h

theorem applyStage (K : KeptFeeders P) (n : Fin 4) {s : State} (h : P s) : P (applyStage s n) := by
  unfold Machine.applyStage
  simp only []
  split
  · split
    · exact h
    · split
      · exact K.fireStage _ h
      · exact K.setStageTimer _ _ h
  · split
    · exact K.setStageTimer _ _ h
    · exact h

theorem advanceStages (K : KeptFeeders P) {s : State} (h : P s) : P (advanceStages s) := by
  have fire : ∀ (n : Fin 4) {s : State}, P s → P (if s.shed.timers[n].isSome then Machine.fireStage n s else s) := by
    intro n s h
    split
    · exact K.fireStage _ h
    · exact h
  unfold Machine.advanceStages
  split
  · exact fire 1 (fire 0 h)
  · exact h

theorem releaseSpell (K : KeptFeeders P) {s : State} (h : P s) : P (releaseSpell s) := by
  unfold Machine.releaseSpell
  split
  · exact K.shed _ _ h
  · simp only []
    split <;> exact K.shed _ _ h

/-- The stages at an evaluation keep what their writes keep (R119 to R123). -/
theorem stagesEvaluate (K : KeptFeeders P) {s : State} (h : P s) : P (stagesEvaluate s) := by
  have staged : P (Machine.advanceStages ((List.finRange 4).foldl Machine.applyStage s)) :=
    K.advanceStages (kept_foldl (fun _ _ h => K.applyStage _ h) _ h)
  unfold Machine.stagesEvaluate
  split
  · exact K.shed _ _ h
  · split
    · simp only []
      split
      · exact K.releaseSpell staged
      · exact staged
    · exact h

theorem markUncovered (K : KeptFeeders P) (k : ShedKind) (b : Bool) {s : State} (h : P s) : P (markUncovered k b s) := by
  cases k <;> exact K.shed _ _ h

theorem judgeCover (K : KeptFeeders P) (k : ShedKind) (short : Nat) {s : State} (h : P s) : P (judgeCover k short s) := by
  unfold Machine.judgeCover
  split
  · exact K.markUncovered _ _ h
  · split
    · exact h
    · exact K.markUncovered _ _ (K.notify _ _ _ _ _ _ _ h)

/-- An act of shortfall or overload shedding keeps what its writes keep (R124, R127). -/
theorem shedAct (K : KeptFeeders P) (k : ShedKind) (amount : Nat) {s : State} (h : P s) : P (shedAct k amount s) :=
  K.judgeCover _ _ (K.offerFeeders _ _ (K.openFeeders _ _ _ _ h))

theorem askShortfallShed (K : KeptFeeders P) (amount : Nat) {s : State} (h : P s) : P (askShortfallShed amount s) := by
  unfold Machine.askShortfallShed
  split
  · exact h
  · exact K.shedAct _ _ h

theorem askOverloadShed (K : KeptFeeders P) (amount : Nat) {s : State} (h : P s) : P (askOverloadShed amount s) := by
  unfold Machine.askOverloadShed
  split
  · exact h
  · exact K.shedAct _ _ h

theorem openTies (K : KeptFeeders P) (amount : Nat) {s : State} (h : P s) : P (openTies amount s) :=
  K.openFeeders _ _ _ _ h

/-! ## Reports and windows (R113 to R118) -/

theorem feederCloses (K : KeptFeeders P) (k : Fin 24) (why : Cause) {s : State} (h : P s) : P (feederCloses k why s) := by
  have closed : P (setFeederState k .closed why s) := K.setFeeder _ _ _ _ nofun h
  unfold Machine.feederCloses
  simp only []
  refine K.feedersSettled (K.relistClosed _ ?_)
  split
  · exact K.apply _ _ closed
  · split
    · exact K.notify _ _ _ _ _ _ _ closed
    · exact closed

theorem feederMoves (K : KeptFeeders P) (k : Fin 24) {st : FeederState} (why : Cause) {s : State} (e : st ≠ .closing)
    (h : P s) : P (feederMoves k st why s) := K.feedersSettled (K.setFeeder _ _ _ _ e h)

theorem reportOpen (K : KeptFeeders P) (k : Fin 24) (why : Cause) {s : State} (h : P s) : P (reportOpen k why s) := by
  unfold Machine.reportOpen
  split <;> first | exact h | exact K.feederMoves _ _ nofun h

theorem reportClosed (K : KeptFeeders P) (k : Fin 24) (why : Cause) {s : State} (h : P s) : P (reportClosed k why s) := by
  unfold Machine.reportClosed
  split <;> first | exact h | exact K.feederCloses _ _ h

theorem takeFeederBreaker (K : KeptFeeders P) (k : Fin 24) (closed : Bool) {s : State} (h : P s) :
    P (takeFeederBreaker k closed s) := by
  unfold Machine.takeFeederBreaker resolveFeeder
  split
  · split
    · exact K.feederCloses _ _ h
    · exact K.feedersSettled (K.feeder _ _ _ rfl rfl (K.setFeeder _ _ _ _ nofun h))
  · split
    · exact K.reportClosed _ _ h
    · exact K.reportOpen _ _ h

/-- An entry of a FEEDER STATUS keeps what the writes of a feeder keep, the load estimate among them (R117). -/
theorem takeFeederStatus (K : KeptFeeders P) (k : Fin 24) (closed : Bool) (load : Nat)
    (estimate : ∀ s, P s → P (modFeederCfg k (fun c => { c with estimate := min 20000 load }) s)) {s : State} (h : P s) :
    P (takeFeederStatus k closed load s) := by
  unfold Machine.takeFeederStatus
  simp only []
  split
  · exact estimate _ (K.takeFeederBreaker _ _ h)
  · exact K.takeFeederBreaker _ _ h

theorem openingWindowEnds (K : KeptFeeders P) (k : Fin 24) {s : State} (h : P s) : P (openingWindowEnds k s) := by
  unfold Machine.openingWindowEnds
  split
  · exact K.feederMoves _ _ nofun h
  · exact h

theorem closingWindowEnds (K : KeptFeeders P) (k : Fin 24) {s : State} (h : P s) : P (closingWindowEnds k s) := by
  unfold Machine.closingWindowEnds
  split
  · exact K.feedersSettled (K.withdrawClaims _ _ (K.setFeeder _ _ _ _ nofun h))
  · exact h

theorem stageTimerEnds (K : KeptFeeders P) (n : Fin 4) {s : State} (h : P s) : P (stageTimerEnds n s) := by
  unfold Machine.stageTimerEnds
  split
  · simp only []
    split
    · exact K.fireStage _ h
    · exact K.feedersSettled (K.fireStage _ h)
  · exact h

theorem settleEnds (K : KeptFeeders P) {s : State} (h : P s) : P (settleEnds s) := by
  unfold Machine.settleEnds
  split
  · exact K.shed _ _ h
  · exact h

theorem holdOffEnds (K : KeptFeeders P) {s : State} (h : P s) : P (holdOffEnds s) := by
  unfold Machine.holdOffEnds
  split
  · exact K.rest _ _ id h
  · exact h

theorem adoptFeeder (K : KeptFeeders P) (k : Fin 24) {s : State} (h : P s) : P (adoptFeeder k s) :=
  K.feedersSettled (K.feeder _ _ _ rfl rfl (K.setFeeder _ _ _ _ nofun h))

theorem dropFeeder (K : KeptFeeders P) (k : Fin 24) {s : State} (h : P s) : P (dropFeeder k s) :=
  K.feedersSettled (K.feeder _ _ _ rfl rfl (K.setFeeder _ _ _ _ nofun h))

theorem relistAtReturn (K : KeptFeeders P) {s : State} (h : P s) : P (relistAtReturn s) := by
  unfold Machine.relistAtReturn
  split
  · exact K.judgeCleared (K.clearingListing (K.shed _ _ h))
  · exact h

end KeptFeeders

end Sys2Proof.Machine
end

