-- ==== Sys2Proof/Laws/KeptUnits.lean ====
section
/-! SUPPORT. What every shared operation keeps, continued from KeptPlan.lean: the events of the gensets, their failures, and
the hand-overs (03, 04). -/

namespace Sys2Proof.Machine

variable {P : State → Prop}

/-- A state in which a unit holds a start slot (R64). -/
def UnitState.starts : UnitState → Bool
  | .starting | .synchronising => true
  | _ => false

/-- A state that a Local unit may be in (R75, R46). -/
def UnitState.tracked : UnitState → Bool
  | .unknown | .stopped | .online => true
  | _ => false

/-- Genset `i` may leave its state for `st` outside a start: it holds no slot, or is Local, which a sound state excludes; and
a Local unit whose state is tracked stays so (R64, R75). -/
structure mayEnter (s : State) (i : Fin 8) (st : UnitState) : Prop where
  free : s.gens[i].state.starts = true → s.gens[i].authority = .byPlant
  settles : st.starts = false
  tracked : s.gens[i].authority = .byPlant → s.gens[i].state.tracked = true → st.tracked = true

/-- The writes of the genset events: those of the plan, and the changes of a unit's state and authority. -/
structure KeptUnits (P : State → Prop) : Prop extends KeptPlan P where
  tail : ∀ i s, P s → P (moveToTail i s)
  failCount : ∀ i s, P s → P (raiseFailCount i s)
  setUnit : ∀ i st why s, mayEnter s i st → P s → P (setUnitState i st why s)
  sync : ∀ i why s, s.gens[i].state = .starting → P s → P (setUnitState i .synchronising why s)
  leave : ∀ i st why s, s.gens[i].state.starts = true → st.starts = false → P s → P (setUnitState i st why (freeSlot i s))
  own : ∀ i f (s : State), (f s.gens[i]).state = s.gens[i].state → (f s.gens[i]).phaseTimer = s.gens[i].phaseTimer →
    ((f s.gens[i]).authority = .byPlant → s.gens[i].state.tracked = true) → P s → P (modGen i f s)
  handOver : ∀ i why id s, P s → P (handOver i why id s)
  returned : ∀ i s, s.gens[i].authority = .byPlant → P s → P (setUnitState i (returnedState s i) .return
    (notifyUnitAuthority i .coordinated .return 0
      (modGen i (fun g => { g with authority := .coordinated, recallWindow := none }) s)))

/-! ## What a serving leaves of a unit -/

/-- The start of a unit changes no other unit. -/
theorem beginStart_gens_ne (slot : Nat) (k : ReasonKind) (r : Reason) {i j : Fin 8} (s : State) (h : j ≠ i) :
    (beginStart slot k r i s).gens[j] = s.gens[j] := by
  unfold beginStart
  simp only [offer_gens, queueUnitOrder_gens]
  rw [setUnitState_gens_ne _ _ _ h]
  split <;> rfl

/-- A unit that is no candidate for its state keeps state and authority through a serving and through the plan. -/
theorem unitStands_kept (i : Fin 8) {st : UnitState} (a : Authority) (h1 : st ≠ .stopped) (h2 : st ≠ .cooldown) :
    KeptPlan (fun t => t.gens[i].state = st ∧ t.gens[i].authority = a) where
  notify := fun _ _ _ _ _ _ _ h => by simpa using h
  offer := fun _ _ _ _ h => by simpa using h
  book := fun _ _ _ _ _ h => h
  seq := fun _ _ h => h
  recompute := fun _ h => by simpa using h
  drop := fun _ _ h => by simpa using h
  putReason := fun _ _ _ h => by simpa using h
  gen := fun j f s hs ha _ h => by
    by_cases e : i = j
    · subst e; simpa [-Fin.getElem_fin, hs, ha] using h
    · simpa [-Fin.getElem_fin, e] using h
  begin := fun slot k r j s hc _ h => by
    have e : i ≠ j := by
      rintro rfl
      simp only [candidate, Bool.and_eq_true, Bool.or_eq_true, decide_eq_true_eq, h.1] at hc
      exact hc.2.elim h1 h2
    rw [beginStart_gens_ne _ _ _ _ e]
    exact h
  cap := fun _ _ _ h => by simpa using h

namespace KeptUnits

theorem mayLeave {s : State} {i : Fin 8} {st : UnitState} (h1 : s.gens[i].state.starts = false) (h2 : st.starts = false)
    (h3 : s.gens[i].authority = .byPlant → s.gens[i].state.tracked = true → st.tracked = true) : mayEnter s i st :=
  ⟨fun h => absurd h (by simp [-Fin.getElem_fin, h1]), h2, h3⟩

@[simp] theorem stoppedState_starts (s : State) (i : Fin 8) : (stoppedState s i).starts = false := by
  unfold stoppedState; split <;> rfl

theorem notifyLockout (K : KeptUnits P) (newly : Bool) (i : Fin 8) (why : Cause) {s : State} (h : P s) :
    P (notifyLockout newly i why s) := by
  unfold Machine.notifyLockout
  split
  · exact K.notify _ _ _ _ _ _ _ h
  · exact h

/-- A failure of a unit that holds no slot (R47, R59, R60). -/
theorem failUnit (K : KeptUnits P) (i : Fin 8) (why : Cause) {s : State} (h1 : s.gens[i].state.starts = false)
    (h2 : s.gens[i].authority = .byPlant → s.gens[i].state.tracked = true → False) (h : P s) : P (failUnit i why s) :=
  K.notifyLockout _ _ _ (K.setUnit _ _ _ _ (mayLeave h1 (by simp) (fun a b => (h2 a b).elim))
    (K.tail _ _ (K.failCount _ _ h)))

/-- A failure of a unit that has just left its slot (R56). -/
theorem failLeaving (K : KeptUnits P) (i : Fin 8) (why : Cause) {s : State} (h1 : s.gens[i].state.starts = true)
    (h : P s) : P (Machine.failUnit i why (freeSlot i s)) :=
  K.notifyLockout _ _ _ (K.leave i _ why (moveToTail i (raiseFailCount i s)) h1 (by simp)
    (K.tail _ _ (K.failCount _ _ h)))

theorem startFailure (K : KeptUnits P) (i : Fin 8) (byWindow : Bool) (why : Cause) {s : State}
    (h1 : s.gens[i].state.starts = true) (h : P s) : P (startFailure i byWindow why s) := by
  have left : P (Machine.offer .startFailed (some (i.val + 1)) 0
      (if byWindow && !linkActive (freeSlot i s) .G then
        setUnitState i (stoppedState (freeSlot i s) i) why (freeSlot i s)
      else Machine.failUnit i why (freeSlot i s))) := by
    refine K.offer _ _ _ _ ?_
    split
    · exact K.leave _ _ _ _ h1 (by simp) h
    · exact K.failLeaving _ _ h1 h
  unfold Machine.startFailure
  simp only []
  split
  · exact K.unitSettled left
  · refine K.unitSettled ?_
    split
    · exact K.attemptFailed (K.toServe.returnReason _ left)
    · exact K.toServe.returnReason _ left

theorem reachOnline (K : KeptUnits P) (i : Fin 8) (why : Cause) {s : State} (h1 : s.gens[i].state.starts = true)
    (h : P s) : P (reachOnline i why s) := by
  have left := K.leave i .online why s h1 rfl h
  unfold Machine.reachOnline
  simp only []
  split
  · exact K.unitSettled (K.planAtUnitOnline left)
  · refine K.unitSettled (K.planAtUnitOnline ?_)
    split
    · exact K.planAtRetired _ (K.toServe.reasonMet _ _ left)
    · exact K.toServe.reasonMet _ _ left

theorem completeStop (K : KeptUnits P) (i : Fin 8) (why : Cause) {s : State} (h1 : s.gens[i].state = .unloading)
    (h : P s) : P (completeStop i why s) := by
  have cooling : P (setUnitState i .cooldown why (moveToTail i s)) :=
    K.setUnit _ _ _ _ (mayLeave (by simp [-Fin.getElem_fin, h1, UnitState.starts]) rfl (by simp [-Fin.getElem_fin, h1, UnitState.tracked])) (K.tail _ _ h)
  refine K.unitSettled ?_
  split
  · exact K.setUnit _ _ _ _ (mayLeave (by simp [-Fin.getElem_fin, UnitState.starts]) (by simp) (by simp [-Fin.getElem_fin, UnitState.tracked])) cooling
  · exact cooling

theorem endCooldown (K : KeptUnits P) (i : Fin 8) (why : Cause) {s : State} (h1 : s.gens[i].state = .cooldown) (h : P s) :
    P (endCooldown i why s) :=
  K.unitSettled (K.setUnit _ _ _ _ (mayLeave (by simp [-Fin.getElem_fin, h1, UnitState.starts]) (by simp) (by simp [-Fin.getElem_fin, h1, UnitState.tracked])) h)

theorem faultStop (K : KeptUnits P) (i : Fin 8) (why : Cause) {s : State}
    (h1 : s.gens[i].state = .unloading ∨ s.gens[i].state = .cooldown) (h : P s) : P (faultStop i why s) := by
  refine K.unitSettled (K.failUnit _ _ ?_ ?_ h) <;> rcases h1 with e | e <;> simp [-Fin.getElem_fin, e, UnitState.starts, UnitState.tracked]

theorem trip (K : KeptUnits P) (i : Fin 8) (why : Cause) {s : State} (h1 : s.gens[i].state = .online)
    (h2 : s.gens[i].authority = .coordinated) (h : P s) : P (trip i why s) := by
  have lost := K.offer .trip (some (i.val + 1)) s.gens[i].lastOutput _
    (K.failUnit i why (by simp [-Fin.getElem_fin, h1, UnitState.starts]) (by simp [-Fin.getElem_fin, h2]) h)
  unfold Machine.trip
  simp only []
  generalize Machine.offer EventKind.trip (some (i.val + 1)) s.gens[i].lastOutput (Machine.failUnit i why s) = s1 at lost ⊢
  have judged : P (Machine.attemptFailed (if (decide (0 < s.gens[i].lastOutput) && s1.seq.phase.raisesTrip) = true then
      Machine.raiseReason .trip (tripNeed s1 s.gens[i].lastOutput) none s1 else s1)) := by
    refine K.attemptFailed ?_
    split
    · exact K.toServe.raiseReason _ _ _ lost
    · exact lost
  refine K.unitSettled ?_
  split
  · exact judged
  · exact K.handOver _ _ _ _ judged

theorem adopt (K : KeptUnits P) (i : Fin 8) (why : Cause) {s : State}
    (h1 : s.gens[i].state = .stopped ∨ s.gens[i].state = .cooldown) (h : P s) : P (adopt i why s) := by
  refine K.unitSettled (K.planAtUnitOnline (K.setUnit _ _ _ _ (mayLeave ?_ rfl (fun _ _ => rfl))
    (K.notify _ _ _ _ _ _ _ h)))
  rcases h1 with e | e <;> simp [-Fin.getElem_fin, e, UnitState.starts]

theorem discrepancy (K : KeptUnits P) (i : Fin 8) (st : UnitState) (why : Cause) {s : State} (h : P s) :
    P (discrepancy i st why s) := K.notify _ _ _ _ _ _ _ h

theorem trackUnit (K : KeptUnits P) (i : Fin 8) (online : Bool) (why : Cause) {s : State}
    (h1 : s.gens[i].authority = .byPlant) (h : P s) : P (trackUnit i online why s) := by
  have key : ∀ st : UnitState, st.starts = false → st.tracked = true →
      P (if s.gens[i].state = st then s else Machine.unitSettled (setUnitState i st why s)) := by
    intro st h2 h3
    split
    · exact h
    · exact K.unitSettled (K.setUnit _ _ _ _ ⟨fun _ => h1, h2, fun _ _ => h3⟩ h)
  cases online
  · exact key .stopped rfl rfl
  · exact key .online rfl rfl

/-- The states of a Coordinated unit that an act is taken in (R50, R52). -/
def actFits (a : UnitAct) (st : UnitState) : Bool :=
  match a with
  | .agrees | .discrepancy => true
  | .adoption => st = .stopped || st = .cooldown
  | .toSynchronising => st = .starting
  | .startFailure | .toOnline => st.starts
  | .trip => st = .online
  | .toCooldown => st = .unloading
  | .faultStop => st = .unloading || st = .cooldown
  | .endOfCooldown => st = .cooldown

theorem reportAct_fits (st : UnitState) (e : UnitEvent) : actFits (reportAct st e) st = true := by
  cases st <;> cases e <;> rfl

theorem statusAct_fits (st : UnitState) (running closed : Bool) : actFits (statusAct st running closed).1 st = true := by
  cases st <;> cases running <;> cases closed <;> rfl

/-- An act taken in a state it fits keeps what the writes of a unit keep (R50, R52). -/
theorem takeUnitAct (K : KeptUnits P) (i : Fin 8) (a : UnitAct) (ev why : Cause) {s : State}
    (h1 : s.gens[i].authority = .coordinated) (h2 : actFits a s.gens[i].state = true) (h : P s) :
    P (takeUnitAct i a ev why s) := by
  cases a <;> simp only [actFits, Bool.or_eq_true, decide_eq_true_eq] at h2
  case agrees => exact h
  case discrepancy => exact K.discrepancy _ _ _ h
  case adoption => exact K.adopt _ _ h2 h
  case toSynchronising => exact K.unitSettled (K.sync _ _ _ h2 h)
  case startFailure => exact K.startFailure _ _ _ h2 h
  case toOnline => exact K.reachOnline _ _ h2 h
  case trip => exact K.trip _ _ h2 h1 h
  case toCooldown => exact K.completeStop _ _ h2 h
  case faultStop => exact K.faultStop _ _ h2 h
  case endOfCooldown => exact K.endCooldown _ _ h2 h

theorem localReport (K : KeptUnits P) (i : Fin 8) (e : UnitEvent) {s : State} (h1 : s.gens[i].authority = .byPlant)
    (h : P s) : P (localReport i e s) := by
  cases e <;> simp only [Machine.localReport] <;> first | exact h | exact K.trackUnit _ _ _ h1 h

@[simp] theorem lastStates_state (e : UnitEvent) (g : Genset) : (lastStates e g).state = g.state := by cases e <;> rfl
@[simp] theorem lastStates_authority (e : UnitEvent) (g : Genset) : (lastStates e g).authority = g.authority := by
  cases e <;> rfl
@[simp] theorem lastStates_phaseTimer (e : UnitEvent) (g : Genset) : (lastStates e g).phaseTimer = g.phaseTimer := by
  cases e <;> rfl

/-- A UNIT REPORT event keeps what the writes of a unit keep (R49, R50). -/
theorem takeUnitReport (K : KeptUnits P) (i : Fin 8) (e : UnitEvent) {s : State} (h : P s) : P (takeUnitReport i e s) := by
  have seen : P (modGen i (lastStates e) s) := K.gen _ _ _ (by simp) (by simp) (by simp) h
  unfold Machine.takeUnitReport
  simp only []
  split
  · exact seen
  · split
    · next ha => exact K.localReport _ _ ha seen
    · next ha => exact K.takeUnitAct _ _ _ _ ha (reportAct_fits _ _) seen

theorem resolveUnit (K : KeptUnits P) (i : Fin 8) (e : UnitStanding) {s : State} (h1 : s.gens[i].state = .unknown)
    (h : P s) : P (resolveUnit i e s) := by
  have owned : P (Machine.recompute (modGen i (fun g => { g with authority := e.control }) s)) :=
    K.recompute _ (K.own _ _ _ rfl rfl (by simp [-Fin.getElem_fin, h1, UnitState.tracked]) h)
  refine K.unitSettled (K.planAtUnitOnline (K.setUnit _ _ _ _ (mayLeave ?_ ?_ ?_) owned))
  · simp [-Fin.getElem_fin, h1, UnitState.starts]
  · split
    · rfl
    · split
      · exact stoppedState_starts _ _
      · rfl
  · simp only [recompute_gens, modGen_gens_self, h1]
    intro ha _
    split
    · rfl
    · simp [-Fin.getElem_fin, ha, UnitState.tracked]

/-- An entry of a UNIT STATUS keeps what the writes of a unit keep (R51, R52). -/
theorem takeUnitStatus (K : KeptUnits P) (i : Fin 8) (e : UnitStanding) {s : State} (h : P s) :
    P (takeUnitStatus i e s) := by
  have seen : P (modGen i (fun g => { g with engineRunning := e.running, breakerClosed := e.closed }) s) :=
    K.gen _ _ _ rfl rfl rfl h
  unfold Machine.takeUnitStatus
  simp only []
  split
  · next hu => exact K.resolveUnit _ _ (by simpa [-Fin.getElem_fin] using hu) seen
  · have acted : P (match s.gens[i].authority with
        | .byPlant => Machine.trackUnit i e.closed .status
            (modGen i (fun g => { g with engineRunning := e.running, breakerClosed := e.closed }) s)
        | .coordinated => Machine.takeUnitAct i (statusAct s.gens[i].state e.running e.closed).1
            (statusAct s.gens[i].state e.running e.closed).2 .status
            (modGen i (fun g => { g with engineRunning := e.running, breakerClosed := e.closed }) s)) := by
      split
      · next ha => exact K.trackUnit _ _ _ (by simpa [-Fin.getElem_fin] using ha) seen
      · next ha =>
        exact K.takeUnitAct i _ _ _ (by simpa [-Fin.getElem_fin] using ha)
          (by simpa [-Fin.getElem_fin] using statusAct_fits s.gens[i].state e.running e.closed) seen
    split
    · exact K.discrepancy _ _ _ acted
    · exact acted

/-! ## Windows, returns and stops -/

theorem stopFails (K : KeptUnits P) (i : Fin 8) {s : State} (h1 : s.gens[i].state = .unloading) (h : P s) :
    P (stopFails i s) :=
  K.unitSettled (K.planAtUnitOnline (K.notify _ _ _ _ _ _ _
    (K.setUnit _ _ _ _ (mayLeave (by simp [-Fin.getElem_fin, h1, UnitState.starts]) rfl (fun _ _ => rfl)) h)))

theorem phaseEnded_state {s : State} {i : Fin 8} {st : UnitState} (h : phaseEnded s i st = true) :
    s.gens[i].state = st := by
  simp only [phaseEnded, Bool.and_eq_true, decide_eq_true_eq] at h
  exact h.1

theorem crankWindowEnds (K : KeptUnits P) (i : Fin 8) {s : State} (h : P s) : P (crankWindowEnds i s) := by
  unfold Machine.crankWindowEnds
  split
  · next e => exact K.startFailure _ _ _ (by simp [-Fin.getElem_fin, phaseEnded_state e, UnitState.starts]) h
  · exact h

theorem syncWindowEnds (K : KeptUnits P) (i : Fin 8) {s : State} (h : P s) : P (syncWindowEnds i s) := by
  unfold Machine.syncWindowEnds
  split
  · next e => exact K.startFailure _ _ _ (by simp [-Fin.getElem_fin, phaseEnded_state e, UnitState.starts]) h
  · exact h

theorem unloadWindowEnds (K : KeptUnits P) (i : Fin 8) {s : State} (h : P s) : P (unloadWindowEnds i s) := by
  unfold Machine.unloadWindowEnds
  split
  · next e => exact K.stopFails _ (phaseEnded_state e) h
  · exact h

theorem cooldownHoldEnds (K : KeptUnits P) (i : Fin 8) {s : State} (h : P s) : P (cooldownHoldEnds i s) := by
  unfold Machine.cooldownHoldEnds
  split
  · next e => exact K.endCooldown _ _ (phaseEnded_state e) h
  · exact h

theorem minRunEnds (K : KeptUnits P) (i : Fin 8) {s : State} (h : P s) : P (minRunEnds i s) := by
  unfold Machine.minRunEnds
  split <;> (try split) <;> first | exact h | exact K.gen _ _ _ rfl rfl rfl h

theorem recallWindowEnds (K : KeptUnits P) (i : Fin 8) {s : State} (h : P s) : P (recallWindowEnds i s) := by
  unfold Machine.recallWindowEnds
  split
  · exact K.notify _ _ _ _ _ _ _ (K.gen _ _ _ rfl rfl rfl h)
  · exact h

theorem returnLocal (K : KeptUnits P) (i : Fin 8) {s : State} (h1 : s.gens[i].authority = .byPlant) (h : P s) :
    P (returnLocal i s) :=
  K.unitSettled (K.planAtUnitOnline (K.recompute _ (K.gen _ _ _ rfl rfl rfl (K.returned i s h1 h))))

/-- Each Coordinated genset Online drops out (R150, R164). -/
theorem dropOnlineUnits (K : KeptUnits P) (why : Cause) {s : State} (h : P s) : P (dropOnlineUnits why s) := by
  have key : ∀ (is : List (Fin 8)) (s : State), is.Nodup →
      (∀ i ∈ is, s.gens[i].state = .online ∧ s.gens[i].authority = .coordinated) → P s →
      P (is.foldl (fun s i => Machine.unitSettled (setUnitState i (stoppedState s i) why
        (Machine.discrepancy i .stopped why s))) s) := by
    intro is
    induction is with
    | nil => exact fun _ _ _ h => h
    | cons i is ih =>
      intro s hn hs h
      rw [List.nodup_cons] at hn
      obtain ⟨e1, e2⟩ := hs i (by simp)
      refine ih _ hn.2 (fun j hj => ?_) (K.unitSettled (K.setUnit _ _ _ _ (mayLeave ?_ (by simp) ?_) (K.discrepancy _ _ _ h)))
      · refine (unitStands_kept j .coordinated (st := .online) nofun nofun).unitSettled ?_
        have ne : j ≠ i := fun e => hn.1 (e ▸ hj)
        simpa [-Fin.getElem_fin, ne, Machine.discrepancy] using hs j (by simp [-Fin.getElem_fin, hj])
      · simp [-Fin.getElem_fin, Machine.discrepancy, e1, UnitState.starts]
      · simp [-Fin.getElem_fin, Machine.discrepancy, e2]
  refine key _ _ ((List.nodup_finRange 8).filter _) (fun i hi => ?_) h
  simp only [coordUnits, List.mem_filter, coordOnline, Bool.and_eq_true, decide_eq_true_eq] at hi
  exact ⟨hi.2.1.2, hi.2.2⟩

theorem clearLockoutAct (K : KeptUnits P) (i : Fin 8) {s : State} (cleared : P s → P (modGensetCfg i GensetCfg.cleared s))
    (h : P s) : P (clearLockoutAct i s).1 := by
  unfold Machine.clearLockoutAct
  split
  · exact h
  · simp only []
    split
    · next e => exact K.unitSettled (K.setUnit _ _ _ _
        (mayLeave (by simp [-Fin.getElem_fin, e, UnitState.starts]) rfl (fun _ _ => rfl)) (cleared h))
    · exact cleared h

/-- A STOP, by a caller that holds the quality Full (R57, R39). -/
theorem issueStop (K : KeptUnits P) (i : Fin 8) {s : State} (stop : P s → P (queueUnitOrder (.stop i) i s)) (h : P s) :
    P (issueStop i s) := by
  unfold Machine.issueStop
  split
  · next hc =>
    simp only [canStop, coordOnline, Bool.and_eq_true, decide_eq_true_eq] at hc
    have e1 : s.gens[i].state = .online := hc.1.1.1.2
    have e2 : s.gens[i].authority = .coordinated := hc.1.1.2
    have unloading : P (setUnitState i .unloading .stop (queueUnitOrder (.stop i) i s)) :=
      K.setUnit _ _ _ _ (mayLeave (by simp [-Fin.getElem_fin, e1, UnitState.starts]) rfl (by simp [-Fin.getElem_fin, e2])) (stop h)
    simp only []
    refine K.unitSettled ?_
    split
    · exact unloading
    · exact K.endRelease _ _ _ _ (K.drop _ _ unloading)
  · exact h

end KeptUnits

end Sys2Proof.Machine
end

