-- ==== Sys2Proof/Laws/Kept.lean ====
section
/-! SUPPORT. What every shared operation keeps, continued: the evaluation whole, with the claims, the closes, the ceilings
and the buckets that it alone writes (01, 05, 07, 08). -/

namespace Sys2Proof.Machine

variable {P : State → Prop}

/-- A record that PV group `g` may take at an evaluation: its authority stays, a Coordinated group keeps a ceiling within its
rating and a Local one none, and no ceiling rises outside Full (R40, R89). -/
structure pvFits (s : State) (g : Fin 8) (p : PvGroup) : Prop where
  owner : p.authority = s.pvs[g].authority
  bounded : s.pvs[g].authority = .coordinated → (∃ v, s.pvs[g].issued = some v ∧ v ≤ s.cfg.pvs[g].rating) →
    ∃ v, p.issued = some v ∧ v ≤ s.cfg.pvs[g].rating
  absent : s.pvs[g].authority = .byPlant → s.pvs[g].issued = none → p.issued = none
  falls : s.lock.quality ≠ .full → ∀ v w, s.pvs[g].issued = some v → p.issued = some w → w ≤ v

/-- A record with the authority and the ceiling it had. -/
theorem pvFits.same {s : State} {g : Fin 8} {p : PvGroup} (h1 : p.authority = s.pvs[g].authority)
    (h2 : p.issued = s.pvs[g].issued) : pvFits s g p where
  owner := h1
  bounded := fun _ h => h2 ▸ h
  absent := fun _ h => h2 ▸ h
  falls := fun _ v w e f => by rw [h2, e] at f; cases f; exact Nat.le_refl _

/-- The writes of an evaluation: those of the units and of the feeders, and the claims, closes, STOP orders, ceilings and
buckets that it alone writes. -/
structure Kept (P : State → Prop) : Prop extends KeptUnits P, KeptFeeders P where
  ceilingOrder : ∀ es s, P s → P (queueCeilingOrder es s)
  stopOrder : ∀ i s, s.lock.quality = .full → P s → P (queueUnitOrder (.stop i) i s)
  pv : ∀ g f (s : State), pvFits s g (f s.pvs[g]) → P s → P (modPv g f s)
  cur : ∀ (c : Curtail) (s : State),
    (s.cur.bucket ≤ s.cfg.settings.curtail.capacity → c.bucket ≤ s.cfg.settings.curtail.capacity) →
    P s → P { s with cur := c }
  ask : ∀ a own s, P s → P (askClaim a own s).1
  take : ∀ k id s, P s → P (takeClose k id s)
  grant : ∀ s, P s → P (grantPending s)
  free : ∀ (n : Nat) (s : State), P s → P { s with free := n }

/-- A fold whose steps keep a property as long as they keep another. -/
theorem kept_foldl_with {α : Type} {Q : State → Prop} {f : State → α → State} (hQ : ∀ s a, Q s → Q (f s a))
    (hf : ∀ s a, Q s → P s → P (f s a)) (xs : List α) {s : State} (hq : Q s) (h : P s) : P (xs.foldl f s) := by
  induction xs generalizing s with
  | nil => exact h
  | cons x xs ih => exact ih (hQ _ _ hq) (hf _ _ hq h)

namespace Kept

/-! ## Ceilings (R92, R93 to R108) -/

theorem queueFullCeiling (K : Kept P) {s : State} (h : P s) : P (queueFullCeiling s) :=
  kept_foldl (fun _ _ h => K.pv _ _ _ (.same rfl rfl) h) _ (K.ceilingOrder _ _ h)

/-- The ceilings taken at entry to Clearing (R103). -/
theorem capAll (K : Kept P) {s : State} (h : P s) : P (capAll s) := by
  have fits : ∀ (gs : List (Fin 8)) (t : State), (∀ g ∈ gs, t.pvs[g].authority = .coordinated) → gs.Nodup → P t →
      P (gs.foldl (fun s g => modPv g clearingCap s) t) := by
    intro gs
    induction gs with
    | nil => exact fun _ _ _ h => h
    | cons g gs ih =>
      intro t hc hn h
      rw [List.nodup_cons] at hn
      have own := hc g (by simp)
      refine ih _ (fun j hj => ?_) hn.2 (K.pv _ _ _ ⟨rfl, fun _ _ => ⟨0, rfl, Nat.zero_le _⟩, ?_, ?_⟩ h)
      · have ne : j ≠ g := fun e => hn.1 (e ▸ hj)
        simpa [-Fin.getElem_fin, ne] using hc j (by simp [hj])
      · intro e; rw [own] at e; cases e
      · intro _ v w _ e; cases e; exact Nat.zero_le _
  have capped := fits (coordGroups s) s (fun g hg => by
    simpa [-Fin.getElem_fin, coordGroups, pvCoord] using (List.mem_filter.mp hg).2) ((List.nodup_finRange 8).filter _) h
  unfold Machine.capAll
  simp only []
  split
  · exact K.ceilingOrder _ _ capped
  · exact K.cur _ _ id capped

theorem issueOrder (K : Kept P) (changed : Bool) {s : State} (h : P s) : P (issueOrder changed s) := by
  unfold Machine.issueOrder
  split
  · exact K.cur _ _ id (K.queueFullCeiling h)
  · exact h

/-- The record a computing evaluation gives a coordinated group fits. -/
theorem computedGroup_fits (s t : State) (n cls left : Nat) (g : Fin 8) (hcfg : t.cfg = s.cfg) (hlock : t.lock = s.lock) :
    pvFits t g (computedGroup s (shareFrom s n cls left) g t.pvs[g]) where
  owner := rfl
  bounded := by
    rintro - ⟨v, hv, hle⟩
    refine ⟨_, by simp only [computedGroup, hv]; rfl, ?_⟩
    rcases issueCeiling_eq s.lock.quality s.cfg.settings.curtail.changeStep s.cfg.pvs[g].rating
      (cappedCeiling s g (sharedCeiling s (shareFrom s n cls left) g)) v with e | e <;> rw [e]
    · rw [hcfg]; exact Nat.le_trans (cappedCeiling_le _ _ _) (sharedCeiling_le _ _ _ _ _)
    · exact hle
  absent := fun _ e => by simp only [computedGroup, e]; rfl
  falls := by
    intro hq v w hv hw
    simp only [computedGroup, hv, Option.map_some, Option.some.injEq] at hw
    rw [← hw]
    exact issueCeiling_le (hlock ▸ hq) _ _ _ _

/-- Records of the PV groups changed one after another leave the tables and the curtailment items. -/
theorem foldPv_frame (f : Fin 8 → PvGroup → PvGroup) (gs : List (Fin 8)) (t : State) :
    (gs.foldl (fun t g => modPv g (f g) t) t).cfg = t.cfg ∧ (gs.foldl (fun t g => modPv g (f g) t) t).cur = t.cur := by
  induction gs generalizing t with
  | nil => exact ⟨rfl, rfl⟩
  | cons g gs ih => exact ih _

theorem computeCeilings (K : Kept P) (A : Nat) {s : State} (h : P s) : P (computeCeilings A s) := by
  unfold Machine.computeCeilings
  refine K.offer _ _ _ _ (K.issueOrder _ (K.cur _ _ ?_ ?_))
  · intro hb
    rw [(foldPv_frame _ _ _).1, (foldPv_frame _ _ _).2] at hb
    rw [(foldPv_frame _ _ _).1]
    exact rampStep_level _ _ _ _ _ hb
  · apply kept_foldl_with (Q := fun t => t.cfg = s.cfg ∧ t.lock = s.lock)
    · exact fun _ _ e => e
    · exact fun t g e h => K.pv _ _ _ (computedGroup_fits s t _ _ _ g e.1 e.2) h
    · exact ⟨rfl, rfl⟩
    · exact h

/-- The Curtailment Unit at an evaluation keeps what its writes keep. -/
theorem curtailmentEvaluates (K : Kept P) (A : Nat) {s : State} (h : P s) : P (curtailmentEvaluates A s) := by
  unfold Machine.curtailmentEvaluates
  split
  · exact h
  · split
    · exact K.computeCeilings _ h
    · exact K.cur _ _ (Nat.le_trans (Nat.sub_le _ _)) h

/-! ## Clearing, collapse and the plan (R151, R158, R164) -/

theorem enterClearing (K : Kept P) (why : Cause) (keep : Bool) {s : State} (h : P s) : P (enterClearing why keep s) := by
  have left : P (Machine.withdrawReasons (Machine.withdrawClaims (fun _ => true) .clearing
      (Machine.enterPhase .clearing why { s with seq := clearingItems keep s.seq }))) :=
    K.toServe.withdrawReasons (K.withdrawClaims _ _ (K.enterPhase _ _ (K.seq _ _ h)))
  exact K.judgeCleared (K.clearingListing (K.shed _ _ (K.cancelStages (K.capAll (K.cancelDecisions left)))))

theorem collapse (K : Kept P) {s : State} (h : P s) : P (collapse s) := by
  unfold Machine.collapse
  simp only []
  split
  · exact K.enterClearing _ _ (K.dropOnlineUnits _ (K.seq _ _ h))
  · exact K.enterFailed _ (K.dropOnlineUnits _ (K.seq _ _ h))

theorem chargeBucket (K : Kept P) (need : Nat) {s : State} (h : P s) : P (chargeBucket need s) :=
  K.rest _ _ (fun _ => Nat.min_le_left _ _) h

theorem attemptClose (K : Kept P) (k : Fin 24) {s : State} (h : P s) : P (attemptClose k s) := by
  unfold Machine.attemptClose
  simp only []
  split
  · have asked := K.ask (closeAsk s .blackStart k (pickupNeed s k)) none s h
    split
    · next e =>
      rw [e] at asked
      exact K.take _ _ _ (K.chargeBucket _ (K.seq _ _ asked))
    · exact h
  · exact h

theorem stepAtEvaluation (K : Kept P) {s : State} (h : P s) : P (stepAtEvaluation s) := by
  unfold Machine.stepAtEvaluation
  split
  · split
    · exact h
    · exact K.attemptClose _ h
  · split
    · exact K.attemptClose _ h
    · exact h
  · exact K.seq _ _ h
  · exact h

theorem finishStep (K : Kept P) (ev : PlanEvent) {s : State} (h : P s) : P (finishStep ev s) :=
  K.toKeptPlan.finishStep ev (fun _ _ h => K.stepAtEvaluation h) h

theorem planAtEvaluation (K : Kept P) {s : State} (h : P s) : P (planAtEvaluation s) := by
  unfold Machine.planAtEvaluation
  simp only []
  split
  · exact K.finishStep _ (K.stepAtEvaluation h)
  · exact K.stepAtEvaluation h

theorem enterRebuilding (K : Kept P) {s : State} (h : P s) : P (enterRebuilding s) := by
  have entered : P (Machine.enterPhase .rebuilding .energised
      (Machine.withdrawReason .blackStart { s with seq := { s.seq with window := none, pointer := some 1 } })) :=
    K.enterPhase _ _ (K.toKeptStart.withdrawReason _ (K.seq _ _ h))
  unfold Machine.enterRebuilding
  simp only []
  split
  · exact K.planEnd entered
  · exact K.toKeptPlan.runStep 33 .evaluation (fun _ _ h => K.stepAtEvaluation h) entered

theorem deadTestIdle (K : Kept P) {s : State} (h : P s) : P (deadTestIdle s) := by
  have run := (K.deadSpell h).2
  unfold Machine.deadTestIdle
  split
  · exact K.seq _ _ h
  · split
    · exact h
    · split
      · exact (K.deadSpell h).1
      · simp only []
        split
        · exact K.enterClearing _ _ run
        · exact run

theorem deadTestRebuilding (K : Kept P) {s : State} (h : P s) : P (deadTestRebuilding s) := by
  have run := (K.deadSpell h).2
  unfold Machine.deadTestRebuilding
  split
  · exact (K.deadSpell h).1
  · simp only []
    split
    · exact K.collapse run
    · exact run

/-- The sequencer at an evaluation keeps what its writes keep (R149, R156, R157, R164). -/
theorem sequencerEvaluates (K : Kept P) {s : State} (h : P s) : P (sequencerEvaluates s) := by
  unfold Machine.sequencerEvaluates
  split
  · exact K.deadTestIdle h
  · unfold energisedTest
    split
    · exact K.enterRebuilding h
    · exact h
  · simp only []
    split
    · exact K.planAtEvaluation (K.deadTestRebuilding h)
    · exact K.deadTestRebuilding h
  · exact h
  · exact h

/-! ## Restoration (R133 to R138) -/

theorem restoreOpens (K : Kept P) {s : State} (h : P s) : P (restoreOpens s) := by
  have leaked : P (restoreLeak s) := K.rest _ _ (Nat.le_trans (Nat.sub_le _ _)) h
  unfold Machine.restoreOpens restoreBelow
  split
  · split
    · exact K.rest _ _ id leaked
    · exact leaked
  · exact h

theorem setNext (K : Kept P) (n : Option NextFeeder) {s : State} (h : P s) : P (setNext n s) := K.rest _ _ id h

theorem restorationEvaluates (K : Kept P) (wasIdle : Bool) {s : State} (h : P s) : P (restorationEvaluates wasIdle s) := by
  unfold Machine.restorationEvaluates restoreFeeder
  split
  · split
    · next k hk =>
      have asked := K.ask (closeAsk s .restoration k (pickupNeed s k)) none s h
      simp only []
      split
      · exact K.setNext _ h
      · split
        · exact K.setNext _ h
        · split
          · next e =>
            rw [e] at asked
            exact K.offer _ _ _ _ (K.setNext _ (K.take _ _ _ (K.chargeBucket _ asked)))
          · exact K.setNext _ h
    · exact K.setNext _ h
  · exact K.setNext _ h

/-! ## The Reserve Book (R20 to R25) -/

theorem surplusDecision (K : Kept P) {s : State} (h : P s) : P (surplusDecision s) := by
  have dwell : ∀ t, P (setSurplusDwell t s) := fun _ => K.book _ _ rfl rfl rfl h
  unfold Machine.surplusDecision
  split
  · exact dwell _
  · next c _ =>
    split
    · next ht =>
      have full : s.lock.quality = .full := by
        simp only [stopTest, Bool.and_eq_true, decide_eq_true_eq] at ht
        exact ht.1.1.1.1.1.1.1
      simp only []
      split
      · exact K.issueStop c (K.stopOrder _ _ full) (dwell none)
      · exact dwell _
    · exact dwell _

theorem shortfallShedding (K : Kept P) (asked : Bool) (M : Int) {s : State} (h : P s) :
    P (shortfallShedding asked M s) := by
  unfold Machine.shortfallShedding
  split
  · exact K.askShortfallShed _ h
  · exact K.markUncovered _ _ h

theorem overloadShedding (K : Kept P) (excess : Int) {s : State} (h : P s) : P (overloadShedding excess s) := by
  unfold Machine.overloadShedding
  split
  · exact K.askOverloadShed _ h
  · exact K.markUncovered _ _ h

theorem sheddingDecision (K : Kept P) (t : Terms) {s : State} (h : P s) : P (sheddingDecision t s) := by
  unfold Machine.sheddingDecision
  simp only []
  split
  · split
    · exact K.shortfallShedding _ _ (K.overloadShedding _ (K.free _ _ h))
    · exact K.overloadShedding _ (K.shortfallShedding _ _ (K.free _ _ h))
  · exact K.overloadShedding _ (K.shortfallShedding _ _ h)

theorem guardDecision (K : Kept P) (D : Int) {s : State} (h : P s) : P (guardDecision D s) := by
  have run : ∀ t, P (setGuard t s) := fun _ => K.book _ _ rfl rfl rfl h
  unfold Machine.guardDecision
  split
  · simp only []
    split
    · unfold guardAct
      split
      · exact K.openTies _ (run _)
      · exact K.notify _ _ _ _ _ _ _ (run _)
    · exact run _
  · exact run _

theorem bookDecides (K : Kept P) (t : Terms) {s : State} (h : P s) : P (bookDecides t s) :=
  K.guardDecision _ (K.sheddingDecision _ (K.surplusDecision (K.grant _ (K.toServe.tripDecision _
    (K.toServe.overloadDecision _ (K.toServe.shortfallDecision _ h))))))

/-- An evaluation keeps what its writes keep (log 6). -/
theorem evaluate (K : Kept P) {s : State} (h : P s) : P (evaluate s) :=
  K.restorationEvaluates _ (K.sequencerEvaluates (K.restoreOpens (K.stagesEvaluate (K.curtailmentEvaluates _
    (K.bookDecides _ (K.recompute _ h))))))

end Kept

/-! ## The writes of an evaluation, from finer ones -/

/-- What a claim that enters the list satisfies (R8, R10, R11). -/
structure mayJoin (s : State) (c : Claim) : Prop where
  room : s.book.claims.length < Config.claimCapacity
  id : c.id = newClaimId s
  alone : purposeTaken s c.purpose = false
  granted : ∀ t, c.state = .granted t → canGrant s c.amount = true

/-- An ask keeps what the entry of a claim and the tally events keep (R10, R11). -/
theorem askClaim_kept (offer : ∀ k i a s, P s → P (offer k i a s))
    (enter : ∀ c s, mayJoin s c → P s → P (enterClaim c s)) (a : ClaimAsk) (own : Option Status) {s : State} (h : P s) :
    P (askClaim a own s).1 := by
  unfold askClaim
  split
  · exact h
  · split
    · exact h
    · split
      · exact h
      · next ht =>
        split
        · exact h
        · next hl =>
          have ht' : purposeTaken s a.purpose = false := by simpa using ht
          split
          · next hg => exact offer _ _ _ _ (enter _ _ ⟨Nat.lt_of_not_le hl, rfl, ht', fun _ _ => hg⟩ h)
          · split
            · exact offer _ _ _ _ h
            · exact enter _ _ ⟨Nat.lt_of_not_le hl, rfl, ht', nofun⟩ h

/-- A close keeps what its order and its change of state keep together (R114). -/
theorem takeClose_kept (k : Fin 24) (id : Nat) {s : State}
    (close : canClose s k id = true → P s → P (setFeederState k .closing .close (queueFeederOrder (.close k) [k] s)))
    (h : P s) : P (takeClose k id s) := by
  unfold takeClose
  split
  · next hc => exact close hc h
  · exact h

/-- The grants of an evaluation keep what the mark and the writes of the units keep (R12, R81). -/
theorem grantPending_kept (K : KeptUnits P) {s : State} (mark : s.lock.quality = .full → ∀ c s, P s → P (markGranted c s))
    (h : P s) : P (grantPending s) := by
  unfold grantPending
  split
  · next e =>
    simp only [Bool.and_eq_true, decide_eq_true_eq] at e
    refine kept_foldl (fun t c ht => ?_) _ h
    have told := K.offer .claimGranted c.index 0 _
      (K.notify c.holder.links .claimOutcome (c.index.getD 0) (.outcome .granted) (.code .none) c.id _ (mark e.1 c t ht))
    unfold grantPendingClaim
    simp only []
    split
    · exact K.unitSettled (K.handOver _ _ _ _ told)
    · exact told
  · exact h

end Sys2Proof.Machine
end

