-- ==== Sys2Proof/Laws/KeptLock.lean ====
section
/-! SUPPORT. What every shared operation keeps, continued from KeptServe.lean: the judgements of the Sample Lock, the quality
level, and the completion of entry (02, 12). -/

namespace Sys2Proof.Machine

variable {P : State → Prop}

/-- R34: a judgement window within its bounds. -/
def windowSound (w : List Bool) : Prop := w.length ≤ Config.windowCapacity ∧ badCount w < Config.badLimit

/-- A window that takes one more entry stays within its length. -/
theorem pushJudgement_length (good : Bool) {w : List Bool} (h : w.length ≤ Config.windowCapacity) :
    (pushJudgement good w).length ≤ Config.windowCapacity := by
  unfold pushJudgement
  split
  · simp only [List.length_append, List.length_singleton]; omega
  · simp only [List.length_append, List.length_singleton, List.length_tail]
    have : 1 ≤ Config.windowCapacity := by decide
    omega

/-- A good entry brings no bad one. -/
theorem badCount_push_good (w : List Bool) : badCount (pushJudgement true w) ≤ badCount w := by
  unfold pushJudgement badCount
  split
  · simp
  · cases w with
    | nil => simp
    | cons b w => cases b <;> simp

theorem windowSound_nil : windowSound [] := ⟨by decide, by decide⟩

theorem windowSound_first : windowSound [true] := ⟨by decide, by decide⟩

/-- The writes of the lock, with the serving that the completion of entry and the change to Stale bring. -/
structure KeptLock (P : State → Prop) : Prop extends KeptServe P where
  offer : ∀ kind index amount s, P s → P (offer kind index amount s)
  shed : ∀ (x : ShedTable) (s : State), P s → P { s with shed := x }
  spells : ∀ (q : Sequencer) (s : State), q.phase = s.seq.phase → P s → P { s with seq := q }
  lock : ∀ (l : Lock) (s : State), l.quality = s.lock.quality → (windowSound s.lock.window → windowSound l.window) →
    P s → P { s with lock := l }
  quality : ∀ (s : State), P s → P { s with lock := { s.lock with quality := qualityOf s.lock } }
  entry : ∀ (e : Entry) (s : State), P s → P { s with entry := e }
  accept : ∀ r s, P s → P (accept r s)

namespace KeptLock

theorem lockToHunt (K : KeptLock P) (n : Nat) {s : State} (h : P s) : P (lockToHunt n s) :=
  K.lock _ _ rfl (fun _ => windowSound_nil) h

theorem badEffect (K : KeptLock P) {s : State} (h : P s) : P (badEffect s) := by
  unfold Machine.badEffect
  split
  · exact h
  · exact K.lockToHunt _ h
  · simp only []
    split
    · exact K.offer _ _ _ _ (K.lockToHunt _ h)
    · next e => exact K.lock _ _ rfl (fun w => ⟨pushJudgement_length _ w.1, Nat.lt_of_not_le e⟩) h

theorem recordBad (K : KeptLock P) {s : State} (h : P s) : P (recordBad s) := K.badEffect (K.offer _ _ _ _ h)

theorem recordBads (K : KeptLock P) (n : Nat) {s : State} (h : P s) : P (recordBads n s) := by
  induction n generalizing s with
  | zero => exact h
  | succ n ih => exact ih (K.recordBad h)

theorem advanceExpected (K : KeptLock P) {s : State} (h : P s) : P (advanceExpected s) := K.lock _ _ rfl id h

theorem completeEntry (K : KeptLock P) {s : State} (h : P s) : P (completeEntry s) :=
  K.serve (K.spells { s.seq with armed := true } { s with entry := { s.entry with complete := true, window := none } } rfl
    (K.entry _ _ h))

theorem judgeEntry (K : KeptLock P) {s : State} (h : P s) : P (judgeEntry s) := by
  unfold Machine.judgeEntry
  split
  · exact K.completeEntry h
  · exact h

theorem judgeResolution (K : KeptLock P) {s : State} (h : P s) : P (judgeResolution s) := by
  unfold Machine.judgeResolution
  split
  · exact K.judgeEntry (K.entry _ _ h)
  · exact h

theorem goodEffect (K : KeptLock P) {s : State} (h : P s) : P (goodEffect s) := by
  unfold Machine.goodEffect
  split
  · exact h
  · split
    · exact K.lock _ _ rfl id h
    · exact K.judgeEntry (K.withdrawReason _ (K.lock _ _ rfl (fun _ => windowSound_first) h))
  · exact K.lock _ _ rfl
      (fun w => ⟨pushJudgement_length _ w.1, Nat.lt_of_le_of_lt (badCount_push_good _) w.2⟩) h

theorem judgeRecord (K : KeptLock P) (r : SampleRec) {s : State} (h : P s) : P (judgeRecord r s).1 := by
  unfold Machine.judgeRecord
  split
  · exact K.accept _ _ (K.goodEffect (K.lock _ _ rfl id (K.offer _ _ _ _ h)))
  · exact K.advanceExpected (K.recordBad h)

theorem takeReference (K : KeptLock P) (r : SampleRec) {s : State} (h : P s) : P (takeReference r s) :=
  K.offer _ _ _ _ (K.lock _ _ rfl id h)

theorem sequenceRecord (K : KeptLock P) (r : SampleRec) (e : Byte) {s : State} (h : P s) :
    P (sequenceRecord r e s).1 := by
  unfold Machine.sequenceRecord
  simp only []
  split
  · exact K.judgeRecord _ h
  · split
    · exact K.recordBad h
    · split
      · exact K.takeReference _ (K.recordBads _ h)
      · exact K.judgeRecord _ (K.lock _ _ rfl id (K.recordBads _ h))

theorem takeRecord (K : KeptLock P) (r : SampleRec) {s : State} (h : P s) : P (takeRecord r s).1 := by
  unfold Machine.takeRecord
  split
  · exact K.takeReference _ h
  · exact K.sequenceRecord _ _ h
  · exact K.takeReference _ h

theorem staleEffects (K : KeptLock P) {s : State} (h : P s) : P (staleEffects s) := by
  refine K.raiseBlind ?_
  refine K.spells { (cancelStages s).seq with deadSpell := none, bandSpell := none }
    { cancelStages s with book := { (cancelStages s).book with shortfallDwell := none, surplusDwell := none, guard := none } }
    rfl (K.book _ _ rfl rfl rfl (K.shed _ _ h))

/-- The settling of the quality level keeps what the writes of the lock keep (R38, R41, R42). -/
theorem settleQuality (K : KeptLock P) {s : State} (h : P s) : P (settleQuality s) := by
  unfold Machine.settleQuality
  simp only []
  split
  · exact h
  · have settled := K.notify allLinks .qualityChange 0 (.quality (qualityOf s.lock)) (.quality s.lock.quality) 0 _
      (K.quality s h)
    split
    · exact K.staleEffects settled
    · exact K.withdrawReason _ settled
    · exact settled

/-- A received sample keeps what the writes of the lock keep, and its evaluation (R28 to R36). -/
theorem receiveSample (K : KeptLock P) (kind : Byte) (p : List Byte) (ok : Bool)
    (eval : ∀ s, P s → P (evaluate s)) {s : State} (h : P s) : P (receiveSample kind p ok s) := by
  have settled : ∀ (accepted : Bool) {s : State}, P s → P (sampleSettled accepted s) := by
    intro accepted s h
    unfold sampleSettled
    simp only []
    split
    · exact eval _ (K.settleQuality h)
    · exact K.settleQuality h
  have timed : P { s with lock := { s.lock with gapNext := some (after s.clock 250) } } := K.lock _ _ rfl id h
  unfold Machine.receiveSample
  simp only []
  generalize { s with lock := { s.lock with gapNext := some (after s.clock 250) } } = s1 at timed ⊢
  have noted : P (if ok = true then s1 else Machine.offer .frameError (some 5) 0 s1) := by
    split
    · exact timed
    · exact K.offer _ _ _ _ timed
  generalize (if ok = true then s1 else Machine.offer .frameError (some 5) 0 s1) = s2 at noted ⊢
  split
  · exact settled _ (K.takeRecord _ noted)
  · exact settled _ (K.advanceExpected (K.recordBad noted))

theorem gapTimerEnds (K : KeptLock P) {s : State} (h : P s) : P (gapTimerEnds s) := by
  unfold Machine.gapTimerEnds
  split
  · split
    · exact K.settleQuality (K.advanceExpected (K.recordBad (K.lock _ _ rfl id h)))
    · exact h
  · exact h

theorem ageStep (K : KeptLock P) {s : State} (h : P s) : P (ageStep s) := by
  unfold Machine.ageStep
  split
  · split
    · exact K.settleQuality (K.lock _ _ rfl id h)
    · exact h
  · exact h

theorem resync (K : KeptLock P) {s : State} (h : P s) : P (resync s) := by
  unfold Machine.resync
  simp only []
  refine K.settleQuality (K.lockToHunt _ ?_)
  split
  · exact K.offer _ _ _ _ h
  · exact h

end KeptLock

end Sys2Proof.Machine
end

