-- ==== Sys2Proof/Laws/KeptAct.lean ====
section
/-! SUPPORT. What every command keeps before its reply: the entry, the line events, and the acts of the requests (03 to 12). -/

namespace Sys2Proof.Machine

variable {P : State → Prop}

/-- A change of a Link Controller that leaves its queues and its overflow count. -/
structure linkStands (c d : LinkCtl) : Prop where
  replies : d.replies = c.replies
  orders : d.orders = c.orders
  notices : d.notices = c.notices
  overflow : d.overflow = c.overflow
  sending : d.sending = c.sending

/-- A change of the tables that leaves the PV group records and the settings, and the ring a ring. -/
structure tablesStand (f : Tables → Tables) : Prop where
  pvs : ∀ t, (f t).pvs = t.pvs
  settings : ∀ t, (f t).settings = t.settings
  ring : ∀ t, ringSound t.ring → ringSound (f t).ring

/-- The writes of a command before its reply: those of an evaluation and of the lock, the line items, and the tables. -/
structure KeptAct (P : State → Prop) : Prop extends Kept P where
  lock : ∀ (l : Lock) (s : State), l.quality = s.lock.quality → (windowSound s.lock.window → windowSound l.window) →
    P s → P { s with lock := l }
  quality : ∀ (s : State), P s → P { s with lock := { s.lock with quality := qualityOf s.lock } }
  entry : ∀ (e : Entry) (s : State), P s → P { s with entry := e }
  accept : ∀ r s, P s → P (accept r s)
  link : ∀ l f (s : State), linkStands (s.links.get l) (f (s.links.get l)) → P s → P (modLink l f s)
  sampleFramer : ∀ (f : Framer) (s : State), P s → P { s with sampleFramer := f }
  fetched : ∀ l s, P s → P (modLink l (fun c => { c with notices := c.notices.tail, overflow := 0 }) s)
  recallOrder : ∀ i s, P s → P (queueUnitOrder (.recall i) i s)
  tables : ∀ f s, tablesStand f → P s → P (writeThrough f s)
  group : ∀ n r s, P s → P (setGroup n r s).1
  pvRecord : ∀ g r s, P s → P (setPv g r s).1
  releaseGroup : ∀ g s, P s → P (releaseGroupAct g s).1
  returnGroup : ∀ g s, P s → P (returnGroupAct g s).1
  snapshot : ∀ zero (s : State), P s → P { s with tally := s.tally.snapshot zero s.clock }

namespace KeptAct

/-- The writes of the lock are among them. -/
theorem toLock (K : KeptAct P) : KeptLock P where
  toKeptServe := K.toServe
  offer := K.offer
  shed := K.shed
  spells := fun _ _ _ h => K.seq _ _ h
  lock := K.lock
  quality := K.quality
  entry := K.entry
  accept := K.accept

/-! ## Entry (R189) -/

theorem entryWindowEnds (K : KeptAct P) {s : State} (h : P s) : P (entryWindowEnds s) := by
  have unit : ∀ (t : State) (i : Fin 8), P t → P (fallbackUnit t i) := by
    intro t i ht
    unfold fallbackUnit
    split
    · next e =>
      simp only [Bool.and_eq_true, decide_eq_true_eq] at e
      refine K.setUnit _ _ _ _ (KeptUnits.mayLeave ?_ ?_ ?_) (K.gen _ _ _ rfl rfl rfl ht)
      · simp [-Fin.getElem_fin, e.2, UnitState.starts]
      · unfold fallbackState; split
        · exact KeptUnits.stoppedState_starts _ _
        · rfl
      · simp only [modGen_gens_self]
        intro ha _
        simp [-Fin.getElem_fin, fallbackState, ha, UnitState.tracked]
    · exact ht
  have feeder : ∀ (t : State) (k : Fin 24), P t → P (fallbackFeeder t k) := by
    intro t k ht
    unfold fallbackFeeder
    split
    · exact K.setFeeder _ _ _ _ nofun ht
    · exact ht
  unfold Machine.entryWindowEnds
  split
  · simp only []
    split
    · exact K.entry _ _ h
    · exact K.toLock.judgeEntry (K.entry _ _ (kept_foldl feeder _ (kept_foldl unit _ (K.entry _ _ h))))
  · exact h

/-! ## Line events (R168, R171, R175) -/

theorem restartSilence (K : KeptAct P) (l : Link) {s : State} (h : P s) : P (restartSilence l s) :=
  K.link _ _ _ ⟨rfl, rfl, rfl, rfl, rfl⟩ h

theorem goodFrame (K : KeptAct P) (l : Link) {s : State} (h : P s) : P (goodFrame l s) := by
  have heard := K.restartSilence l h
  unfold Machine.goodFrame
  simp only []
  split
  · exact heard
  · have back := K.notify [.S] .linkReturned (linkIndex l) .none (.code .none) 0 _
      (K.link l (fun c => { c with active := true }) _ ⟨rfl, rfl, rfl, rfl, rfl⟩ heard)
    unfold returnLink tellActive
    cases l
    · exact back
    · exact K.serve back
    · exact K.recompute _ back
    · exact K.relistAtReturn back

theorem silenceEnds (K : KeptAct P) (l : Link) {s : State} (h : P s) : P (silenceEnds l s) := by
  unfold Machine.silenceEnds
  split
  · have silent := K.notify [.S] .linkSilent (linkIndex l) .none (.code .none) 0 _
      (K.link l (fun c => { c with active := false }) _ ⟨rfl, rfl, rfl, rfl, rfl⟩ h)
    unfold tellSilent
    cases l
    · exact silent
    · exact silent
    · exact K.recompute _ (K.cur _ _ id silent)
    · exact silent
  · exact h

theorem setFramer (K : KeptAct P) (line : Line) (f : Framer) {s : State} (h : P s) : P (setFramer line f s) := by
  cases line with
  | station l => exact K.link l (fun c => { c with framer := f }) _ ⟨rfl, rfl, rfl, rfl, rfl⟩ h
  | sample => exact K.sampleFramer _ _ h

theorem interByteEnds (K : KeptAct P) (line : Line) {s : State} (h : P s) : P (interByteEnds line s) := by
  unfold Machine.interByteEnds
  split
  · exact K.offer _ _ _ _ (K.setFramer _ _ h)
  · exact h

theorem receiveSample (K : KeptAct P) (kind : Byte) (p : List Byte) (ok : Bool) {s : State} (h : P s) :
    P (receiveSample kind p ok s) := K.toLock.receiveSample _ _ _ (fun _ h => K.evaluate h) h

theorem frameFails (K : KeptAct P) (line : Line) (why : FrameFault) {s : State} (h : P s) : P (frameFails line why s) := by
  unfold Machine.frameFails
  split
  · exact K.receiveSample _ _ _ h
  · exact K.offer _ _ _ _ h
  · exact K.offer _ _ _ _ h

theorem replyOverruns (K : KeptAct P) (l : Link) {s : State} (h : P s) : P (replyOverruns l s) := by
  unfold Machine.replyOverruns
  split
  · exact K.offer _ _ _ _ (K.goodFrame _ h)
  · exact h

theorem energisingWindowEnds (K : KeptAct P) {s : State} (h : P s) : P (energisingWindowEnds s) := by
  unfold Machine.energisingWindowEnds
  split
  · exact K.enterFailed _ h
  · exact h

/-! ## Acts of every link -/

/-- An act that keeps whatever the writes of a command keep. -/
def actKept (act : State → State × Answer) : Prop := ∀ P, KeptAct P → ∀ s, P s → P (act s).1

theorem refuse_kept (st : Status) : actKept (refuse st) := fun _ _ _ h => h

theorem readAct_kept (selector index : Byte) : actKept (readAct selector index) := by
  intro P K s h; unfold readAct; split <;> exact h

theorem fetchAct_kept (l : Link) : actKept (fetchAct l) := fun _ K _ h => K.fetched _ _ h

theorem presenceAct_kept (l : Link) : actKept (presenceAct l) := fun _ _ _ h => h

theorem cancelFrom_kept (l : Link) (id : Byte) : actKept (cancelFrom l id) := by
  intro P K s h
  unfold cancelFrom
  split
  · unfold cancelAct
    split
    · exact h
    · split
      · exact h
      · split
        · exact K.drop _ _ h
        · exact h
  · exact h

/-! ## Acts of link S -/

theorem onUnit_kept (unit : Byte) {act : Fin 8 → State → State × Answer} (ha : ∀ i, actKept (act i)) :
    actKept (onUnit unit act) := by
  intro P K s h
  unfold onUnit
  split
  · exact ha _ _ K _ h
  · exact h

/-- A record taken by SET is of a unit in no start (R182). -/
theorem gensetInFlight_starts {s : State} {i : Fin 8} {r : List Byte} (h : gensetInFlight s i r = false) :
    s.gens[i].state.starts = false := by
  simp only [gensetInFlight, Bool.or_eq_false_iff] at h
  have h1 := h.1
  generalize s.gens[i].state = st at h1
  revert h1
  cases st <;> decide

theorem setGenset_kept (i : Fin 8) (r : List Byte) : actKept (setGenset i r) := by
  intro P K s h
  unfold setGenset
  cases hf : gensetInFlight s i r
  · generalize readGensetCfg r s.cfg.gensets[i] = g
    have written : P (modGensetCfg i (fun _ => g.val) s) :=
      K.tables _ _ ⟨fun _ => rfl, fun _ => rfl, fun _ e => e⟩ h
    have moved : P (if g.val.present = true then modGensetCfg i (fun _ => g.val) s
        else setUnitState i .unknown .set (modGensetCfg i (fun _ => g.val) s)) := by
      cases g.val.present
      · refine K.setUnit _ _ _ _ (KeptUnits.mayLeave ?_ rfl fun _ _ => rfl) written
        simpa [-Fin.getElem_fin] using gensetInFlight_starts hf
      · exact written
    simp only []
    generalize (if g.val.present = true then _ else _) = s2 at moved ⊢
    rw [if_neg (by decide)]
    split
    · exact moved
    · exact K.toLock.judgeResolution (K.unitSettled moved)
  · exact h

theorem setFeeder_kept (k : Fin 24) (r : List Byte) : actKept (setFeeder k r) := by
  intro P K s h
  unfold setFeeder
  split
  · exact h
  · split
    · exact h
    · next c _ =>
      split
      · exact h
      · have written : P (modFeederCfg k (fun _ => c.val) s) := K.tables _ _ ⟨fun _ => rfl, fun _ => rfl, fun _ e => e⟩ h
        have moved : P (if (s.cfg.feeders[k].present && !c.val.present) = true then dropFeeder k (modFeederCfg k (fun _ => c.val) s)
            else modFeederCfg k (fun _ => c.val) s) := by
          split
          · exact K.dropFeeder _ written
          · exact written
        simp only []
        split
        · exact moved
        · exact K.toLock.judgeResolution moved

/-- A write of the tables that leaves the duty ring, the PV group records and the settings (R183). -/
theorem plainTables (K : KeptAct P) (f : Tables → Tables) {s : State} (e : ∀ t, (f t).pvs = t.pvs ∧
    (f t).settings = t.settings ∧ (f t).ring = t.ring) (h : P s) : P (writeThrough f s) :=
  K.tables _ _ ⟨fun t => (e t).1, fun t => (e t).2.1, fun t r => (e t).2.2 ▸ r⟩ h

theorem setPlan_kept (n : Nat) (r : List Byte) : actKept (setPlan n r) := by
  intro P K s h
  unfold setPlan
  split
  · exact h
  · split
    · split
      · exact h
      · next hn p _ => exact K.plainTables (fun t => { t with plan := t.plan.set (n - 1) p.val }) (fun _ => ⟨rfl, rfl, rfl⟩) h
    · exact K.plainTables (fun t => { t with planLength := (clampNat 0 32 (f1 r 0)).val }) (fun _ => ⟨rfl, rfl, rfl⟩) h

theorem setTally_kept (i : Fin 16) (r : List Byte) : actKept (setTally i r) := by
  intro P K s h
  unfold setTally
  split
  · exact h
  · next c _ => exact K.plainTables (fun t => { t with tallies := t.tallies.set i c }) (fun _ => ⟨rfl, rfl, rfl⟩) h

theorem setTarget_kept (selector index : Byte) (t : SetTarget) (e : setTarget selector index = some t) (r : List Byte) :
    actKept (t.write r) := by
  unfold setTarget at e
  generalize selector.toNat = m at e
  match m, e with
  | 1, e =>
    obtain ⟨-, e⟩ := Option.ite_none_right_eq_some.mp e
    cases e
    exact fun P K s h => K.group _ _ _ h
  | 2, e =>
    obtain ⟨i, -, rfl⟩ := Option.map_eq_some_iff.mp e
    exact setGenset_kept _ _
  | 3, e =>
    obtain ⟨g, -, rfl⟩ := Option.map_eq_some_iff.mp e
    exact fun P K s h => K.pvRecord _ _ _ h
  | 4, e =>
    obtain ⟨k, -, rfl⟩ := Option.map_eq_some_iff.mp e
    exact setFeeder_kept _ _
  | 5, e =>
    obtain ⟨-, e⟩ := Option.ite_none_right_eq_some.mp e
    cases e
    exact setPlan_kept _ _
  | 6, e =>
    by_cases h : 1 ≤ index.toNat ∧ index.toNat ≤ 16
    · simp only [dif_pos h, Option.some.injEq] at e
      rw [← e]
      exact setTally_kept _ _
    · simp [dif_neg h] at e
  | 0, e => cases e
  | n + 7, e => cases e

theorem setAct_kept (p : List Byte) : actKept (setAct p) := by
  intro P K s h
  unfold setAct
  split
  · exact h
  · exact h
  · split
    · exact h
    · next t e =>
      split
      · exact setTarget_kept _ _ t e _ _ K _ h
      · exact h

theorem ringOf_sound {indices : List Byte} {r : List (Fin 8)} (h : ringOf indices = some r) : ringSound r := by
  unfold ringOf at h
  obtain ⟨e, h⟩ := Option.ite_none_right_eq_some.mp h
  cases h
  exact e

theorem setRingAct_kept (indices : List Byte) : actKept (setRingAct indices) := by
  intro P K s h
  unfold setRingAct
  split
  · exact h
  · split
    · next r e =>
      refine K.tables (fun t => { t with ring := r }) _ ?_ h
      exact ⟨fun _ => rfl, fun _ => rfl, fun _ _ => ringOf_sound e⟩
    · exact h

theorem startUnitAct_kept (i : Fin 8) : actKept (startUnitAct i) := by
  intro P K s h
  unfold startUnitAct
  split
  · exact h
  · split
    · exact h
    · exact K.raiseAndServe _ _ _ h

theorem stopUnitAct_kept (i : Fin 8) : actKept (stopUnitAct i) := by
  intro P K s h
  unfold stopUnitAct
  split
  · exact h
  · next hq =>
    split
    · exact h
    · split
      · exact h
      · exact K.issueStop i (K.stopOrder _ _ (Decidable.not_not.mp hq)) h

theorem clearLockoutAct_kept (i : Fin 8) : actKept (clearLockoutAct i) := fun _ K _ h =>
  K.clearLockoutAct i (K.tables _ _ ⟨fun _ => rfl, fun _ => rfl, fun _ e => e⟩) h

theorem recallUnitAct_kept (i : Fin 8) : actKept (recallUnitAct i) := by
  intro P K s h
  unfold recallUnitAct
  split
  · exact h
  · split
    · exact h
    · exact K.gen i (fun g => { g with recallWindow := some (after s.clock Config.recallWindowMs) }) _ rfl rfl rfl
        (K.recallOrder _ _ h)

theorem claimReserveAct_kept (amount wait lifetime : Nat) : actKept (claimReserveAct amount wait lifetime) := by
  intro P K s h
  unfold claimReserveAct
  simp only []
  split
  · exact K.ask _ _ _ h
  · exact h

theorem beginAct_kept : actKept beginAct := by
  intro P K s h
  unfold beginAct
  split
  · dsimp only
    exact K.enterClearing _ _ (K.dropOnlineUnits _ h)
  · exact h

theorem abort_kept : actKept (fun s => (abortBlackStart s, answer .done)) := fun _ K _ h => K.abortBlackStart h

theorem retryAct_kept : actKept retryAct := by
  intro P K s h
  unfold retryAct
  split
  · dsimp only
    exact K.enterClearing _ _ h
  · exact h

theorem resync_kept : actKept (fun s => (resync s, answer .done)) := fun _ K _ h => K.toLock.resync h

theorem snapshotAct_kept (option : Byte) : actKept (snapshotAct option) := by
  intro P K s h
  unfold snapshotAct
  split
  · exact h
  · exact K.snapshot _ _ h

theorem readTallyAct_kept (n : Byte) : actKept (readTallyAct n) := by
  intro P K s h
  unfold readTallyAct
  split
  · exact h
  · split <;> exact h

theorem restoreHoldAct_kept (value : Byte) : actKept (restoreHoldAct value) := by
  intro P K s h
  unfold restoreHoldAct
  split
  · exact h
  · exact K.rest _ _ id h

theorem adoptFeederAct_kept (feeder : Byte) : actKept (adoptFeederAct feeder) := by
  intro P K s h
  unfold adoptFeederAct
  split
  · exact h
  · split
    · exact K.adoptFeeder _ h
    · exact h

/-! ## Acts of link G -/

theorem unitReportAct_kept (unit event : Byte) : actKept (unitReportAct unit event) := by
  intro P K s h
  unfold unitReportAct
  split
  · split
    · exact K.takeUnitReport _ _ h
    · exact h
  · exact h

theorem takeUnitEntries_kept (K : KeptAct P) (es : List UnitEntry) (seen : List (Fin 8)) {s : State} (h : P s) :
    P (takeUnitEntries es seen s).1 := by
  induction es generalizing seen s with
  | nil => exact h
  | cons e es ih =>
    unfold takeUnitEntries
    split
    · exact ih _ h
    · split
      · exact ih _ h
      · exact ih _ (K.takeUnitStatus _ _ h)

theorem unitStatusAct_kept (es : List UnitEntry) : actKept (unitStatusAct es) := by
  intro P K s h
  unfold unitStatusAct
  split
  · exact h
  · exact K.toLock.judgeResolution (takeUnitEntries_kept K _ _ h)

theorem takeAvailEntries_kept (K : KeptAct P) (es : List AvailEntry) {s : State} (h : P s) :
    P (takeAvailEntries es s).1 := by
  induction es generalizing s with
  | nil => exact h
  | cons e es ih =>
    unfold takeAvailEntries
    split
    · exact ih h
    · split
      · exact ih h
      · exact ih (K.gen _ _ _ rfl rfl rfl h)

theorem availabilityAct_kept (es : List AvailEntry) : actKept (availabilityAct es) := by
  intro P K s h
  have taken := takeAvailEntries_kept K es h
  unfold availabilityAct
  split
  · exact h
  · simp only []
    split
    · exact taken
    · exact K.unitSettled taken

theorem releaseUnitAct_kept (i : Fin 8) : actKept (releaseUnitAct i) := by
  intro P K s h
  have now : P (releaseNow i s).1 := K.unitSettled (K.handOver _ _ _ _ h)
  have waits : P (releaseWaits i s).1 := by
    unfold releaseWaits
    simp only []
    have asked := K.ask ⟨.releaseCover, .unit i, max 1 (releaseHeadroom s i), s.cfg.settings.book.releaseWait,
      s.cfg.settings.book.claimLifetime, true⟩ none s h
    split
    · next s1 id e =>
      rw [e] at asked
      exact K.gen i (fun g => { g with pendingRelease := some id }) s1 rfl rfl rfl asked
    · next e =>
      rw [e] at asked
      exact K.unitSettled (K.handOver _ _ _ _ asked)
    · next e =>
      rw [e] at asked
      exact asked
  unfold releaseUnitAct
  simp only []
  iterate 6
    split
    · first | exact h | exact now
  split
  · exact h
  · split
    · exact now
    · exact waits

theorem returnUnitAct_kept (i : Fin 8) : actKept (returnUnitAct i) := by
  intro P K s h
  unfold returnUnitAct
  split
  · exact h
  · split
    · exact K.returnLocal _ (by assumption) h
    · exact K.endRelease _ _ _ _ (K.drop _ _ h)
    · exact h

/-! ## Acts of link P -/

theorem onGroup_kept (group : Byte) {act : Fin 8 → State → State × Answer} (ha : ∀ g, actKept (act g)) :
    actKept (onGroup group act) := by
  intro P K s h
  unfold onGroup
  split
  · exact ha _ _ K _ h
  · exact h

theorem takePvEntries_kept (K : KeptAct P) (es : List PvEntry) (seen : List (Fin 8)) {s : State} (h : P s) :
    P (takePvEntries es seen s).1 := by
  induction es generalizing seen s with
  | nil => exact h
  | cons e es ih =>
    unfold takePvEntries
    split
    · exact ih _ h
    · split
      · exact ih _ h
      · exact ih _ (K.pv _ _ _ (.same rfl rfl) h)

theorem pvReportAct_kept (es : List PvEntry) : actKept (pvReportAct es) := by
  intro P K s h
  unfold pvReportAct
  split
  · exact h
  · exact takePvEntries_kept K _ _ h

theorem releaseGroupAct_kept (g : Fin 8) : actKept (releaseGroupAct g) := fun _ K _ h => K.releaseGroup _ _ h

theorem returnGroupAct_kept (g : Fin 8) : actKept (returnGroupAct g) := fun _ K _ h => K.returnGroup _ _ h

/-! ## Acts of link F -/

theorem breakerReportAct_kept (feeder event : Byte) : actKept (breakerReportAct feeder event) := by
  intro P K s h
  unfold breakerReportAct
  split
  · split
    · unfold takeBreakerReport
      simp only []
      split
      · exact K.reportClosed _ _ h
      · exact K.reportOpen _ _ h
    · exact h
  · exact h

theorem takeFeederEntries_kept (K : KeptAct P) (es : List FeederEntry) (seen : List (Fin 24)) {s : State} (h : P s) :
    P (takeFeederEntries es seen s).1 := by
  induction es generalizing seen s with
  | nil => exact h
  | cons e es ih =>
    unfold takeFeederEntries
    split
    · exact ih _ h
    · split
      · exact ih _ h
      · exact ih _ (K.takeFeederStatus _ _ _ (fun _ h => K.tables _ _ ⟨fun _ => rfl, fun _ => rfl, fun _ e => e⟩ h) h)

theorem feederStatusAct_kept (es : List FeederEntry) : actKept (feederStatusAct es) := by
  intro P K s h
  unfold feederStatusAct
  split
  · exact h
  · exact K.toLock.judgeResolution (takeFeederEntries_kept K _ _ h)

theorem claimFeederAct_kept (feeder : Byte) (wait lifetime : Nat) : actKept (claimFeederAct feeder wait lifetime) := by
  intro P K s h
  unfold claimFeederAct
  split
  · split
    · exact K.ask _ _ _ h
    · exact h
  · exact h

end KeptAct

end Sys2Proof.Machine
end

