-- ==== Sys2Proof/Laws/Ring.lean ====
section
/-! SUPPORT. The duty ring: a unit moved to the tail leaves a ring (R68). -/

namespace Sys2Proof.Machine

/-- Every genset has its place in a ring. -/
theorem ringSound.mem {r : List (Fin 8)} (h : ringSound r) (i : Fin 8) : i ∈ r := by
  by_contra hi
  have := (List.nodup_cons.mpr ⟨hi, h.2⟩).length_le_card
  simp [h.1] at this

/-- A duty ring with a unit moved to its tail is a ring. -/
theorem ringTail_sound (i : Fin 8) {r : List (Fin 8)} (h : ringSound r) : ringSound (ringTail i r) := by
  unfold ringTail
  constructor
  · have len := List.length_erase_of_mem (h.mem i)
    rw [h.2.erase_eq_filter i, h.1] at len
    have same : (r.filter fun j => decide (j ≠ i)) = r.filter fun j => j != i :=
      List.filter_congr fun j _ => by cases h : decide (j = i) <;> simp_all [bne]
    rw [List.length_append, same, len]
    rfl
  · refine List.nodup_append.mpr ⟨h.2.filter _, by simp, ?_⟩
    intro a ha b hb
    simp only [List.mem_filter, decide_eq_true_eq] at ha
    simp only [List.mem_singleton] at hb
    exact hb ▸ ha.2

end Sys2Proof.Machine
end

