-- ==== Sys2Proof/Laws/Loose.lean ====
section
/-! SUPPORT. Properties that no write of a block can touch, but for the tallies and the queues: each record of the state may
change in any way. The finer writes of KeptAct.lean follow from these. -/

namespace Sys2Proof.Machine

variable {P : State → Prop}

/-- A change of a Link Controller that leaves its replies and its frame being sent, and keeps the notices and the overflow
count within bounds. -/
structure linkLoose (c d : LinkCtl) : Prop where
  replies : d.replies = c.replies
  sending : d.sending = c.sending
  notices : c.notices.length ≤ Config.noticeCapacity → d.notices.length ≤ Config.noticeCapacity
  overflow : c.overflow ≤ 255 → d.overflow ≤ 255

/-- The property is kept by any change of one record, of the tallies by an event or a snapshot, of a link by the four
conditions above, and of the tables by any write-through that leaves the ring a ring. -/
structure Loose (P : State → Prop) : Prop where
  link : ∀ l f (s : State), linkLoose (s.links.get l) (f (s.links.get l)) → P s → P (modLink l f s)
  offer : ∀ kind index amount s, P s → P (offer kind index amount s)
  snapshot : ∀ zero (s : State), P s → P { s with tally := s.tally.snapshot zero s.clock }
  tables : ∀ f (s : State), (∀ t, ringSound t.ring → ringSound (f t).ring) → P s → P (writeThrough f s)
  lock : ∀ (x : Lock) (s : State), P s → P { s with lock := x }
  book : ∀ (x : Book) (s : State), P s → P { s with book := x }
  gens : ∀ (x : Vector Genset 8) (s : State), P s → P { s with gens := x }
  arb : ∀ (x : Arbiter) (s : State), P s → P { s with arb := x }
  pvs : ∀ (x : Vector PvGroup 8) (s : State), P s → P { s with pvs := x }
  cur : ∀ (x : Curtail) (s : State), P s → P { s with cur := x }
  feeders : ∀ (x : Vector Feeder 24) (s : State), P s → P { s with feeders := x }
  shed : ∀ (x : ShedTable) (s : State), P s → P { s with shed := x }
  rest : ∀ (x : Restoration) (s : State), P s → P { s with rest := x }
  seq : ∀ (x : Sequencer) (s : State), P s → P { s with seq := x }
  entry : ∀ (x : Entry) (s : State), P s → P { s with entry := x }
  sampleFramer : ∀ (x : Framer) (s : State), P s → P { s with sampleFramer := x }
  free : ∀ (n : Nat) (s : State), P s → P { s with free := n }

theorem linkLoose.notify (n : Notice) (c : LinkCtl) : linkLoose c (c.notify n) where
  replies := by simp
  sending := by simp
  notices := by
    intro h
    unfold LinkCtl.notify
    split
    · simp only [List.length_append, List.length_singleton]; omega
    · exact h
  overflow := by
    intro h
    unfold LinkCtl.notify
    split
    · exact h
    · exact Nat.min_le_left _ _

theorem linkLoose.refl (c : LinkCtl) : linkLoose c c := ⟨rfl, rfl, id, id⟩

namespace Loose

theorem notify (K : Loose P) (ls : List Link) (kind : NoticeKind) (index : Nat) (subject : Subject) (cause : NoticeCause)
    (claimId : Nat) {s : State} (h : P s) : P (Machine.notify ls kind index subject cause claimId s) := by
  unfold Machine.notify
  exact kept_foldl (fun _ _ h => K.link _ _ _ (linkLoose.notify _ _) h) ls h

theorem orders (K : Loose P) (l : Link) (f : LinkCtl → List Order) {s : State} (h : P s) :
    P (modLink l (fun c => { c with orders := f c }) s) := K.link l _ s ⟨rfl, rfl, id, id⟩ h

theorem recompute (K : Loose P) {s : State} (h : P s) : P (Machine.recompute s) := K.book _ _ h

theorem plainTables (K : Loose P) (f : Tables → Tables) {s : State} (e : ∀ t, (f t).ring = t.ring) (h : P s) :
    P (writeThrough f s) := K.tables f s (fun t r => (e t).symm ▸ r) h

theorem dropClaims (K : Loose P) (p : Claim → Bool) {s : State} (h : P s) : P (Machine.dropClaims p s) := by
  unfold Machine.dropClaims
  split
  · refine K.recompute ?_
    unfold settleStepClaim
    split
    · split
      · exact K.book _ _ h
      · exact K.seq _ _ (K.book _ _ h)
    · exact K.book _ _ h
  · exact h

theorem applyClaims (K : Loose P) (p : Claim → Bool) {s : State} (h : P s) : P (Machine.applyClaims p s) := K.book _ _ h

theorem setUnitState (K : Loose P) (i : Fin 8) (st : UnitState) (why : Cause) {s : State} (h : P s) :
    P (Machine.setUnitState i st why s) := by
  unfold Machine.setUnitState
  split
  · exact h
  · exact K.recompute (K.notify _ _ _ _ _ _ (K.gens _ _ h))

theorem setFeederState (K : Loose P) (k : Fin 24) (st : FeederState) (why : Cause) {s : State} (h : P s) :
    P (Machine.setFeederState k st why s) := by
  unfold Machine.setFeederState
  split
  · exact h
  · refine K.notify _ _ _ _ _ _ (K.feeders _ _ ?_)
    split
    · exact K.shed _ _ h
    · exact h

theorem handOver (K : Loose P) (i : Fin 8) (why : Cause) (id : Nat) {s : State} (h : P s) : P (Machine.handOver i why id s) :=
  K.recompute (K.setUnitState _ _ _ (K.notify _ _ _ _ _ _ (K.arb _ _ (K.gens _ _ (K.applyClaims _ h)))))

theorem begin (K : Loose P) (slot : Nat) (k : ReasonKind) (r : Reason) (i : Fin 8) {s : State} (h : P s) :
    P (beginStart slot k r i s) := by
  unfold beginStart
  refine K.offer _ _ _ _ (K.orders _ _ (K.setUnitState _ _ _ ?_))
  have held : ∀ a r, P (putReason k r { s with arb := a }) := fun _ _ => K.arb _ _ (K.arb _ _ h)
  split
  · exact K.book _ _ (held _ _)
  · exact held _ _

theorem setGroup (K : Loose P) (n : Nat) (r : List Byte) {s : State} (h : P s) : P (Machine.setGroup n r s).1 := by
  have written : ∀ f, P (setSettings f s) := fun f => K.plainTables _ (fun _ => rfl) h
  unfold Machine.setGroup
  split <;> dsimp only
  · exact written _
  · exact written _
  · split
    · exact h
    · dsimp only
      unfold clampRamp
      split
      · exact K.cur _ _ (written _)
      · exact written _
  · split
    · dsimp only
      exact written _
    · exact h
  · exact K.rest _ _ (written _)
  · split
    · dsimp only
      exact written _
    · exact h

theorem setPv (K : Loose P) (g : Fin 8) (r : List Byte) {s : State} (h : P s) : P (Machine.setPv g r s).1 := by
  have written := K.plainTables (fun t => { t with pvs := t.pvs.set g (readPvCfg r).val }) (fun _ => rfl) h
  unfold Machine.setPv
  dsimp only
  generalize writeThrough _ s = s1 at written ⊢
  have clamped : P (if (readPvCfg r).val.rating < s.cfg.pvs[g].rating then modPv g (clampToRating (readPvCfg r).val.rating) s1
      else s1) := by
    split
    · exact K.pvs _ _ written
    · exact written
  generalize (if (readPvCfg r).val.rating < s.cfg.pvs[g].rating then modPv g (clampToRating (readPvCfg r).val.rating) s1
    else s1) = s2 at clamped ⊢
  split
  · exact clamped
  · exact K.cur _ _ clamped

/-- The writes of the acts, for a property that looks at none of them. -/
theorem toAct (K : Loose P) : KeptAct P := by
  have units : KeptUnits P := {
    notify := fun _ _ _ _ _ _ _ h => K.notify _ _ _ _ _ _ h
    offer := K.offer
    book := fun _ _ _ _ _ h => K.book _ _ h
    seq := K.seq
    recompute := fun _ h => K.recompute h
    drop := fun _ _ h => K.dropClaims _ h
    putReason := fun _ _ _ h => K.arb _ _ h
    gen := fun _ _ _ _ _ _ h => K.gens _ _ h
    begin := fun _ _ _ _ _ _ _ h => K.begin _ _ _ _ h
    cap := fun _ _ _ h => K.pvs _ _ h
    tail := fun i _ h => K.tables _ _ (fun _ r => ringTail_sound i r) h
    failCount := fun i _ h => K.plainTables (fun t => { t with gensets := t.gensets.set i (t.gensets[i]).fail }) (fun _ => rfl) h
    setUnit := fun _ _ _ _ _ h => K.setUnitState _ _ _ h
    sync := fun _ _ _ _ h => K.setUnitState _ _ _ h
    leave := fun _ _ _ _ _ _ h => K.setUnitState _ _ _ (K.arb _ _ h)
    own := fun _ _ _ _ _ _ h => K.gens _ _ h
    handOver := fun _ _ _ _ h => K.handOver _ _ _ h
    returned := fun _ _ _ h => K.setUnitState _ _ _ (K.notify _ _ _ _ _ _ (K.gens _ _ h)) }
  exact {
    toKeptUnits := units
    openOrder := fun _ _ _ h => K.orders _ _ h
    setFeeder := fun _ _ _ _ _ h => K.setFeederState _ _ _ h
    feeder := fun _ _ _ _ _ h => K.feeders _ _ h
    shed := K.shed
    rest := fun _ _ _ h => K.rest _ _ h
    apply := fun _ _ h => K.applyClaims _ h
    ceilingOrder := fun _ _ h => K.orders _ _ h
    stopOrder := fun _ _ _ h => K.orders _ _ h
    pv := fun _ _ _ _ h => K.pvs _ _ h
    cur := fun _ _ _ h => K.cur _ _ h
    ask := fun _ _ _ h => askClaim_kept K.offer (fun _ _ _ h => K.recompute (K.book _ _ h)) _ _ h
    take := fun _ _ _ h => takeClose_kept _ _ (fun _ h => K.setFeederState _ _ _ (K.orders _ _ h)) h
    grant := fun _ h => grantPending_kept units (fun _ _ _ h => K.book _ _ h) h
    free := K.free
    lock := fun _ _ _ _ h => K.lock _ _ h
    quality := fun _ h => K.lock _ _ h
    entry := K.entry
    accept := fun r s h => K.gens (Vector.ofFn fun i : Fin 8 => lastOutputOf s r i s.gens[i]) _ (K.lock { s.lock with
      held := some ⟨r, s.clock⟩, age := some 0, ageNext := some (after s.clock 100) } s h)
    link := fun l f s e h => K.link l f s ⟨e.replies, e.sending, e.notices ▸ id, e.overflow ▸ id⟩ h
    sampleFramer := K.sampleFramer
    fetched := fun l s h => K.link l _ s ⟨rfl, rfl, fun n => by simp only [List.length_tail]; omega, fun _ => Nat.zero_le _⟩ h
    recallOrder := fun _ _ h => K.orders _ _ h
    tables := fun f s e h => K.tables f s e.ring h
    group := fun _ _ _ h => K.setGroup _ _ h
    pvRecord := fun _ _ _ h => K.setPv _ _ h
    releaseGroup := fun g s h => by
      unfold releaseGroupAct
      split
      · exact h
      · exact K.recompute (K.notify _ _ _ _ _ _ (K.orders _ _ (K.pvs _ _ h)))
    returnGroup := fun g s h => by
      unfold returnGroupAct
      split
      · exact h
      · exact K.recompute (K.notify _ _ _ _ _ _ (K.cur _ _ (K.pvs _ _ h)))
    snapshot := K.snapshot }

end Loose

/-- The replies of a link stand through any act of a request (R170). -/
theorem Loose.replies (l : Link) (rs : List Reply) (o : Option OutFrame) :
    Loose (fun s => (s.links.get l).replies = rs ∧ (s.links.get l).sending = o) where
  link := fun m f s e h => by
    by_cases x : l = m
    · subst x; simpa [e.replies, e.sending] using h
    · simpa [x] using h
  offer := fun _ _ _ _ h => by simpa using h
  snapshot := fun _ _ h => h
  tables := fun _ _ _ h => h
  lock := fun _ _ h => h
  book := fun _ _ h => h
  gens := fun _ _ h => h
  arb := fun _ _ h => h
  pvs := fun _ _ h => h
  cur := fun _ _ h => h
  feeders := fun _ _ h => h
  shed := fun _ _ h => h
  rest := fun _ _ h => h
  seq := fun _ _ h => h
  entry := fun _ _ h => h
  sampleFramer := fun _ _ h => h
  free := fun _ _ h => h

/-- An act leaves the room for the reply of its request as it finds it (R170). -/
theorem actKept_repliesFull {act : State → State × Answer} (ha : KeptAct.actKept act) (l : Link) (s : State) :
    repliesFull (act s).1 l = repliesFull s l := by
  have h := ha _ (Loose.replies l _ _).toAct s ⟨rfl, rfl⟩
  unfold repliesFull repliesWaiting
  rw [h.1, h.2]

end Sys2Proof.Machine
end

