-- ==== Sys2Proof/Laws/KeptEvery.lean ====
section
/-! SUPPORT. What every step keeps, from the writes of the commands, the reply, the frames, the entry and the tick (03 to 12).
A law of the whole machine is kept by every step where it is kept by each write named here. -/

namespace Sys2Proof.Machine

variable {P : State → Prop}

/-- The writes of a step: those of the acts, the reply in its room, the frames of the lines, entry, the queue and the
clock. -/
structure KeptEvery (P : State → Prop) : Prop extends KeptAct P where
  reply : ∀ l r s, repliesFull s l = false → P s → P (placeReply l r s)
  sent : ∀ l s, P s → P (frameSent l s)
  pump : ∀ s, P s → P (Machine.finish s)
  power : ∀ s, P s → P (powerUp s)
  restarted : ∀ r s, P s → P (restartPart r s)
  pending : ∀ (q : List Instr) (s : State), P s → P { s with pending := q }
  counted : ∀ s, P s → P (countClock s)

namespace KeptEvery

theorem overrun (K : KeptEvery P) (l : Link) {s : State} (h : P s) : P (overrun l s) := K.offer _ _ _ _ h

/-- A request keeps what its act keeps (R168 to R170). -/
theorem request (K : KeptEvery P) (l : Link) (kind tag : Byte) {act : State → State × Answer} (ha : KeptAct.actKept act)
    {s : State} (h : P s) : P (request l kind tag act s) := by
  have heard := K.goodFrame l h
  unfold Machine.request
  simp only []
  split
  · exact K.overrun l heard
  · next room =>
    refine K.reply _ _ _ ?_ (ha P K.toKeptAct _ heard)
    rw [actKept_repliesFull ha]
    exact Bool.eq_false_iff.mpr room

theorem restartRequest (K : KeptEvery P) (tag : Byte) {s : State} (h : P s) : P (restartRequest tag s) := by
  have heard := K.goodFrame .S h
  unfold Machine.restartRequest
  simp only []
  split
  · exact K.overrun .S heard
  · exact K.restarted _ _ heard

theorem refusedFrame (K : KeptEvery P) (l : Link) (kind tag : Byte) (p : List Byte) {s : State} (h : P s) :
    P (refusedFrame l kind tag p s) := by
  unfold Machine.refusedFrame
  split
  · exact K.request l kind tag (KeptAct.refuse_kept _) h
  · exact h

/-- A command that ends in its next frames keeps what the work before them keeps (R171). -/
theorem completed (K : KeptEvery P) {s t : State} (h : P s) (e : completed s = .next t) : P t := by
  unfold Machine.completed at e
  cases e
  exact K.pump _ h

/-- A command keeps what every write of a command keeps. -/
theorem exec (K : KeptEvery P) (c : Instr) {s t : State} (h : P s) (e : exec c s = .next t) : P t := by
  have req := fun (l : Link) (kind tag : Byte) (act : State → State × Answer) (ha : KeptAct.actKept act)
    (e : Machine.completed (Machine.request l kind tag act s) = .next t) => K.completed (K.request l kind tag ha h) e
  cases c with
  | powerOn => exact K.completed (K.power _ h) e
  | resetInput => exact K.completed (K.power _ h) e
  | restart tag => exact K.completed (K.restartRequest tag h) e
  | entryWindowExpiry => exact K.completed (K.entryWindowEnds h) e
  | sample kind payload checkOk => exact K.completed (K.receiveSample kind payload checkOk h) e
  | sampleGapTimerExpiry => exact K.completed (K.toLock.gapTimerEnds h) e
  | heldSampleAgeStep => exact K.completed (K.toLock.ageStep h) e
  | stageTimerExpiry stage => exact K.completed (K.stageTimerEnds stage h) e
  | stepTimeout => exact K.completed (K.stepTimerEnds h) e
  | waitStepExpiry => exact K.completed (K.waitStepEnds h) e
  | energisingWindowExpiry => exact K.completed (K.energisingWindowEnds h) e
  | crankWindowExpiry unit => exact K.completed (K.crankWindowEnds unit h) e
  | syncWindowExpiry unit => exact K.completed (K.syncWindowEnds unit h) e
  | unloadWindowExpiry unit => exact K.completed (K.unloadWindowEnds unit h) e
  | cooldownHoldExpiry unit => exact K.completed (K.cooldownHoldEnds unit h) e
  | minRunExpiry unit => exact K.completed (K.minRunEnds unit h) e
  | recallWindowExpiry unit => exact K.completed (K.recallWindowEnds unit h) e
  | claimWaitExpiry id => exact K.completed (K.claimWaitEnds id.toNat h) e
  | claimLifetimeExpiry id => exact K.completed (K.claimLifetimeEnds id.toNat h) e
  | claimSettleExpiry id => exact K.completed (K.claimSettles id.toNat h) e
  | openingRelayWindowExpiry feeder => exact K.completed (K.openingWindowEnds feeder h) e
  | closingRelayWindowExpiry feeder => exact K.completed (K.closingWindowEnds feeder h) e
  | shedSettleExpiry => exact K.completed (K.settleEnds h) e
  | restoreHoldOffExpiry => exact K.completed (K.holdOffEnds h) e
  | linkSilent link => exact K.completed (K.silenceEnds link h) e
  | frameError line why => exact K.completed (K.frameFails line why h) e
  | interByteTimeout line => exact K.completed (K.interByteEnds line h) e
  | frameRefused link kind tag payload => exact K.completed (K.refusedFrame link kind tag payload h) e
  | replyOverrun link => exact K.completed (K.replyOverruns link h) e
  | outboundFrameSent link => exact K.completed (K.sent link _ h) e
  | read link tag selector index => exact req _ _ _ _ (KeptAct.readAct_kept _ _) e
  | set tag payload => exact req _ _ _ _ (KeptAct.setAct_kept _) e
  | setRing tag indices => exact req _ _ _ _ (KeptAct.setRingAct_kept _) e
  | startUnit tag unit => exact req _ _ _ _ (KeptAct.onUnit_kept _ KeptAct.startUnitAct_kept) e
  | stopUnit tag unit => exact req _ _ _ _ (KeptAct.onUnit_kept _ KeptAct.stopUnitAct_kept) e
  | clearLockout tag unit => exact req _ _ _ _ (KeptAct.onUnit_kept _ KeptAct.clearLockoutAct_kept) e
  | recallUnit tag unit => exact req _ _ _ _ (KeptAct.onUnit_kept _ KeptAct.recallUnitAct_kept) e
  | claimReserve tag amount wait lifetime => exact req _ _ _ _ (KeptAct.claimReserveAct_kept _ _ _) e
  | cancelClaim link tag id => exact req _ _ _ _ (KeptAct.cancelFrom_kept _ _) e
  | blackStartBegin tag => exact req _ _ _ _ KeptAct.beginAct_kept e
  | blackStartAbort tag => exact req _ _ _ _ KeptAct.abort_kept e
  | blackStartRetry tag => exact req _ _ _ _ KeptAct.retryAct_kept e
  | resyncSamples tag => exact req _ _ _ _ KeptAct.resync_kept e
  | snapshot tag option => exact req _ _ _ _ (KeptAct.snapshotAct_kept _) e
  | readTally tag number => exact req _ _ _ _ (KeptAct.readTallyAct_kept _) e
  | restoreHold tag value => exact req _ _ _ _ (KeptAct.restoreHoldAct_kept _) e
  | adoptFeeder tag feeder => exact req _ _ _ _ (KeptAct.adoptFeederAct_kept _) e
  | fetchNotice link tag => exact req _ _ _ _ (KeptAct.fetchAct_kept _) e
  | presence link tag => exact req _ _ _ _ (KeptAct.presenceAct_kept _) e
  | unitReport tag unit event => exact req _ _ _ _ (KeptAct.unitReportAct_kept _ _) e
  | unitStatus tag entries => exact req _ _ _ _ (KeptAct.unitStatusAct_kept _) e
  | availability tag entries => exact req _ _ _ _ (KeptAct.availabilityAct_kept _) e
  | releaseUnit tag unit => exact req _ _ _ _ (KeptAct.onUnit_kept _ KeptAct.releaseUnitAct_kept) e
  | returnUnit tag unit => exact req _ _ _ _ (KeptAct.onUnit_kept _ KeptAct.returnUnitAct_kept) e
  | pvReport tag entries => exact req _ _ _ _ (KeptAct.pvReportAct_kept _) e
  | releaseGroup tag group => exact req _ _ _ _ (KeptAct.onGroup_kept _ KeptAct.releaseGroupAct_kept) e
  | returnGroup tag group => exact req _ _ _ _ (KeptAct.onGroup_kept _ KeptAct.returnGroupAct_kept) e
  | breakerReport tag feeder event => exact req _ _ _ _ (KeptAct.breakerReportAct_kept _ _) e
  | feederStatus tag entries => exact req _ _ _ _ (KeptAct.feederStatusAct_kept _) e
  | claimFeeder tag feeder wait lifetime => exact req _ _ _ _ (KeptAct.claimFeederAct_kept _ _ _) e

/-- The tick keeps what its count, the queue and the free choice keep (log 1). -/
theorem tick (K : KeptEvery P) {s : State} (h : P s) : P (tick s) := by
  unfold Machine.tick
  refine K.pending _ _ ?_
  split
  · exact K.free _ _ (K.counted _ h)
  · exact K.counted _ h

/-- Every step keeps what every write of a step keeps. -/
theorem byStep (K : KeptEvery P) : KeptByStep P := by
  intro s t h e
  unfold Machine.step at e
  split at e
  · exact Host.Outcome.next.inj e ▸ K.tick h
  · exact K.exec _ (K.pending _ _ h) e

end KeptEvery

end Sys2Proof.Machine
end

