-- ==== Sys2Proof/Laws/Serve.lean ====
section
/-! SUPPORT. What a serving of the Start Arbiter leaves of one genset: its record as it was, or a start that began now (R54,
R64 to R66); and so what an act leaves that ends with a serving. -/

namespace Sys2Proof.Machine

/-! ## Reasons In service -/

/-- A reason of the kind is held, In service. -/
def servesKind (a : Arbiter) (k : ReasonKind) : Prop := ∃ r, a.get k = some r ∧ r.stage = .inService

@[simp] theorem Arbiter.get_put_self (a : Arbiter) (k : ReasonKind) (r : Option Reason) : (a.put k r).get k = r := by
  cases k <;> rfl

theorem Arbiter.get_put_ne (a : Arbiter) {k m : ReasonKind} (r : Option Reason) (h : m ≠ k) : (a.put k r).get m = a.get m := by
  cases k <;> cases m <;> first | rfl | exact absurd rfl h

@[simp] theorem Arbiter.put_slot1 (a : Arbiter) (k : ReasonKind) (r : Option Reason) : (a.put k r).slot1 = a.slot1 := by
  cases k <;> rfl
@[simp] theorem Arbiter.put_slot2 (a : Arbiter) (k : ReasonKind) (r : Option Reason) : (a.put k r).slot2 = a.slot2 := by
  cases k <;> rfl

/-- A kind In service stays so when another kind's reason is replaced, or its own by one In service. -/
theorem servesKind.put {a : Arbiter} {k m : ReasonKind} {r : Option Reason} (h : servesKind a m)
    (e : m = k → ∃ x, r = some x ∧ x.stage = .inService) : servesKind (a.put k r) m := by
  by_cases d : m = k
  · obtain ⟨x, rfl, hx⟩ := e d
    exact ⟨x, by rw [d, Arbiter.get_put_self], hx⟩
  · obtain ⟨x, hx⟩ := h
    exact ⟨x, by rw [Arbiter.get_put_ne _ _ d]; exact hx.1, hx.2⟩

/-! ## The frame of a serving that starts none -/

/-- What a search without a start leaves of a state: all but the reasons, the book, the sequencer's items and the notices; no
slot and no reason In service is lost. -/
structure searched (s t : State) : Prop where
  clock : t.clock = s.clock
  cfg : t.cfg = s.cfg
  entry : t.entry = s.entry
  gens : t.gens = s.gens
  active : ∀ l, linkActive t l = linkActive s l
  slot1 : t.arb.slot1 = s.arb.slot1
  slot2 : t.arb.slot2 = s.arb.slot2
  serves : ∀ k, servesKind s.arb k → servesKind t.arb k

theorem searched.refl (s : State) : searched s s := ⟨rfl, rfl, rfl, rfl, fun _ => rfl, rfl, rfl, fun _ h => h⟩

theorem searched.trans {s t u : State} (a : searched s t) (b : searched t u) : searched s u where
  clock := b.clock.trans a.clock
  cfg := b.cfg.trans a.cfg
  entry := b.entry.trans a.entry
  gens := b.gens.trans a.gens
  active := fun l => (b.active l).trans (a.active l)
  slot1 := b.slot1.trans a.slot1
  slot2 := b.slot2.trans a.slot2
  serves := fun k h => b.serves k (a.serves k h)

theorem notify_active (ls kind index subject cause id) (s : State) (l : Link) :
    linkActive (notify ls kind index subject cause id s) l = linkActive s l := by
  unfold notify
  refine kept_foldl (P := fun t => linkActive t l = linkActive s l) (fun t m h => ?_) ls rfl
  unfold linkActive at h ⊢
  by_cases e : l = m
  · subst e; simpa using h
  · simpa [e] using h

theorem searched.notify (ls kind index subject cause id) (s : State) :
    searched s (Machine.notify ls kind index subject cause id s) where
  clock := by simp
  cfg := by simp
  entry := by simp
  gens := by simp
  active := notify_active _ _ _ _ _ _ _
  slot1 := by simp
  slot2 := by simp
  serves := fun k h => by simpa using h

/-- A reason replaced, where a kind In service stays In service. -/
theorem searched.putReason {k : ReasonKind} {r : Option Reason} {s : State}
    (e : servesKind s.arb k → ∃ x, r = some x ∧ x.stage = .inService) : searched s (Machine.putReason k r s) where
  clock := rfl
  cfg := rfl
  entry := rfl
  gens := rfl
  active := fun _ => rfl
  slot1 := Arbiter.put_slot1 _ _ _
  slot2 := Arbiter.put_slot2 _ _ _
  serves := fun _ h => h.put fun d => e (d ▸ h)

/-- A pending reason may be replaced by any, for its kind is not In service. -/
theorem searched.putPending {k : ReasonKind} {q : Reason} {s : State} (h : s.arb.get k = some q) (p : q.stage = .pending)
    (r : Option Reason) : searched s (Machine.putReason k r s) :=
  .putReason fun ⟨x, hx, hi⟩ => by rw [h] at hx; cases hx; rw [p] at hi; cases hi

/-- A withdrawal leaves what is In service In service, marked at most (R62). -/
theorem searched.withdrawReason (k : ReasonKind) (s : State) : searched s (Machine.withdrawReason k s) := by
  unfold Machine.withdrawReason
  split
  · exact .refl s
  · next r hr =>
    split
    · next hs => exact .putPending hr hs _
    · next hs => exact .putReason fun _ => ⟨_, rfl, hs⟩

/-- The book and the sequencer's items are no part of the frame. -/
theorem searched.book (b : Book) (q : Sequencer) (s : State) : searched s { s with book := b, seq := q } :=
  ⟨rfl, rfl, rfl, rfl, fun _ => rfl, rfl, rfl, fun _ h => h⟩

/-- The claims of BlackStart are withdrawn with notices alone (R17, R165). -/
theorem searched.withdrawBlackStart (why : Cause) (s : State) : searched s (withdrawClaims blackStartClaim why s) := by
  have dropped : searched s (dropClaims blackStartClaim s) :=
    ⟨by simp, by simp, by simp, by simp, fun l => by simp [linkActive], by simp, by simp, fun k h => by simpa using h⟩
  have told : ∀ (cs : List Claim), (∀ c ∈ cs, c.holder = .blackStart) → ∀ t, searched s t →
      searched s (cs.foldl (fun s c => tellWithdrawn why c s) t) := by
    intro cs
    induction cs with
    | nil => exact fun _ _ h => h
    | cons c cs ih =>
      intro hc t h
      refine ih (fun d hd => hc d (List.mem_cons_of_mem _ hd)) _ (h.trans ?_)
      dsimp only [tellWithdrawn]
      split
      · rw [hc c (List.mem_cons_self ..)]
        exact .notify _ _ _ _ _ _ _
      · exact .refl t
  refine told _ (fun c hc => ?_) _ dropped
  simp only [List.mem_filter, blackStartClaim, Bool.and_eq_true, decide_eq_true_eq] at hc
  exact hc.2.1

/-- The sequencer's entry to Failed (R165). -/
theorem searched.enterFailed (why : Cause) (s : State) : searched s (Machine.enterFailed why s) := by
  have shortfall : ∀ (b : Book) (u : State), searched u (withdrawShortfall { u with book := b }) := fun b u =>
    ((searched.book b u.seq u).trans (.withdrawReason .shortfall _)).trans (.book _ _ _)
  have phase : ∀ (p : Phase) (w : Cause) (u : State), searched u (enterPhase p w u) := fun p w u =>
    (searched.book u.book { u.seq with phase := p } u).trans (.notify _ _ _ _ _ _ _)
  refine .trans ?_ (phase _ _ _)
  refine .trans ?_ (shortfall _ _)
  refine .trans ?_ (.withdrawReason _ _)
  exact (searched.book s.book _ s).trans (.withdrawBlackStart _ _)

/-- A search that found no candidate for a pending reason (R67). -/
theorem searched.noCandidateFound {k : ReasonKind} {r : Reason} {s : State} (h : s.arb.get k = some r)
    (p : r.stage = .pending) : searched s (Machine.noCandidateFound k r s) := by
  have told : ∀ q, searched s (notifyNoCandidate k r (Machine.putReason k q s)) := fun q =>
    (searched.putPending h p q).trans (.notify _ _ _ _ _ _ _)
  have marked : searched s (if r.noCandidate then s
      else notifyNoCandidate k r (Machine.putReason k (some { r with noCandidate := true }) s)) := by
    split
    · exact .refl s
    · exact told _
  cases k <;> simp only [Machine.noCandidateFound]
  case operator => exact told _
  case shortfall => exact marked.trans (.book _ _ _)
  case blackStart =>
    generalize (if r.noCandidate = true then s else _) = s1 at marked ⊢
    split
    · exact marked.trans (.enterFailed _ _)
    · exact marked
  all_goals exact marked

/-! ## A start -/

/-- Genset `i` has begun a start in the serving that `t` stands in (R54, R64). -/
structure begun (i : Fin 8) (t : State) : Prop where
  state : t.gens[i].state = .starting
  window : t.gens[i].phaseTimer = some (after t.clock (secs t.cfg.settings.windows.crank))
  slot : ∃ u, (t.arb.slot1 = some u ∨ t.arb.slot2 = some u) ∧ u.unit = i ∧ u.since = t.clock ∧ servesKind t.arb u.kind
  available : t.gens[i].available = true
  authority : t.gens[i].authority = .coordinated

theorem begun.searched {i : Fin 8} {s t : State} (h : begun i s) (e : searched s t) : begun i t where
  state := by rw [e.gens]; exact h.state
  window := by rw [e.gens, e.clock, e.cfg]; exact h.window
  slot := by
    obtain ⟨u, hu, h1, h2, h3⟩ := h.slot
    exact ⟨u, by rw [e.slot1, e.slot2]; exact hu, h1, by rw [e.clock]; exact h2, e.serves _ h3⟩
  available := by rw [e.gens]; exact h.available
  authority := by rw [e.gens]; exact h.authority

/-- What a serving that began in `a` leaves of genset `i`: nothing changed, or a start of a candidate. -/
structure servedFrom (i : Fin 8) (a t : State) : Prop where
  clock : t.clock = a.clock
  cfg : t.cfg = a.cfg
  entry : t.entry = a.entry
  active : ∀ l, linkActive t l = linkActive a l
  unit : t.gens[i] = a.gens[i] ∨ (candidate a i = true ∧ begun i t)

theorem servedFrom.refl (i : Fin 8) (a : State) : servedFrom i a a := ⟨rfl, rfl, rfl, fun _ => rfl, .inl rfl⟩

theorem servedFrom.searched {i : Fin 8} {a s t : State} (h : servedFrom i a s) (e : searched s t) : servedFrom i a t where
  clock := e.clock.trans h.clock
  cfg := e.cfg.trans h.cfg
  entry := e.entry.trans h.entry
  active := fun l => (e.active l).trans (h.active l)
  unit := h.unit.imp (fun x => by rw [e.gens]; exact x) (fun x => ⟨x.1, x.2.searched e⟩)

/-- The arbiter after a start: the slot taken, and the reason In service (R54). -/
theorem beginStart_arb (slot : Nat) (k : ReasonKind) (r : Reason) (j : Fin 8) (s : State) :
    (beginStart slot k r j s).arb =
      (s.arb.take slot ⟨j, k, s.clock⟩).put k (some { r with stage := .inService, noCandidate := false }) := by
  unfold beginStart
  simp only [offer_arb, queueUnitOrder_arb, setUnitState_arb]
  split <;> rfl

/-- A start changes the unit's state and queues its order on a state in which the arbiter and the book alone have changed. -/
theorem beginStart_eq (slot : Nat) (k : ReasonKind) (r : Reason) (j : Fin 8) (s : State) :
    ∃ u, (u.clock = s.clock ∧ u.cfg = s.cfg ∧ u.entry = s.entry ∧ u.gens = s.gens ∧ u.links = s.links)
      ∧ beginStart slot k r j s =
        offer .startOrdered (some (j.val + 1)) 0 (queueUnitOrder (.start j) j (setUnitState j .starting .start u)) := by
  unfold beginStart
  refine ⟨_, ?_, rfl⟩
  split <;> exact ⟨rfl, rfl, rfl, rfl, rfl⟩

/-- The record of the unit started: Starting under its crank window (R54, R48). -/
theorem beginStart_gens_self (slot : Nat) (k : ReasonKind) (r : Reason) (j : Fin 8) (s : State) (h : candidate s j = true) :
    (beginStart slot k r j s).gens[j] = { s.gens[j] with
      state := .starting
      phaseTimer := some (after s.clock (secs s.cfg.settings.windows.crank))
      minRun := .absent } := by
  have e : s.gens[j].state ≠ .starting := by
    intro e
    simp only [candidate, Bool.and_eq_true, Bool.or_eq_true, decide_eq_true_eq, e] at h
    exact h.2.elim nofun nofun
  obtain ⟨u, g, hu⟩ := beginStart_eq slot k r j s
  have e' : u.gens[j].state ≠ .starting := by rw [g.2.2.2.1]; exact e
  rw [hu]
  simp only [offer_gens, queueUnitOrder_gens, setUnitState_gens, if_neg e']
  simp [enterUnitState, phaseWindow, minRunFor, g]

/-- What a start changes but the unit, the arbiter and the queues (R54). -/
theorem beginStart_frame (slot : Nat) (k : ReasonKind) (r : Reason) (j : Fin 8) (s : State) :
    (beginStart slot k r j s).clock = s.clock ∧ (beginStart slot k r j s).cfg = s.cfg
      ∧ (beginStart slot k r j s).entry = s.entry ∧ ∀ l, linkActive (beginStart slot k r j s) l = linkActive s l := by
  obtain ⟨u, g, hu⟩ := beginStart_eq slot k r j s
  rw [hu]
  refine ⟨by simp [g], by simp [g], by simp [g], fun l => ?_⟩
  have set : linkActive (setUnitState j .starting .start u) l = linkActive u l := by
    unfold setUnitState
    split
    · rfl
    · exact notify_active _ _ _ _ _ _ _ _
  rw [show linkActive s l = linkActive u l by unfold linkActive; rw [g.2.2.2.2], ← set]
  cases l <;> rfl

/-- The slot that a start takes holds its unit; a slot taken before stands. -/
theorem slotFor_take {a : Arbiter} {k : ReasonKind} {slot : Nat} (h : slotFor a k = some slot) (u : SlotUse) :
    ((a.take slot u).slot1 = some u ∨ (a.take slot u).slot2 = some u)
      ∧ ∀ v, a.slot1 = some v ∨ a.slot2 = some v → (a.take slot u).slot1 = some v ∨ (a.take slot u).slot2 = some v := by
  unfold slotFor at h
  split at h
  · next h1 =>
    cases h
    exact ⟨.inl rfl, fun v e => e.elim (fun x => absurd (h1.symm.trans x) nofun) .inr⟩
  · next h1 h2 =>
    split at h
    · cases h
      exact ⟨.inr rfl, fun v e => e.elim .inl fun x => absurd (h2.symm.trans x) nofun⟩
    · cases h
  · cases h

theorem Arbiter.take_get (a : Arbiter) (slot : Nat) (u : SlotUse) (k : ReasonKind) : (a.take slot u).get k = a.get k := by
  unfold Arbiter.take
  split <;> cases k <;> rfl

/-- A start of a candidate for a pending reason, in a slot that reason may use (R54, R64). -/
theorem servedFrom.begin {i j : Fin 8} {a s : State} {slot : Nat} {k : ReasonKind} {r : Reason} (h : servedFrom i a s)
    (hc : candidate s j = true) (hs : slotFor s.arb k = some slot) : servedFrom i a (beginStart slot k r j s) := by
  have f := beginStart_frame slot k r j s
  refine ⟨f.1.trans h.clock, f.2.1.trans h.cfg, f.2.2.1.trans h.entry, fun l => (f.2.2.2 l).trans (h.active l), ?_⟩
  have took := slotFor_take hs ⟨j, k, s.clock⟩
  have serves : ∀ m, m = k ∨ servesKind s.arb m → servesKind (beginStart slot k r j s).arb m := by
    intro m e
    rw [beginStart_arb]
    by_cases d : m = k
    · exact ⟨_, by rw [d, Arbiter.get_put_self], rfl⟩
    · obtain ⟨x, hx⟩ := e.resolve_left d
      exact ⟨x, by rw [Arbiter.get_put_ne _ _ d, Arbiter.take_get]; exact hx.1, hx.2⟩
  by_cases d : i = j
  · subst d
    right
    have hg := beginStart_gens_self slot k r i s hc
    have same : s.gens[i] = a.gens[i] := by
      refine h.unit.resolve_right fun b => ?_
      simp only [candidate, Bool.and_eq_true, Bool.or_eq_true, decide_eq_true_eq, b.2.state] at hc
      exact hc.2.elim nofun nofun
    have c : candidate a i = true := by unfold candidate at hc ⊢; rw [← h.cfg, ← same]; exact hc
    simp only [candidate, Bool.and_eq_true, decide_eq_true_eq] at hc
    exact ⟨c, by rw [hg], by rw [hg, f.1, f.2.1], ⟨⟨i, k, s.clock⟩, by rw [beginStart_arb]; simpa using took.1, rfl, f.1.symm,
      serves k (.inl rfl)⟩, by rw [hg]; exact hc.1.1.2, by rw [hg]; exact hc.1.2⟩
  · have g := beginStart_gens_ne slot k r s d
    rw [g]
    refine h.unit.imp id fun b => ⟨b.1, by rw [g]; exact b.2.state, by rw [g, f.1, f.2.1]; exact b.2.window, ?_,
      by rw [g]; exact b.2.available, by rw [g]; exact b.2.authority⟩
    obtain ⟨u, hu, h1, h2, h3⟩ := b.2.slot
    exact ⟨u, by rw [beginStart_arb]; simpa using took.2 u hu, h1, by rw [f.1]; exact h2, serves _ (.inr h3)⟩

/-! ## A serving (R66) -/

theorem servedFrom.serveKind {i : Fin 8} {a s : State} (k : ReasonKind) (h : servedFrom i a s) :
    servedFrom i a (Machine.serveKind k s).1 := by
  unfold Machine.serveKind
  split
  · exact h
  · next r hr =>
    split
    · next slot hp hs =>
      split
      · next j hj =>
        have hm := KeptServe.chooseUnit_mem hj
        simp only [candidatesFor, List.mem_filter, candidateFor, Bool.and_eq_true] at hm
        exact h.begin hm.2.1.1 hs
      · exact h.searched (.noCandidateFound hr hp)
    · exact h

theorem servedFrom.servePass {i : Fin 8} {a : State} (ks : List ReasonKind) {s : State} (h : servedFrom i a s) :
    servedFrom i a (Machine.servePass ks s).1 := by
  induction ks generalizing s with
  | nil => exact h
  | cons k ks ih =>
    have hk := h.serveKind k
    unfold Machine.servePass
    split <;> rename_i he <;> rw [he] at hk
    · exact hk
    · exact ih hk

theorem servedFrom.serveLoop {i : Fin 8} {a : State} (n : Nat) {s : State} (h : servedFrom i a s) :
    servedFrom i a (Machine.serveLoop n s) := by
  induction n generalizing s with
  | zero => exact h
  | succ n ih =>
    have hk := h.servePass reasonKinds
    unfold Machine.serveLoop
    split <;> rename_i he <;> rw [he] at hk
    · exact ih hk
    · exact hk

/-- A serving leaves each genset as it was, or has started it: a candidate, now, in a slot (R54, R64 to R66). -/
theorem serve_leaves (i : Fin 8) (s : State) :
    (serve s).gens[i] = s.gens[i] ∨ (candidate s i = true ∧ StartedNow i (serve s)) := by
  unfold serve
  split
  · next h =>
    simp only [Bool.and_eq_true] at h
    have v := (servedFrom.refl i s).serveLoop 3
    refine v.unit.imp id fun b => ⟨b.1, b.2.state, b.2.window, ?_, ⟨b.2.available, b.2.authority⟩,
      ⟨by rw [v.entry]; exact h.1, by rw [v.active]; exact h.2⟩⟩
    obtain ⟨u, hu, h1, h2, r, h3⟩ := b.2.slot
    exact ⟨u, r, hu, h1, h2, h3⟩
  · exact .inl rfl

/-- An act that leaves genset `i` in state `st` under the timer `w` and ends with a serving (R48, R66). -/
theorem leftIn.serve {i : Fin 8} {st : UnitState} {w : Option Time} {s : State} (h1 : s.gens[i].state = st)
    (h2 : s.gens[i].phaseTimer = w) : leftIn i st w (serve s) := by
  refine (serve_leaves i s).imp (fun e => by rw [e]; exact ⟨h1, h2⟩) fun b => ⟨?_, b.2⟩
  have c := b.1
  simp only [candidate, Bool.and_eq_true, Bool.or_eq_true, decide_eq_true_eq, h1] at c
  rcases c.2 with rfl | rfl <;> simp

/-- An act that leaves genset `i` in state `st` under the timer `w` and settles it (R48, R66, R154). -/
theorem leftIn.unitSettled {i : Fin 8} {st : UnitState} {w : Option Time} {s : State} (h1 : s.gens[i].state = st)
    (h2 : s.gens[i].phaseTimer = w) : leftIn i st w (unitSettled s) := by
  have e : (keepBlackStart s).gens = s.gens := by
    unfold keepBlackStart raiseReason
    split
    · split <;> rfl
    · rfl
  exact .serve (by rw [e]; exact h1) (by rw [e]; exact h2)

end Sys2Proof.Machine
end

