-- ==== Sys2Proof/Laws/Plan.lean ====
section
/-! SUPPORT. What the parts of a plan step's end do, and what a bad judgement does: one lemma for each, which a proof about a
step of the plan, an attempt or a gap cites in place of the definition. -/

namespace Sys2Proof.Machine

/-! ## Reasons (R62) -/

/-- A withdrawal touches the start reasons alone. -/
theorem withdrawReason_others (k : ReasonKind) (s : State) : { withdrawReason k s with arb := s.arb } = s := by
  unfold withdrawReason
  split
  · rfl
  · split <;> rfl

@[simp] theorem withdrawReason_seq (k : ReasonKind) (s : State) : (withdrawReason k s).seq = s.seq := by
  have h := congrArg State.seq (withdrawReason_others k s)
  exact h

/-- A reason is ended once it has been withdrawn. -/
theorem withdrawReason_ended (k : ReasonKind) (s : State) : reasonEnded k (withdrawReason k s) := by
  intro r h
  unfold withdrawReason at h
  split at h
  · simp_all
  · split at h <;> simp only [putReason, Arbiter.get_put_self] at h <;> cases h <;> simp_all

/-- A raise touches the start reasons alone. -/
theorem raiseReason_others (k : ReasonKind) (need : Nat) (named : Option (Fin 8)) (s : State) :
    { raiseReason k need named s with arb := s.arb } = s := by
  unfold raiseReason
  split <;> rfl

/-- The BlackStart reason stands as raised, whether it was held before or not (R160). -/
theorem raiseReason_raised (named : Option (Fin 8)) (s : State) :
    blackStartRaised named (raiseReason .blackStart 0 named s) := by
  unfold raiseReason
  split
  · exact ⟨⟨0, named, .pending, false, false⟩, Arbiter.get_put_self s.arb .blackStart _, rfl, rfl, rfl⟩
  · next r _ =>
    exact ⟨{ r with need := 0, named, withdrawn := false }, Arbiter.get_put_self s.arb .blackStart _, rfl, rfl, rfl⟩

/-! ## The end of a step and of the plan (R103, R157, R163) -/

theorem clearCaps_fold (is : List (Fin 8)) (s : State) :
    let t := is.foldl (fun s g => modPv g (fun p => { p with cap := none }) s) s
    { t with pvs := s.pvs } = s
      ∧ ∀ g : Fin 8, t.pvs[g] = if g ∈ is then { s.pvs[g] with cap := none } else s.pvs[g] := by
  induction is generalizing s with
  | nil => exact ⟨rfl, fun g => by simp⟩
  | cons i is ih =>
    obtain ⟨frame, caps⟩ := ih (modPv i (fun p => { p with cap := none }) s)
    simp only [List.foldl_cons]
    refine ⟨?_, fun g => ?_⟩
    · exact congrArg (fun u : State => { u with pvs := s.pvs }) frame
    · rw [caps g]
      by_cases h : g = i
      · subst h; simp
      · simp [h]

/-- Every cap is absent, and nothing else changes (R103). -/
theorem clearCaps_spec (s : State) :
    { clearCaps s with pvs := s.pvs } = s ∧ ∀ g : Fin 8, (clearCaps s).pvs[g] = { s.pvs[g] with cap := none } := by
  obtain ⟨frame, caps⟩ := clearCaps_fold units s
  have inUnits (g : Fin 8) : g ∈ units := List.mem_finRange g
  exact ⟨frame, fun g => (caps g).trans (if_pos (inUnits g))⟩

@[simp] theorem clearCaps_seq (s : State) : (clearCaps s).seq = s.seq := by
  have h := congrArg State.seq (clearCaps_spec s).1
  exact h

/-- The end of a step moves the pointer on and stops its timer and its spell; of the rest it touches only the start reasons. -/
theorem endStep_spec (s : State) :
    (endStep s).seq = { s.seq with stepTimer := none, bandSpell := none, pointer := s.seq.pointer.map (· + 1) }
      ∧ { endStep s with seq := s.seq, arb := s.arb } = s := by
  have frame := congrArg (fun u : State => { u with seq := s.seq }) (withdrawReason_others .blackStart s)
  unfold endStep
  split
  · exact ⟨by simp, frame⟩
  · exact ⟨rfl, rfl⟩

/-- The items of the sequencer and the caps at the end of the plan (R103, R163). -/
theorem planEnd_items (s : State) :
    (planEnd s).seq.phase = .idle ∧ (planEnd s).seq.pointer = none ∧ (planEnd s).seq.stepTimer = none
      ∧ (planEnd s).seq.stepClaim = none ∧ (planEnd s).seq.attempts = 0 ∧ (planEnd s).seq.collapses = 0
      ∧ ∀ g : Fin 8, (planEnd s).pvs[g].cap = none := by
  unfold planEnd
  refine ⟨?_, ?_, ?_, ?_, ?_, ?_, fun g => by rw [(clearCaps_spec _).2 g]⟩ <;> simp [notifyPhase]

/-! ## Judgements (R30, R34, R44) -/

/-- Bad judgements recorded one at a time offer their events, and move the lock as `lockAfterBads` says. -/
theorem recordBads_offered (n : Nat) (s : State) : recordBads n s = badsOffered n s := by
  induction n generalizing s with
  | zero => rfl
  | succ n ih =>
    rw [recordBads, ih, badsOffered]
    congr 1
    have hl : (offer .sampleBad none 0 s).lock = s.lock := rfl
    unfold recordBad badEffect lockAfterBad
    rw [hl]
    cases h : s.lock.mode with
    | hunt => rfl
    | verify => rfl
    | locked =>
      by_cases hb : 6 ≤ badCount (pushJudgement false s.lock.window)
      · simp only [Config.badLimit, hb, and_self, if_true]; rfl
      · simp only [Config.badLimit, hb, and_false, if_false, h]

theorem badsOffered_lock (n : Nat) (s : State) : (badsOffered n s).lock = lockAfterBads n s.lock := by
  induction n generalizing s with
  | zero => rfl
  | succ n ih => rw [badsOffered, ih, lockAfterBads]

end Sys2Proof.Machine
end

