-- ==== Sys2Proof/Tests/Slice0.lean ====
section
/-! SUPPORT. The tests of the model: the well-formedness smoke, single steps of the manual's worked cases, and for each
statement with hypotheses a state and operands that meet them. Expected values come from the manual. -/

namespace Sys2Proof.Tests
open Sys2Proof Sys2Proof.Machine
set_option Elab.async false

/-! ## A small plant -/

/-- The bytes of a two-byte field. -/
def two (v : BitVec 16) : List Byte := [v.setWidth 8, (v >>> 8).setWidth 8]

/-- The payload of a SAMPLE frame with outputs of three gensets and three PV groups (09, SAMPLE). -/
def samplePayload (seq bus : Byte) (freq rocof g1 g2 g3 p1 p2 p3 : BitVec 16) : List Byte :=
  [seq, bus] ++ two freq ++ [0, 0] ++ two rocof ++ (two g1 ++ two g2 ++ two g3 ++ List.replicate 10 0)
    ++ (two p1 ++ two p2 ++ two p3 ++ List.replicate 10 0)

/-- A Live sample in sequence, at nominal frequency unless said. -/
def live (seq : Byte) (g1 g2 g3 p1 p2 p3 : BitVec 16) (freq : BitVec 16 := 50000) : List Byte :=
  samplePayload seq 1 freq 0 g1 g2 g3 p1 p2 p3

/-- A Dead sample in sequence. -/
def deadBus : List Byte := samplePayload 41 0 0 0 0 0 0 0 0 0

/-- Three gensets, three PV groups, and the eight feeders of the worked case of chapter 6. -/
def plantTables : Tables := { State.factoryTables with
  gensets := ((State.factoryTables.gensets.set 0 ⟨true, 1000, 30, true, 3, 0, false⟩).set 1
    ⟨true, 1000, 30, false, 3, 0, false⟩).set 2 ⟨true, 600, 30, true, 3, 2, false⟩
  ring := [2, 0, 1, 3, 4, 5, 6, 7]
  pvs := (((Vector.replicate 8 (⟨10, 10, 3⟩ : PvCfg)).set 0 ⟨1000, 10, 0⟩).set 1 ⟨800, 30, 0⟩).set 2 ⟨500, 10, 1⟩
  feeders := (((((((State.factoryTables.feeders.set 0 ⟨true, .load, none, 7, 1, 900, 150, 1, true⟩).set 1
    ⟨true, .load, none, 2, 2, 400, 150, 3, true⟩).set 2 ⟨true, .load, none, 0, 1, 250, 150, 10, true⟩).set 3
    ⟨true, .load, none, 0, 1, 180, 150, 12, true⟩).set 4 ⟨true, .load, none, 1, 1, 300, 300, 5, true⟩).set 5
    ⟨true, .load, none, 0, 2, 220, 150, 12, true⟩).set 6 ⟨true, .load, none, 1, 3, 350, 150, 8, true⟩).set 7
    ⟨true, .sourceTie, some 2, 3, 0, 0, 150, 20, true⟩ }

/-- A genset Online with its min-run timer running. -/
def onlineUnit : Genset := { State.resetGenset with
  state := .online
  minRun := .running 600000
  breakerClosed := true
  engineRunning := true }

/-- The plant at work: entry complete, quality Full, G1 and G2 Online, G3 Stopped, every feeder Closed, and a sample of
seq 40 held. -/
def plant : State := { State.reset with
  clock := 5000
  cfg := plantTables
  store := plantTables
  entry := ⟨true, none, true⟩
  lock := ⟨.locked, some 41, 8, [true], some ⟨SampleRec.parse (live 40 520 480 0 500 400 0), 5000⟩, some 0, some 5100,
    some 5250, .full⟩
  gens := ((State.reset.gens.set 0 onlineUnit).set 1 onlineUnit).set 2 { State.resetGenset with state := .stopped }
  cur := { State.resetCurtail with fullOwed := false }
  feeders := [0, 1, 2, 3, 4, 5, 6, 7].foldl (fun v (k : Fin 24) => v.set k { v[k] with state := .closed })
    State.reset.feeders }

/-- The plant with its margin terms recomputed from the held sample. -/
def bookedPlant : State := recompute plant

/-- The property of the state that an outcome answers. -/
def answers (o : Host.Outcome State Fault Refusal) (p : State → Bool) : Bool :=
  match o with
  | .next t => p t
  | .fault _ | .refused _ => false

/-- A state with its quality level put to Degraded, the lock in Verify. -/
def degraded (s : State) : State := { s with lock := { s.lock with mode := .verify, quality := .degraded } }

/-- A state with a claim at the end of its list. -/
def withClaim (c : Claim) (s : State) : State := recompute { s with book := { s.book with claims := s.book.claims ++ [c] } }

/-- A state in another phase of the sequencer. -/
def inPhase (p : Phase) (s : State) : State := { s with seq := { s.seq with phase := p } }

/-- A state with a link Silent. -/
def silent (l : Link) (s : State) : State := modLink l (fun c => { c with active := false }) s

/-- A state with a feeder in another state. -/
def feederAs (k : Fin 24) (st : FeederState) (w : Option Time) (s : State) : State :=
  modFeeder k (fun f => { f with state := st, relayWindow := w }) s

/-- A state with a genset in another state, with its phase timer. -/
def unitAs (i : Fin 8) (st : UnitState) (w : Option Time) (s : State) : State :=
  modGen i (fun g => { g with state := st, phaseTimer := w }) s

/-- A state with a genset under the plant's control. -/
def localUnit (i : Fin 8) (s : State) : State := modGen i (fun g => { g with authority := .byPlant }) s

/-- The plant in Rebuilding at step 1 of a plan, its timer at its expiry. -/
def rebuildingPlant (act : StepAct) (fail : Bool) : State := { plant with
  cfg := { plantTables with
    planLength := 2
    plan := plantTables.plan.set 0 ⟨act, 60, fail⟩ }
  seq := { plant.seq with phase := .rebuilding, pointer := some 1, stepTimer := some 5000 } }

/-! ## Well-formedness: each check refuses a term that fails it -/

theorem test_wf_refuses_long_payloads :
    (Instr.sample 0x60 (List.replicate 121 0) true).wf = false ∧ (Instr.frameRefused .S 0x70 1 (List.replicate 121 0)).wf = false
      ∧ (Instr.set 1 (List.replicate 121 0)).wf = false := by decide +kernel
theorem test_wf_refuses_short_ring : (Instr.setRing 1 [1, 2, 3, 4, 5, 6, 7]).wf = false := by decide
theorem test_wf_refuses_cancel_on_other_links :
    (Instr.cancelClaim .G 1 5).wf = false ∧ (Instr.cancelClaim .P 1 5).wf = false := by decide
theorem test_wf_refuses_long_lists :
    (Instr.unitStatus 1 (List.replicate 9 ⟨1, 0, 0, 0⟩)).wf = false
      ∧ (Instr.availability 1 (List.replicate 9 ⟨1, 0⟩)).wf = false
      ∧ (Instr.pvReport 1 (List.replicate 9 ⟨1, 0, 0⟩)).wf = false
      ∧ (Instr.feederStatus 1 (List.replicate 25 ⟨1, 0, 0⟩)).wf = false := by decide
theorem test_wf_refuses_claim_zero :
    (Instr.claimWaitExpiry 0).wf = false ∧ (Instr.claimLifetimeExpiry 0).wf = false
      ∧ (Instr.claimSettleExpiry 0).wf = false := by decide
theorem test_wf_accepts_full_lists :
    (Instr.feederStatus 1 (List.replicate 24 ⟨1, 0, 0⟩)).wf = true ∧ (Instr.set 1 (List.replicate 120 0)).wf = true := by
  decide +kernel

/-- The table gives no command bits, so no word spells one. -/
theorem test_no_word_spells_a_command : decodeTableWord 8 0x12 = none := by decide

/-! ## Frames (09) -/

/-- The CRC-16 of R168 over the nine digits, the check value of that polynomial, initial value and bit order. -/
theorem test_frame_check_value :
    frameCheck [0x31, 0x32, 0x33, 0x34, 0x35, 0x36, 0x37, 0x38, 0x39] = 0x29B1 := by decide +kernel

/-- START UNIT is kind 04h with one field, the unit (09, request index). -/
theorem test_start_unit_frame : commandOfFrame .S 0x04 7 [3] = .startUnit 7 3 := by decide +kernel
/-- CLAIM RESERVE is kind 08h: amount, wait and lifetime, the two-byte fields low byte first. -/
theorem test_claim_reserve_frame :
    commandOfFrame .S 0x08 7 [0x2C, 0x01, 30, 0x58, 0x02] = .claimReserve 7 300 30 600 := by decide +kernel
/-- UNIT STATUS is kind 21h, entries of four bytes. -/
theorem test_unit_status_frame :
    commandOfFrame .G 0x21 9 [1, 1, 1, 0, 2, 0, 0, 1] = .unitStatus 9 [⟨1, 1, 1, 0⟩, ⟨2, 0, 0, 1⟩] := by decide +kernel
/-- PV REPORT is kind 28h, entries of five bytes. -/
theorem test_pv_report_frame :
    commandOfFrame .P 0x28 9 [1, 0x84, 0x03, 0xFF, 0xFF] = .pvReport 9 [⟨1, 900, 0xFFFF⟩] := by decide +kernel
/-- FEEDER STATUS is kind 31h, entries of four bytes. -/
theorem test_feeder_status_frame :
    commandOfFrame .F 0x31 9 [24, 1, 0x2C, 0x01] = .feederStatus 9 [⟨24, 1, 300⟩] := by decide +kernel
/-- R169: the kind of an order, a request of another link, and a wrong length. -/
theorem test_frames_refused :
    frameRefusal .S 0x40 [] = some .refusedKind ∧ frameRefusal .G 0x04 [1] = some .refusedRights
      ∧ frameRefusal .S 0x04 [1, 2] = some .refusedLength := by decide +kernel

/-! ## Chapter 1, "A cloud, a start and a waiting claim" -/

/-- The list of the worked case: link F's claim 4 of 150 kW. -/
def cloudPlant : State :=
  let s := withClaim ⟨4, .linkF, .feeder 6, 150, 300, false, .granted 300000⟩ plant
  { s with book := { s.book with nextId := 5 } }

/-- Sample 1. -/
theorem test_margin_of_sample_1 :
    computeTerms cloudPlant = ⟨1000, 900, 900, 0, 540, 520, 540, 150, 310, 1900, 1300, -400, -1000⟩ := by decide +kernel
/-- Sample 1: the stop candidate is G2 and the test leaves M' at -690. -/
theorem test_stop_test_of_sample_1 :
    stopCandidate cloudPlant = some 1 ∧ marginWithout cloudPlant 1 = -690 := by decide +kernel
/-- Sample 2: M is -570, and the shortfall dwell starts. -/
theorem test_sample_2_starts_dwell :
    answers (exec (.sample 0x60 (live 41 820 780 0 180 120 0) true) cloudPlant) (fun t =>
      t.book.terms.M = -570 && t.book.terms.RR = 820 && t.book.shortfallDwell = some 5000
        && t.lock.expected = some 42) = true := by decide +kernel
/-- 5.1 s: a dwell that has run the start delay raises a Shortfall reason of 570, and G3 starts in slot 1. -/
theorem test_shortfall_starts_g3 :
    answers (exec (.sample 0x60 (live 41 820 780 0 180 120 0) true)
        { cloudPlant with book := { cloudPlant.book with shortfallDwell := some 0 } }) (fun t =>
      t.arb.shortfall = some ⟨570, none, .inService, false, false⟩ && t.arb.slot1 = some ⟨2, .shortfall, 5000⟩
        && t.gens[2].state = .starting && (t.links.get .G).sending = some (.order (.start 2))) = true := by decide +kernel
/-- 40.05 s: CLAIM FEEDER of 400 kW with M 290 waits as claim 5, Cl becomes 550 and M -110. -/
theorem test_waiting_feeder_claim :
    let s := { cloudPlant with
      lock := { cloudPlant.lock with held := some ⟨SampleRec.parse (live 40 560 540 500 180 120 0), 5000⟩ }
      gens := cloudPlant.gens.set 2 onlineUnit
      feeders := cloudPlant.feeders.set 1 { cloudPlant.feeders[1] with state := .openHeld } }
    let s := recompute (modFeederCfg 1 (fun f => { f with estimate := 400, coldLoad := 100 }) s)
    s.book.terms.M = 290
      ∧ answers (exec (.claimFeeder 9 2 60 0) s) (fun t =>
          t.book.terms.M = -110 && t.book.terms.Cl = 550
            && t.book.claims.getLast? = some ⟨5, .linkF, .feeder 1, 400, 30, true, .pending 65000⟩
            && (t.links.get .F).sending = some (.reply ⟨0x32, 9, .pending, [u1 5, u2 400, i4 (-110)]⟩)) = true := by
  decide +kernel

/-! ## Chapter 2, "A burst of lost records in Locked" -/

/-- 0.5 s: with five Bad entries, a gap of 1 is the sixth: the record becomes the reference and quality is Degraded. -/
theorem test_gap_of_one_loses_lock :
    answers (exec (.sample 0x60 (live 45 0 0 0 0 0 0 49910) true)
        { plant with lock := { plant.lock with expected := some 44, window := List.replicate 5 false } }) (fun t =>
      t.lock.mode = .verify && t.lock.expected = some 46 && t.lock.verifyCount = 0 && t.lock.quality = .degraded
        && t.lock.held = plant.lock.held && t.lock.window = []
        && (t.links.get .P).notices.map (fun n => (n.kind, n.subject, n.cause))
          = [(.qualityChange, .quality .degraded, .quality .full)]) = true := by decide +kernel
/-- 1.3 s: the eighth good record after the reference leads to Locked and to Full. -/
theorem test_eighth_good_record_locks :
    answers (exec (.sample 0x60 (live 53 520 480 0 0 0 0) true)
        { plant with lock := { plant.lock with
            mode := .verify, expected := some 53, verifyCount := 7, window := [], quality := .degraded } }) (fun t =>
      t.lock.mode = .locked && t.lock.quality = .full && t.lock.window = [true] && t.lock.expected = some 54) = true := by
  decide +kernel
/-- The meter falls silent: at 0.35 s the gap timer records a bad judgement and moves the expected number on. -/
theorem test_gap_timer_moves_on :
    answers (exec .sampleGapTimerExpiry { plant with clock := 5250 }) (fun t =>
      t.lock.window = [true, false] && t.lock.expected = some 42 && t.lock.gapNext = some 5350
        && t.lock.quality = .full) = true := by decide +kernel
/-- At an age of 2.1 s a hunting lock is Stale, and a Blind reason starts G3. -/
theorem test_stale_raises_blind :
    answers (exec .heldSampleAgeStep { plant with
        clock := 7100
        lock := { plant.lock with
          mode := .hunt, expected := none, age := some 20, ageNext := some 7100, quality := .degraded } }) (fun t =>
      t.lock.quality = .stale && t.arb.blind = some ⟨0, none, .inService, false, false⟩
        && t.gens[2].state = .starting) = true := by decide +kernel

/-! ## Chapter 3, "A start failure while a trip is served" -/

/-- The plant of the worked case: G3 starting for a Shortfall of 450, G4 the next candidate. -/
def tripPlant : State :=
  let s := { plant with
    clock := 12000
    cfg := { plantTables with
      gensets := ((plantTables.gensets.set 0 ⟨true, 1000, 30, true, 3, 2, false⟩).set 3 ⟨true, 800, 30, true, 3, 0, false⟩).set
        4 ⟨true, 1500, 30, true, 3, 0, false⟩
      ring := [2, 3, 4, 0, 1, 5, 6, 7] }
    arb := { plant.arb with
      shortfall := some ⟨450, none, .inService, false, false⟩
      slot1 := some ⟨2, .shortfall, 0⟩ }
    gens := (((plant.gens.set 0 { onlineUnit with lastOutput := 300 }).set 3 { State.resetGenset with state := .stopped }).set
      4 { State.resetGenset with state := .stopped, available := false }) }
  { unitAs 2 .starting (some 30000) s with store := s.cfg }

/-- 12.0 s: G1 trips at its fail limit, is LockedOut and goes to the ring's tail; G4 starts in slot 2 for a Trip of 300. -/
theorem test_trip_starts_g4 :
    answers (exec (.unitReport 1 1 3) tripPlant) (fun t =>
      t.gens[0].state = .lockedOut && t.cfg.gensets[0].failCount = 3 && t.store.gensets[0].lockout
        && t.cfg.ring = [2, 3, 4, 1, 5, 6, 7, 0] && t.arb.trip = some ⟨300, none, .inService, false, false⟩
        && t.arb.slot2 = some ⟨3, .trip, 12000⟩ && t.gens[3].phaseTimer = some 42000) = true := by decide +kernel
/-- 30.0 s: G3's crank window ends; its third failure locks it out, and no candidate is left. -/
theorem test_crank_window_fails_g3 :
    answers (exec (.crankWindowExpiry 2) { tripPlant with
        clock := 30000
        gens := tripPlant.gens.set 3 { State.resetGenset with state := .synchronising, phaseTimer := some 85000 } }) (fun t =>
      t.gens[2].state = .lockedOut && t.arb.slot1 = none && t.book.noCandidate
        && t.arb.shortfall = some ⟨450, none, .pending, false, true⟩) = true := by decide +kernel
/-- 25.0 s: G4 Running in Starting enters Synchronising with its sync window. -/
theorem test_running_enters_synchronising :
    answers (exec (.unitReport 1 3 0) { tripPlant with clock := 25000 }) (fun t =>
      t.gens[2].state = .synchronising && t.gens[2].phaseTimer = some 85000) = true := by decide +kernel

/-! ## Chapter 4, "A release covered by a start" -/

/-- 1.0 s: M is 200 and the headroom of G3 400, so the release waits under claim 8, and M becomes -200. -/
theorem test_release_waits_for_cover :
    let s := { plant with
      clock := 1000
      cfg := { plantTables with
        gensets := plantTables.gensets.set 2 ⟨true, 800, 30, true, 3, 0, false⟩
        settings := { State.defaultSettings with book := { State.defaultSettings.book with releaseWait := 30 } } }
      gens := plant.gens.set 2 { onlineUnit with lastOutput := 400 }
      lock := { plant.lock with held := some ⟨SampleRec.parse (live 40 600 500 400 300 200 0), 0⟩ }
      book := { plant.book with nextId := 8 } }
    let s := withClaim ⟨7, .linkS, .reserve, 500, 600, false, .granted 600000⟩ s
    s.book.terms.M = 200
      ∧ answers (exec (.releaseUnit 3 3) s) (fun t =>
          t.book.terms.M = -200 && t.gens[2].pendingRelease = some 8
            && t.book.claims.getLast? = some ⟨8, .releaseCover, .unit 2, 400, 30, true, .pending 31000⟩) = true := by decide +kernel

/-! ## Chapter 5, "Sharing and the ramp bucket" -/

/-- The worked case before 0.0 s: G1 and G2 Online, the other PV groups in a class of their own. -/
def solarPlant : State := { plant with
  cur := { State.resetCurtail with fullOwed := false }
  pvs := ((plant.pvs.set 0 ⟨.coordinated, 900, some 0, some 5100, 0, 0, some 300, none, false⟩).set 1
    ⟨.coordinated, 700, some 0, some 5100, 0, 0, some 200, none, false⟩).set 2
    ⟨.coordinated, 400, some 0, some 5100, 0, 0, some 400, none, false⟩ }

/-- 0.0 s: the second sharing round gives PV1 400 and PV2 its whole base; the ceilings are 500, 0 and 500. -/
theorem test_sharing_at_start :
    answers (exec (.sample 0x60 (live 41 310 290 0 300 200 400 50100) true) solarPlant) (fun t =>
      t.cur.newTotal = 900 && t.cur.reduction = 1100 && t.cur.bucket = 0
        && (t.pvs[0].issued, t.pvs[1].issued, t.pvs[2].issued) = (some 500, some 0, some 500)) = true := by decide +kernel
/-- 0.0 s: the curtailed-energy event carries 400 + 700 + 0 kW-intervals. -/
theorem test_curtailed_energy :
    answers (exec (.sample 0x60 (live 41 310 290 0 300 200 400 50100) true) { solarPlant with
        cfg := { plantTables with tallies := plantTables.tallies.set 0 ⟨0x200, 0, .accumulate, .fullOnly⟩ } }) (fun t =>
      t.tally.live[0] = 1100) = true := by decide +kernel
/-- 0.1 s: the bucket admits a rise of 300, to ceilings of 700, 100 and 500. -/
theorem test_sharing_rises :
    answers (exec (.sample 0x60 (live 41 460 440 0 500 0 400 50100) true)
        { solarPlant with pvs := ((solarPlant.pvs.set 0 { solarPlant.pvs[0] with issued := some 500 }).set 1
            { solarPlant.pvs[1] with issued := some 0 }).set 2 { solarPlant.pvs[2] with issued := some 500 } }) (fun t =>
      t.cur.bucket = 300 && t.cur.newTotal = 1200
        && (t.pvs[0].issued, t.pvs[1].issued, t.pvs[2].issued) = (some 700, some 100, some 500)) = true := by decide +kernel
/-- 0.2 s: a part of 590 over weights 10 and 30 leaves 1, which goes to PV1. -/
theorem test_remainder_to_lowest_index :
    (shareClass 590 [⟨0, 900, 10, 0, false⟩, ⟨1, 700, 30, 0, false⟩]).map (·.share) = [148, 442] := by decide +kernel

/-! ## Chapter 6, "Shortfall selection and the hold-off" and "Two stages and their release" -/

/-- The order of selection of R124. -/
theorem test_shed_order : shedOrder plant = [5, 3, 2, 6, 4, 1] := by decide +kernel
/-- 40.0 s: 620 kW takes F6, F4 and F3, listed ascending. -/
theorem test_shed_selection : shedSelection plant 620 = [5, 3, 2] ∧ ascending (shedSelection plant 620) = [2, 3, 5] := by
  decide +kernel
/-- 40.9 s: BREAKER REPORT Open makes an opening feeder Shed and starts the settle timer. -/
theorem test_opening_feeder_is_shed :
    answers (exec (.breakerReport 1 4 0) { feederAs 3 .opening (some 42000) plant with clock := 40900 }) (fun t =>
      t.feeders[3].state = .shed && t.feeders[3].timeOpened = some 40900 && t.shed.settle = some 42900) = true := by
  decide +kernel
/-- 60.2 s: both stages fire on the advance; F3, F4, F5 and F2, F6 open, F1 of class 7 does not. -/
theorem test_rocof_advance_fires_stages :
    answers (exec (.sample 0x60 (samplePayload 41 1 48690 (-1600) 520 480 0 500 400 0) true)
        { plant with shed := { plant.shed with timers := plant.shed.timers.set 0 (some 5200) } }) (fun t =>
      t.shed.latches.toList = [true, true, false, false] && t.shed.timers.toList = [none, none, none, none]
        && feedersIn t .opening = [1, 2, 3, 4, 5] && t.feeders[0].state = .closed) = true := by decide +kernel
/-- 60.1 s: the stage 1 timer starts with its delay of 300 ms. -/
theorem test_stage_timer_starts :
    answers (exec (.sample 0x60 (samplePayload 41 1 48980 (-1200) 520 480 0 500 400 0) true) plant) (fun t =>
      t.shed.timers.toList = [some 5300, none, none, none]) = true := by decide +kernel
/-- 73.5 s: a spell of 10.0 s releases every latch. -/
theorem test_latches_released :
    answers (exec (.sample 0x60 (live 41 520 480 0 500 400 0 49900) true)
        { plant with
          clock := 73500
          shed := { plant.shed with latches := Vector.replicate 4 true, spell := some 63500 } }) (fun t =>
      t.shed.latches.toList = [false, false, false, false] && t.shed.spell = none) = true := by decide +kernel

/-! ## Chapter 7, "Re-closing after the stages" -/

/-- 123.0 s: F2 has the lowest rank; its close of 600 kW is covered and ordered. -/
def restorePlant : State :=
  let s := [1, 2, 3, 4, 5].foldl (fun s (k : Fin 24) => feederAs k .shed none s) plant
  { s with
    lock := { s.lock with held := some ⟨SampleRec.parse (live 40 0 0 0 0 0 0), 5000⟩ }
    book := { s.book with nextId := 20, terms := { s.book.terms with M := 2000 } } }

/-- 123.0 s: claim 20, the bucket at 600, M at 1,400 of the 2,000 of the case (here 2,000 of headroom less RR 200). -/
theorem test_restore_closes_f2 :
    chooseRestore restorePlant = some 1
      ∧ (let t := restorationEvaluates true restorePlant
         t.feeders[1].state = .closing ∧ t.rest.bucket = 600
          ∧ t.book.claims = [⟨20, .restoration, .feeder 1, 600, 30, true, .granted 35000⟩]
          ∧ (t.links.get .F).orders = [.close 1]) := by decide +kernel
/-- 125.0 s: a bucket of 200 does not admit F5's 900, and the next feeder item names the bucket. -/
theorem test_restore_waits_for_bucket :
    let s := { feederAs 1 .closed none restorePlant with rest := { restorePlant.rest with bucket := 200 } }
    (restorationEvaluates true s).rest.next = some ⟨4, 900, .bucket⟩
      ∧ bucketAdmits { s with rest := { s.rest with bucket := 100 } } 900 = true := by decide +kernel
/-- 127.9 s: a sample below the restore frequency restarts the hold-off. -/
theorem test_low_frequency_restarts_hold_off :
    answers (exec (.sample 0x60 (live 41 520 480 0 500 400 0 49760) true) plant) (fun t =>
      t.rest.holdOff = some 65000) = true := by decide +kernel

/-! ## Chapter 8, "A collapse with link G lost" -/

/-- 5.0 s: BLACK START BEGIN with G1 and G2 still recorded Online. -/
theorem test_black_start_begins :
    answers (exec (.blackStartBegin 1)
        (silent .G (withClaim ⟨12, .linkS, .reserve, 300, 600, false, .granted 600000⟩ plant))) (fun t =>
      t.seq.phase = .clearing && t.gens[0].state = .stopped && t.gens[1].state = .stopped && t.book.claims = []
        && feedersIn t .opening = [0, 1, 2, 3, 4, 5, 6, 7] && t.cfg.ring = plant.cfg.ring
        && t.pvs[0].issued = some 0 && t.pvs[0].cap = some 0) = true := by decide +kernel
/-- 6.4 s: the last breaker reported open completes Clearing; with link G Silent the reason waits. -/
theorem test_clearing_completes :
    let s := [0, 1, 2, 3, 4, 5, 6].foldl (fun s (k : Fin 24) => feederAs k .shed none s) (inPhase .clearing plant)
    let s := unitAs 0 .stopped none (unitAs 1 .stopped none s)
    answers (exec (.breakerReport 1 8 0) (silent .G { feederAs 7 .opening (some 7000) s with clock := 6400 })) (fun t =>
      t.seq.phase = .energising && t.seq.window = some 186400 && t.seq.attempts = 0
        && t.arb.blackStart = some ⟨0, none, .pending, false, false⟩) = true := by decide +kernel
/-- 39.0 s: a failed crank counts an attempt. -/
theorem test_attempt_counted :
    let s := { inPhase .energising (unitAs 1 .stopped none (unitAs 0 .starting (some 39000) plant)) with
      clock := 39000
      seq := { (inPhase .energising plant).seq with window := some 186400 }
      arb := { plant.arb with
        blackStart := some ⟨0, none, .inService, false, false⟩
        slot1 := some ⟨0, .blackStart, 9000⟩ } }
    let s := modGen 2 (fun g => { g with available := false }) s
    answers (exec (.crankWindowExpiry 0) s) (fun t =>
      t.seq.attempts = 1 && t.cfg.gensets[0].failCount = 1 && t.gens[0].state = .starting
        && t.gens[0].phaseTimer = some 69000 && t.cfg.ring = [2, 1, 3, 4, 5, 6, 7, 0]) = true := by decide +kernel

/-! ## Chapters 9 to 12 -/

/-- "A busy notice queue": a record that finds 16 is dropped and counted. -/
theorem test_full_queue_drops_notice :
    let n : Notice := ⟨.shedEvent, 2, .shedCause .underFrequency, .amount 620, 0, 10000⟩
    let c := { plant.links.F with notices := List.replicate 16 n }
    (c.notify n).notices.length = 16 ∧ (c.notify n).overflow = 1 := by decide +kernel
/-- FETCH NOTICE takes the oldest, tells 15 left and the overflow count, and clears it. -/
theorem test_fetch_takes_oldest :
    let n : Notice := ⟨.feederState, 2, .feeder .opening, .code .underFrequency, 0, 10000⟩
    answers (exec (.fetchNotice .F 3)
        { plant with links := plant.links.set .F { plant.links.F with notices := List.replicate 16 n, overflow := 1 } })
      (fun t => t.links.F.notices.length = 15 && t.links.F.overflow = 0
        && t.links.F.sending = some (.reply ⟨0x11, 3, .done, [u1 15, u1 1] ++ n.fields⟩)) = true := by decide +kernel

/-- The bytes of settings group 4 with the stage offsets of the worked case. -/
def shedGroup (o3 : BitVec 16) : List Byte :=
  [1, 4] ++ two 2000 ++ two 2000 ++ two 900 ++ two 1300 ++ two o3 ++ two 2000 ++ two 300 ++ two 200 ++ two 100 ++ two 0 ++ two 100
    ++ two (-1500) ++ two 10
/-- "Three SET requests": offsets that do not rise are refused, and the group is unchanged. -/
theorem test_set_offsets_must_rise :
    answers (exec (.set 1 (shedGroup 1250)) plant) (fun t =>
      t.cfg = plant.cfg && t.links.S.sending = some (.reply ⟨2, 1, .refusedRange, []⟩)) = true := by decide +kernel
/-- A Load feeder stores linked group 0 and its rank clamped to 24, and the reply is Clamped. -/
theorem test_set_feeder_clamped :
    answers (exec (.set 1 ([4, 5, 1, 0, 3, 1, 1] ++ two 450 ++ two 300 ++ [30, 1])) plant) (fun t =>
      t.cfg.feeders[4].linked = none && t.cfg.feeders[4].rank = 24 && t.store.feeders[4].estimate = 450
        && t.links.S.sending = some (.reply ⟨2, 1, .clamped, []⟩)) = true := by decide +kernel
/-- A second SourceTie naming PV3 is refused. -/
theorem test_set_second_tie_refused :
    answers (exec (.set 1 ([4, 5, 1, 1, 3, 1, 1] ++ two 450 ++ two 300 ++ [30, 1])) plant) (fun t =>
      t.cfg = plant.cfg && t.links.S.sending = some (.reply ⟨2, 1, .refusedRange, []⟩)) = true := by decide +kernel

/-- "Counting a double stage": after stage 1 the tallies stand at 3, 730 and 0. -/
theorem test_double_stage_tallies :
    let t1 : TallyCfg := ⟨0x018, 0, .count, .any⟩
    let s := { plant with
      cfg := { plantTables with
        tallies := ((plantTables.tallies.set 0 t1).set 1 { t1 with mode := .accumulate }).set 2
          ⟨0x008, 6, .count, .any⟩ }
      shed := { plant.shed with timers := plant.shed.timers.set 0 (some 5000) } }
    answers (exec (.stageTimerExpiry 0) s) (fun t =>
      (t.tally.live[0], t.tally.live[1], t.tally.live[2]) = (3, 730, 0)) = true := by decide +kernel

/-- A wrong check on the sample input: one FrameError event with index 5, and one bad judgement (R28, R168). -/
theorem test_wrong_check_counted_and_judged :
    answers (exec (.frameError .sample .wrongCheck) { plant with
        cfg := { plantTables with
          tallies := (plantTables.tallies.set 0 ⟨0x2000, 5, .count, .any⟩).set 1 ⟨0x0800, 0, .count, .any⟩ } }) (fun t =>
      (t.tally.live[0], t.tally.live[1]) = (1, 1) && t.lock.window = [true, false]) = true := by decide +kernel

/-- "Entry with one silent feeder": at 10.0 s the feeder not reported becomes Faulted, and entry completes. -/
theorem test_entry_window_faults_feeder :
    answers (exec .entryWindowExpiry (feederAs 4 .unknown none { plant with
        clock := 10000
        entry := ⟨false, some 10000, false⟩ })) (fun t =>
      t.feeders[4].state = .faulted && t.entry = ⟨true, none, true⟩ && t.seq.armed) = true := by decide +kernel
/-- Power-on: the clock is 0, every unit Unknown, M is minus Rfloor and the window 10 s. -/
theorem test_power_on :
    answers (exec .powerOn plant) (fun t =>
      t.clock = 0 && t.gens[0].state = .unknown && t.book.terms.M = -200 && t.entry.window = some 10000
        && t.cfg = plantTables) = true := by decide +kernel
/-- RESTART: the reply stands alone in link S's queue, and each link is told. -/
theorem test_restart :
    answers (exec (.restart 7) plant) (fun t =>
      t.clock = 5000 && t.links.S.sending = some (.reply ⟨0x10, 7, .done, []⟩)
        && t.links.G.notices.map (·.kind) = [.restarted] && t.entry.window = some 15000) = true := by decide +kernel

/-- R176: an elapsed min-run timer carries its place among "Clock time, or elapsed" (03), in the twelfth field of READ 1. -/
theorem test_read_elapsed_min_run :
    ((readFields { plant with gens := plant.gens.set 0 { onlineUnit with minRun := .elapsed } } 1 1).map (·[11]?))
      = some (some ⟨4, 1⟩) := by decide +kernel
/-- R176: READ 6 has the fields in the order of the record table of chapter 2, the window's entries ahead of the bad count; with no
held sample the age is without limit, place 1 among its values. -/
theorem test_read_lock :
    (readFields { plant with lock := { plant.lock with window := [true, false, true] } } 6 0).map (fun fs => fs.take 5)
        = some [⟨1, 2⟩, ⟨1, 41⟩, ⟨1, 8⟩, ⟨1, 3⟩, ⟨1, 1⟩]
      ∧ (readFields { plant with lock := { plant.lock with held := none, age := none } } 6 0).map (fun fs => fs.drop 26)
        = some [⟨4, 1⟩, ⟨1, 0⟩] := by decide +kernel
/-- R176: an age without limit carries its place among "0 s upward in 100 ms steps, or without limit" (05), in the seventh
field of READ 2; 300 ms is sent as 300. -/
theorem test_read_available_age :
    (([none, some 3] : List (Option Nat)).map fun age =>
        (readFields (modPv 0 (fun p => { p with age := age }) plant) 2 1).map (·[6]?))
      = [some (some ⟨4, 1⟩), some (some ⟨4, 300⟩)] := by decide +kernel

/-! ## The commands no worked case shows -/

theorem test_step_runs_front : step { State.reset with pending := [.presence .S 1] } = exec (.presence .S 1) State.reset := by
  rfl
theorem test_idle_step_counts :
    answers (step State.reset) (fun t => t.clock = 1 && t.pending = []) = true := by decide +kernel
theorem test_stop_refused_for_last_unit :
    answers (exec (.stopUnit 1 1) (unitAs 1 .stopped none plant)) (fun t =>
      t.gens[0].state = .online && t.links.S.sending = some (.reply ⟨5, 1, .refusedReserve, []⟩)) = true := by decide +kernel
theorem test_recall_window_set :
    answers (exec (.recallUnit 1 2) (localUnit 1 plant)) (fun t =>
      t.gens[1].recallWindow = some 65000 && t.links.G.sending = some (.order (.recall 1))) = true := by decide +kernel
theorem test_restore_hold_refuses_two :
    answers (exec (.restoreHold 1 2) plant) (fun t =>
      !t.rest.hold && t.links.S.sending = some (.reply ⟨0x0E, 1, .refusedRange, []⟩)) = true := by decide +kernel
theorem test_snapshot_zeroes :
    answers (exec (.snapshot 1 1) { plant with tally := { plant.tally with live := Vector.replicate 16 9 } }) (fun t =>
      t.tally.live[0] = 0 && t.tally.snap[0] = 9 && t.tally.snapTime = some 5000) = true := by decide +kernel
theorem test_silent_link_told :
    answers (exec (.linkSilent .G) { plant with links := plant.links.set .G { plant.links.G with silenceDue := 5000 } })
      (fun t => !t.links.G.active && t.links.S.notices.map (fun n => (n.kind, n.index)) = [(.linkSilent, 2)]) = true := by
  decide +kernel
theorem test_release_group_drops_ceiling :
    answers (exec (.releaseGroup 1 2) plant) (fun t =>
      t.pvs[1].issued = none && t.pvs[1].authority = .byPlant && t.book.terms.pvLoc = 400) = true := by decide +kernel
theorem test_pv_report_clamps :
    answers (exec (.pvReport 1 [⟨1, 1200, 0xFFFF⟩, ⟨9, 1, 1⟩]) plant) (fun t =>
      t.pvs[0].available = 1000 && t.pvs[0].age = some 0
        && t.links.P.sending = some (.reply ⟨0x28, 1, .clamped, []⟩)) = true := by decide +kernel
theorem test_adopt_open_held :
    answers (exec (.adoptFeeder 1 2) (feederAs 1 .openHeld none plant)) (fun t => t.feeders[1].state = .shed) = true := by
  decide +kernel
theorem test_closing_window_faults :
    answers (exec (.closingRelayWindowExpiry 1) (withClaim ⟨4, .linkF, .feeder 1, 600, 30, false, .granted 90000⟩
        (feederAs 1 .closing (some 5000) plant))) (fun t =>
      t.feeders[1].state = .faulted && t.book.claims = []) = true := by decide +kernel
theorem test_cooldown_ends_stopped :
    answers (exec (.cooldownHoldExpiry 1) (unitAs 1 .cooldown (some 5000) plant)) (fun t =>
      t.gens[1].state = .stopped && t.gens[1].phaseTimer = none) = true := by decide +kernel
theorem test_unload_window_returns_online :
    answers (exec (.unloadWindowExpiry 1) (unitAs 1 .unloading (some 5000) plant)) (fun t =>
      t.gens[1].state = .online && t.gens[1].minRun = .running 605000
        && t.links.S.notices.map (·.kind) = [.unitState, .stopFailed]) = true := by decide +kernel

/-- R168: a byte 11 ms after the last drops the frame begun, and may itself begin one; at 10 ms it goes on. -/
theorem test_gap_abandons_frame :
    framerOf (receiveByte (.station .G) 0xA5 (setFramer (.station .G) (.inFrame [0x12] 4989) plant)) (.station .G) = .inFrame [] 5000
      ∧ framerOf (receiveByte (.station .G) 0xA5 (setFramer (.station .G) (.inFrame [0x12] 4990) plant)) (.station .G)
        = .inFrame [0x12, 0xA5] 5000 := by decide +kernel
/-- R183: a waiting claim that asked for the setting takes it as it stands at its grant. -/
theorem test_waiting_claim_takes_new_lifetime :
    let s := withClaim ⟨1, .linkS, .reserve, 10, 30, true, .pending 90000⟩ { plant with
      cfg := { plantTables with settings := { State.defaultSettings with
        book := { State.defaultSettings.book with claimLifetime := 45 } } } }
    (grantPending { s with book := { s.book with terms := { s.book.terms with M := 0 } } }).book.claims
      = [⟨1, .linkS, .reserve, 10, 45, true, .granted 50000⟩] := by decide +kernel
/-- R159: a CLOSE CLASS step that a breaker report makes current, with nothing Shed or Closing in its class, is complete. -/
theorem test_empty_class_step_completes :
    let s := feederAs 1 .closing (some 9000) (rebuildingPlant (.closeFeeder 1) true)
    answers (exec (.breakerReport 1 2 1) { s with cfg := { s.cfg with plan := s.cfg.plan.set 1 ⟨.closeClass 5, 60, true⟩ } })
      (fun t => t.seq.phase = .idle && t.feeders[1].state = .closed) = true := by decide +kernel

/-! ## Witnesses: a state and operands that meet the hypotheses of each statement, clause by clause -/

theorem ready {s : State} {l : Link} (h : (linkActive s l && !repliesFull s l) = true) : Ready s l :=
  ⟨by simp_all, by simp_all⟩
theorem steady {p : List Byte} {s : State} (h : p.length = 40 ∧ s.lock.expected = some (SampleRec.parse p).seq
    ∧ (SampleRec.parse p).good = true ∧ s.entry.complete = true ∧ s.lock.mode = .locked ∧ s.lock.quality = .full) :
    SteadySample p s := ⟨h.1, h.2.1, h.2.2.1, h.2.2.2.1, .inl h.2.2.2.2⟩
theorem covered {p : List Byte} {s : State} (h : (0 ≤ (computeTerms (sampled p s)).M ∧ (computeTerms (sampled p s)).excess ≤ 0)
    ∧ ∀ c ∈ s.book.claims, c.isPending = false) : Covered p s := ⟨h.1.1, h.1.2, h.2⟩
theorem stagesRest {p : List Byte} {s : State} (h : ((∀ n : Fin 4, stageThreshold s n < ((SampleRec.parse p).freq.toNat : Int))
    ∧ ∀ n : Fin 4, s.shed.timers[n] = none) ∧ anyLatched s = false) : StagesRest p s := ⟨h.1.1, h.1.2, h.2⟩

theorem rests {p : List Byte} {s : State}
    (h : (SampleRec.parse p).live = true ∨ s.seq.phase ∈ [Phase.clearing, .energising, .failed]) : DeadTestRests p s := h

theorem witness_StepRunsFrontCommand :
    ({ plant with pending := [.presence .S 1, .powerOn] } : State).pending = .presence .S 1 :: [.powerOn] := rfl
/-- An empty queue, with two claims that the clock may bring to their ends. -/
theorem witness_EmptyQueueTicks :
    let s := withClaim ⟨2, .linkF, .feeder 1, 600, 30, false, .applied 5001⟩
      (withClaim ⟨1, .linkS, .reserve, 10, 30, false, .granted 5001⟩ { plant with book := { plant.book with nextId := 3 } })
    s.pending = [] ∧ ClaimListLaw s := by
  refine ⟨rfl, ?_⟩
  constructor <;> decide +kernel
theorem witness_CommandsLeaveQueueAndClock :
    (∃ t, exec (.presence .S 1) plant = .next t) ∧ Instr.presence .S 1 ≠ .powerOn ∧ Instr.presence .S 1 ≠ .resetInput :=
  ⟨⟨_, rfl⟩, by decide, by decide⟩
theorem witness_PowerOnStartsEntry :
    (Instr.powerOn = .powerOn ∨ Instr.powerOn = .resetInput) ∧ (Instr.resetInput = .powerOn ∨ Instr.resetInput = .resetInput) := by
  decide
theorem witness_RestartStartsAfresh : repliesFull plant .S = false := by decide +kernel

/-- The plant with the entry window at its expiry, resolution Open, G3 and F5 Unknown. -/
def enteringPlant : State := feederAs 4 .unknown none (unitAs 2 .unknown none { plant with
  clock := 10000
  entry := ⟨false, some 10000, false⟩ })
theorem witness_EntryWindowAppliesFallbacks :
    enteringPlant.entry.window = some 10000 ∧ reached enteringPlant.clock 10000 = true
      ∧ enteringPlant.entry.resolved = false ∧ enteringPlant.cfg.gensets[(2 : Fin 8)].present = true
      ∧ enteringPlant.gens[(2 : Fin 8)].state = .unknown ∧ feederIn enteringPlant .unknown 4 = true := by decide +kernel
theorem witness_EntryWindowAppliesFallbacks_local :
    let s := localUnit 2 enteringPlant
    s.entry.window = some 10000 ∧ reached s.clock 10000 = true ∧ s.entry.resolved = false
      ∧ s.cfg.gensets[(2 : Fin 8)].present = true ∧ s.gens[(2 : Fin 8)].state = .unknown
      ∧ s.gens[(2 : Fin 8)].authority = .byPlant := by decide +kernel
theorem witness_EntryWindowAppliesFallbacks_resolved :
    let s := { enteringPlant with entry := ⟨false, some 10000, true⟩ }
    s.entry.window = some 10000 ∧ reached s.clock 10000 = true ∧ s.entry.resolved = true
      ∧ (s.links.get .G).replies = [] ∧ (s.links.get .G).orders = []
      ∧ ((modLink .S (fun c => { c with sending := some (.reply (replyTo 0x12 1 (answer .done))) }) s).links.get .S).sending
          ≠ none := by decide +kernel

/-- The lock as a reference left it, on its way through Verify. -/
def verifying (count : Nat) (s : State) : State := { s with lock := { s.lock with
  mode := .verify, verifyCount := count, window := [], quality := .degraded } }
/-- The lock in Hunt. -/
def hunting (s : State) : State := { s with lock := { huntingLock 0 s.lock with quality := .degraded } }

theorem witness_SampleInSequenceAccepted :
    (live 41 1 2 3 4 5 6).length = 40
      ∧ (∀ s ∈ [plant, verifying 7 plant], s.lock.mode ≠ .hunt
          ∧ s.lock.expected = some (SampleRec.parse (live 41 1 2 3 4 5 6)).seq)
      ∧ (SampleRec.parse (live 41 1 2 3 4 5 6)).good = true := by decide +kernel
theorem witness_SampleInSequenceAccepted_steady :
    SteadySample (live 41 1 2 3 4 5 6) plant ∧ SteadySample (live 41 1 2 3 4 5 6) (verifying 6 plant) := by
  refine ⟨steady (by decide +kernel), ?_⟩
  constructor <;> decide +kernel
theorem witness_SampleInHuntIsReference :
    (live 200 1 2 3 4 5 6).length = 40 ∧ (hunting plant).lock.mode = .hunt := by decide +kernel
/-- A gap of 1, a repeat (255), and a gap that costs the lock, by records good and bad on their frequency. -/
theorem witness_SequenceGapJudged :
    plant.lock.mode ≠ .hunt ∧ plant.lock.expected = some 41
      ∧ (∀ p ∈ [live 42 1 2 3 4 5 6, live 40 1 2 3 4 5 6, live 150 1 2 3 4 5 6], p.length = 40
          ∧ 1 ≤ ((SampleRec.parse p).seq - 41).toNat ∧ (SampleRec.parse p).good = true)
      ∧ ((40 : Byte) - 41).toNat = 255
      ∧ (lockAfterBads (min 109 64) (gapRestarted plant.clock plant.lock)).mode = .hunt
      ∧ (lockAfterBads (min 1 64) (gapRestarted plant.clock plant.lock)).mode ≠ .hunt := by decide +kernel
theorem witness_SequenceGapJudged_bad :
    (SampleRec.parse (live 42 1 2 3 4 5 6 39999)).seq = 42 ∧ (SampleRec.parse (live 42 1 2 3 4 5 6 39999)).good = false
      ∧ (SampleRec.parse (live 40 1 2 3 4 5 6 39999)).seq = 40 ∧ (SampleRec.parse (live 40 1 2 3 4 5 6 39999)).good = false := by
  decide +kernel
/-- A tally that takes only the lock's own kinds, and one that takes another. -/
theorem witness_SequenceGapJudged_events :
    (∀ e : EventKind, (0x1C00 : BitVec 14).getLsbD e.place = true → e ∈ [EventKind.sampleGood, .sampleBad, .lockLost])
      ∧ (0x1C01 : BitVec 14).getLsbD EventKind.startOrdered.place = true := by
  refine ⟨fun e => by cases e <;> decide, by decide⟩
/-- R30, R34, R44: a gap of 7 offers seven SampleBad events, the sixth of them with LockLost, and then the reference's own. -/
theorem test_gap_events :
    answers (exec (.sample 0x60 (live 48 1 2 3 4 5 6) true) { plant with cfg := { plantTables with
        tallies := ((plantTables.tallies.set 0 ⟨0x400, 0, .count, .any⟩).set 1 ⟨0x800, 0, .count, .any⟩).set 2
          ⟨0x1000, 0, .count, .any⟩ } }) (fun t =>
      (t.tally.live[0], t.tally.live[1], t.tally.live[2]) = (1, 7, 1) && t.lock.mode = .verify) = true := by decide +kernel
theorem witness_BadJudgementTaken :
    (false && sampleWellFormed 0x60 (live 41 1 2 3 4 5 6)) = false ∧ (true && sampleWellFormed 0x61 []) = false
      ∧ (live 41 1 2 3 4 5 6 39999).length = 40 ∧ (SampleRec.parse (live 41 1 2 3 4 5 6 39999)).seq = 41
      ∧ (SampleRec.parse (live 41 1 2 3 4 5 6 39999)).good = false
      ∧ ({ plant with clock := 5250 } : State).lock.gapNext = some 5250 ∧ reached 5250 5250 = true := by decide +kernel
/-- A malformed sample that is the sixth Bad entry of the window, and one that is the fifth. -/
theorem witness_BadJudgementTaken_lost :
    plant.lock.mode = .locked ∧ 6 ≤ badCount (pushJudgement false (List.replicate 5 false))
      ∧ ¬6 ≤ badCount (pushJudgement false (List.replicate 4 false)) := by decide +kernel
/-- The age step that makes a hunting lock Stale, with G3 a candidate; RESYNC SAMPLES on an old sample does the same. -/
theorem witness_AgeAndResyncSettleQuality :
    let s := { hunting plant with
      clock := 7100
      lock := { (hunting plant).lock with age := some 20, ageNext := some 7100 } }
    s.lock.ageNext = some 7100 ∧ reached s.clock 7100 = true ∧ s.lock.quality ≠ .stale
      ∧ qualityOf { s.lock with age := s.lock.age.map (· + 1) } = .stale ∧ s.entry.complete = true
      ∧ s.seq.phase.watchesShortfall = true ∧ units.any (candidate s) = true := by decide +kernel
theorem witness_AgeAndResyncSettleQuality_resync :
    let s := { plant with lock := { plant.lock with age := some 21 } }
    Ready s .S ∧ s.lock.quality ≠ .stale ∧ qualityOf (huntingLock 0 s.lock) = .stale :=
  ⟨ready (by decide +kernel), by decide +kernel⟩

/-- Granted at a margin of exactly the amount, waiting at one kW more, refused with no wait, refused outside Full. -/
theorem witness_ReserveClaimAnswered :
    let s := { plant with book := { plant.book with terms := { plant.book.terms with M := 50000 } } }
    Ready s .S ∧ 1 ≤ (50000 : BitVec 16).toNat ∧ (50000 : BitVec 16).toNat ≤ 50000 ∧ (120 : Byte).toNat ≤ 120
      ∧ (600 : BitVec 16).toNat ≤ 600 ∧ s.entry.complete = true ∧ s.seq.phase ≠ .clearing ∧ s.seq.phase ≠ .energising
      ∧ s.book.claims.length < 16 ∧ s.lock.quality = .full ∧ 0 ≤ s.book.terms.M - ((50000 : BitVec 16).toNat : Int) :=
  ⟨ready (by decide +kernel), by decide +kernel⟩
theorem witness_ReserveClaimAnswered_uncovered :
    let s := { plant with book := { plant.book with terms := { plant.book.terms with M := 0 } } }
    Ready s .S ∧ 1 ≤ (1 : BitVec 16).toNat ∧ s.lock.quality = .full ∧ ¬(0 ≤ s.book.terms.M - ((1 : BitVec 16).toNat : Int))
      ∧ (1 : Byte).toNat ≠ 0 ∧ (0 : Byte).toNat = 0 ∧ s.entry.complete = true ∧ s.seq.phase = .idle
      ∧ s.book.claims.length < 16 :=
  ⟨ready (by decide +kernel), by decide +kernel⟩
theorem witness_ReserveClaimAnswered_degraded :
    Ready (degraded plant) .S ∧ (degraded plant).lock.quality ≠ .full ∧ (degraded plant).entry.complete = true
      ∧ (degraded plant).seq.phase = .idle ∧ (degraded plant).book.claims.length < 16 :=
  ⟨ready (by decide +kernel), by decide +kernel⟩

/-- A list of 16 claims. -/
def fullBook (s : State) : State := { s with book := { s.book with
  claims := (List.range 16).map fun n => ⟨n + 60, .linkS, .reserve, 5, 30, false, .granted 9000⟩ } }
/-- One beyond each range; before entry, in Clearing and in Energising; with 16 claims in the list. -/
theorem witness_ReserveClaimAnswered_refused :
    (Ready plant .S ∧ Ready (fullBook plant) .S ∧ Ready (inPhase .clearing plant) .S)
      ∧ ¬(1 ≤ (0 : BitVec 16).toNat) ∧ ¬((50001 : BitVec 16).toNat ≤ 50000) ∧ ¬((121 : Byte).toNat ≤ 120)
      ∧ ¬((601 : BitVec 16).toNat ≤ 600) ∧ ({ plant with entry := ⟨false, none, true⟩ } : State).entry.complete = false
      ∧ (∀ ph ∈ [Phase.clearing, .energising], ¬((inPhase ph plant).seq.phase ≠ .clearing
          ∧ (inPhase ph plant).seq.phase ≠ .energising))
      ∧ 16 ≤ (fullBook plant).book.claims.length ∧ (fullBook plant).entry.complete = true :=
  ⟨⟨ready rfl, ready rfl, ready rfl⟩, by decide +kernel⟩

/-- A Shed, an OpenHeld and a Faulted feeder, with the margin at the need, below it, and outside Full. -/
theorem witness_FeederClaimAnswered :
    let p := { plant with book := { plant.book with terms := { plant.book.terms with M := 600 } } }
    let states := [FeederState.shed, .openHeld, .faulted]
    (∀ st ∈ states, Ready (feederAs 1 st none p) .F)
      ∧ (∀ st ∈ states, (feederAs 1 st none p).feeders[(1 : Fin 24)].state = st
          ∧ feederClaimed (feederAs 1 st none p) 1 = false ∧ 0 ≤ p.book.terms.M - (pickupNeed (feederAs 1 st none p) 1 : Int))
      ∧ feederIndex 2 = some 1 ∧ p.entry.complete = true ∧ p.cfg.feeders[(1 : Fin 24)].present = true
      ∧ anyLatched p = false ∧ p.seq.phase = .idle ∧ p.book.claims.length < 16 ∧ p.lock.quality = .full :=
  ⟨fun _ _ => ready rfl, by decide +kernel⟩
theorem witness_FeederClaimAnswered_uncovered :
    let s := feederAs 1 .shed none { plant with book := { plant.book with terms := { plant.book.terms with M := 599 } } }
    Ready s .F ∧ feederIndex 2 = some 1 ∧ s.feeders[(1 : Fin 24)].state = .shed ∧ feederClaimed s 1 = false
      ∧ s.lock.quality = .full ∧ ¬(0 ≤ s.book.terms.M - (pickupNeed s 1 : Int)) ∧ anyLatched s = false
      ∧ s.seq.phase = .idle ∧ s.entry.complete = true ∧ (degraded s).lock.quality ≠ .full :=
  ⟨ready (by decide +kernel), by decide +kernel⟩

/-- A plant with one claim of each holder, in each of the three states. -/
def claimedPlant : State :=
  withClaim ⟨6, .linkF, .feeder 1, 100, 30, false, .granted 5000⟩ (withClaim ⟨255, .linkS, .reserve, 300, 600, false, .pending 5000⟩
    (withClaim ⟨1, .linkF, .feeder 2, 50, 30, false, .applied 5000⟩ plant))
/-- F2 Closed, latched out, in another phase, and claimed already; F9 not present; and F2 Shed with 16 claims in the list. -/
theorem witness_FeederClaimAnswered_refused :
    let s := feederAs 1 .shed none plant
    let latched := { s with shed := { s.shed with latches := s.shed.latches.set 2 true } }
    let claimed := feederAs 1 .shed none claimedPlant
    (Ready plant .F ∧ Ready s .F ∧ Ready latched .F ∧ Ready claimed .F ∧ Ready (fullBook s) .F)
      ∧ feederIndex 2 = some 1 ∧ feederIndex 9 = some 8 ∧ plant.entry.complete = true
      ∧ ¬((121 : Byte).toNat ≤ 120 ∧ (600 : BitVec 16).toNat ≤ 600) ∧ (120 : Byte).toNat ≤ 120
      ∧ plant.feeders[(1 : Fin 24)].state ∉ [FeederState.shed, .openHeld, .faulted]
      ∧ latched.shed.latches[(2 : Fin 4)] ≠ false ∧ (inPhase .failed s).seq.phase ≠ .idle
      ∧ (∃ c ∈ claimed.book.claims, c.purpose = .feeder 1) ∧ plant.cfg.feeders[(8 : Fin 24)].present = false
      ∧ (s.cfg.feeders[(1 : Fin 24)].present = true ∧ s.feeders[(1 : Fin 24)].state = .shed
          ∧ (∀ n : Fin 4, s.shed.latches[n] = false) ∧ s.seq.phase = .idle)
      ∧ (∀ c ∈ (fullBook s).book.claims, c.purpose ≠ .feeder 1) ∧ 16 ≤ (fullBook s).book.claims.length :=
  ⟨⟨ready rfl, ready rfl, ready rfl, ready rfl, ready rfl⟩, by decide +kernel⟩
theorem witness_ClaimCancelled :
    Ready claimedPlant .S ∧ Ready claimedPlant .F ∧ claimById claimedPlant (9 : Byte).toNat = none
      ∧ claimById claimedPlant (255 : Byte).toNat = some ⟨255, .linkS, .reserve, 300, 600, false, .pending 5000⟩
      ∧ claimById claimedPlant (1 : Byte).toNat = some ⟨1, .linkF, .feeder 2, 50, 30, false, .applied 5000⟩ :=
  ⟨ready (by decide +kernel), ready (by decide +kernel), by decide +kernel⟩
theorem claimedPlant_claims : ClaimListLaw claimedPlant := by constructor <;> decide +kernel
theorem witness_ClaimExpiriesTaken :
    ClaimListLaw claimedPlant ∧ MarginLaw claimedPlant ∧ claimedPlant.book.terms = computeTerms claimedPlant ∧ reached claimedPlant.clock 5000 = true
      ∧ claimById claimedPlant (255 : Byte).toNat = some ⟨255, .linkS, .reserve, 300, 600, false, .pending 5000⟩
      ∧ claimById claimedPlant (6 : Byte).toNat = some ⟨6, .linkF, .feeder 1, 100, 30, false, .granted 5000⟩
      ∧ claimById claimedPlant (1 : Byte).toNat = some ⟨1, .linkF, .feeder 2, 50, 30, false, .applied 5000⟩ := by
  refine ⟨claimedPlant_claims, ?_, by decide +kernel⟩
  unfold MarginLaw
  decide +kernel
theorem witness_ClaimExpiriesTaken_release :
    let c : Claim := ⟨8, .releaseCover, .unit 1, 400, 30, true, .pending 5000⟩
    let s := withClaim c (modGen 1 (fun g => { g with pendingRelease := some 8 }) plant)
    claimById s (8 : Byte).toNat = some c ∧ reached s.clock 5000 = true ∧ c.holder = .releaseCover ∧ c.purpose = .unit 1 := by
  decide +kernel
theorem witness_PendingClaimsGranted :
    let s := { claimedPlant with book := { claimedPlant.book with terms := { claimedPlant.book.terms with M := 0 } } }
    ClaimListLaw s ∧ s.lock.quality = .full ∧ 0 ≤ s.book.terms.M ∧ (∀ c ∈ s.book.claims, c.holder ≠ .releaseCover)
      ∧ (degraded s).lock.quality ≠ .full ∧ ({ s.book.terms with M := -1 } : Terms).M < 0 :=
  ⟨by constructor <;> decide +kernel, by decide +kernel⟩
/-- A sample with a margin above 0 after the claims, and one with a margin below 0. -/
theorem witness_PendingClaimsGranted_sample :
    (SteadySample (live 41 300 300 0 0 0 0) claimedPlant ∧ SteadySample (live 41 900 900 0 0 0 0) claimedPlant)
      ∧ ClaimListLaw claimedPlant ∧ claimedPlant.seq.phase = .idle ∧ (SampleRec.parse (live 41 300 300 0 0 0 0)).live = true
      ∧ (∀ i : Fin 8, claimedPlant.gens[i].pendingRelease = none)
      ∧ 0 ≤ (computeTerms (sampled (live 41 300 300 0 0 0 0) claimedPlant)).M
      ∧ (computeTerms (sampled (live 41 900 900 0 0 0 0) claimedPlant)).M < 0 ∧ claimedPlant.lock.quality = .full
      ∧ ∃ c ∈ claimedPlant.book.claims, c.isPending = true ∧ c.holder ∈ [Holder.linkS, .linkF] := by
  exact ⟨⟨steady (by decide +kernel), steady (by decide +kernel)⟩, claimedPlant_claims, by decide +kernel⟩

/-- The same margins in Rebuilding, and in Failed on a Live bus and on a Dead one. -/
theorem witness_PendingClaimsGranted_phases :
    let r := inPhase .rebuilding claimedPlant
    let f := inPhase .failed claimedPlant
    let p := live 41 300 300 0 0 0 0
    (SteadySample p r ∧ SteadySample p f ∧ SteadySample deadBus f ∧ SteadySample (live 41 900 900 0 0 0 0) r)
      ∧ (DeadTestRests p r ∧ DeadTestRests p f ∧ DeadTestRests deadBus f) ∧ (ClaimListLaw r ∧ ClaimListLaw f)
      ∧ (SampleRec.parse deadBus).live = false ∧ 0 ≤ (computeTerms (sampled p r)).M ∧ 0 ≤ (computeTerms (sampled p f)).M
      ∧ 0 ≤ (computeTerms (sampled deadBus f)).M ∧ (computeTerms (sampled (live 41 900 900 0 0 0 0) r)).M < 0
      ∧ ∃ c ∈ r.book.claims, c.isPending = true ∧ c.holder ∈ [Holder.linkS, .linkF] := by
  refine ⟨⟨steady ?_, steady ?_, steady ?_, steady ?_⟩, ⟨rests ?_, rests ?_, rests ?_⟩, ⟨?_, ?_⟩, ?_⟩ <;>
    first | (constructor <;> decide +kernel) | decide +kernel
/-- G2's release waiting under claim 8, and a sample with the margin to grant it. -/
theorem witness_PendingClaimsGranted_release :
    let c : Claim := ⟨8, .releaseCover, .unit 1, 400, 30, true, .pending 9000⟩
    let s := withClaim c (modGen 1 (fun g => { g with pendingRelease := some 8 }) plant)
    let p := live 41 300 300 0 0 0 0
    (SteadySample p s ∧ ClaimListLaw s)
      ∧ s.seq.phase = .idle ∧ s.lock.quality = .full ∧ 0 ≤ (computeTerms (sampled p s)).M ∧ c ∈ s.book.claims
      ∧ c.isPending = true ∧ s.gens[(1 : Fin 8)].state = .online
      ∧ (∀ j : Fin 8, s.gens[j].pendingRelease = some 8 ↔ j = 1) :=
  ⟨⟨steady (by decide +kernel), by constructor <;> decide +kernel⟩, by decide +kernel⟩

/-- The samples of the cases of an evaluation: the margin covered, M below 0, an overloaded unit, and outputs below the
minimum load with PV3 giving 200 behind its tie. -/
def lightLoad : List Byte := live 41 100 100 0 0 0 200
theorem witness_EvaluationDecides :
    (SteadySample (live 41 300 300 0 0 0 0) plant ∧ SteadySample (live 41 820 780 0 180 120 0) plant
        ∧ SteadySample (live 41 2100 0 0 0 0 0) plant)
      ∧ (SampleRec.parse (live 41 2100 0 0 0 0 0)).live = true
      ∧ plant.seq.phase = .idle
      ∧ 0 ≤ (computeTerms (sampled (live 41 300 300 0 0 0 0) plant)).M
      ∧ (computeTerms (sampled (live 41 300 300 0 0 0 0) plant)).excess ≤ 0
      ∧ (computeTerms (sampled (live 41 820 780 0 180 120 0) plant)).M < 0
      ∧ ranFor plant.clock (some 0) (secs plant.cfg.settings.book.startDelay)
      ∧ ¬ranFor plant.clock plant.book.shortfallDwell (secs plant.cfg.settings.book.startDelay) ∧ plant.arb.shortfall = none
      ∧ 0 < (computeTerms (sampled (live 41 2100 0 0 0 0 0) plant)).excess
      ∧ (computeTerms (sampled (live 41 300 300 0 0 0 0) plant)).D ≤ 0 := by
  unfold ranFor
  refine ⟨⟨steady ?_, steady ?_, steady ?_⟩, ?_⟩ <;> decide +kernel
/-- The guard below the minimum load: running, and at its time with a tie to open, and with none. -/
theorem witness_EvaluationDecides_guard :
    let s := { silent .P plant with book := { plant.book with guard := some (5000 - 60000) } }
    let z := { plant with pvs := Vector.replicate 8 { State.resetPvGroup 10 with issued := some 0 } }
    SteadySample lightLoad s ∧ SteadySample lightLoad z ∧ 0 < (computeTerms (sampled lightLoad s)).D
      ∧ linkActive s .P = false ∧ linkActive s .F = true ∧ ranFor s.clock s.book.guard (secs s.cfg.settings.book.guardTime)
      ∧ takeUntil (tieOutput (sampled lightLoad s)) (computeTerms (sampled lightLoad s)).D.toNat
          (tieOrder (sampled lightLoad s)) = [7]
      ∧ 0 < (computeTerms (sampled lightLoad z)).D ∧ linkActive z .P = true
      ∧ (∀ g : Fin 8, z.pvs[g].authority = .coordinated ∧ z.pvs[g].issued = some 0)
      ∧ ¬ranFor z.clock z.book.guard (secs z.cfg.settings.book.guardTime) := by
  unfold ranFor
  exact ⟨steady (by decide +kernel), steady (by decide +kernel), by decide +kernel⟩
/-- The same samples in Rebuilding, and in Clearing, Energising and Failed on a Live bus and on a Dead one. -/
theorem witness_EvaluationDecides_phases :
    (∀ ph ∈ [Phase.rebuilding, .clearing, .energising, .failed],
        SteadySample (live 41 300 300 0 0 0 0) (inPhase ph plant) ∧ SteadySample (live 41 820 780 0 180 120 0) (inPhase ph plant)
          ∧ SteadySample (live 41 2100 0 0 0 0 0) (inPhase ph plant)
          ∧ DeadTestRests (live 41 300 300 0 0 0 0) (inPhase ph plant)
          ∧ (computeTerms (sampled (live 41 820 780 0 180 120 0) (inPhase ph plant))).M < 0
          ∧ 0 < (computeTerms (sampled (live 41 2100 0 0 0 0 0) (inPhase ph plant))).excess
          ∧ (inPhase ph plant).seq.phase ≠ .idle ∧ plant.book.shortfallDwell = none ∧ plant.arb.shortfall = none)
      ∧ ∀ ph ∈ [Phase.clearing, .energising, .failed],
        SteadySample deadBus (inPhase ph plant) ∧ DeadTestRests deadBus (inPhase ph plant)
          ∧ (inPhase ph plant).seq.phase ∉ [Phase.idle, .rebuilding] := by
  refine ⟨fun ph h => ?_, fun ph h => ?_⟩
  · simp only [List.mem_cons, List.not_mem_nil, or_false] at h
    rcases h with rfl | rfl | rfl | rfl <;>
      exact ⟨steady (by decide +kernel), steady (by decide +kernel), steady (by decide +kernel), .inl (by decide +kernel),
        by decide +kernel⟩
  · simp only [List.mem_cons, List.not_mem_nil, or_false] at h
    rcases h with rfl | rfl | rfl <;> exact ⟨steady (by decide +kernel), rests (by decide +kernel), by decide +kernel⟩
/-- Three units online, G2 the tail of the ring: the stop test passes, with the dwell at its time and before it. -/
def sparePlant : State := { plant with
  gens := ((plant.gens.set 0 { onlineUnit with minRun := .elapsed }).set 1 { onlineUnit with minRun := .elapsed }).set 2
    { onlineUnit with minRun := .elapsed }
  book := { plant.book with surplusDwell := some (5000 - 300000) } }
theorem witness_EvaluationDecides_surplus :
    let p := live 41 200 200 100 0 0 0
    let T := computeTerms (sampled p sparePlant)
    SteadySample p sparePlant ∧ Covered p sparePlant
      ∧ (sparePlant.cfg.ring.filter (coordOnline sparePlant)).getLast? = some 1
      ∧ linkActive sparePlant .G = true ∧ 2 ≤ (coordUnits sparePlant).length ∧ sparePlant.arb.slot1 = none
      ∧ sparePlant.arb.slot2 = none ∧ sparePlant.gens[(1 : Fin 8)].minRun = .elapsed
      ∧ (100 : Int) ≤ (T.H : Int) - 1000 - max 200 (max T.Nc 1000) - T.Cl
      ∧ ranFor sparePlant.clock sparePlant.book.surplusDwell (secs sparePlant.cfg.settings.book.surplusDwell)
      ∧ ¬ranFor sparePlant.clock none (secs sparePlant.cfg.settings.book.surplusDwell)
      ∧ plant.gens[(1 : Fin 8)].minRun ≠ .elapsed := by
  unfold ranFor
  exact ⟨steady (by decide +kernel), covered (by decide +kernel), by decide +kernel⟩

theorem witness_StartAndStopUnit :
    Ready plant .S ∧ (∀ k : ReasonKind, plant.arb.get k = none) ∧ unitIndex 3 = some 2 ∧ unitIndex 2 = some 1
      ∧ linkActive plant .G = true ∧ plant.entry.complete = true ∧ plant.seq.phase = .idle ∧ candidate plant 2 = true
      ∧ (2 : Fin 8) ∈ plant.cfg.ring ∧ plant.arb.slot1 = none ∧ plant.lock.quality = .full
      ∧ coordOnline plant 1 = true ∧ 2 ≤ (coordUnits plant).length :=
  ⟨ready (by decide +kernel), by intro k; cases k <;> rfl, by decide +kernel⟩
/-- Refused: before entry, and a unit Online; an Operator reason held; slot 1 busy, alone and with a Trip reason Pending; and a
Trip reason Pending with a candidate beside slot 1 free. -/
theorem witness_StartAndStopUnit_start :
    let early := { plant with entry := ⟨false, none, true⟩ }
    let held := { plant with arb := plant.arb.put .operator (some ⟨0, some 2, .pending, false, false⟩) }
    let busy := { plant with arb := { plant.arb with slot1 := some ⟨1, .shortfall, 4000⟩ } }
    let trip := { plant with arb := plant.arb.put .trip (some ⟨300, none, .pending, false, false⟩) }
    (Ready early .S ∧ Ready held .S ∧ Ready busy .S ∧ Ready trip .S) ∧ early.entry.complete = false
      ∧ candidate plant 1 = false ∧ held.arb.operator ≠ none
      ∧ (candidate busy 2 = true ∧ busy.arb.operator = none ∧ busy.arb.slot1 ≠ none
          ∧ (∀ k ∈ reasonKinds, busy.arb.get k = none))
      ∧ (candidate trip 2 = true ∧ (2 : Fin 8) ∈ trip.cfg.ring ∧ trip.arb.operator = none ∧ trip.arb.slot1 = none
          ∧ candidatesFor trip .trip ⟨300, none, .pending, false, false⟩ = [2]) :=
  ⟨by refine ⟨ready ?_, ready ?_, ready ?_, ready ?_⟩ <;> decide +kernel, by decide +kernel⟩
/-- R70: with a Trip reason of higher priority Pending and one candidate, the serving starts it for the trip in slot 1, and the
reply is Done; with another candidate first in the ring, START UNIT of G3 waits. -/
theorem test_start_unit_behind_trip :
    let r : Reason := ⟨300, none, .pending, false, false⟩
    let s := modGen 1 (fun g => { g with state := .stopped }) { plant with
      cfg := { plantTables with ring := [1, 2, 0, 3, 4, 5, 6, 7] }, arb := plant.arb.put .trip (some r) }
    answers (exec (.startUnit 7 3) s) (fun t =>
      t.gens[1].state = .starting && t.arb.slot1 = some ⟨1, .trip, 5000⟩ && t.gens[2].state = .stopped
        && t.arb.operator = some ⟨0, some 2, .pending, false, false⟩
        && t.links.S.sending = some (.reply ⟨4, 7, .pending, []⟩)) = true := by decide +kernel
/-- Refused: in Degraded, a unit Stopped, and the only coordinated online unit. -/
theorem witness_StartAndStopUnit_stop :
    (degraded plant).lock.quality ≠ .full ∧ Ready (degraded plant) .S ∧ coordOnline plant 2 = false
      ∧ (let s := unitAs 1 .stopped none plant
         Ready s .S ∧ s.lock.quality = .full ∧ s.entry.complete = true ∧ s.seq.phase = .idle ∧ linkActive s .G = true
          ∧ coordOnline s 0 = true ∧ (coordUnits s).length ≤ 1) :=
  ⟨by decide +kernel, ready (by decide +kernel), by decide +kernel, ready (by decide +kernel), by decide +kernel⟩
theorem witness_ClearLockoutAndRecallTaken :
    (Ready plant .S ∧ Ready (localUnit 2 plant) .S ∧ Ready (unitAs 2 .lockedOut none plant) .S)
      ∧ unitIndex 3 = some 2 ∧ plant.cfg.gensets[(2 : Fin 8)].present = true
      ∧ (unitAs 2 .lockedOut none plant).gens[(2 : Fin 8)].state = .lockedOut
      ∧ plant.gens[(2 : Fin 8)].state ≠ .lockedOut
      ∧ (localUnit 2 plant).gens[(2 : Fin 8)].authority = .byPlant ∧ (localUnit 2 plant).entry.complete = true
      ∧ linkActive (localUnit 2 plant) .G = true ∧ (localUnit 2 plant).gens[(2 : Fin 8)].recallWindow = none :=
  ⟨by refine ⟨ready ?_, ready ?_, ready ?_⟩ <;> decide +kernel, by decide +kernel⟩
/-- RECALL UNIT refused: a Coordinated unit, entry not complete, link G Silent, and the recall window running. -/
theorem witness_ClearLockoutAndRecallTaken_refused :
    let entering := { localUnit 2 plant with entry := ⟨false, none, true⟩ }
    let waiting := modGen 2 (fun g => { g with recallWindow := some 9000 }) (localUnit 2 plant)
    (Ready plant .S ∧ Ready entering .S ∧ Ready (silent .G (localUnit 2 plant)) .S ∧ Ready waiting .S)
      ∧ plant.gens[(2 : Fin 8)].authority ≠ .byPlant ∧ entering.entry.complete ≠ true
      ∧ linkActive (silent .G (localUnit 2 plant)) .G ≠ true
      ∧ waiting.gens[(2 : Fin 8)].authority = .byPlant ∧ waiting.entry.complete = true ∧ linkActive waiting .G = true
      ∧ waiting.gens[(2 : Fin 8)].recallWindow ≠ none :=
  ⟨by refine ⟨ready ?_, ready ?_, ready ?_, ready ?_⟩ <;> decide +kernel, by decide +kernel⟩
/-- The indices and events next to each range, and G4 and F9, whose records are not present. -/
theorem witness_SubjectsOutOfRangeRefused :
    (∀ l : Link, Ready plant l) ∧ unitIndex 0 = none ∧ unitIndex 9 = none ∧ feederIndex 0 = none ∧ feederIndex 25 = none
      ∧ unitEvent 5 = none ∧ breakerEvent 2 = none ∧ unitEvent 4 ≠ none ∧ breakerEvent 1 ≠ none
      ∧ unitIndex 4 = some 3 ∧ plant.cfg.gensets[(3 : Fin 8)].present = false ∧ plant.lock.quality = .full
      ∧ (degraded plant).lock.quality ≠ .full ∧ feederIndex 9 = some 8 ∧ plant.cfg.feeders[(8 : Fin 24)].present = false
      ∧ plant.entry.complete = true ∧ (120 : Byte).toNat ≤ 120 ∧ (600 : BitVec 16).toNat ≤ 600 :=
  ⟨fun l => ready (by cases l <;> decide +kernel), by decide +kernel⟩

/-- Each clause of the table: a unit in every state, coordinated and under the plant's control, and every event. -/
theorem witness_UnitReportMovesUnit :
    Ready plant .G ∧ Ready (localUnit 2 plant) .G
      ∧ (∀ st ∈ [UnitState.unknown, .stopped, .starting, .synchronising, .online, .unloading, .cooldown, .lockedOut],
          Ready (unitAs 2 st (some 9000) plant) .G)
      ∧ (∀ st ∈ [UnitState.unknown, .stopped, .starting, .synchronising, .online, .unloading, .cooldown, .lockedOut],
          (unitAs 2 st (some 9000) plant).gens[(2 : Fin 8)].state = st
            ∧ (unitAs 2 st (some 9000) plant).gens[(2 : Fin 8)].authority = .coordinated)
      ∧ unitIndex 3 = some 2 ∧ unitEvent 0 = some .running ∧ unitEvent 1 = some .startFailed
      ∧ unitEvent 2 = some .breakerClosed ∧ unitEvent 3 = some .breakerOpen ∧ unitEvent 4 = some .tripped
      ∧ plant.cfg.gensets[(2 : Fin 8)].present = true
      ∧ (localUnit 2 plant).gens[(2 : Fin 8)].authority = .byPlant ∧ (localUnit 2 plant).gens[(2 : Fin 8)].state ≠ .unknown :=
  ⟨ready (by decide +kernel), ready (by decide +kernel), fun _ _ => ready rfl, by decide +kernel⟩
/-- The plant in Energising with a unit on its way for the BlackStart reason, and failed attempts counted. -/
def energisingPlant (i : Fin 8) (st : UnitState) (attempts : Nat) : State := unitAs i st (some 5000) { plant with
  arb := { plant.arb with
    blackStart := some ⟨0, none, .inService, false, false⟩
    slot1 := some ⟨i, .blackStart, 4000⟩ }
  seq := { plant.seq with phase := .energising, window := some 90000, attempts := attempts } }
/-- A start failure and a trip in Energising, the first and the third; a failure that serves another reason, and one in Idle. -/
theorem witness_UnitReportMovesUnit_attempts :
    (∀ n ∈ [0, 2], ∀ st ∈ [UnitState.starting, .synchronising],
      Ready (energisingPlant 2 st n) .G ∧ (energisingPlant 2 st n).seq.phase = .energising
        ∧ servedKind (energisingPlant 2 st n) 2 = some .blackStart
        ∧ (energisingPlant 2 st n).gens[(2 : Fin 8)].state = st
        ∧ (energisingPlant 2 st n).gens[(2 : Fin 8)].authority = .coordinated
        ∧ due (energisingPlant 2 st n).clock (energisingPlant 2 st n).gens[(2 : Fin 8)].phaseTimer = true)
      ∧ servedKind tripPlant 2 ≠ some .blackStart ∧ tripPlant.seq.phase ≠ .energising
      ∧ 3 ≤ (energisingPlant 2 .starting 2).seq.attempts + 1 ∧ (energisingPlant 2 .starting 0).seq.attempts + 1 < 3 := by
  refine ⟨?_, by decide +kernel⟩
  intro n hn st hst
  simp only [List.mem_cons, List.not_mem_nil, or_false] at hn hst
  rcases hn with rfl | rfl <;> rcases hst with rfl | rfl <;> exact ⟨ready (by decide +kernel), by decide +kernel⟩
/-- R155: the third failed attempt enters Failed with cause Attempts; the second leaves Energising with its reason pending
for the next capable candidate, or in service for it. -/
theorem test_third_attempt_fails :
    answers (exec (.crankWindowExpiry 2) (energisingPlant 2 .starting 2)) (fun t =>
        t.seq.phase = .failed && t.seq.failure = some .attempts && t.seq.attempts = 3) = true
      ∧ answers (exec (.crankWindowExpiry 2) (silent .G (energisingPlant 2 .starting 1))) (fun t =>
        t.seq.phase = .energising && t.seq.attempts = 2
          && (t.arb.get .blackStart).map (·.stage) = some .pending) = true := by decide +kernel
/-- A hold of 0 and one above it; a count that stays below the limit of 3, and one that reaches it. -/
theorem witness_UnitReportMovesUnit_left :
    let s := unitAs 2 .unloading (some 9000) { plant with
      cfg := { plantTables with settings := { State.defaultSettings with
        windows := { State.defaultSettings.windows with cooldown := 0 } } } }
    Ready s .G ∧ s.cfg.settings.windows.cooldown = 0 ∧ plant.cfg.settings.windows.cooldown ≠ 0
      ∧ min 5 (plant.cfg.gensets[(0 : Fin 8)].failCount + 1) < plant.cfg.gensets[(0 : Fin 8)].failLimit
      ∧ plant.cfg.gensets[(2 : Fin 8)].failLimit ≤ min 5 (plant.cfg.gensets[(2 : Fin 8)].failCount + 1) :=
  ⟨ready (by decide +kernel), by decide +kernel⟩
/-- R57: with a hold of 0 a completed stop leaves G3 Stopped, and it is not in Cooldown. -/
theorem test_stop_with_hold_of_zero :
    let s := modGen 2 (fun g => { g with available := false }) (unitAs 2 .unloading (some 9000) { plant with
      cfg := { plantTables with settings := { State.defaultSettings with
        windows := { State.defaultSettings.windows with cooldown := 0 } } } })
    answers (exec (.unitReport 1 3 3) s) (fun t =>
      t.gens[2].state = .stopped && t.gens[2].phaseTimer = none && t.cfg.ring = [0, 1, 3, 4, 5, 6, 7, 2]) = true := by
  decide +kernel
theorem witness_TripTaken :
    Ready tripPlant .G ∧ unitIndex 1 = some 0 ∧ unitEvent 3 = some .breakerOpen ∧ unitEvent 4 = some .tripped
      ∧ tripPlant.cfg.gensets[(0 : Fin 8)].present = true ∧ tripPlant.gens[(0 : Fin 8)].state = .online
      ∧ tripPlant.gens[(0 : Fin 8)].authority = .coordinated ∧ 0 < tripPlant.gens[(0 : Fin 8)].lastOutput
      ∧ tripPlant.seq.phase = .idle ∧ tripPlant.gens[(0 : Fin 8)].pendingRelease = none :=
  ⟨ready (by decide +kernel), by decide +kernel⟩
/-- A trip with a Trip reason held, in Energising, and with a last output of 0. -/
theorem witness_TripTaken_need :
    let s := { tripPlant with arb := tripPlant.arb.put .trip (some ⟨120, none, .inService, false, false⟩) }
    (s.arb.get .trip).map (·.need) = some 120 ∧ (inPhase .energising s).seq.phase ∈ [Phase.clearing, .energising]
      ∧ (modGen 0 (fun g => { g with lastOutput := 0 }) s).gens[(0 : Fin 8)].lastOutput = 0 := by decide +kernel
theorem witness_TripTaken_attempts :
    ∀ n ∈ [0, 2], Ready (energisingPlant 2 .starting n) .G ∧ (energisingPlant 2 .starting n).gens[(0 : Fin 8)].state = .online
      ∧ (energisingPlant 2 .starting n).gens[(0 : Fin 8)].authority = .coordinated
      ∧ (energisingPlant 2 .starting n).seq.phase = .energising := by
  intro n hn
  simp only [List.mem_cons, List.not_mem_nil, or_false] at hn
  rcases hn with rfl | rfl <;> exact ⟨ready (by decide +kernel), by decide +kernel⟩
theorem witness_TripTaken_release :
    let c : Claim := ⟨8, .releaseCover, .unit 0, 400, 30, true, .pending 90000⟩
    let s := withClaim c (modGen 0 (fun g => { g with pendingRelease := some 8 }) tripPlant)
    Ready s .G ∧ s.gens[(0 : Fin 8)].state = .online ∧ s.gens[(0 : Fin 8)].authority = .coordinated
      ∧ s.gens[(0 : Fin 8)].pendingRelease = some 8 ∧ c ∈ s.book.claims ∧ c.live = true ∧ c.holder = .releaseCover :=
  ⟨ready (by decide +kernel), by decide +kernel⟩

theorem witness_UnitTimersEnd :
    (∀ st ∈ [UnitState.starting, .synchronising, .unloading, .cooldown],
        (unitAs 1 st (some 5000) plant).gens[(1 : Fin 8)].state = st
          ∧ due plant.clock (unitAs 1 st (some 5000) plant).gens[(1 : Fin 8)].phaseTimer = true)
      ∧ linkActive plant .G = true ∧ linkActive (silent .G plant) .G = false
      ∧ (let s := modGen 1 (fun g => { g with minRun := .running 5000, recallWindow := some 5000 }) plant
         s.gens[(1 : Fin 8)].minRun = .running 5000 ∧ reached s.clock 5000 = true
          ∧ due s.clock s.gens[(1 : Fin 8)].recallWindow = true)
      ∧ (noticesOf plant .S).length ≤ 14 := by decide +kernel
/-- An Unknown unit with its breaker reported closed, and reported open under either control; declarations 0, 1 and 2. -/
theorem witness_UnitListsTaken :
    (Ready (unitAs 2 .unknown none plant) .G ∧ Ready plant .G) ∧ unitIndex 3 = some 2
      ∧ (unitAs 2 .unknown none plant).gens[(2 : Fin 8)].state = .unknown
      ∧ (unitAs 2 .unknown none plant).cfg.gensets[(2 : Fin 8)].present = true
      ∧ (unitStanding ⟨3, 1, 1, 0⟩).closed = true
      ∧ ((unitStanding ⟨3, 0, 0, 1⟩).closed = false ∧ (unitStanding ⟨3, 0, 0, 1⟩).control = .byPlant)
      ∧ ((unitStanding ⟨3, 0, 0, 0⟩).closed = false ∧ (unitStanding ⟨3, 0, 0, 0⟩).control = .coordinated)
      ∧ ([⟨3, 0⟩, ⟨3, 1⟩, ⟨9, 2⟩, ⟨1, 2⟩] : List AvailEntry).length ≤ 8 :=
  ⟨⟨ready (by decide +kernel), ready (by decide +kernel)⟩, by decide +kernel⟩
/-- A resolved unit in every state of R52's table, an entry for each row, and a Local unit. -/
theorem witness_UnitListsTaken_resolved :
    (∀ st ∈ [UnitState.stopped, .starting, .synchronising, .online, .unloading, .cooldown, .lockedOut],
      Ready (unitAs 2 st (some 9000) plant) .G)
      ∧ (∀ st ∈ [UnitState.stopped, .starting, .synchronising, .online, .unloading, .cooldown, .lockedOut],
        (unitAs 2 st (some 9000) plant).gens[(2 : Fin 8)].state = st ∧ st ≠ .unknown
          ∧ (unitAs 2 st (some 9000) plant).gens[(2 : Fin 8)].authority = .coordinated
          ∧ (unitAs 2 st (some 9000) plant).entry.resolved = true)
      ∧ ((unitStanding ⟨3, 1, 0, 0⟩).running = true ∧ (unitStanding ⟨3, 1, 0, 0⟩).closed = false)
      ∧ ((unitStanding ⟨3, 0, 1, 0⟩).running = false ∧ (unitStanding ⟨3, 0, 1, 0⟩).closed = true)
      ∧ (localUnit 2 plant).gens[(2 : Fin 8)].authority ≠ .coordinated := by
  refine ⟨fun _ _ => ready rfl, by decide +kernel⟩
/-- A failure and a trip told by a status entry in Energising. -/
theorem witness_UnitListsTaken_attempts :
    let s := energisingPlant 2 .synchronising 1
    Ready s .G ∧ s.entry.resolved = true ∧ s.seq.phase = .energising ∧ servedKind s 2 = some .blackStart
      ∧ s.gens[(2 : Fin 8)].state = .synchronising ∧ s.gens[(0 : Fin 8)].state = .online
      ∧ (unitStanding ⟨3, 0, 0, 0⟩).running = false ∧ (unitStanding ⟨3, 0, 0, 0⟩).closed = false :=
  ⟨ready (by decide +kernel), by decide +kernel⟩
/-- Skipped: an index outside the range, a unit not present, and a second entry for a unit. -/
theorem witness_UnitListsTaken_skipped :
    (∀ u ∈ [(0 : Byte), 9], ∀ i : Fin 8, unitIndex u ≠ some i) ∧ unitIndex 4 = some 3
      ∧ plant.cfg.gensets[(3 : Fin 8)].present = false
      ∧ (∃ d ∈ ([⟨3, 0, 0, 0⟩] : List UnitEntry), unitIndex d.unit = some 2) := by decide +kernel

/-- Handed over at once from Stopped and from Online at a margin of exactly the headroom; waiting one kW below it;
returned from Local; and a pending release ended. -/
theorem witness_ReleaseAndReturnUnit :
    let s := { plant with book := { plant.book with terms := { plant.book.terms with M := 1000 } } }
    Ready s .G ∧ unitIndex 3 = some 2 ∧ unitIndex 2 = some 1 ∧ s.cfg.gensets[(2 : Fin 8)].present = true
      ∧ s.gens[(2 : Fin 8)].authority = .coordinated ∧ s.gens[(2 : Fin 8)].state = .stopped ∧ s.seq.phase = .idle
      ∧ s.gens[(2 : Fin 8)].pendingRelease = none ∧ s.gens[(1 : Fin 8)].state = .online ∧ s.entry.complete = true
      ∧ s.lock.quality = .full ∧ 0 ≤ s.book.terms.M - (releaseHeadroom s 1 : Int) :=
  ⟨ready (by decide +kernel), by decide +kernel⟩
theorem witness_ReleaseAndReturnUnit_waits :
    let s := { plant with book := { plant.book with terms := { plant.book.terms with M := 999 } } }
    Ready s .G ∧ s.gens[(1 : Fin 8)].state = .online ∧ s.gens[(1 : Fin 8)].authority = .coordinated
      ∧ s.gens[(1 : Fin 8)].pendingRelease = none ∧ s.entry.complete = true ∧ s.seq.phase = .idle
      ∧ ¬(s.lock.quality = .full ∧ 0 ≤ s.book.terms.M - (releaseHeadroom s 1 : Int))
      ∧ s.cfg.settings.book.releaseWait ≠ 0 ∧ s.book.claims.length < 16 ∧ (∀ c ∈ s.book.claims, c.purpose ≠ .unit 1) :=
  ⟨ready (by decide +kernel), by decide +kernel⟩
theorem witness_ReleaseAndReturnUnit_returns :
    Ready (localUnit 1 plant) .G ∧ (localUnit 1 plant).gens[(1 : Fin 8)].authority = .byPlant
      ∧ (localUnit 1 plant).gens[(1 : Fin 8)].breakerClosed = true
      ∧ (localUnit 2 plant).gens[(2 : Fin 8)].breakerClosed = false ∧ (localUnit 2 plant).gens[(2 : Fin 8)].state ≠ .unknown
      ∧ (modGen 1 (fun g => { g with pendingRelease := some 8 }) plant).gens[(1 : Fin 8)].pendingRelease = some 8 :=
  ⟨ready (by decide +kernel), by decide +kernel⟩
/-- Refused: indices 0 and 9, and G4 not present; a unit Starting, Rebuilding, and a release pending; an Online one before
entry; and at a margin of 999, G2 named by a claim, and 16 claims that name no unit. -/
theorem witness_ReleaseAndReturnUnit_refused :
    let early := { plant with entry := ⟨false, none, true⟩ }
    let short := fun (s : State) => { s with book := { s.book with terms := { s.book.terms with M := 999 } } }
    let named := short (withClaim ⟨8, .releaseCover, .unit 1, 400, 30, true, .applied 9000⟩ plant)
    let full := short (fullBook plant)
    (Ready (unitAs 1 .starting (some 9000) plant) .G ∧ Ready (inPhase .rebuilding plant) .G ∧ Ready early .G ∧ Ready named .G
        ∧ Ready full .G)
      ∧ unitIndex 0 = none ∧ unitIndex 9 = none ∧ plant.cfg.gensets[(3 : Fin 8)].present = false
      ∧ (unitAs 1 .starting (some 9000) plant).gens[(1 : Fin 8)].state = .starting
      ∧ (inPhase .rebuilding plant).seq.phase ≠ .idle ∧ early.entry.complete = false
      ∧ early.gens[(1 : Fin 8)].state = .online
      ∧ (∃ c ∈ named.book.claims, c.purpose = .unit 1) ∧ ¬(0 ≤ named.book.terms.M - (releaseHeadroom named 1 : Int))
      ∧ (∀ c ∈ full.book.claims, c.purpose ≠ .unit 1) ∧ 16 ≤ full.book.claims.length
      ∧ ¬(0 ≤ full.book.terms.M - (releaseHeadroom full 1 : Int)) :=
  ⟨by refine ⟨ready ?_, ready ?_, ready ?_, ready ?_, ready ?_⟩ <;> decide +kernel, by decide +kernel⟩
theorem witness_GroupReleasedAndReturned :
    let s := modPv 1 (fun p => { p with authority := .byPlant, issued := none }) plant
    Ready plant .P ∧ unitIndex 2 = some 1 ∧ plant.pvs[(1 : Fin 8)].authority = .coordinated
      ∧ Ready s .P ∧ s.pvs[(1 : Fin 8)].authority = .byPlant ∧ s.seq.phase = .idle ∧ (inPhase .failed s).seq.phase ≠ .idle :=
  ⟨ready (by decide +kernel), by decide +kernel, by decide +kernel, ready (by decide +kernel), by decide +kernel⟩
theorem witness_PvReportTaken :
    Ready plant .P ∧ ([⟨1, 900, 0xFFFF⟩, ⟨1, 7, 8⟩, ⟨9, 1, 1⟩] : List PvEntry).length ≤ 8 :=
  ⟨ready (by decide +kernel), by decide +kernel⟩
theorem witness_CeilingsComputedAndIssued :
    let ms : List Member := [⟨0, 900, 10, 0, false⟩, ⟨1, 700, 30, 0, false⟩]
    (∀ m ∈ ms, m.share = 0 ∧ m.clamped = false ∧ 1 ≤ m.weight) ∧ 1600 ≤ (ms.map (·.base)).sum := by decide +kernel
/-- The worked case of chapter 5, link P Active and Silent, with and without a full order owed. -/
theorem witness_CeilingsComputedAndIssued_sample :
    let p := live 41 310 290 0 300 200 400 50100
    (SteadySample p solarPlant ∧ SteadySample p (silent .P solarPlant)) ∧ (SampleRec.parse p).live = true
      ∧ solarPlant.seq.phase = .idle ∧ linkActive solarPlant .P = true ∧ linkActive (silent .P solarPlant) .P = false
      ∧ solarPlant.cur.fullOwed = false
      ∧ (∀ g ∈ coordGroups solarPlant, 1 ≤ solarPlant.cfg.pvs[g].weight ∧ solarPlant.cfg.pvs[g].cls ≤ 3)
      ∧ answers (exec (.sample 0x60 p true) solarPlant) (fun t => t.pvs[0].issued ≠ solarPlant.pvs[0].issued) = true :=
  ⟨⟨steady (by decide +kernel), steady (by decide +kernel)⟩, by decide +kernel⟩
/-- The same sample outside Idle, PV1 under a cap of 50 % and the others with none released. -/
theorem witness_CeilingsComputedAndIssued_phases :
    let p := live 41 310 290 0 300 200 400 50100
    ∀ ph ∈ [Phase.clearing, .energising, .rebuilding, .failed],
      let s := inPhase ph (modPv 0 (fun g => { g with cap := some 50 }) solarPlant)
      SteadySample p s ∧ linkActive s .P = true ∧ s.seq.phase ≠ .idle ∧ s.pvs[(0 : Fin 8)].cap = some 50
        ∧ s.pvs[(1 : Fin 8)].cap = none := by
  intro p ph h
  simp only [List.mem_cons, List.not_mem_nil, or_false] at h
  rcases h with rfl | rfl | rfl | rfl <;> exact ⟨steady (by decide +kernel), by decide +kernel⟩
/-- R102: in Failed the ceilings of 500, 0 and 500 are lowered to 40 % of 1,000 and, with no cap released, to 0. -/
theorem test_caps_lower_ceilings :
    answers (exec (.sample 0x60 (live 41 310 290 0 300 200 400 50100) true)
        (inPhase .failed (modPv 0 (fun g => { g with cap := some 40 }) solarPlant))) (fun t =>
      (t.pvs[0].computed, t.pvs[1].computed, t.pvs[2].computed) = (400, 0, 0)) = true := by decide +kernel
/-- A tally of CurtailedEnergy alone that takes the event, one whose filter names a unit, and one for other qualities. -/
theorem witness_CeilingsComputedAndIssued_energy :
    (∀ k : EventKind, (0x200 : BitVec 14).getLsbD k.place = true ↔ k = .curtailedEnergy)
      ∧ (TallyCfg.mk 0x200 0 .accumulate .fullOnly).filter = 0 ∧ (TallyCfg.mk 0x200 1 .count .any).filter ≠ 0
      ∧ solarPlant.lock.quality = .full := by
  refine ⟨fun k => by cases k <;> decide, by decide +kernel⟩
theorem witness_NothingRisesOutsideFull_ceiling :
    answers (exec (.sample 0x60 (live 41 310 290 0 300 200 400 50100) true) (verifying 3 solarPlant)) (fun t =>
      t.lock.quality ≠ .full && solarPlant.pvs[0].issued = some 300 && t.pvs[0].issued.isSome) = true := by decide +kernel

theorem witness_StagesFireAndRelease :
    let s := { plant with shed := { plant.shed with timers := plant.shed.timers.set 0 (some 5000) } }
    due s.clock s.shed.timers[(0 : Fin 4)] = true ∧ linkActive s .F = true ∧ linkActive (silent .F s) .F = false
      ∧ 2 ∈ stageList s 0 := by decide +kernel
/-- A sample at stage 1's threshold, one in its band and one above it; a RoCoF at the advance; a latched plant below the
restore frequency, at it, and at the end of its spell. -/
theorem witness_StagesFireAndRelease_sample :
    let p := fun f => live 41 520 480 0 500 400 0 f
    let advance := samplePayload 41 1 49000 (-1500) 520 480 0 500 400 0
    let s := { plant with shed := { plant.shed with latches := Vector.replicate 4 true, spell := some (5000 - 10000) } }
    (SteadySample (p 49000) plant ∧ SteadySample (p 49100) plant ∧ SteadySample (p 49101) plant ∧ SteadySample (p 49799) s
        ∧ SteadySample (p 49800) s ∧ SteadySample advance plant)
      ∧ (SampleRec.parse advance).rocof.toInt ≤ plant.cfg.settings.shed.rocofAdvance
      ∧ plant.seq.phase ∈ [Phase.idle, .rebuilding, .failed] ∧ anyLatched plant = false ∧ anyLatched s = true
      ∧ ranFor s.clock s.shed.spell (secs s.cfg.settings.shed.latchRelease)
      ∧ ¬ranFor plant.clock none (secs plant.cfg.settings.shed.latchRelease) := by
  unfold ranFor
  refine ⟨?_, by decide +kernel⟩
  refine ⟨steady ?_, steady ?_, steady ?_, steady ?_, steady ?_, steady ?_⟩ <;> decide +kernel
theorem witness_ShedTimersEnd :
    (∀ st ∈ [FeederState.opening, .closing], (feederAs 1 st (some 5000) plant).feeders[(1 : Fin 24)].state = st
        ∧ due plant.clock (feederAs 1 st (some 5000) plant).feeders[(1 : Fin 24)].relayWindow = true)
      ∧ plant.seq.phase ∈ [Phase.idle, .energising, .failed]
      ∧ (let s := { plant with
           shed := { plant.shed with settle := some 5000 }
           rest := { plant.rest with holdOff := some 5000 } }
         due s.clock s.shed.settle = true ∧ due s.clock s.rest.holdOff = true) := by decide +kernel
theorem witness_FeederReportsTaken :
    (Ready plant .F ∧ Ready (feederAs 1 .unknown none plant) .F) ∧ feederIndex 24 = some 23 ∧ feederIndex 2 = some 1
      ∧ plant.cfg.feeders[(1 : Fin 24)].present = true ∧ breakerEvent 1 = some true ∧ breakerEvent 0 = some false
      ∧ (∀ st ∈ [FeederState.unknown, .closed, .opening, .shed, .closing, .openHeld, .faulted],
          (feederAs 1 st none plant).feeders[(1 : Fin 24)].state = st)
      ∧ plant.seq.phase ≠ .clearing ∧ (inPhase .clearing plant).seq.phase = .clearing
      ∧ entryClosed ⟨2, 1, 20001⟩ = true ∧ entryClosed ⟨2, 0, 300⟩ = false
      ∧ claimedPlant.book.claims.any (fun c => namesFeeder 1 c && c.live) = true :=
  ⟨⟨ready (by decide +kernel), ready (by decide +kernel)⟩, by decide +kernel⟩
/-- An unclaimed close of F2 and a claimed one; entries to skip: an index out of range, F9 not present, and F2 named twice. -/
theorem witness_FeederReportsTaken_entries :
    (∀ st ∈ [FeederState.unknown, .closed, .opening, .shed, .closing, .openHeld, .faulted], Ready (feederAs 1 st none plant) .F)
      ∧ (∀ c ∈ plant.book.claims, c.purpose ≠ .feeder 1) ∧ (∃ c ∈ claimedPlant.book.claims, c.purpose = .feeder 1)
      ∧ plant.entry.resolved = true ∧ (∀ b ∈ [(0 : Byte), 25], ∀ k : Fin 24, feederIndex b ≠ some k)
      ∧ feederIndex 9 = some 8 ∧ plant.cfg.feeders[(8 : Fin 24)].present = false
      ∧ (∃ d ∈ ([⟨2, 1, 300⟩] : List FeederEntry), feederIndex d.feeder = some 1) :=
  ⟨fun _ _ => ready rfl, by decide +kernel⟩
theorem witness_HoldSetAndFeederAdopted :
    (Ready plant .S ∧ Ready (feederAs 1 .openHeld none plant) .S) ∧ 1 < (2 : Byte).toNat ∧ feederIndex 25 = none
      ∧ feederIndex 2 = some 1 ∧ feederIn plant .openHeld 1 = false
      ∧ feederIn (feederAs 1 .openHeld none plant) .openHeld 1 = true :=
  ⟨⟨ready (by decide +kernel), ready (by decide +kernel)⟩, by decide +kernel⟩
/-- An amount that the eligible feeders reach, and one that they do not (they sum to 1,700). -/
theorem witness_ShedSelectionOpensFeeders :
    let sum := ((feederIds.filter (eligibleToShed plant)).map fun k => plant.cfg.feeders[k].estimate).sum
    1 ≤ 1700 ∧ 1700 ≤ sum ∧ sum < 1701 ∧ eligibleToShed plant 1 = true ∧ (1 : Fin 24) ∉ shedSelection plant 620 := by
  decide +kernel
/-- A dwell at the shed delay; one at the start delay with link G Silent, and with no candidate left; and an overload with M
at 0. -/
theorem witness_ShedSelectionOpensFeeders_sample :
    let p := live 41 820 780 0 180 120 0
    let s := { plant with book := { plant.book with shortfallDwell := some (5000 - 40000) } }
    let g := silent .G { plant with book := { plant.book with shortfallDwell := some 0 } }
    let n := unitAs 2 .lockedOut none { plant with
      book := { plant.book with shortfallDwell := some 0, noCandidate := true }
      arb := { plant.arb with shortfall := some ⟨400, none, .pending, false, true⟩ } }
    let heavy := live 41 2100 0 0 0 0 0
    (SteadySample p s ∧ SteadySample p g ∧ SteadySample p n ∧ SteadySample heavy plant)
      ∧ (computeTerms (sampled p s)).M < 0 ∧ (computeTerms (sampled p s)).excess ≤ 0 ∧ linkActive s .F = true
      ∧ ranFor s.clock s.book.shortfallDwell (secs 40) ∧ s.shed.settle = none
      ∧ (∀ k : Fin 24, feederIn s .opening k = false) ∧ shedSelection s 1 ≠ []
      ∧ ranFor g.clock g.book.shortfallDwell (secs 5) ∧ linkActive g .G = false
      ∧ (computeTerms (sampled p n)).M < 0 ∧ shortfallHeld n = true ∧ units.all (fun i => !candidate n i) = true
      ∧ 0 ≤ (computeTerms (sampled heavy plant)).M ∧ 0 < (computeTerms (sampled heavy plant)).excess := by
  unfold ranFor
  refine ⟨?_, by decide +kernel⟩
  refine ⟨steady ?_, steady ?_, steady ?_, steady ?_⟩ <;> decide +kernel
/-- The overload outside Idle, with no feeder in Opening. -/
theorem witness_ShedSelectionOpensFeeders_phases :
    let heavy := live 41 2100 0 0 0 0 0
    ∀ ph ∈ [Phase.clearing, .energising, .rebuilding, .failed],
      SteadySample heavy (inPhase ph plant) ∧ DeadTestRests heavy (inPhase ph plant) ∧ linkActive (inPhase ph plant) .F = true
        ∧ (inPhase ph plant).seq.phase ≠ .idle ∧ (∀ k : Fin 24, feederIn (inPhase ph plant) .opening k = false)
        ∧ 0 < (computeTerms (sampled heavy (inPhase ph plant))).excess ∧ shedSelection (inPhase ph plant) 1 ≠ [] := by
  intro heavy ph h
  simp only [List.mem_cons, List.not_mem_nil, or_false] at h
  rcases h with rfl | rfl | rfl | rfl <;> exact ⟨steady (by decide +kernel), .inl (by decide +kernel), by decide +kernel⟩
theorem witness_RestoreClosesChosenFeeder :
    restoreGates restorePlant = true ∧ chooseRestore restorePlant = some 1 ∧ restorePlant.entry.complete = true
      ∧ restorePlant.book.claims.length < 16 ∧ bucketAdmits restorePlant (pickupNeed restorePlant 1) = true
      ∧ 0 ≤ restorePlant.book.terms.M - (pickupNeed restorePlant 1 : Int) := by decide +kernel
theorem witness_RestoreClosesChosenFeeder_held :
    let s := { restorePlant with rest := { restorePlant.rest with bucket := 401 } }
    let m := { restorePlant with book := { restorePlant.book with terms := { restorePlant.book.terms with M := 599 } } }
    let f := { restorePlant with book := { restorePlant.book with
      claims := List.replicate 16 ⟨1, .linkS, .reserve, 1, 600, false, .granted 600000⟩ } }
    (restoreGates s = true ∧ chooseRestore s = some 1 ∧ bucketAdmits s (pickupNeed s 1) = false)
      ∧ (restoreGates m = true ∧ chooseRestore m = some 1 ∧ bucketAdmits m (pickupNeed m 1) = true
          ∧ m.book.terms.M - (pickupNeed m 1 : Int) < 0)
      ∧ (restoreGates f = true ∧ chooseRestore f = some 1 ∧ bucketAdmits f (pickupNeed f 1) = true
          ∧ 0 ≤ f.book.terms.M - (pickupNeed f 1 : Int) ∧ 16 ≤ f.book.claims.length) := by decide +kernel
/-- A sample of the same case: the need of 600 admitted and covered, uncovered, and held by the bucket. -/
theorem witness_RestoreClosesChosenFeeder_sample :
    let p := live 41 300 300 0 0 0 0
    let q := live 41 600 600 0 0 0 0
    let b := { restorePlant with rest := { restorePlant.rest with bucket := 1000 } }
    (SteadySample p restorePlant ∧ SteadySample q restorePlant ∧ Covered p restorePlant ∧ Covered q restorePlant
        ∧ StagesRest p restorePlant ∧ StagesRest q restorePlant)
      ∧ restorePlant.seq.phase = .idle ∧ (computeTerms (sampled p restorePlant)).D ≤ 0
      ∧ (computeTerms (sampled q restorePlant)).D ≤ 0 ∧ restorePlant.book.surplusDwell = none
      ∧ restorePlant.rest.hold = false ∧ restorePlant.rest.holdOff = none ∧ linkActive restorePlant .F = true
      ∧ restoreFreq restorePlant ≤ 50000 ∧ (∀ j : Fin 24, restorePlant.feeders[j].state ≠ .closing)
      ∧ chooseRestore restorePlant = some 1
      ∧ 0 ≤ (computeTerms (sampled p restorePlant)).M - (pickupNeed restorePlant 1 : Int)
      ∧ (computeTerms (sampled q restorePlant)).M - (pickupNeed restorePlant 1 : Int) < 0
      ∧ bucketAdmits { b with rest := { b.rest with bucket := b.rest.bucket - b.cfg.settings.restore.rate / 10 } }
          (pickupNeed b 1) = false := by
  refine ⟨?_, by decide +kernel⟩
  refine ⟨steady ?_, steady ?_, covered ?_, covered ?_, stagesRest ?_, stagesRest ?_⟩ <;> decide +kernel

theorem witness_BlackStartEntersClearing :
    (Ready plant .S ∧ Ready (inPhase .failed plant) .S ∧ Ready (silent .F plant) .S ∧ Ready (silent .P plant) .S)
      ∧ plant.entry.complete = true ∧ plant.seq.phase = .idle ∧ (inPhase .failed plant).seq.phase = .failed
      ∧ linkActive plant .F = true ∧ plant.cfg.feeders[(0 : Fin 24)].present = true
      ∧ plant.feeders[(0 : Fin 24)].state = .closed ∧ linkActive (silent .F plant) .F = false
      ∧ linkActive plant .P = true ∧ plant.lock.quality ≠ .stale ∧ linkActive (silent .P plant) .P = false
      ∧ (feederIds.filter fun k => feederIn plant .closed k || feederIn plant .faulted k) ≠ [] := by
  refine ⟨?_, by decide +kernel⟩
  refine ⟨ready ?_, ready ?_, ready ?_, ready ?_⟩ <;> decide +kernel
/-- BEGIN before entry completes and outside Idle, RETRY outside Failed; a unit set Stopped, one LockedOut, and a Local one. -/
theorem witness_BlackStartEntersClearing_refused :
    let entering := { plant with entry := ⟨false, none, true⟩ }
    (Ready entering .S ∧ Ready (inPhase .failed plant) .S ∧ Ready plant .S ∧ Ready (localUnit 1 plant) .S)
      ∧ entering.entry.complete ≠ true ∧ (inPhase .failed plant).seq.phase ≠ .idle ∧ plant.seq.phase ≠ .failed
      ∧ coordOnline plant 0 = true ∧ (localUnit 1 plant).gens[(1 : Fin 8)].authority = .byPlant := by
  refine ⟨?_, by decide +kernel⟩
  refine ⟨ready ?_, ready ?_, ready ?_, ready ?_⟩ <;> decide +kernel
/-- R150: BEGIN sets both units Stopped, each with its Discrepancy notice of cause Begin, and the Local one keeps its state. -/
theorem test_begin_drops_units :
    answers (exec (.blackStartBegin 1) (localUnit 1 plant)) (fun t =>
      t.gens[0].state = .stopped && t.gens[1].state = .online
        && (noticesOf t .S).filter (fun n => n.kind = .discrepancy)
          = [⟨.discrepancy, 1, .unit .stopped, .code .begin, 0, 5000⟩]) = true := by decide +kernel
theorem witness_BlackStartAborted :
    Ready plant .S ∧ plant.seq.phase = .idle ∧ Ready (inPhase .rebuilding plant) .S
      ∧ (inPhase .rebuilding plant).seq.phase ≠ .idle :=
  ⟨ready (by decide +kernel), by decide +kernel, ready (by decide +kernel), by decide +kernel⟩

theorem witness_SequencerTimersExpire :
    (let s := { inPhase .energising plant with seq := { (inPhase .energising plant).seq with window := some 5000 } }
     s.seq.phase = .energising ∧ due s.clock s.seq.window = true)
      ∧ (∀ b ∈ [true, false],
          let s := rebuildingPlant (.closeFeeder 1) b
          s.seq.phase = .rebuilding ∧ s.seq.pointer = some 1 ∧ pointedStep s = some ⟨.closeFeeder 1, 60, b⟩
            ∧ due s.clock s.seq.stepTimer = true)
      ∧ pointedStep (rebuildingPlant (.wait 10) false) = some ⟨.wait 10, 60, false⟩ := by decide +kernel

/-- The plant in Rebuilding at step 1 of a plan of three steps. -/
def planPlant (a b c : StepAct) : State :=
  let s := rebuildingPlant a false
  { s with cfg := { s.cfg with planLength := 3, plan := (s.cfg.plan.set 1 ⟨b, 60, false⟩).set 2 ⟨c, 60, false⟩ } }
/-- The step next after one that ends: one that stays current, RELEASE PV passed at once, END, and none. -/
theorem witness_StepEnded :
    (let s := planPlant (.wait 10) (.startUnit (some 2)) .endPlan
     planned s 2 = some ⟨.startUnit (some 2), 60, false⟩ ∧ coordOnline s 2 = false)
      ∧ (let s := planPlant (.wait 10) (.releasePv 0 40) (.waitBand 200 5)
         planned s 2 = some ⟨.releasePv 0 40, 60, false⟩ ∧ planned s 3 = some ⟨.waitBand 200 5, 60, false⟩
          ∧ s.pvs[(0 : Fin 8)].authority = .coordinated)
      ∧ (planned (planPlant (.wait 10) .endPlan .endPlan) 2).map (·.act) = some .endPlan
      ∧ planned (planPlant (.wait 10) (.wait 5) (.wait 5)) 4 = none := by decide +kernel
/-- R161: the end of a WAIT step passes RELEASE PV, which sets the cap of a Coordinated group, and starts the step behind it; a
Local group takes no cap. -/
theorem test_release_pv_sets_cap :
    let s := planPlant (.wait 10) (.releasePv 0 40) (.waitBand 200 5)
    answers (exec .waitStepExpiry s) (fun t =>
        t.pvs[0].cap = some 40 && t.seq.pointer = some 3 && t.seq.stepTimer = some 65000) = true
      ∧ answers (exec .waitStepExpiry (modPv 0 (fun p => { p with authority := .byPlant, issued := none }) s)) (fun t =>
        t.pvs[0].cap = none && t.seq.pointer = some 3) = true := by decide +kernel

/-- Idle with the dead-bus test armed and not, the spell at 2.0 s and before, with a coordinated unit up and with none. -/
theorem witness_SequencerJudgesSample_idle :
    let s := unitAs 1 .stopped none (unitAs 0 .stopped none { plant with
      seq := { plant.seq with armed := true, deadSpell := some 3000 } })
    (SteadySample deadBus s ∧ SteadySample deadBus plant ∧ SteadySample (live 41 300 300 0 0 0 0) plant)
      ∧ s.seq.phase = .idle ∧ (SampleRec.parse deadBus).live = false ∧ s.seq.armed = true ∧ plant.seq.armed = false
      ∧ (∀ c ∈ s.book.claims, c.isPending = false)
      ∧ (∀ i : Fin 8, s.cfg.gensets[i].present = true → s.gens[i].state ∉ [UnitState.online, .synchronising])
      ∧ (plant.cfg.gensets[(0 : Fin 8)].present = true ∧ plant.gens[(0 : Fin 8)].authority = .coordinated
          ∧ plant.gens[(0 : Fin 8)].state ∈ [UnitState.online, .synchronising])
      ∧ ranFor s.clock s.seq.deadSpell 2000 ∧ ¬ranFor s.clock (some 3001) 2000 := by
  unfold ranFor
  refine ⟨?_, by decide +kernel⟩
  refine ⟨steady ?_, steady ?_, steady ?_⟩ <;> decide +kernel
/-- Energising with a sample at the edge of the band that passes, and one beyond it; Rebuilding with the bus Dead for 2.0 s. -/
theorem witness_SequencerJudgesSample_phases :
    let s := inPhase .energising plant
    let r := { inPhase .rebuilding plant with seq := { (inPhase .rebuilding plant).seq with deadSpell := some 3000 } }
    (SteadySample (live 41 300 300 0 0 0 0 50500) s ∧ SteadySample (live 41 300 300 0 0 0 0 50501) s ∧ SteadySample deadBus r)
      ∧ s.seq.phase = .energising ∧ (∀ c ∈ s.book.claims, c.isPending = false)
      ∧ (computeTerms (sampled (live 41 300 300 0 0 0 0 50500) s)).excess ≤ 0 ∧ coordOnline s 0 = true
      ∧ r.seq.phase = .rebuilding ∧ (SampleRec.parse deadBus).live = false ∧ r.seq.collapses < 2
      ∧ ranFor r.clock r.seq.deadSpell 2000 := by
  unfold ranFor
  refine ⟨?_, by decide +kernel⟩
  refine ⟨steady ?_, steady ?_, steady ?_⟩ <;> decide +kernel
/-- A CLOSE FEEDER step whose feeder is Shed: admitted and covered, and with the margin below the need. -/
theorem witness_SequencerJudgesSample_close :
    let s := feederAs 1 .shed none (rebuildingPlant (.closeFeeder 1) true)
    let p := live 41 300 300 0 0 0 0
    let q := live 41 600 600 0 0 0 0
    (SteadySample p s ∧ SteadySample q s ∧ Covered p s ∧ Covered q s ∧ StagesRest p s ∧ StagesRest q s)
      ∧ s.seq.phase = .rebuilding ∧ currentAct s = some (.closeFeeder 1) ∧ linkActive s .F = true
      ∧ (∀ j : Fin 24, s.feeders[j].state ≠ .closing) ∧ s.cfg.feeders[(1 : Fin 24)].present = true
      ∧ s.feeders[(1 : Fin 24)].state ∈ [FeederState.shed, .openHeld] ∧ s.book.claims = []
      ∧ bucketAdmits s (pickupNeed s 1) = true ∧ (pickupNeed s 1 : Int) ≤ (computeTerms (sampled p s)).M
      ∧ (computeTerms (sampled q s)).M < (pickupNeed s 1 : Int) := by
  refine ⟨?_, by decide +kernel⟩
  refine ⟨steady ?_, steady ?_, covered ?_, covered ?_, stagesRest ?_, stagesRest ?_⟩ <;> decide +kernel

/-- The plant at a CLOSE CLASS step with two Shed feeders of class 2: F2 of rank 3, ahead of F1 of rank 4. -/
def classPlant : State :=
  let s := feederAs 0 .shed none (feederAs 1 .shed none (rebuildingPlant (.closeClass 2) true))
  { s with cfg := { s.cfg with feeders := s.cfg.feeders.set 0 ⟨true, .load, none, 2, 1, 900, 150, 4, true⟩ } }
theorem witness_SequencerJudgesSample_class :
    let p := live 41 300 300 0 0 0 0
    (SteadySample p classPlant ∧ Covered p classPlant ∧ StagesRest p classPlant)
      ∧ currentAct classPlant = some (.closeClass 2)
      ∧ (∀ k ∈ [(0 : Fin 24), 1], classPlant.cfg.feeders[k].present = true ∧ classPlant.cfg.feeders[k].cls = 2
          ∧ classPlant.feeders[k].state = .shed)
      ∧ (∀ j : Fin 24, classPlant.cfg.feeders[j].present = true ∧ classPlant.cfg.feeders[j].cls = 2
          ∧ classPlant.feeders[j].state = .shed → j ≠ 1 →
          classPlant.cfg.feeders[(1 : Fin 24)].rank < classPlant.cfg.feeders[j].rank) := by
  refine ⟨⟨steady ?_, covered ?_, stagesRest ?_⟩, by decide +kernel⟩ <;> decide +kernel
/-- R159: the step closes F2 first. -/
theorem test_close_class_takes_lowest_rank :
    answers (exec (.sample 0x60 (live 41 300 300 0 0 0 0) true) classPlant) (fun t =>
      t.feeders[0].state = .shed && t.feeders[1].state = .closing && t.seq.pointer = some 1) = true := by decide +kernel

/-- WAIT BAND with its spell run, running and not begun, in the band and outside it; a sample before a collapse. -/
theorem witness_PlanStepsTaken_sample :
    let s := rebuildingPlant (.waitBand 200 5) true
    let ran := { s with seq := { s.seq with bandSpell := some 0 } }
    (SteadySample (live 41 300 300 0 0 0 0 50200) s ∧ SteadySample (live 41 300 300 0 0 0 0 50201) s ∧ SteadySample deadBus s
      ∧ SteadySample (live 41 300 300 0 0 0 0) (rebuildingPlant (.closeClass 2) true)
      ∧ Covered (live 41 300 300 0 0 0 0) (rebuildingPlant (.closeFeeder 1) true)
      ∧ StagesRest (live 41 300 300 0 0 0 0) (rebuildingPlant (.closeFeeder 1) true))
      ∧ s.seq.phase = .rebuilding ∧ s.seq.pointer = some 1 ∧ currentAct s = some (.waitBand 200 5)
      ∧ ranFor ran.clock ran.seq.bandSpell (secs 5) ∧ ¬ranFor s.clock s.seq.bandSpell (secs 5)
      ∧ ¬ranFor s.clock s.seq.deadSpell 2000
      ∧ (rebuildingPlant (.closeFeeder 1) true).feeders[(1 : Fin 24)].state = .closed
      ∧ currentAct (rebuildingPlant (.wait 10) true) = some (.wait 10)
      ∧ currentAct (rebuildingPlant (.startUnit none) true) = some (.startUnit none) := by
  unfold ranFor
  refine ⟨?_, by decide +kernel⟩
  refine ⟨steady ?_, steady ?_, steady ?_, steady ?_, covered ?_, stagesRest ?_⟩ <;> decide +kernel
/-- CLOSE CLASS with nothing left to close, and with a feeder Shed; its last feeder reported closed, and given up. -/
theorem witness_PlanStepsTaken_feeder :
    let s := feederAs 1 .closing (some 5000) (rebuildingPlant (.closeClass 2) true)
    let f := feederAs 1 .closing (some 5000) (rebuildingPlant (.closeFeeder 1) true)
    (Ready s .F ∧ Ready f .F) ∧ feederIndex 2 = some 1 ∧ breakerEvent 1 = some true ∧ s.cfg.feeders[(1 : Fin 24)].present = true
      ∧ s.feeders[(1 : Fin 24)].state = .closing ∧ due s.clock s.feeders[(1 : Fin 24)].relayWindow = true
      ∧ currentAct s = some (.closeClass 2) ∧ currentAct f = some (.closeFeeder 1)
      ∧ (∀ j : Fin 24, s.cfg.feeders[j].cls = 2 → s.cfg.feeders[j].present = true → j = 1)
      ∧ (∀ k : Fin 24, (rebuildingPlant (.closeClass 2) true).feeders[k].state ∉ [FeederState.shed, .closing])
      ∧ (feederAs 1 .shed none (rebuildingPlant (.closeClass 2) true)).feeders[(1 : Fin 24)].state = .shed :=
  ⟨⟨ready (by decide +kernel), ready (by decide +kernel)⟩, by decide +kernel⟩
/-- A unit that comes Online for the step, the unit named and another one; an adoption, an unload window and a return. -/
theorem witness_PlanStepsTaken_unit :
    let at_ := fun (named : Option (Fin 8)) (st : UnitState) =>
      let s := unitAs 2 st (some 5000) (rebuildingPlant (.startUnit named) true)
      { s with arb := { s.arb with
        blackStart := some ⟨0, named, .inService, false, false⟩
        slot1 := some ⟨2, .blackStart, 4000⟩ } }
    (∀ named ∈ [none, some (2 : Fin 8), some 3], Ready (at_ named .synchronising) .G
        ∧ currentAct (at_ named .synchronising) = some (.startUnit named)
        ∧ servedKind (at_ named .synchronising) 2 = some .blackStart ∧ coordOnline (at_ named .synchronising) 3 = false)
      ∧ (at_ none .starting).gens[(2 : Fin 8)].authority = .coordinated
      ∧ (at_ none .stopped).gens[(2 : Fin 8)].state ∉ [UnitState.starting, .synchronising]
      ∧ (at_ (some 2) .unloading).gens[(2 : Fin 8)].state = .unloading
      ∧ due (at_ (some 2) .unloading).clock (at_ (some 2) .unloading).gens[(2 : Fin 8)].phaseTimer = true
      ∧ (let s := modGen 2 (fun g => { g with breakerClosed := true }) (localUnit 2 (at_ (some 2) .stopped))
         s.gens[(2 : Fin 8)].authority = .byPlant ∧ s.gens[(2 : Fin 8)].state ≠ .unknown
          ∧ s.gens[(2 : Fin 8)].breakerClosed = true) := by
  refine ⟨?_, by decide +kernel⟩
  intro named h
  simp only [List.mem_cons, List.not_mem_nil, or_false] at h
  rcases h with rfl | rfl | rfl <;> exact ⟨ready (by decide +kernel), by decide +kernel⟩
/-- R162: the spell that has run 5 s at an evaluation ends the step, and one begun a millisecond later does not. -/
theorem test_wait_band_holds :
    let s := planPlant (.waitBand 200 5) (.wait 7) .endPlan
    answers (exec (.sample 0x60 (live 41 300 300 0 0 0 0 50200) true) { s with seq := { s.seq with bandSpell := some 0 } })
        (fun t => t.seq.pointer = some 2 && t.seq.stepTimer = some 12000 && t.seq.bandSpell = none) = true
      ∧ answers (exec (.sample 0x60 (live 41 300 300 0 0 0 0 50200) true) { s with seq := { s.seq with bandSpell := some 1 } })
        (fun t => t.seq.pointer = some 1 && t.seq.bandSpell = some 1) = true := by decide +kernel

theorem witness_LinkSilenceAndReturn :
    let s := { plant with links := plant.links.set .P { plant.links.P with silenceDue := 5000 } }
    linkActive s .P = true ∧ reached s.clock (s.links.get .P).silenceDue = true
      ∧ (∀ l ∈ allLinks, linkActive (silent l plant) l = false ∧ repliesFull (silent l plant) l = false)
      ∧ requestFrame (.fetchNotice .G 7) = some (.G, 0x11, 7, []) ∧ (frameRefusal .F 0x40 []).isSome = true
      ∧ repliesFull (modLink .F (fun c => { c with replies := List.replicate 8 ⟨0x12, 1, .done, []⟩ }) (silent .F plant)) .F
          = true := by decide +kernel
/-- A frame begun on link G and on the sample input, its gap just passed and not; its length byte too long; its check wrong. -/
theorem witness_BadFramesHandled :
    (∀ line ∈ [Line.station .G, .sample], framerOf (setFramer line (.inFrame [0x12, 7] 4989) plant) line = .inFrame [0x12, 7] 4989)
      ∧ reached plant.clock (after 4989 11) = true ∧ reached plant.clock (after 4990 11) = false ∧ 120 < (121 : Byte).toNat
      ∧ (0x12 :: 7 :: (0 : Byte) :: [] ++ [0] : List Byte) = [0x12, 7, 0, 0]
      ∧ ((0 : Byte) ++ (0 : Byte) : BitVec 16) ≠ frameCheck [0x12, 7, 0] ∧ Line.station .G ≠ .sample
      ∧ (let s := modLink .F (fun c => { c with replies := List.replicate 8 ⟨0x12, 1, .done, []⟩ }) plant
         linkActive s .F = true ∧ repliesFull s .F = true) := by decide +kernel
theorem witness_BadFramesHandled_refused :
    Ready plant .S ∧ frameRefusal .S 0x40 [] = some .refusedKind ∧ kindLinks 0x40 = none ∧ kindLinks 0x20 = some [.G]
      ∧ Link.S ∉ [Link.G] ∧ Link.G ∈ [Link.G] ∧ lengthFits 0x20 3 = false ∧ frameRefusal .S 0x0A [3] = some .refusedRange :=
  ⟨ready (by decide +kernel), by decide +kernel⟩
theorem witness_NextFrameBegins :
    let r : Reply := ⟨0x12, 1, .done, []⟩
    let s := modLink .G (fun c => { c with replies := [r], orders := [.start 2] }) plant
    let o := modLink .G (fun c => { c with orders := [.start 2] }) plant
    (s.links.get .G).replies = [r]
      ∧ ((o.links.get .G).replies = [] ∧ (o.links.get .G).orders = [.start 2] ∧ linkActive o .G = true
          ∧ linkActive (silent .G o) .G = false)
      ∧ (plant.links.get .G).replies = [] ∧ (plant.links.get .G).orders = [] := by decide +kernel
theorem witness_NoticeFetched :
    let n : Notice := ⟨.restarted, 0, .none, .code .none, 0, 0⟩
    let s := modLink .P (fun c => { c with notices := [n] }) plant
    Ready s .P ∧ (s.links.get .P).notices = [n] ∧ Ready plant .P ∧ (plant.links.get .P).notices = [] :=
  ⟨ready (by decide +kernel), by decide +kernel, ready (by decide +kernel), by decide +kernel⟩
theorem witness_QueriesAnswered :
    (∀ l : Link, Ready plant l) ∧ (readFields (restartSilence .S plant) 5 0).isSome ∧ readFields plant 200 0 = none
      ∧ (16 : Byte).toNat = (15 : Fin 16).val + 1 ∧ 16 < (17 : Byte).toNat :=
  ⟨fun l => ready (by cases l <;> decide +kernel), by decide +kernel⟩
/-- The indices at both ends of each selector's range, a claim at its place and past the list, a sample held and none, a step
pointed to and none. -/
theorem witness_QueriesAnswered_fields :
    unitIndex 1 = some 0 ∧ unitIndex 8 = some 7 ∧ feederIndex 24 = some 23 ∧ (32 : Byte).toNat = (31 : Fin 32).val + 1
      ∧ claimedPlant.book.claims[(3 : Byte).toNat - 1]?.isSome = true
      ∧ claimedPlant.book.claims.length < (4 : Byte).toNat ∧ plant.lock.held.isSome = true ∧ State.reset.lock.held = none
      ∧ (rebuildingPlant (.closeFeeder 1) true).seq.pointer = some (0 + 1) ∧ plant.seq.pointer = none
      ∧ (∀ l ∈ allLinks, 1 ≤ linkIndex l ∧ linkIndex l ≤ 4) ∧ readFields plant 14 5 = none := by decide +kernel
theorem witness_FrameBytesBecomeCommand :
    (Instr.claimReserve 7 0xA5A5 30 600).wf = true
      ∧ requestFrame (.claimReserve 7 0xA5A5 30 600) = some (.S, 0x08, 7, [0xA5, 0xA5, 30, 0x58, 0x02])
      ∧ (plant.links.get .S).framer = .hunting := by decide +kernel

/-- A ramp record whose reopen level is its capacity. -/
def rampRecord : List Byte := two 3000 ++ [200] ++ two 10000 ++ two 500 ++ two 500 ++ [100]
/-- Every byte at its highest; a ramp record whose reopen level is its capacity; rising offsets; both nominal frequencies. -/
theorem witness_SetWritesSettings :
    Ready plant .S ∧ (List.replicate 17 (255 : Byte)).length = 17 ∧ (List.replicate 9 (255 : Byte)).length = 9
      ∧ (List.replicate 8 (255 : Byte)).length = 8 ∧ ((shedGroup 1600).drop 2).length = 26
      ∧ (rampRecord.length = 10 ∧ (le16 rampRecord 7).toNat = 500 ∧ (le16 rampRecord 5).toNat = 500)
      ∧ ((two 500 ++ two 50000).length = 4 ∧ (le16 (two 500 ++ two 50000) 2).toNat = 50000)
      ∧ ((two 500 ++ two 60000).length = 4 ∧ (le16 (two 500 ++ two 60000) 2).toNat = 60000) :=
  ⟨ready (by decide +kernel), by decide +kernel⟩
theorem witness_SetRefusals :
    (Ready plant .S ∧ Ready (inPhase .failed plant) .S) ∧ (0 : Byte).toNat = 0 ∧ 6 < (7 : Byte).toNat ∧ 8 < (9 : Byte).toNat
      ∧ 24 < (25 : Byte).toNat ∧ 32 < (33 : Byte).toNat ∧ 16 < (17 : Byte).toNat
      ∧ (1 ≤ (6 : Byte).toNat ∧ (6 : Byte).toNat ≤ 6) ∧ (setTarget 2 8).map (·.length) = some 6 ∧ ([1, 2, 3, 4, 5] : List Byte).length ≠ 6
      ∧ (inPhase .failed plant).seq.phase ≠ .idle
      ∧ (le16 [20, 0, 0x51, 0xC3] 2).toNat ≠ 50000 ∧ (le16 [20, 0, 0x51, 0xC3] 2).toNat ≠ 60000 :=
  ⟨⟨ready (by decide +kernel), ready (by decide +kernel)⟩, by decide +kernel⟩
/-- Records with one structural error each: a reopen level 1 kW above the capacity, equal offsets, a feeder of kind 2, of stage
5, tied to group 9 and to the group of another tie, a step of kind 7, with on-timeout 2, with feeder 0 and 25, class 8, unit 9
and group 0, and a tally with event 14, filter 25, mode 2 and qualifier 3. -/
def structuralErrors : List (List Byte) :=
  [[1, 3] ++ two 1000 ++ [50] ++ two 500 ++ two 500 ++ two 501 ++ [1], shedGroup 1300]
    ++ [[1, 2, 0, 1, 1], [1, 0, 0, 1, 5], [1, 1, 9, 1, 1], [1, 1, 3, 1, 1]].map
      (fun h => [4, 5] ++ h ++ two 450 ++ two 300 ++ [3, 1])
    ++ [[7, 1, 0], [0, 0, 0], [0, 25, 0], [1, 8, 0], [2, 9, 0], [3, 0, 0]].map (fun h => [5, 32] ++ h ++ two 0 ++ two 60 ++ [1])
    ++ [[5, 1, 4, 1, 0] ++ two 0 ++ two 60 ++ [2]]
    ++ [two 0x4000 ++ [0, 0, 0], two 1 ++ [25, 0, 0], two 1 ++ [0, 2, 0], two 1 ++ [0, 0, 3]].map ([6, 16] ++ ·)
theorem witness_SetRefusals_structural :
    feederIndex 5 = some 4 ∧ feederInFlight plant 4 [1] = false ∧ unitIndex 3 = some 2
      ∧ plant.cfg.feeders[(7 : Fin 24)].kind = .sourceTie ∧ plant.cfg.feeders[(7 : Fin 24)].linked = some 2
      ∧ (∀ p ∈ structuralErrors, answers (exec (.set 1 p) plant) (fun t =>
          t.cfg = plant.cfg && t.links.S.sending = some (.reply ⟨2, 1, .refusedRange, []⟩)) = true)
      ∧ answers (exec (.set 1 [5, 0, 3]) (inPhase .failed plant)) (fun t =>
          t.links.S.sending = some (.reply ⟨2, 1, .refusedState, []⟩)) = true := by decide +kernel
/-- Subjects in flight: a unit starting, one Online made not present, a feeder Opening, and a claimed one made not present. -/
theorem witness_SetRefusals_inFlight :
    (unitAs 2 .starting (some 9000) plant).gens[(2 : Fin 8)].state ∈ [UnitState.starting, .synchronising, .unloading]
      ∧ (plant.cfg.gensets[(1 : Fin 8)].present = true ∧ byteAt [0, 0, 0, 0, 0, 0] 0 ≠ 1
          ∧ plant.gens[(1 : Fin 8)].state = .online)
      ∧ (feederAs 1 .opening (some 9000) plant).feeders[(1 : Fin 24)].state ∈ [FeederState.opening, .closing]
      ∧ (claimedPlant.cfg.feeders[(1 : Fin 24)].present = true
          ∧ ∃ c ∈ claimedPlant.book.claims, c.purpose = .feeder 1) := by decide +kernel
/-- A record for each table: G1 kept and made not present, a lowered PV rating, a Load and a tie, a step and a tally. -/
theorem witness_SetWritesTables :
    Ready plant .S ∧ unitIndex 3 = some 2 ∧ (∀ b ∈ [(0 : Byte), 1], gensetInFlight plant 2 [b, 0, 0, 0, 0, 0] = false)
      ∧ plant.cfg.gensets[(2 : Fin 8)].present = true ∧ 10 < plant.cfg.pvs[(0 : Fin 8)].rating
      ∧ feederIndex 24 = some 23 ∧ (∀ b ∈ [(0 : Byte), 1], feederInFlight plant 23 [b] = false) ∧ feederIndex 8 = some 7
      ∧ plant.cfg.feeders[(7 : Fin 24)].present = true ∧ feederInFlight plant 7 [0] = false
      ∧ (∀ j : Fin 24, plant.cfg.feeders[j].kind = .sourceTie → plant.cfg.feeders[j].linked ≠ some 7) ∧ unitIndex 8 = some 7
      ∧ plant.seq.phase = .idle ∧ (32 : Byte).toNat = (31 : Fin 32).val + 1 ∧ (16 : Byte).toNat = (15 : Fin 16).val + 1 :=
  ⟨ready (by decide +kernel), by decide +kernel⟩
theorem witness_SetWritesTables_ring :
    Ready plant .S ∧ ([8, 7, 6, 5, 4, 3, 2, 1] : List Byte).length = 8
      ∧ ([8, 7, 6, 5, 4, 3, 2, 1] : List Byte).map unitIndex = ([7, 6, 5, 4, 3, 2, 1, 0] : List (Fin 8)).map some
      ∧ ([7, 6, 5, 4, 3, 2, 1, 0] : List (Fin 8)).Nodup
      ∧ (∀ r : List (Fin 8), ([1, 2, 3, 4, 5, 6, 7, 9] : List Byte).map unitIndex = r.map some → ¬r.Nodup) := by
  refine ⟨ready (by decide +kernel), by decide, by decide +kernel, by decide +kernel, ?_⟩
  intro r h
  have h7 := congrArg (fun l => l[7]?) h
  rw [show unitIndex = fun b => if h : 1 ≤ b.toNat ∧ b.toNat ≤ 8 then some ⟨b.toNat - 1, by omega⟩ else none from rfl] at h7
  cases hr : r[7]? <;> simp [hr] at h7
/-- A tally that takes stage 1's feeders by their load estimates. -/
theorem witness_TalliesCountEvents :
    let s := { plant with
      cfg := { plantTables with tallies := plantTables.tallies.set 0 ⟨0x008, 0, .accumulate, .fullOnly⟩ }
      shed := { plant.shed with timers := plant.shed.timers.set 0 (some 5000) } }
    due s.clock s.shed.timers[(0 : Fin 4)] = true ∧ linkActive s .F = true ∧ s.seq.phase = .idle ∧ TallyLaw s
      ∧ stageList s 0 = [2, 3, 4] ∧ ([2, 3, 4] : List (Fin 24)).Nodup
      ∧ (0x008 : BitVec 14).getLsbD EventKind.underFrequencyShed.place = true ∧ s.lock.quality = .full := by
  unfold TallyLaw
  decide +kernel
theorem witness_SnapshotTaken : Ready plant .S ∧ 1 < (2 : Byte).toNat := ⟨ready (by decide +kernel), by decide⟩

/-- A sample in Verify: quality is Degraded after it, with a claim granted before it in the list. -/
theorem witness_NothingRisesOutsideFull :
    answers (exec (.sample 0x60 (live 41 310 290 0 300 200 400) true) (verifying 3 claimedPlant)) (fun t =>
      t.lock.quality ≠ .full && t.book.claims.any (fun c => c.state = .granted 5000)) = true := by decide +kernel

/-- An age step to Stale, a crank window that locks G3 out, a breaker that opens: each change is told. -/
theorem witness_ChangesAreTold :
    answers (exec (.crankWindowExpiry 2) { tripPlant with clock := 30000 }) (fun t =>
      t.gens[2].state ≠ tripPlant.gens[2].state && !tripPlant.cfg.gensets[2].lockout && t.cfg.gensets[2].lockout) = true
    ∧ answers (exec (.breakerReport 1 2 0) plant) (fun t => t.feeders[1].state ≠ plant.feeders[1].state) = true
    ∧ answers (exec (.sample 0x60 (live 45 0 0 0 0 0 0) true)
        { plant with lock := { plant.lock with expected := some 44, window := List.replicate 5 false } }) (fun t =>
      t.lock.quality ≠ plant.lock.quality) = true := by decide +kernel

/-- The plant with a command waiting, and its margin worked out: a state that no law's statement starts from by accident. -/
def lawfulPlant : State := { bookedPlant with pending := [.presence .S 1] }
theorem lawfulPlant_steps : ∃ t, step lawfulPlant = .next t := ⟨_, rfl⟩
theorem witness_TablesAndTalliesStaySound : (StoreLaw lawfulPlant ∧ RingLaw lawfulPlant) ∧ TallyLaw lawfulPlant := by
  refine ⟨⟨rfl, ?_⟩, ?_⟩
  · unfold RingLaw ringSound
    decide +kernel
  · unfold TallyLaw
    decide +kernel

theorem witness_QueuesStayBounded : QueueLaw lawfulPlant ∧ LineLaw lawfulPlant :=
  ⟨fun l => by cases l <;> constructor <;> decide +kernel, fun l _ => by cases l <;> exact ⟨rfl, fun _ => rfl⟩⟩
/-- Orders waiting on each link that takes them. -/
theorem witness_QueuesStayBounded_orders :
    OrderLaw (modLink .G (fun c => { c with orders := [.start 2, .stop 1] }) (modLink .P (fun c => { c with
      orders := [.ceiling [(0, 5)]] }) (modLink .F (fun c => { c with orders := [.openSet [0, 1], .close 2] }) lawfulPlant))) := by
  constructor <;> decide +kernel
theorem witness_LockStaysSound : QualityLaw lawfulPlant ∧ WindowLaw lawfulPlant :=
  ⟨by unfold QualityLaw; decide +kernel, by decide +kernel, by decide +kernel⟩
theorem witness_CeilingsAndBucketsStayBounded : CeilingLaw lawfulPlant ∧ BucketLaw lawfulPlant := by
  refine ⟨?_, by decide +kernel, by decide +kernel⟩
  have h : ∀ g : Fin 8, lawfulPlant.pvs[g].authority = .coordinated ∧ lawfulPlant.pvs[g].issued = some 10
      ∧ 10 ≤ lawfulPlant.cfg.pvs[g].rating := by decide +kernel
  exact fun g => ⟨fun _ => ⟨10, (h g).2⟩, fun a => by rw [(h g).1] at a; cases a⟩
theorem witness_FeedersStaySound : ClosingLaw lawfulPlant ∧ RelayWindowLaw lawfulPlant :=
  ⟨by unfold ClosingLaw; decide +kernel, by unfold RelayWindowLaw; decide +kernel⟩
theorem witness_UnitsStaySound : PhaseTimerLaw lawfulPlant ∧ SlotLaw lawfulPlant :=
  ⟨by unfold PhaseTimerLaw; decide +kernel, by decide +kernel, (fun _ _ h => by cases h), by decide +kernel⟩
/-- A plant in Clearing and in Energising, every ceiling and cap 0, with a claim that settles. -/
theorem witness_ClaimsAndMarginStaySound_cleared :
    ∀ ph ∈ [Phase.clearing, .energising],
      ClearedLaw (withClaim ⟨1, .linkF, .feeder 1, 600, 30, false, .applied 90000⟩ (inPhase ph { lawfulPlant with
        pvs := lawfulPlant.pvs.map clearingCap })) := by
  intro ph h
  simp only [List.mem_cons, List.not_mem_nil, or_false] at h
  rcases h with rfl | rfl <;> exact fun _ => by decide +kernel
theorem witness_ClaimsAndMarginStaySound : ClaimListLaw lawfulPlant ∧ MarginLaw lawfulPlant := by
  refine ⟨?_, ?_⟩
  · constructor <;> decide +kernel
  · unfold MarginLaw
    decide +kernel

end Sys2Proof.Tests
end

