-- ==== Sys2Proof/Proofs/KeptEvaluation.lean ====
section
/-! What an evaluation keeps, said more finely than in Kept.lean: its writes leave the lock, the tables and each unit's last
output, its events are none of the lock's own three (R44), and outside Full it grants nothing, stops and closes nothing and
raises no ceiling (R39, R40). A property that looks at these is kept by the evaluation where it is kept by each write. -/

namespace Sys2Proof.Machine

variable {P : State → Prop}

/-- Every Granted claim of the list `d` stands in the list `c` already. -/
def grantsFrom (c d : List Claim) : Prop := ∀ x ∈ d, ∀ w : Time, x.state = .granted w → x ∈ c

/-- An order that R39 bars outside Full: STOP or CLOSE. -/
def Order.raises : Order → Bool
  | .stop _ | .close _ => true
  | .start _ | .recall _ | .ceiling _ | .openSet _ => false

/-- Every STOP or CLOSE order among `ps` stands among `os` already. -/
def ordersFrom (os ps : List Order) : Prop := ∀ o ∈ ps, o.raises = true → o ∈ os

/-- The ceiling `d` is no higher than the ceiling `c` was, or 0 (R40, R103). -/
def ceilingFalls (c d : Option Nat) : Prop := ∀ w, d = some w → w = 0 ∨ ∃ v, c = some v ∧ w ≤ v

/-- The event kinds of the Sample Lock (R44). -/
def EventKind.ofLock : EventKind → Bool
  | .sampleGood | .sampleBad | .lockLost => true
  | _ => false

/-- The writes of an evaluation. -/
structure KeptEvaluation (P : State → Prop) : Prop where
  notify : ∀ ls kind index subject cause claimId s, P s → P (notify ls kind index subject cause claimId s)
  offer : ∀ kind index amount s, kind.ofLock = false → P s → P (offer kind index amount s)
  book : ∀ (b : Book) (s : State), (s.lock.quality ≠ .full → grantsFrom s.book.claims b.claims) → P s →
    P { s with book := b }
  orders : ∀ l (f : List Order → List Order) (s : State),
    (s.lock.quality ≠ .full → ordersFrom (s.links.get l).orders (f (s.links.get l).orders)) → P s →
    P (modLink l (fun c => { c with orders := f c.orders }) s)
  pvs : ∀ (x : Vector PvGroup 8) (s : State),
    (s.lock.quality ≠ .full → ∀ g : Fin 8, ceilingFalls s.pvs[g].issued x[g].issued) → P s → P { s with pvs := x }
  gens : ∀ (x : Vector Genset 8) (s : State),
    (∀ i : Fin 8, x[i].state = s.gens[i].state ∧ x[i].lastOutput = s.gens[i].lastOutput) → P s → P { s with gens := x }
  feeders : ∀ (x : Vector Feeder 24) (s : State), (∀ k : Fin 24, x[k].state = s.feeders[k].state) → P s →
    P { s with feeders := x }
  setUnit : ∀ i st why s, P s → P (setUnitState i st why s)
  setFeeder : ∀ k st why s, P s → P (setFeederState k st why s)
  seq : ∀ (q : Sequencer) (s : State), P s → P { s with seq := q }
  arb : ∀ (a : Arbiter) (s : State), P s → P { s with arb := a }
  shed : ∀ (x : ShedTable) (s : State), P s → P { s with shed := x }
  rest : ∀ (x : Restoration) (s : State), P s → P { s with rest := x }
  cur : ∀ (x : Curtail) (s : State), P s → P { s with cur := x }
  free : ∀ (n : Nat) (s : State), P s → P { s with free := n }

/-! ## Claims, orders and ceilings -/

theorem grantsFrom.refl (c : List Claim) : grantsFrom c c := fun _ h _ _ => h

theorem grantsFrom.trans {c d e : List Claim} (a : grantsFrom c d) (b : grantsFrom d e) : grantsFrom c e :=
  fun x h w g => a x (b x h w g) w g

theorem grantsFrom.filter (p : Claim → Bool) (c : List Claim) : grantsFrom c (c.filter p) :=
  fun _ h _ _ => List.mem_of_mem_filter h

/-- A claim that is not Granted joins the list. -/
theorem grantsFrom.append {c d : List Claim} (h : grantsFrom c d) {x : Claim} (e : ∀ w, x.state ≠ .granted w) :
    grantsFrom c (d ++ [x]) := by
  intro y hy w g
  rcases List.mem_append.mp hy with m | m
  · exact h y m w g
  · rw [List.mem_singleton.mp m] at g; exact absurd g (e w)

theorem ordersFrom.refl (os : List Order) : ordersFrom os os := fun _ h _ => h

theorem ordersFrom.trans {os ps qs : List Order} (a : ordersFrom os ps) (b : ordersFrom ps qs) : ordersFrom os qs :=
  fun o h r => a o (b o h r) r

theorem ordersFrom.filter (p : Order → Bool) (os : List Order) : ordersFrom os (os.filter p) :=
  fun _ h _ => List.mem_of_mem_filter h

/-- What is left of unsent orders once feeders are taken from them holds no new CLOSE. -/
theorem ordersFrom.withoutFeeders (fs : List (Fin 24)) (os : List Order) :
    ordersFrom os (os.filterMap (Order.withoutFeeders fs)) := by
  intro x hx r
  obtain ⟨o, ho, e⟩ := List.mem_filterMap.mp hx
  cases o <;> simp only [Order.withoutFeeders, Option.ite_none_left_eq_some, Option.some.injEq] at e
  case openSet => rw [← e.2] at r; cases r
  case close => rw [← e.2]; exact ho
  all_goals rw [← e]; exact ho

/-- What is left of unsent orders once a group's entry is taken from them holds no new STOP. -/
theorem ordersFrom.withoutGroup (g : Fin 8) (os : List Order) : ordersFrom os (os.filterMap (Order.withoutGroup g)) := by
  intro x hx r
  obtain ⟨o, ho, e⟩ := List.mem_filterMap.mp hx
  cases o <;> simp only [Order.withoutGroup, Option.ite_none_left_eq_some, Option.some.injEq] at e
  case ceiling => rw [← e.2] at r; cases r
  all_goals rw [← e]; exact ho

/-- An order that is no STOP and no CLOSE joins the queue. -/
theorem ordersFrom.append {os ps : List Order} (h : ordersFrom os ps) {o : Order} (e : o.raises = false) :
    ordersFrom os (ps ++ [o]) := by
  intro x hx r
  rcases List.mem_append.mp hx with m | m
  · exact h x m r
  · rw [List.mem_singleton.mp m, e] at r; cases r

theorem ceilingFalls.refl (c : Option Nat) : ceilingFalls c c := fun w h => .inr ⟨w, h, Nat.le_refl _⟩

theorem ceilingFalls.trans {c d e : Option Nat} (a : ceilingFalls c d) (b : ceilingFalls d e) : ceilingFalls c e := by
  intro w hw
  rcases b w hw with rfl | ⟨v, hv, le⟩
  · exact .inl rfl
  · rcases a v hv with rfl | ⟨u, hu, le'⟩
    · exact .inl (Nat.le_zero.mp le)
    · exact .inr ⟨u, hu, Nat.le_trans le le'⟩

namespace KeptEvaluation

/-! ## The shared operations -/

theorem bookItems (K : KeptEvaluation P) (b : Book) {s : State} (e : b.claims = s.book.claims) (h : P s) :
    P { s with book := b } :=
  K.book b s (fun _ => e ▸ grantsFrom.refl _) h

theorem recompute (K : KeptEvaluation P) {s : State} (h : P s) : P (Machine.recompute s) := K.bookItems _ rfl h

theorem dropClaims (K : KeptEvaluation P) (p : Claim → Bool) {s : State} (h : P s) : P (Machine.dropClaims p s) := by
  have dropped : P { s with book := { s.book with claims := s.book.claims.filter (fun c => !p c) } } :=
    K.book _ _ (fun _ => grantsFrom.filter _ _) h
  unfold Machine.dropClaims
  split
  · refine K.recompute ?_
    unfold settleStepClaim
    split
    · split
      · exact dropped
      · exact K.seq _ _ dropped
    · exact dropped
  · exact h

theorem applyClaims (K : KeptEvaluation P) (p : Claim → Bool) {s : State} (h : P s) : P (Machine.applyClaims p s) := by
  refine K.book _ _ (fun _ x hx w g => ?_) h
  obtain ⟨c, hc, rfl⟩ := List.mem_map.mp hx
  by_cases e : (p c && c.live) = true
  · rw [if_pos e] at g; cases g
  · rw [if_neg e]; exact hc

theorem gen (K : KeptEvaluation P) (i : Fin 8) (f : Genset → Genset) {s : State} (e1 : (f s.gens[i]).state = s.gens[i].state)
    (e2 : (f s.gens[i]).lastOutput = s.gens[i].lastOutput) (h : P s) : P (modGen i f s) := by
  refine K.gens _ _ (fun j => ?_) h
  by_cases x : i = j
  · subst x; simpa using ⟨e1, e2⟩
  · simp [Fin.val_ne_iff.mpr x]

theorem feeder (K : KeptEvaluation P) (k : Fin 24) (f : Feeder → Feeder) {s : State}
    (e : (f s.feeders[k]).state = s.feeders[k].state) (h : P s) : P (modFeeder k f s) := by
  refine K.feeders _ _ (fun j => ?_) h
  by_cases x : k = j
  · subst x; simpa using e
  · simp [Fin.val_ne_iff.mpr x]

theorem pv (K : KeptEvaluation P) (g : Fin 8) (f : PvGroup → PvGroup) {s : State}
    (e : s.lock.quality ≠ .full → ceilingFalls s.pvs[g].issued (f s.pvs[g]).issued) (h : P s) : P (modPv g f s) := by
  refine K.pvs _ _ (fun q j => ?_) h
  by_cases x : g = j
  · subst x; simpa using e q
  · simpa [Fin.val_ne_iff.mpr x] using ceilingFalls.refl _

/-- A record of a PV group written with the ceiling it has. -/
theorem pvItems (K : KeptEvaluation P) (g : Fin 8) (f : PvGroup → PvGroup) {s : State}
    (e : (f s.pvs[g]).issued = s.pvs[g].issued) (h : P s) : P (modPv g f s) :=
  K.pv g f (fun _ => e ▸ ceilingFalls.refl _) h

theorem unitOrder (K : KeptEvaluation P) (o : Order) (i : Fin 8) {s : State} (e : s.lock.quality = .full ∨ o.raises = false)
    (h : P s) : P (queueUnitOrder o i s) :=
  K.orders .G (fun os => os.filter (fun x => !x.namesUnit i) ++ [o]) s
    (fun q => .append (.filter _ _) (e.resolve_left q)) h

theorem feederOrder (K : KeptEvaluation P) (o : Order) (fs : List (Fin 24)) {s : State}
    (e : s.lock.quality = .full ∨ o.raises = false) (h : P s) : P (queueFeederOrder o fs s) :=
  K.orders .F (fun os => os.filterMap (Order.withoutFeeders fs) ++ [o]) s
    (fun q => .append (.withoutFeeders _ _) (e.resolve_left q)) h

theorem ceilingOrder (K : KeptEvaluation P) (es : List (Fin 8 × Nat)) {s : State} (h : P s) : P (queueCeilingOrder es s) :=
  K.orders .P (fun os => os.filter (fun x => !x.isCeiling) ++ [Order.ceiling es]) s (fun _ => .append (.filter _ _) rfl) h

theorem begin (K : KeptEvaluation P) (slot : Nat) (k : ReasonKind) (r : Reason) (i : Fin 8) {s : State} (h : P s) :
    P (beginStart slot k r i s) := by
  have held : P (putReason k (some { r with stage := .inService, noCandidate := false })
      { s with arb := s.arb.take slot ⟨i, k, s.clock⟩ }) := K.arb _ _ (K.arb _ _ h)
  unfold beginStart
  refine K.offer _ _ _ _ rfl (K.unitOrder _ _ (.inr rfl) (K.setUnit _ _ _ _ ?_))
  split
  · exact K.bookItems _ rfl held
  · exact held

/-! ## The claim list, the phases and the servings (R17, R66, R165) -/

theorem endRelease (K : KeptEvaluation P) (i : Fin 8) (o : OutcomeWord) (why : Cause) (id : Nat) {s : State} (h : P s) :
    P (Machine.endRelease i o why id s) := K.notify _ _ _ _ _ _ _ (K.gen _ _ rfl rfl h)

theorem withdrawClaims (K : KeptEvaluation P) (p : Claim → Bool) (why : Cause) {s : State} (h : P s) :
    P (Machine.withdrawClaims p why s) := by
  have told : ∀ (t : State) (c : Claim), P t → P (tellWithdrawn why c t) := by
    intro t c h
    unfold tellWithdrawn
    split
    · split
      · exact K.endRelease _ _ _ _ h
      · exact K.notify _ _ _ _ _ _ _ h
    · exact h
  exact kept_foldl told _ (K.dropClaims _ h)

theorem withdrawReason (K : KeptEvaluation P) (k : ReasonKind) {s : State} (h : P s) : P (Machine.withdrawReason k s) := by
  unfold Machine.withdrawReason
  split
  · exact h
  · split <;> exact K.arb _ _ h

theorem enterPhase (K : KeptEvaluation P) (p : Phase) (why : Cause) {s : State} (h : P s) : P (Machine.enterPhase p why s) :=
  K.notify _ _ _ _ _ _ _ (K.seq _ _ h)

theorem enterFailed (K : KeptEvaluation P) (why : Cause) {s : State} (h : P s) : P (Machine.enterFailed why s) := by
  refine K.enterPhase _ _ (K.bookItems _ rfl (K.withdrawReason _ (K.bookItems _ rfl ?_)))
  exact K.withdrawReason _ (K.withdrawClaims _ _ (K.seq _ _ h))

/-- The writes of a serving are among them. -/
theorem toServe (K : KeptEvaluation P) : KeptServe P where
  notify := K.notify
  book := fun _ _ e _ _ h => K.bookItems _ e h
  putReason := fun _ _ _ h => K.arb _ _ h
  begin := fun _ _ _ _ _ _ _ h => K.begin _ _ _ _ h
  failed := fun _ _ _ h => K.enterFailed _ h

theorem unitSettled (K : KeptEvaluation P) {s : State} (h : P s) : P (Machine.unitSettled s) := K.toServe.unitSettled h

theorem judgeCleared (K : KeptEvaluation P) {s : State} (h : P s) : P (Machine.judgeCleared s) := by
  unfold Machine.judgeCleared
  split
  · exact K.toServe.raiseAndServe _ _ _ (K.enterPhase _ _ (K.seq _ _ h))
  · exact h

/-! ## The plan (R157, R163) -/

theorem planEnd (K : KeptEvaluation P) {s : State} (h : P s) : P (Machine.planEnd s) :=
  kept_foldl (fun _ _ h => K.pvItems _ _ rfl h) _
    (K.notify _ _ _ _ _ _ _ (K.seq _ _ (K.withdrawReason _ (K.seq _ _ h))))

theorem endStep (K : KeptEvaluation P) {s : State} (h : P s) : P (Machine.endStep s) := by
  refine K.seq _ _ ?_
  split
  · exact K.withdrawReason _ h
  · exact h

theorem stepOpening (K : KeptEvaluation P) (a : StepAct) {s : State} (h : P s) : P (Machine.stepOpening a s) := by
  unfold Machine.stepOpening
  split
  · exact K.toServe.raiseAndServe _ _ _ h
  · split
    · exact h
    · exact K.toServe.raiseAndServe _ _ _ h
  · split
    · exact K.pvItems _ _ rfl h
    · exact h
  all_goals exact h

theorem openStep (K : KeptEvaluation P) {s : State} (h : P s) : P (Machine.openStep s) := by
  unfold Machine.openStep
  split
  · exact h
  · exact K.stepOpening _ (K.seq _ _ h)

/-- Steps that run on in succession; in an evaluation they act besides (R157). -/
theorem runStep (K : KeptEvaluation P) (n : Nat) (ev : PlanEvent) (acts : ∀ s, P s → P (stepAtEvaluation s)) {s : State}
    (h : P s) : P (Machine.runStep n ev s) := by
  induction n generalizing s with
  | zero => exact h
  | succ n ih =>
    have acted : P (if ev = .evaluation then stepAtEvaluation (Machine.openStep s) else Machine.openStep s) := by
      split
      · exact acts _ (K.openStep h)
      · exact K.openStep h
    unfold Machine.runStep
    simp only []
    generalize (if ev = .evaluation then stepAtEvaluation (Machine.openStep s) else Machine.openStep s) = s2 at acted ⊢
    split
    · split
      · exact K.planEnd acted
      · split
        · exact K.planEnd (K.endStep acted)
        · exact ih (K.endStep acted)
    · exact acted

theorem finishStep (K : KeptEvaluation P) (ev : PlanEvent) (acts : ∀ s, P s → P (stepAtEvaluation s)) {s : State} (h : P s) :
    P (Machine.finishStep ev s) := by
  unfold Machine.finishStep
  simp only []
  split
  · exact K.planEnd (K.endStep h)
  · exact K.runStep _ _ acts (K.endStep h)

/-! ## Shedding (R112, R119 to R130) -/

theorem listFeeder (K : KeptEvaluation P) (why : Cause) (k : Fin 24) {s : State} (h : P s) : P (Machine.listFeeder why s k) :=
  K.feeder _ _ rfl (K.setFeeder _ _ _ _ h)

theorem openFeeders (K : KeptEvaluation P) (fs : List (Fin 24)) (why : Cause) (stage amount : Nat) {s : State} (h : P s) :
    P (Machine.openFeeders fs why stage amount s) := by
  unfold Machine.openFeeders
  split
  · exact h
  · have listed := kept_foldl (fun _ k h => K.listFeeder why k h) fs (K.feederOrder (.openSet fs) fs (.inr rfl) h)
    exact K.withdrawClaims _ _ (K.rest _ _ (K.notify _ _ _ _ _ _ _ listed))

theorem clearingListing (K : KeptEvaluation P) {s : State} (h : P s) : P (Machine.clearingListing s) := by
  unfold Machine.clearingListing
  split
  · exact K.shed _ _ (K.openFeeders _ _ _ _ h)
  · exact h

theorem offerFeeders (K : KeptEvaluation P) {e : EventKind} (x : e.ofLock = false) (fs : List (Fin 24)) {s : State} (h : P s) :
    P (Machine.offerFeeders e fs s) := kept_foldl (fun _ _ h => K.offer _ _ _ _ x h) _ h

theorem fireStage (K : KeptEvaluation P) (n : Fin 4) {s : State} (h : P s) : P (Machine.fireStage n s) := by
  unfold Machine.fireStage
  simp only []
  split
  · exact K.shed _ _ (K.offerFeeders rfl _ (K.openFeeders _ _ _ _ (K.shed _ _ h)))
  · exact K.shed _ _ h

theorem applyStage (K : KeptEvaluation P) (n : Fin 4) {s : State} (h : P s) : P (Machine.applyStage s n) := by
  unfold Machine.applyStage
  simp only []
  split
  · split
    · exact h
    · split
      · exact K.fireStage _ h
      · exact K.shed _ _ h
  · split
    · exact K.shed _ _ h
    · exact h

theorem advanceStages (K : KeptEvaluation P) {s : State} (h : P s) : P (Machine.advanceStages s) := by
  have fire : ∀ (n : Fin 4) {s : State}, P s → P (if s.shed.timers[n].isSome then Machine.fireStage n s else s) := by
    intro n s h
    split
    · exact K.fireStage _ h
    · exact h
  unfold Machine.advanceStages
  split
  · exact fire 1 (fire 0 h)
  · exact h

theorem releaseSpell (K : KeptEvaluation P) {s : State} (h : P s) : P (Machine.releaseSpell s) := by
  unfold Machine.releaseSpell
  split
  · exact K.shed _ _ h
  · simp only []
    split <;> exact K.shed _ _ h

theorem stagesEvaluate (K : KeptEvaluation P) {s : State} (h : P s) : P (Machine.stagesEvaluate s) := by
  have staged := K.advanceStages (kept_foldl (fun _ n h => K.applyStage n h) (List.finRange 4) h)
  unfold Machine.stagesEvaluate
  split
  · exact K.shed _ _ h
  · split
    · simp only []
      split
      · exact K.releaseSpell staged
      · exact staged
    · exact h

theorem markUncovered (K : KeptEvaluation P) (k : ShedKind) (b : Bool) {s : State} (h : P s) :
    P (Machine.markUncovered k b s) := by
  cases k <;> exact K.shed _ _ h

/-- An act of shortfall or overload shedding (R124, R127). -/
theorem shedAct (K : KeptEvaluation P) (k : ShedKind) (amount : Nat) {s : State} (h : P s) : P (Machine.shedAct k amount s) := by
  have opened := K.offerFeeders (e := .shortfallShed) rfl (ascending (shedSelection s amount)) (K.openFeeders
    (ascending (shedSelection s amount)) k.cause 0 (sumEstimates s (ascending (shedSelection s amount))) h)
  unfold Machine.shedAct judgeCover
  simp only []
  split
  · exact K.markUncovered _ _ opened
  · split
    · exact opened
    · exact K.markUncovered _ _ (K.notify _ _ _ _ _ _ _ opened)

/-! ## Claims asked for, closes, hand-overs and stops (R10, R57, R79, R114) -/

theorem ask (K : KeptEvaluation P) (a : ClaimAsk) (own : Option Status) {s : State} (h : P s) : P (askClaim a own s).1 := by
  have enter : ∀ c, (s.lock.quality ≠ .full → ∀ w, c.state ≠ .granted w) → P (enterClaim c s) := fun c e =>
    K.recompute (K.book _ _ (fun q => .append (.refl _) (e q)) h)
  unfold askClaim
  split
  · exact h
  · split
    · exact h
    · split
      · exact h
      · split
        · exact h
        · split
          · next g =>
            simp only [canGrant, Bool.and_eq_true, decide_eq_true_eq] at g
            exact K.offer _ _ _ _ rfl (enter _ fun q => absurd g.1 q)
          · split
            · exact K.offer _ _ _ _ rfl h
            · exact enter _ fun _ _ => nofun

theorem take (K : KeptEvaluation P) (k : Fin 24) (id : Nat) {s : State} (h : P s) : P (takeClose k id s) := by
  refine takeClose_kept k id (fun hc h => K.setFeeder _ _ _ _ (K.feederOrder _ _ (.inl ?_) h)) h
  simp only [canClose, Bool.and_eq_true, decide_eq_true_eq] at hc
  exact hc.1.1.2

theorem handOver (K : KeptEvaluation P) (i : Fin 8) (why : Cause) (id : Nat) {s : State} (h : P s) :
    P (Machine.handOver i why id s) := by
  have freed : P (freeSlot i (modGen i (fun g => { g with
      authority := .byPlant, phaseTimer := none, minRun := .absent, pendingRelease := none })
      (Machine.applyClaims (fun c => id ≠ 0 && c.id = id) s))) := K.arb _ _ (K.gen _ _ rfl rfl (K.applyClaims _ h))
  exact K.recompute (K.setUnit _ _ _ _ (K.notify _ _ _ _ _ _ _ freed))

theorem discrepancy (K : KeptEvaluation P) (i : Fin 8) (st : UnitState) (why : Cause) {s : State} (h : P s) :
    P (Machine.discrepancy i st why s) := K.notify _ _ _ _ _ _ _ h

theorem dropOnlineUnits (K : KeptEvaluation P) (why : Cause) {s : State} (h : P s) : P (Machine.dropOnlineUnits why s) :=
  kept_foldl (fun _ _ h => K.unitSettled (K.setUnit _ _ _ _ (K.discrepancy _ _ _ h))) _ h

/-- A STOP is issued by a caller that holds the quality Full (R39, R57). -/
theorem issueStop (K : KeptEvaluation P) (i : Fin 8) {s : State} (q : s.lock.quality = .full) (h : P s) :
    P (Machine.issueStop i s) := by
  have unloading : P (setUnitState i .unloading .stop (queueUnitOrder (.stop i) i s)) :=
    K.setUnit _ _ _ _ (K.unitOrder _ _ (.inl q) h)
  unfold Machine.issueStop
  split
  · simp only []
    refine K.unitSettled ?_
    split
    · exact unloading
    · exact K.endRelease _ _ _ _ (K.dropClaims _ unloading)
  · exact h

end KeptEvaluation

end Sys2Proof.Machine
end

