-- ==== Sys2Proof/Proofs/KeptEvaluationWhole.lean ====
section
/-! What an evaluation keeps, block by block and whole (log 6), and the frames that follow. -/

namespace Sys2Proof.Machine

variable {P : State → Prop}

namespace KeptEvaluation

/-- What holds of the lock, the tables and the clock holds of them after every write of an evaluation. -/
theorem ofStanding (Q : Lock → Tables → Time → Prop) : KeptEvaluation fun t => Q t.lock t.cfg t.clock where
  notify := fun _ _ _ _ _ _ _ h => by simpa using h
  offer := fun _ _ _ _ _ h => h
  book := fun _ _ _ h => h
  orders := fun _ _ _ _ h => h
  pvs := fun _ _ _ h => h
  gens := fun _ _ _ h => h
  feeders := fun _ _ _ h => h
  setUnit := fun _ _ _ _ h => by simpa using h
  setFeeder := fun _ _ _ _ h => by simpa using h
  seq := fun _ _ h => h
  arb := fun _ _ h => h
  shed := fun _ _ h => h
  rest := fun _ _ h => h
  cur := fun _ _ h => h
  free := fun _ _ h => h

theorem lockStands (l : Lock) : KeptEvaluation fun t => t.lock = l := ofStanding fun m _ _ => m = l

/-! ## Ceilings (R93 to R108) -/

/-- The record a computing evaluation gives a group holds no higher ceiling outside Full (R40, R104). -/
theorem computedGroup_falls {s : State} (q : s.lock.quality ≠ .full) (shares : List Member) (g : Fin 8) (p : PvGroup) :
    ceilingFalls p.issued (computedGroup s shares g p).issued := by
  intro w hw
  obtain ⟨v, hv, rfl⟩ := Option.map_eq_some_iff.mp hw
  exact .inr ⟨v, hv, issueCeiling_le q _ _ _ _⟩

theorem issueOrder (K : KeptEvaluation P) (changed : Bool) {s : State} (h : P s) : P (Machine.issueOrder changed s) := by
  unfold Machine.issueOrder
  split
  · exact K.cur _ _ (kept_foldl (fun _ _ h => K.pvItems _ _ rfl h) _ (K.ceilingOrder _ h))
  · exact h

theorem curtailmentEvaluates (K : KeptEvaluation P) (A : Nat) {s : State} (h : P s) : P (Machine.curtailmentEvaluates A s) := by
  unfold Machine.curtailmentEvaluates
  split
  · exact h
  · split
    · refine K.offer _ _ _ _ rfl (K.issueOrder _ (K.cur _ _ ?_))
      apply kept_foldl_with (Q := fun t => t.lock = s.lock)
      · exact fun _ _ e => e
      · exact fun t g e h => K.pv _ _ (fun q => computedGroup_falls (e ▸ q) _ _ _) h
      · rfl
      · exact h
    · exact K.cur _ _ h

/-- The ceilings taken at entry to Clearing are 0 (R103). -/
theorem capAll (K : KeptEvaluation P) {s : State} (h : P s) : P (Machine.capAll s) := by
  have capped : P ((coordGroups s).foldl (fun s g => modPv g clearingCap s) s) :=
    kept_foldl (fun _ _ h => K.pv _ _ (fun _ w e => .inl (Option.some.inj e).symm) h) _ h
  unfold Machine.capAll
  simp only []
  split
  · exact K.ceilingOrder _ capped
  · exact K.cur _ _ capped

/-! ## Clearing, collapse and the plan (R151, R158, R164) -/

theorem enterClearing (K : KeptEvaluation P) (why : Cause) (keep : Bool) {s : State} (h : P s) :
    P (Machine.enterClearing why keep s) := by
  have left : P (withdrawReasons (Machine.withdrawClaims (fun _ => true) .clearing
      (Machine.enterPhase .clearing why { s with seq := clearingItems keep s.seq }))) :=
    K.toServe.withdrawReasons (K.withdrawClaims _ _ (K.enterPhase _ _ (K.seq _ _ h)))
  exact K.judgeCleared (K.clearingListing (K.shed _ _ (K.shed _ _ (K.capAll (K.bookItems _ rfl left)))))

theorem collapse (K : KeptEvaluation P) {s : State} (h : P s) : P (Machine.collapse s) := by
  have dropped : P (Machine.dropOnlineUnits .collapse { s with seq := { s.seq with collapses := s.seq.collapses + 1 } }) :=
    K.dropOnlineUnits _ (K.seq _ _ h)
  unfold Machine.collapse
  simp only []
  split
  · exact K.enterClearing _ _ dropped
  · exact K.enterFailed _ dropped

theorem attemptClose (K : KeptEvaluation P) (k : Fin 24) {s : State} (h : P s) : P (Machine.attemptClose k s) := by
  unfold Machine.attemptClose
  simp only []
  split
  · have asked := K.ask (closeAsk s .blackStart k (pickupNeed s k)) none h
    split
    · next e =>
      rw [e] at asked
      exact K.take _ _ (K.rest _ _ (K.seq _ _ asked))
    · exact h
  · exact h

theorem stepAtEvaluation (K : KeptEvaluation P) {s : State} (h : P s) : P (Machine.stepAtEvaluation s) := by
  unfold Machine.stepAtEvaluation
  split
  · split
    · exact h
    · exact K.attemptClose _ h
  · split
    · exact K.attemptClose _ h
    · exact h
  · exact K.seq _ _ h
  · exact h

theorem planAtEvaluation (K : KeptEvaluation P) {s : State} (h : P s) : P (Machine.planAtEvaluation s) := by
  unfold Machine.planAtEvaluation
  simp only []
  split
  · exact K.finishStep _ (fun _ h => K.stepAtEvaluation h) (K.stepAtEvaluation h)
  · exact K.stepAtEvaluation h

theorem enterRebuilding (K : KeptEvaluation P) {s : State} (h : P s) : P (Machine.enterRebuilding s) := by
  have entered : P (Machine.enterPhase .rebuilding .energised
      (Machine.withdrawReason .blackStart { s with seq := { s.seq with window := none, pointer := some 1 } })) :=
    K.enterPhase _ _ (K.toServe.withdrawReason _ (K.seq _ _ h))
  unfold Machine.enterRebuilding
  simp only []
  split
  · exact K.planEnd entered
  · exact K.runStep 33 .evaluation (fun _ h => K.stepAtEvaluation h) entered

theorem deadTestIdle (K : KeptEvaluation P) {s : State} (h : P s) : P (Machine.deadTestIdle s) := by
  have run : P (runDeadSpell s) := K.seq _ _ h
  unfold Machine.deadTestIdle
  split
  · exact K.seq _ _ h
  · split
    · exact h
    · split
      · exact K.seq _ _ h
      · simp only []
        split
        · exact K.enterClearing _ _ run
        · exact run

theorem deadTestRebuilding (K : KeptEvaluation P) {s : State} (h : P s) : P (Machine.deadTestRebuilding s) := by
  have run : P (runDeadSpell s) := K.seq _ _ h
  unfold Machine.deadTestRebuilding
  split
  · exact K.seq _ _ h
  · simp only []
    split
    · exact K.collapse run
    · exact run

theorem sequencerEvaluates (K : KeptEvaluation P) {s : State} (h : P s) : P (Machine.sequencerEvaluates s) := by
  unfold Machine.sequencerEvaluates
  split
  · exact K.deadTestIdle h
  · unfold energisedTest
    split
    · exact K.enterRebuilding h
    · exact h
  · simp only []
    split
    · exact K.planAtEvaluation (K.deadTestRebuilding h)
    · exact K.deadTestRebuilding h
  · exact h
  · exact h

/-! ## Restoration (R133 to R138) -/

theorem restoreOpens (K : KeptEvaluation P) {s : State} (h : P s) : P (Machine.restoreOpens s) := by
  have leaked : P (restoreLeak s) := K.rest _ _ h
  unfold Machine.restoreOpens restoreBelow
  split
  · split
    · exact K.rest _ _ leaked
    · exact leaked
  · exact h

theorem restorationEvaluates (K : KeptEvaluation P) (wasIdle : Bool) {s : State} (h : P s) :
    P (Machine.restorationEvaluates wasIdle s) := by
  have next : ∀ n {s : State}, P s → P (setNext n s) := fun _ _ h => K.rest _ _ h
  unfold Machine.restorationEvaluates restoreFeeder
  split
  · split
    · next k hk =>
      have asked := K.ask (closeAsk s .restoration k (pickupNeed s k)) none h
      simp only []
      split
      · exact next _ h
      · split
        · exact next _ h
        · split
          · next e =>
            rw [e] at asked
            exact K.offer _ _ _ _ rfl (next _ (K.take _ _ (K.rest _ _ asked)))
          · exact next _ h
    · exact next _ h
  · exact next _ h

/-! ## The Reserve Book (R12, R20 to R25) -/

/-- A claim is marked Granted by a caller that holds the quality Full (R12, R39, R81). -/
theorem grantPendingClaim (K : KeptEvaluation P) (c : Claim) {s : State} (q : s.lock.quality = .full) (h : P s) :
    P (Machine.grantPendingClaim s c) := by
  have told : P (Machine.offer .claimGranted c.index 0 (notifyClaim c .granted .none (markGranted c s))) :=
    K.offer _ _ _ _ rfl (K.notify _ _ _ _ _ _ _ (K.book _ _ (fun n => absurd q n) h))
  unfold Machine.grantPendingClaim
  simp only []
  split
  · exact K.unitSettled (K.handOver _ _ _ told)
  · exact told

theorem grantPending (K : KeptEvaluation P) {s : State} (h : P s) : P (Machine.grantPending s) := by
  unfold Machine.grantPending
  split
  · next e =>
    simp only [Bool.and_eq_true, decide_eq_true_eq] at e
    refine kept_foldl_with (Q := fun t => t.lock = s.lock ∧ t.lock.quality = .full)
      (fun t c q => ?_) (fun _ c q ht => K.grantPendingClaim c q.2 ht) _ ⟨rfl, e.1⟩ h
    have stands := (lockStands s.lock).grantPendingClaim c q.2 q.1
    exact ⟨stands, stands ▸ e.1⟩
  · exact h

theorem surplusDecision (K : KeptEvaluation P) {s : State} (h : P s) : P (Machine.surplusDecision s) := by
  have dwell : ∀ t, P (setSurplusDwell t s) := fun _ => K.bookItems _ rfl h
  unfold Machine.surplusDecision
  split
  · exact dwell _
  · split
    · next ht =>
      have full : s.lock.quality = .full := by
        simp only [stopTest, Bool.and_eq_true, decide_eq_true_eq] at ht
        exact ht.1.1.1.1.1.1.1
      simp only []
      split
      · exact K.issueStop _ full (dwell none)
      · exact dwell _
    · exact dwell _

theorem shortfallShedding (K : KeptEvaluation P) (asked : Bool) (M : Int) {s : State} (h : P s) :
    P (Machine.shortfallShedding asked M s) := by
  unfold Machine.shortfallShedding askShortfallShed
  split
  · split
    · exact h
    · exact K.shedAct _ _ h
  · exact K.markUncovered _ _ h

theorem overloadShedding (K : KeptEvaluation P) (excess : Int) {s : State} (h : P s) : P (Machine.overloadShedding excess s) := by
  unfold Machine.overloadShedding askOverloadShed
  split
  · split
    · exact h
    · exact K.shedAct _ _ h
  · exact K.markUncovered _ _ h

theorem sheddingDecision (K : KeptEvaluation P) (t : Terms) {s : State} (h : P s) : P (Machine.sheddingDecision t s) := by
  unfold Machine.sheddingDecision
  simp only []
  split
  · split
    · exact K.shortfallShedding _ _ (K.overloadShedding _ (K.free _ _ h))
    · exact K.overloadShedding _ (K.shortfallShedding _ _ (K.free _ _ h))
  · exact K.overloadShedding _ (K.shortfallShedding _ _ h)

theorem guardDecision (K : KeptEvaluation P) (D : Int) {s : State} (h : P s) : P (Machine.guardDecision D s) := by
  have run : ∀ t, P (setGuard t s) := fun _ => K.bookItems _ rfl h
  unfold Machine.guardDecision
  split
  · simp only []
    split
    · unfold guardAct
      split
      · exact K.openFeeders _ _ _ _ (run _)
      · exact K.notify _ _ _ _ _ _ _ (run _)
    · exact run _
  · exact run _

/-- An evaluation keeps what the writes apart from the lock keep. -/
theorem evaluate (K : KeptEvaluation P) {s : State} (h : P s) : P (Machine.evaluate s) := by
  have S := K.toServe
  have decided : P (bookDecides (Machine.recompute s).book.terms (Machine.recompute s)) :=
    K.guardDecision _ (K.sheddingDecision _ (K.surplusDecision (K.grantPending (S.tripDecision _
      (S.overloadDecision _ (S.shortfallDecision _ (K.recompute h)))))))
  exact K.restorationEvaluates _ (K.sequencerEvaluates (K.restoreOpens (K.stagesEvaluate
    (K.curtailmentEvaluates _ decided))))

end KeptEvaluation

end Sys2Proof.Machine
end

