-- ==== Sys2Proof/Proofs/KeptCommand.lean ====
section
/-! What every command keeps apart from the Sample Lock, power and RESTART: the acts of the requests, the line events and the
reply (03 to 12). -/

namespace Sys2Proof

/-- A command of the Sample Lock: it may end with a settling of the quality (R38). -/
def Instr.judges : Instr → Bool
  | .sample _ _ _ | .sampleGapTimerExpiry | .heldSampleAgeStep | .resyncSamples _ | .frameError _ _ => true
  | _ => false

/-- A command that sets every record afresh (R188, R191). -/
def Instr.renews : Instr → Bool
  | .powerOn | .resetInput | .restart _ => true
  | _ => false

/-- A FETCH NOTICE request (R174). -/
def Instr.fetches : Instr → Bool
  | .fetchNotice _ _ => true
  | _ => false

end Sys2Proof

namespace Sys2Proof.Machine

variable {P : State → Prop}

/-- From the tables `t` to the tables `u` no lockout flag is set. -/
def locksNone (t u : Tables) : Prop := ∀ i : Fin 8, u.gensets[i].lockout = true → t.gensets[i].lockout = true

/-- The writes of a command apart from those of the lock: those of the evaluation; the failure of a unit, one write with the
notice of its lockout (R47); the tables, the events and the records of units and PV groups; entry, the lines and the reply. -/
structure KeptCommand (P : State → Prop) : Prop extends KeptEvaluation P where
  fail : ∀ i why s, P s → P (failUnit i why s)
  tables : ∀ f (s : State), locksNone s.cfg (f s.cfg) → P s → P (writeThrough f s)
  event : ∀ kind index amount s, P s → P (Machine.offer kind index amount s)
  units : ∀ (x : Vector Genset 8) (s : State), (∀ i : Fin 8, x[i].state = s.gens[i].state) → P s → P { s with gens := x }
  groups : ∀ (x : Vector PvGroup 8) (s : State), P s → P { s with pvs := x }
  entry : ∀ (e : Entry) (s : State), P s → P { s with entry := e }
  link : ∀ l f (s : State), linkStands (s.links.get l) (f (s.links.get l)) → P s → P (modLink l f s)
  sampleFramer : ∀ (f : Framer) (s : State), P s → P { s with sampleFramer := f }
  snapshot : ∀ zero (s : State), P s → P { s with tally := s.tally.snapshot zero s.clock }
  reply : ∀ l r s, P s → P (placeReply l r s)
  sent : ∀ l s, P s → P (frameSent l s)
  pump : ∀ s, P s → P (finish s)

/-- A genset record written without a flag that was not set sets no lockout flag. -/
theorem locksNone.genset {t : Tables} {i : Fin 8} {g : GensetCfg} (h : g.lockout = true → t.gensets[i].lockout = true) :
    locksNone t { t with gensets := t.gensets.set i g } := by
  intro j e
  by_cases x : i = j
  · subst x; exact h (by simpa using e)
  · simpa [Vector.getElem_set_ne, Fin.val_ne_iff.mpr x] using e

namespace KeptCommand

/-! ## The writes of the Shed Table and the plan -/

theorem unit (K : KeptCommand P) (i : Fin 8) (f : Genset → Genset) {s : State} (e : (f s.gens[i]).state = s.gens[i].state)
    (h : P s) : P (modGen i f s) := by
  refine K.units _ _ (fun j => ?_) h
  by_cases x : i = j
  · subst x; simpa using e
  · simp [Fin.val_ne_iff.mpr x]

/-- The writes of the plan and the Shed Table are among them. -/
theorem toFeeders (K : KeptCommand P) : KeptFeeders P where
  notify := K.notify
  offer := K.event
  book := fun _ _ e _ _ h => K.bookItems _ e h
  seq := K.seq
  recompute := fun _ h => K.recompute h
  drop := fun _ _ h => K.dropClaims _ h
  putReason := fun _ _ _ h => K.arb _ _ h
  gen := fun _ _ _ e _ _ h => K.unit _ _ e h
  begin := fun _ _ _ _ _ _ _ h => K.begin _ _ _ _ h
  cap := fun _ _ _ h => K.pvItems _ _ rfl h
  openOrder := fun _ _ _ h => K.feederOrder _ _ (.inr rfl) h
  setFeeder := fun _ _ _ _ _ h => K.setFeeder _ _ _ _ h
  feeder := fun _ _ _ e _ h => K.feeder _ _ e h
  shed := K.shed
  rest := fun _ _ _ h => K.rest _ _ h
  apply := fun _ _ h => K.applyClaims _ h

theorem planAtUnitOnline (K : KeptCommand P) {s : State} (h : P s) : P (Machine.planAtUnitOnline s) :=
  K.toFeeders.planAtUnitOnline h

/-! ## The events of the gensets (R47 to R61) -/

theorem startFailure (K : KeptCommand P) (i : Fin 8) (byWindow : Bool) (why : Cause) {s : State} (h : P s) :
    P (Machine.startFailure i byWindow why s) := by
  have freed : P (freeSlot i s) := K.arb _ _ h
  have failed : P (Machine.offer .startFailed (some (i.val + 1)) 0
      (if byWindow && !linkActive s .G then setUnitState i (stoppedState (freeSlot i s) i) why (freeSlot i s)
        else failUnit i why (freeSlot i s))) := by
    refine K.event _ _ _ _ ?_
    split
    · exact K.setUnit _ _ _ _ freed
    · exact K.fail _ _ _ freed
  unfold Machine.startFailure
  simp only []
  split
  · exact K.unitSettled failed
  · refine K.unitSettled ?_
    split
    · exact K.toFeeders.attemptFailed (K.toServe.returnReason _ failed)
    · exact K.toServe.returnReason _ failed

theorem reachOnline (K : KeptCommand P) (i : Fin 8) (why : Cause) {s : State} (h : P s) : P (Machine.reachOnline i why s) := by
  have online : P (setUnitState i .online why (freeSlot i s)) := K.setUnit _ _ _ _ (K.arb _ _ h)
  unfold Machine.reachOnline
  simp only []
  split
  · exact K.unitSettled (K.planAtUnitOnline online)
  · refine K.unitSettled (K.planAtUnitOnline ?_)
    split
    · exact K.toFeeders.planAtRetired _ (K.toServe.reasonMet _ _ online)
    · exact K.toServe.reasonMet _ _ online

theorem tail (K : KeptCommand P) (i : Fin 8) {s : State} (h : P s) : P (moveToTail i s) := K.tables _ _ (fun _ e => e) h

theorem completeStop (K : KeptCommand P) (i : Fin 8) (why : Cause) {s : State} (h : P s) : P (Machine.completeStop i why s) := by
  have cooling : P (setUnitState i .cooldown why (moveToTail i s)) := K.setUnit _ _ _ _ (K.tail _ h)
  refine K.unitSettled ?_
  split
  · exact K.setUnit _ _ _ _ cooling
  · exact cooling

theorem trip (K : KeptCommand P) (i : Fin 8) (why : Cause) {s : State} (h : P s) : P (Machine.trip i why s) := by
  have lost := K.event .trip (some (i.val + 1)) s.gens[i].lastOutput _ (K.fail i why _ h)
  unfold Machine.trip
  simp only []
  generalize Machine.offer EventKind.trip (some (i.val + 1)) s.gens[i].lastOutput (failUnit i why s) = s1 at lost ⊢
  have judged : P (attemptFailed (if (decide (0 < s.gens[i].lastOutput) && s1.seq.phase.raisesTrip) = true then
      raiseReason .trip (tripNeed s1 s.gens[i].lastOutput) none s1 else s1)) := by
    refine K.toFeeders.attemptFailed ?_
    split
    · exact K.toServe.raiseReason _ _ _ lost
    · exact lost
  refine K.unitSettled ?_
  split
  · exact judged
  · exact K.handOver _ _ _ judged

/-- A change of state that the plan may have waited for (R160). -/
theorem entersState (K : KeptCommand P) (i : Fin 8) (st : UnitState) (why : Cause) {s : State} (h : P s) :
    P (Machine.unitSettled (Machine.planAtUnitOnline (setUnitState i st why s))) :=
  K.unitSettled (K.planAtUnitOnline (K.setUnit _ _ _ _ h))

theorem takeUnitAct (K : KeptCommand P) (i : Fin 8) (a : UnitAct) (ev why : Cause) {s : State} (h : P s) :
    P (Machine.takeUnitAct i a ev why s) := by
  cases a with
  | agrees => exact h
  | discrepancy => exact K.discrepancy _ _ _ h
  | adoption => exact K.entersState _ _ _ (K.notify _ _ _ _ _ _ _ h)
  | toSynchronising => exact K.unitSettled (K.setUnit _ _ _ _ h)
  | startFailure => exact K.startFailure _ _ _ h
  | toOnline => exact K.reachOnline _ _ h
  | trip => exact K.trip _ _ h
  | toCooldown => exact K.completeStop _ _ h
  | faultStop => exact K.unitSettled (K.fail _ _ _ h)
  | endOfCooldown => exact K.unitSettled (K.setUnit _ _ _ _ h)

theorem trackUnit (K : KeptCommand P) (i : Fin 8) (online : Bool) (why : Cause) {s : State} (h : P s) :
    P (Machine.trackUnit i online why s) := by
  unfold Machine.trackUnit
  simp only []
  generalize (if online = true then UnitState.online else .stopped) = st
  split
  · exact h
  · exact K.unitSettled (K.setUnit _ _ _ _ h)

theorem localReport (K : KeptCommand P) (i : Fin 8) (e : UnitEvent) {s : State} (h : P s) : P (Machine.localReport i e s) := by
  cases e with
  | breakerClosed | breakerOpen | tripped => exact K.trackUnit _ _ _ h
  | running | startFailed => exact h

theorem takeUnitReport (K : KeptCommand P) (i : Fin 8) (e : UnitEvent) {s : State} (h : P s) :
    P (Machine.takeUnitReport i e s) := by
  have seen : P (modGen i (lastStates e) s) := K.unit _ _ (KeptUnits.lastStates_state _ _) h
  unfold Machine.takeUnitReport
  simp only []
  split
  · exact seen
  · split
    · exact K.localReport _ _ seen
    · exact K.takeUnitAct _ _ _ _ seen

theorem takeUnitStatus (K : KeptCommand P) (i : Fin 8) (e : UnitStanding) {s : State} (h : P s) :
    P (Machine.takeUnitStatus i e s) := by
  have seen : P (modGen i (fun g => { g with engineRunning := e.running, breakerClosed := e.closed }) s) := K.unit _ _ rfl h
  unfold Machine.takeUnitStatus
  simp only []
  split
  · exact K.entersState _ _ _ (K.recompute (K.unit _ _ rfl seen))
  · have acted : P (match s.gens[i].authority with
        | .byPlant => Machine.trackUnit i e.closed .status
            (modGen i (fun g => { g with engineRunning := e.running, breakerClosed := e.closed }) s)
        | .coordinated => Machine.takeUnitAct i (statusAct s.gens[i].state e.running e.closed).1
            (statusAct s.gens[i].state e.running e.closed).2 .status
            (modGen i (fun g => { g with engineRunning := e.running, breakerClosed := e.closed }) s)) := by
      split
      · exact K.trackUnit _ _ _ seen
      · exact K.takeUnitAct _ _ _ _ seen
    split
    · exact K.discrepancy _ _ _ acted
    · exact acted

theorem crankWindowEnds (K : KeptCommand P) (i : Fin 8) {s : State} (h : P s) : P (Machine.crankWindowEnds i s) := by
  unfold Machine.crankWindowEnds
  split
  · exact K.startFailure _ _ _ h
  · exact h

theorem syncWindowEnds (K : KeptCommand P) (i : Fin 8) {s : State} (h : P s) : P (Machine.syncWindowEnds i s) := by
  unfold Machine.syncWindowEnds
  split
  · exact K.startFailure _ _ _ h
  · exact h

theorem unloadWindowEnds (K : KeptCommand P) (i : Fin 8) {s : State} (h : P s) : P (Machine.unloadWindowEnds i s) := by
  unfold Machine.unloadWindowEnds
  split
  · exact K.unitSettled (K.planAtUnitOnline (K.notify _ _ _ _ _ _ _ (K.setUnit _ _ _ _ h)))
  · exact h

theorem cooldownHoldEnds (K : KeptCommand P) (i : Fin 8) {s : State} (h : P s) : P (Machine.cooldownHoldEnds i s) := by
  unfold Machine.cooldownHoldEnds
  split
  · exact K.unitSettled (K.setUnit _ _ _ _ h)
  · exact h

theorem minRunEnds (K : KeptCommand P) (i : Fin 8) {s : State} (h : P s) : P (Machine.minRunEnds i s) := by
  unfold Machine.minRunEnds
  split
  · split
    · exact K.unit _ _ rfl h
    · exact h
  · exact h
  · exact h

theorem recallWindowEnds (K : KeptCommand P) (i : Fin 8) {s : State} (h : P s) : P (Machine.recallWindowEnds i s) := by
  unfold Machine.recallWindowEnds
  split
  · exact K.notify _ _ _ _ _ _ _ (K.unit _ _ rfl h)
  · exact h

theorem returnLocal (K : KeptCommand P) (i : Fin 8) {s : State} (h : P s) : P (Machine.returnLocal i s) :=
  K.unitSettled (K.planAtUnitOnline (K.recompute (K.unit _ _ rfl
    (K.setUnit _ _ _ _ (K.notify _ _ _ _ _ _ _ (K.unit _ _ rfl h))))))

/-! ## Entry (R189) -/

theorem judgeEntry (K : KeptCommand P) {s : State} (h : P s) : P (judgeEntry s) := by
  unfold Machine.judgeEntry
  split
  · exact K.toServe.serve (K.seq { s.seq with armed := true }
      { s with entry := { s.entry with complete := true, window := none } } (K.entry _ _ h))
  · exact h

theorem judgeResolution (K : KeptCommand P) {s : State} (h : P s) : P (judgeResolution s) := by
  unfold Machine.judgeResolution
  split
  · exact K.judgeEntry (K.entry _ _ h)
  · exact h

theorem entryWindowEnds (K : KeptCommand P) {s : State} (h : P s) : P (entryWindowEnds s) := by
  have unit : ∀ (t : State) (i : Fin 8), P t → P (fallbackUnit t i) := by
    intro t i ht
    unfold fallbackUnit
    split
    · exact K.setUnit _ _ _ _ (K.unit _ _ rfl ht)
    · exact ht
  have feeder : ∀ (t : State) (k : Fin 24), P t → P (fallbackFeeder t k) := by
    intro t k ht
    unfold fallbackFeeder
    split
    · exact K.setFeeder _ _ _ _ ht
    · exact ht
  unfold Machine.entryWindowEnds
  split
  · simp only []
    split
    · exact K.entry _ _ h
    · exact K.judgeEntry (K.entry _ _ (kept_foldl feeder _ (kept_foldl unit _ (K.entry _ _ h))))
  · exact h

/-! ## Line events (R168, R171, R175) -/

theorem goodFrame (K : KeptCommand P) (l : Link) {s : State} (h : P s) : P (goodFrame l s) := by
  have heard : P (restartSilence l s) := K.link _ _ _ ⟨rfl, rfl, rfl, rfl, rfl⟩ h
  unfold Machine.goodFrame
  simp only []
  split
  · exact heard
  · have back := K.notify [.S] .linkReturned (linkIndex l) .none (.code .none) 0 _
      (K.link l (fun c => { c with active := true }) _ ⟨rfl, rfl, rfl, rfl, rfl⟩ heard)
    unfold returnLink tellActive
    cases l
    · exact back
    · exact K.toServe.serve back
    · exact K.recompute back
    · exact K.toFeeders.relistAtReturn back

theorem silenceEnds (K : KeptCommand P) (l : Link) {s : State} (h : P s) : P (silenceEnds l s) := by
  unfold Machine.silenceEnds
  split
  · have silent := K.notify [.S] .linkSilent (linkIndex l) .none (.code .none) 0 _
      (K.link l (fun c => { c with active := false }) _ ⟨rfl, rfl, rfl, rfl, rfl⟩ h)
    cases l
    case P => exact K.recompute (K.cur _ _ silent)
    all_goals exact silent
  · exact h

theorem interByteEnds (K : KeptCommand P) (line : Line) {s : State} (h : P s) : P (interByteEnds line s) := by
  unfold Machine.interByteEnds
  split
  · refine K.event _ _ _ _ ?_
    cases line with
    | station l => exact K.link l (fun c => { c with framer := .hunting }) _ ⟨rfl, rfl, rfl, rfl, rfl⟩ h
    | sample => exact K.sampleFramer _ _ h
  · exact h

theorem replyOverruns (K : KeptCommand P) (l : Link) {s : State} (h : P s) : P (replyOverruns l s) := by
  unfold Machine.replyOverruns
  split
  · exact K.event _ _ _ _ (K.goodFrame _ h)
  · exact h

theorem energisingWindowEnds (K : KeptCommand P) {s : State} (h : P s) : P (energisingWindowEnds s) := by
  unfold Machine.energisingWindowEnds
  split
  · exact K.toFeeders.enterFailed _ h
  · exact h

/-- A request keeps what its act keeps (R168 to R170). -/
theorem request (K : KeptCommand P) (l : Link) (kind tag : Byte) {act : State → State × Answer}
    (ha : ∀ s, P s → P (act s).1) {s : State} (h : P s) : P (request l kind tag act s) := by
  have heard := K.goodFrame l h
  unfold Machine.request
  simp only []
  split
  · exact K.event _ _ _ _ heard
  · exact K.reply _ _ _ (ha _ heard)

/-! ## Acts of link S -/

theorem onUnit (unit : Byte) {act : Fin 8 → State → State × Answer} (ha : ∀ i s, P s → P (act i s).1) (s : State)
    (h : P s) : P (onUnit unit act s).1 := by
  unfold Machine.onUnit
  split
  · exact ha _ _ h
  · exact h

/-- A write of the tables that leaves the genset records (R183). -/
theorem otherTables (K : KeptCommand P) (f : Tables → Tables) {s : State} (e : (f s.cfg).gensets = s.cfg.gensets) (h : P s) :
    P (writeThrough f s) := K.tables f s (fun i x => by rwa [e] at x) h

theorem gensetRecord (K : KeptCommand P) (i : Fin 8) (f : GensetCfg → GensetCfg) {s : State}
    (e : (f s.cfg.gensets[i]).lockout = true → s.cfg.gensets[i].lockout = true) (h : P s) : P (modGensetCfg i f s) :=
  K.tables (fun t => { t with gensets := t.gensets.set i (f t.gensets[i]) }) s (.genset e) h

theorem setGroup (K : KeptCommand P) (n : Nat) (r : List Byte) {s : State} (h : P s) : P (setGroup n r s).1 := by
  have written : ∀ f, P (setSettings f s) := fun f => K.otherTables _ rfl h
  unfold Machine.setGroup
  split <;> dsimp only
  · exact written _
  · exact written _
  · split
    · exact h
    · dsimp only
      unfold clampRamp
      split
      · exact K.cur _ _ (written _)
      · exact written _
  · split
    · dsimp only
      exact written _
    · exact h
  · exact K.rest _ _ (written _)
  · split
    · dsimp only
      exact written _
    · exact h

theorem setGenset (K : KeptCommand P) (i : Fin 8) (r : List Byte) {s : State} (h : P s) : P (setGenset i r s).1 := by
  unfold Machine.setGenset
  split
  · exact h
  · have written : P (modGensetCfg i (fun _ => (readGensetCfg r s.cfg.gensets[i]).val) s) := K.gensetRecord _ _ id h
    have moved : P (if (readGensetCfg r s.cfg.gensets[i]).val.present then
        modGensetCfg i (fun _ => (readGensetCfg r s.cfg.gensets[i]).val) s
        else setUnitState i .unknown .set (modGensetCfg i (fun _ => (readGensetCfg r s.cfg.gensets[i]).val) s)) := by
      split
      · exact written
      · exact K.setUnit _ _ _ _ written
    simp only []
    split
    · exact moved
    · exact K.judgeResolution (K.unitSettled moved)

theorem setPv (K : KeptCommand P) (g : Fin 8) (r : List Byte) {s : State} (h : P s) : P (setPv g r s).1 := by
  have written : P (writeThrough (fun t => { t with pvs := t.pvs.set g (readPvCfg r).val }) s) := K.otherTables _ rfl h
  unfold Machine.setPv
  dsimp only
  generalize writeThrough _ s = s1 at written ⊢
  have clamped : P (if (readPvCfg r).val.rating < s.cfg.pvs[g].rating then modPv g (clampToRating (readPvCfg r).val.rating) s1
      else s1) := by
    split
    · exact K.groups _ _ written
    · exact written
  generalize (if (readPvCfg r).val.rating < s.cfg.pvs[g].rating then _ else s1) = s2 at clamped ⊢
  split
  · exact clamped
  · exact K.cur _ _ clamped

theorem feederRecord (K : KeptCommand P) (k : Fin 24) (r : List Byte) {s : State} (h : P s) : P (setFeeder k r s).1 := by
  have written : ∀ c : FeederCfg, P (modFeederCfg k (fun _ => c) s) := fun c => K.otherTables _ rfl h
  unfold Machine.setFeeder
  split
  · exact h
  · split
    · exact h
    · split
      · exact h
      · next c _ _ =>
        have moved : P (if s.cfg.feeders[k].present && !c.val.present then dropFeeder k (modFeederCfg k (fun _ => c.val) s)
            else modFeederCfg k (fun _ => c.val) s) := by
          split
          · exact K.toFeeders.dropFeeder _ (written _)
          · exact written _
        simp only []
        split
        · exact moved
        · exact K.judgeResolution moved

theorem setPlan (K : KeptCommand P) (n : Nat) (r : List Byte) {s : State} (h : P s) : P (setPlan n r s).1 := by
  unfold Machine.setPlan
  split
  · exact h
  · split
    · split
      · exact h
      · dsimp only
        exact K.otherTables _ rfl h
    · dsimp only
      exact K.otherTables _ rfl h

theorem setTally (K : KeptCommand P) (i : Fin 16) (r : List Byte) {s : State} (h : P s) : P (setTally i r s).1 := by
  unfold Machine.setTally
  split
  · exact h
  · dsimp only
    exact K.otherTables _ rfl h

/-- The write of a SET, by the table it names (R179). -/
theorem setTarget (K : KeptCommand P) {selector index : Byte} {t : SetTarget} (e : setTarget selector index = some t)
    (r : List Byte) {s : State} (h : P s) : P (t.write r s).1 := by
  unfold Machine.setTarget at e
  simp only [] at e
  split at e
  · obtain ⟨-, e⟩ := Option.ite_none_right_eq_some.mp e
    cases e
    exact K.setGroup _ _ h
  · obtain ⟨i, -, rfl⟩ := Option.map_eq_some_iff.mp e
    exact K.setGenset _ _ h
  · obtain ⟨g, -, rfl⟩ := Option.map_eq_some_iff.mp e
    exact K.setPv _ _ h
  · obtain ⟨k, -, rfl⟩ := Option.map_eq_some_iff.mp e
    exact K.feederRecord _ _ h
  · obtain ⟨-, e⟩ := Option.ite_none_right_eq_some.mp e
    cases e
    exact K.setPlan _ _ h
  · split at e
    · cases e
      exact K.setTally _ _ h
    · cases e
  · cases e

theorem setAct (K : KeptCommand P) (p : List Byte) {s : State} (h : P s) : P (setAct p s).1 := by
  unfold Machine.setAct
  split
  · exact h
  · exact h
  · split
    · exact h
    · next e =>
      split
      · exact K.setTarget e _ h
      · exact h

theorem setRingAct (K : KeptCommand P) (indices : List Byte) {s : State} (h : P s) : P (setRingAct indices s).1 := by
  unfold Machine.setRingAct
  split
  · exact h
  · split
    · dsimp only
      exact K.otherTables _ rfl h
    · exact h

theorem startUnitAct (K : KeptCommand P) (i : Fin 8) {s : State} (h : P s) : P (startUnitAct i s).1 := by
  unfold Machine.startUnitAct
  split
  · exact h
  · split
    · exact h
    · exact K.toServe.raiseAndServe _ _ _ h

theorem stopUnitAct (K : KeptCommand P) (i : Fin 8) {s : State} (h : P s) : P (stopUnitAct i s).1 := by
  unfold Machine.stopUnitAct
  split
  · exact h
  · next q =>
    split
    · exact h
    · split
      · exact h
      · exact K.issueStop i (Decidable.not_not.mp q) h

theorem clearLockoutAct (K : KeptCommand P) (i : Fin 8) {s : State} (h : P s) : P (clearLockoutAct i s).1 := by
  have cleared : P (modGensetCfg i GensetCfg.cleared s) := K.gensetRecord _ _ nofun h
  unfold Machine.clearLockoutAct
  split
  · exact h
  · simp only []
    split
    · exact K.unitSettled (K.setUnit _ _ _ _ cleared)
    · exact cleared

theorem recallUnitAct (K : KeptCommand P) (i : Fin 8) {s : State} (h : P s) : P (recallUnitAct i s).1 := by
  unfold Machine.recallUnitAct
  split
  · exact h
  · split
    · exact h
    · exact K.unit i (fun g => { g with recallWindow := some (after s.clock Config.recallWindowMs) }) rfl
        (K.unitOrder (.recall i) i (.inr rfl) h)

theorem claimReserveAct (K : KeptCommand P) (amount wait lifetime : Nat) {s : State} (h : P s) :
    P (claimReserveAct amount wait lifetime s).1 := by
  unfold Machine.claimReserveAct
  simp only []
  split
  · exact K.ask _ _ h
  · exact h

theorem cancelFrom (K : KeptCommand P) (l : Link) (id : Byte) {s : State} (h : P s) : P (cancelFrom l id s).1 := by
  unfold Machine.cancelFrom
  split
  · unfold cancelAct
    split
    · exact h
    · split
      · exact h
      · split
        · exact K.dropClaims _ h
        · exact h
  · exact h

theorem beginAct (K : KeptCommand P) {s : State} (h : P s) : P (beginAct s).1 := by
  unfold Machine.beginAct
  split
  · exact K.enterClearing _ _ (K.dropOnlineUnits _ h)
  · exact h

theorem retryAct (K : KeptCommand P) {s : State} (h : P s) : P (retryAct s).1 := by
  unfold Machine.retryAct
  split
  · exact K.enterClearing _ _ h
  · exact h

theorem snapshotAct (K : KeptCommand P) (option : Byte) {s : State} (h : P s) : P (snapshotAct option s).1 := by
  unfold Machine.snapshotAct
  split
  · exact h
  · exact K.snapshot _ _ h

theorem restoreHoldAct (K : KeptCommand P) (value : Byte) {s : State} (h : P s) : P (restoreHoldAct value s).1 := by
  unfold Machine.restoreHoldAct
  split
  · exact h
  · exact K.rest _ _ h

theorem adoptFeederAct (K : KeptCommand P) (feeder : Byte) {s : State} (h : P s) : P (adoptFeederAct feeder s).1 := by
  unfold Machine.adoptFeederAct
  split
  · exact h
  · split
    · exact K.toFeeders.adoptFeeder _ h
    · exact h

/-- A query changes nothing (R176). -/
theorem readAct (selector index : Byte) {s : State} (h : P s) : P (readAct selector index s).1 := by
  unfold Machine.readAct
  split <;> exact h

theorem readTallyAct (n : Byte) {s : State} (h : P s) : P (readTallyAct n s).1 := by
  unfold Machine.readTallyAct
  split
  · exact h
  · split <;> exact h

/-! ## Acts of link G -/

theorem unitReportAct (K : KeptCommand P) (unit event : Byte) {s : State} (h : P s) : P (unitReportAct unit event s).1 := by
  unfold Machine.unitReportAct
  split
  · split
    · exact K.takeUnitReport _ _ h
    · exact h
  · exact h

theorem takeUnitEntries (K : KeptCommand P) (es : List UnitEntry) (seen : List (Fin 8)) {s : State} (h : P s) :
    P (takeUnitEntries es seen s).1 := by
  induction es generalizing seen s with
  | nil => exact h
  | cons e es ih =>
    unfold Machine.takeUnitEntries
    split
    · exact ih _ h
    · split
      · exact ih _ h
      · exact ih _ (K.takeUnitStatus _ _ h)

theorem unitStatusAct (K : KeptCommand P) (es : List UnitEntry) {s : State} (h : P s) : P (unitStatusAct es s).1 := by
  unfold Machine.unitStatusAct
  split
  · exact h
  · exact K.judgeResolution (K.takeUnitEntries _ _ h)

theorem takeAvailEntries (K : KeptCommand P) (es : List AvailEntry) {s : State} (h : P s) : P (takeAvailEntries es s).1 := by
  induction es generalizing s with
  | nil => exact h
  | cons e es ih =>
    unfold Machine.takeAvailEntries
    split
    · exact ih h
    · split
      · exact ih h
      · exact ih (K.unit _ _ rfl h)

theorem availabilityAct (K : KeptCommand P) (es : List AvailEntry) {s : State} (h : P s) : P (availabilityAct es s).1 := by
  have taken := K.takeAvailEntries es h
  unfold Machine.availabilityAct
  split
  · exact h
  · simp only []
    split
    · exact taken
    · exact K.unitSettled taken

theorem releaseWaits (K : KeptCommand P) (i : Fin 8) {s : State} (h : P s) : P (releaseWaits i s).1 := by
  have asked := K.ask ⟨.releaseCover, .unit i, max 1 (releaseHeadroom s i), s.cfg.settings.book.releaseWait,
    s.cfg.settings.book.claimLifetime, true⟩ none h
  unfold Machine.releaseWaits
  simp only []
  split
  · next s1 id e =>
    rw [e] at asked
    exact K.unit i (fun g => { g with pendingRelease := some id }) (s := s1) rfl asked
  · next e =>
    rw [e] at asked
    exact K.unitSettled (K.handOver _ _ _ asked)
  · next e =>
    rw [e] at asked
    exact asked

theorem releaseUnitAct (K : KeptCommand P) (i : Fin 8) {s : State} (h : P s) : P (releaseUnitAct i s).1 := by
  have now : P (releaseNow i s).1 := K.unitSettled (K.handOver _ _ _ h)
  unfold Machine.releaseUnitAct
  simp only []
  iterate 5
    split
    · exact h
  split
  · exact now
  · split
    · exact h
    · split
      · exact now
      · exact K.releaseWaits _ h

theorem returnUnitAct (K : KeptCommand P) (i : Fin 8) {s : State} (h : P s) : P (returnUnitAct i s).1 := by
  unfold Machine.returnUnitAct
  split
  · exact h
  · split
    · exact K.returnLocal _ h
    · exact K.toFeeders.endRelease _ _ _ _ (K.dropClaims _ h)
    · exact h

/-! ## Acts of link P -/

theorem onGroup (group : Byte) {act : Fin 8 → State → State × Answer} (ha : ∀ g s, P s → P (act g s).1) (s : State)
    (h : P s) : P (onGroup group act s).1 := by
  unfold Machine.onGroup
  split
  · exact ha _ _ h
  · exact h

theorem takePvEntries (K : KeptCommand P) (es : List PvEntry) (seen : List (Fin 8)) {s : State} (h : P s) :
    P (takePvEntries es seen s).1 := by
  induction es generalizing seen s with
  | nil => exact h
  | cons e es ih =>
    unfold Machine.takePvEntries
    split
    · exact ih _ h
    · split
      · exact ih _ h
      · exact ih _ (K.groups _ _ h)

theorem pvReportAct (K : KeptCommand P) (es : List PvEntry) {s : State} (h : P s) : P (pvReportAct es s).1 := by
  unfold Machine.pvReportAct
  split
  · exact h
  · exact K.takePvEntries _ _ h

theorem releaseGroupAct (K : KeptCommand P) (g : Fin 8) {s : State} (h : P s) : P (releaseGroupAct g s).1 := by
  have removed : P (modLink .P (fun c => { c with orders := c.orders.filterMap (Order.withoutGroup g) })
      (modPv g (fun p => { p with authority := .byPlant, issued := none, cap := none }) s)) :=
    K.orders .P _ _ (fun _ => .withoutGroup g _) (K.groups _ _ h)
  unfold Machine.releaseGroupAct
  split
  · exact h
  · exact K.recompute (K.notify _ _ _ _ _ _ _ removed)

theorem returnGroupAct (K : KeptCommand P) (g : Fin 8) {s : State} (h : P s) : P (returnGroupAct g s).1 := by
  unfold Machine.returnGroupAct
  split
  · exact h
  · exact K.recompute (K.notify _ _ _ _ _ _ _ (K.cur _ _ (K.groups _ _ h)))

/-! ## Acts of link F -/

theorem breakerReportAct (K : KeptCommand P) (feeder event : Byte) {s : State} (h : P s) :
    P (breakerReportAct feeder event s).1 := by
  unfold Machine.breakerReportAct
  split
  · split
    · unfold takeBreakerReport
      simp only []
      split
      · exact K.toFeeders.reportClosed _ _ h
      · exact K.toFeeders.reportOpen _ _ h
    · exact h
  · exact h

theorem takeFeederEntries (K : KeptCommand P) (es : List FeederEntry) (seen : List (Fin 24)) {s : State} (h : P s) :
    P (takeFeederEntries es seen s).1 := by
  induction es generalizing seen s with
  | nil => exact h
  | cons e es ih =>
    unfold Machine.takeFeederEntries
    split
    · exact ih _ h
    · split
      · exact ih _ h
      · exact ih _ (K.toFeeders.takeFeederStatus _ _ _ (fun _ h => K.otherTables _ rfl h) h)

theorem feederStatusAct (K : KeptCommand P) (es : List FeederEntry) {s : State} (h : P s) : P (feederStatusAct es s).1 := by
  unfold Machine.feederStatusAct
  split
  · exact h
  · exact K.judgeResolution (K.takeFeederEntries _ _ h)

theorem claimFeederAct (K : KeptCommand P) (feeder : Byte) (wait lifetime : Nat) {s : State} (h : P s) :
    P (claimFeederAct feeder wait lifetime s).1 := by
  unfold Machine.claimFeederAct
  split
  · split
    · exact K.ask _ _ h
    · exact h
  · exact h

/-! ## The commands -/

theorem completed (K : KeptCommand P) {s t : State} (h : P s) (e : completed s = .next t) : P t := by
  cases e
  exact K.pump _ h

theorem refusedFrame (K : KeptCommand P) (l : Link) (kind tag : Byte) (p : List Byte) {s : State} (h : P s) :
    P (refusedFrame l kind tag p s) := by
  unfold Machine.refusedFrame
  split
  · exact K.request l kind tag (fun _ h => h) h
  · exact h

/-- A command that neither judges a sample, nor sets every record afresh, nor fetches a notice keeps what the writes named here
keep. -/
theorem exec (K : KeptCommand P) {c : Instr} (hj : c.judges = false) (hr : c.renews = false) (hf : c.fetches = false)
    {s t : State} (h : P s) (e : exec c s = .next t) : P t := by
  have F := K.toFeeders
  have req := fun (l : Link) (kind tag : Byte) (act : State → State × Answer) (ha : ∀ s, P s → P (act s).1)
    (e : Machine.completed (Machine.request l kind tag act s) = .next t) => K.completed (K.request l kind tag ha h) e
  cases c with
  | powerOn => cases hr
  | resetInput => cases hr
  | restart tag => cases hr
  | sample kind payload checkOk => cases hj
  | sampleGapTimerExpiry => cases hj
  | heldSampleAgeStep => cases hj
  | resyncSamples tag => cases hj
  | frameError line why => cases hj
  | fetchNotice link tag => cases hf
  | entryWindowExpiry => exact K.completed (K.entryWindowEnds h) e
  | stageTimerExpiry stage => exact K.completed (F.stageTimerEnds stage h) e
  | stepTimeout => exact K.completed (F.stepTimerEnds h) e
  | waitStepExpiry => exact K.completed (F.waitStepEnds h) e
  | energisingWindowExpiry => exact K.completed (K.energisingWindowEnds h) e
  | crankWindowExpiry unit => exact K.completed (K.crankWindowEnds unit h) e
  | syncWindowExpiry unit => exact K.completed (K.syncWindowEnds unit h) e
  | unloadWindowExpiry unit => exact K.completed (K.unloadWindowEnds unit h) e
  | cooldownHoldExpiry unit => exact K.completed (K.cooldownHoldEnds unit h) e
  | minRunExpiry unit => exact K.completed (K.minRunEnds unit h) e
  | recallWindowExpiry unit => exact K.completed (K.recallWindowEnds unit h) e
  | claimWaitExpiry id => exact K.completed (F.claimWaitEnds id.toNat h) e
  | claimLifetimeExpiry id => exact K.completed (F.claimLifetimeEnds id.toNat h) e
  | claimSettleExpiry id => exact K.completed (F.claimSettles id.toNat h) e
  | openingRelayWindowExpiry feeder => exact K.completed (F.openingWindowEnds feeder h) e
  | closingRelayWindowExpiry feeder => exact K.completed (F.closingWindowEnds feeder h) e
  | shedSettleExpiry => exact K.completed (F.settleEnds h) e
  | restoreHoldOffExpiry => exact K.completed (F.holdOffEnds h) e
  | linkSilent link => exact K.completed (K.silenceEnds link h) e
  | interByteTimeout line => exact K.completed (K.interByteEnds line h) e
  | frameRefused link kind tag payload => exact K.completed (K.refusedFrame link kind tag payload h) e
  | replyOverrun link => exact K.completed (K.replyOverruns link h) e
  | outboundFrameSent link => exact K.completed (K.sent link _ h) e
  | read link tag selector index => exact req _ _ _ _ (fun _ h => readAct _ _ h) e
  | set tag payload => exact req _ _ _ _ (fun _ h => K.setAct _ h) e
  | setRing tag indices => exact req _ _ _ _ (fun _ h => K.setRingAct _ h) e
  | startUnit tag unit => exact req _ _ _ _ (onUnit _ fun _ _ h => K.startUnitAct _ h) e
  | stopUnit tag unit => exact req _ _ _ _ (onUnit _ fun _ _ h => K.stopUnitAct _ h) e
  | clearLockout tag unit => exact req _ _ _ _ (onUnit _ fun _ _ h => K.clearLockoutAct _ h) e
  | recallUnit tag unit => exact req _ _ _ _ (onUnit _ fun _ _ h => K.recallUnitAct _ h) e
  | claimReserve tag amount wait lifetime => exact req _ _ _ _ (fun _ h => K.claimReserveAct _ _ _ h) e
  | cancelClaim link tag id => exact req _ _ _ _ (fun _ h => K.cancelFrom _ _ h) e
  | blackStartBegin tag => exact req _ _ _ _ (fun _ h => K.beginAct h) e
  | blackStartAbort tag => exact req _ _ _ _ (fun _ h => F.abortBlackStart h) e
  | blackStartRetry tag => exact req _ _ _ _ (fun _ h => K.retryAct h) e
  | snapshot tag option => exact req _ _ _ _ (fun _ h => K.snapshotAct _ h) e
  | readTally tag number => exact req _ _ _ _ (fun _ h => readTallyAct _ h) e
  | restoreHold tag value => exact req _ _ _ _ (fun _ h => K.restoreHoldAct _ h) e
  | adoptFeeder tag feeder => exact req _ _ _ _ (fun _ h => K.adoptFeederAct _ h) e
  | presence link tag => exact req _ _ _ _ (fun _ h => h) e
  | unitReport tag unit event => exact req _ _ _ _ (fun _ h => K.unitReportAct _ _ h) e
  | unitStatus tag entries => exact req _ _ _ _ (fun _ h => K.unitStatusAct _ h) e
  | availability tag entries => exact req _ _ _ _ (fun _ h => K.availabilityAct _ h) e
  | releaseUnit tag unit => exact req _ _ _ _ (onUnit _ fun _ _ h => K.releaseUnitAct _ h) e
  | returnUnit tag unit => exact req _ _ _ _ (onUnit _ fun _ _ h => K.returnUnitAct _ h) e
  | pvReport tag entries => exact req _ _ _ _ (fun _ h => K.pvReportAct _ h) e
  | releaseGroup tag group => exact req _ _ _ _ (onGroup _ fun _ _ h => K.releaseGroupAct _ h) e
  | returnGroup tag group => exact req _ _ _ _ (onGroup _ fun _ _ h => K.returnGroupAct _ h) e
  | breakerReport tag feeder event => exact req _ _ _ _ (fun _ h => K.breakerReportAct _ _ h) e
  | feederStatus tag entries => exact req _ _ _ _ (fun _ h => K.feederStatusAct _ h) e
  | claimFeeder tag feeder wait lifetime => exact req _ _ _ _ (fun _ h => K.claimFeederAct _ _ _ h) e

end KeptCommand

end Sys2Proof.Machine
end

