-- ==== Sys2Proof/Proofs/LockRules.lean ====
section
/-! What each operation of the Sample Lock does to the lock, which operations leave it as it is, and what a settling of the
quality does besides (R30 to R41). -/

namespace Sys2Proof.Machine

/-! ## Operations that leave the lock and the tables -/

@[simp] theorem serve_lock (s : State) : (serve s).lock = s.lock := (KeptEvaluation.lockStands s.lock).toServe.serve rfl

@[simp] theorem serve_clock (s : State) : (serve s).clock = s.clock :=
  (KeptEvaluation.ofStanding fun _ _ c => c = s.clock).toServe.serve rfl

@[simp] theorem serve_cfg (s : State) : (serve s).cfg = s.cfg :=
  (KeptEvaluation.ofStanding fun _ t _ => t = s.cfg).toServe.serve rfl

@[simp] theorem withdrawReason_lock (k : ReasonKind) (s : State) : (withdrawReason k s).lock = s.lock :=
  (congrArg State.lock (withdrawReason_others k s) :)

@[simp] theorem withdrawReason_clock (k : ReasonKind) (s : State) : (withdrawReason k s).clock = s.clock :=
  (congrArg State.clock (withdrawReason_others k s) :)

@[simp] theorem withdrawReason_cfg (k : ReasonKind) (s : State) : (withdrawReason k s).cfg = s.cfg :=
  (congrArg State.cfg (withdrawReason_others k s) :)

@[simp] theorem evaluate_lock (s : State) : (evaluate s).lock = s.lock := (KeptEvaluation.lockStands s.lock).evaluate rfl

/-- What an evaluation's writes keep, the change to Stale keeps (R41). -/
theorem KeptEvaluation.staleEffects {P : State → Prop} (K : KeptEvaluation P) {s : State} (h : P s) : P (staleEffects s) := by
  have cancelled : P { cancelStages s with
      book := { (cancelStages s).book with shortfallDwell := none, surplusDwell := none, guard := none } } :=
    K.bookItems _ rfl (K.shed _ _ h)
  exact K.toServe.raiseBlind (K.seq { (cancelStages s).seq with deadSpell := none, bandSpell := none } _ cancelled)

@[simp] theorem staleEffects_lock (s : State) : (staleEffects s).lock = s.lock :=
  (KeptEvaluation.lockStands s.lock).staleEffects rfl

/-- What an evaluation's writes keep, the completion of entry keeps (R189). -/
theorem KeptEvaluation.judgeEntry {P : State → Prop} (K : KeptEvaluation P)
    (entry : ∀ (e : Entry) (s : State), P s → P { s with entry := e }) {s : State} (h : P s) : P (judgeEntry s) := by
  unfold Machine.judgeEntry
  split
  · exact K.toServe.serve (K.seq { s.seq with armed := true }
      { s with entry := { s.entry with complete := true, window := none } } (entry _ _ h))
  · exact h

@[simp] theorem judgeEntry_lock (s : State) : (judgeEntry s).lock = s.lock :=
  (KeptEvaluation.lockStands s.lock).judgeEntry (fun _ _ h => h) rfl

@[simp] theorem judgeEntry_clock (s : State) : (judgeEntry s).clock = s.clock :=
  (KeptEvaluation.ofStanding fun _ _ c => c = s.clock).judgeEntry (fun _ _ h => h) rfl

@[simp] theorem judgeEntry_cfg (s : State) : (judgeEntry s).cfg = s.cfg :=
  (KeptEvaluation.ofStanding fun _ t _ => t = s.cfg).judgeEntry (fun _ _ h => h) rfl

/-! ## Judgements (R30 to R34) -/

@[simp] theorem badEffect_lock (s : State) : (badEffect s).lock = lockAfterBad s.lock := by
  unfold badEffect lockAfterBad
  cases mode : s.lock.mode with
  | hunt => rfl
  | verify => rfl
  | locked =>
    simp only []
    split
    · rfl
    · simp [mode]

@[simp] theorem recordBad_lock (s : State) : (recordBad s).lock = lockAfterBad s.lock := by simp [recordBad]

@[simp] theorem recordBads_lock (n : Nat) (s : State) : (recordBads n s).lock = lockAfterBads n s.lock := by
  rw [recordBads_offered, badsOffered_lock]

@[simp] theorem advanceExpected_lock (s : State) : (advanceExpected s).lock = movedOn s.lock := rfl

@[simp] theorem takeReference_lock (r : SampleRec) (s : State) : (takeReference r s).lock = lockAfterReference r s.lock := rfl

@[simp] theorem goodEffect_clock (s : State) : (goodEffect s).clock = s.clock := by
  unfold goodEffect
  split
  · rfl
  · split <;> simp
  · rfl

@[simp] theorem goodEffect_cfg (s : State) : (goodEffect s).cfg = s.cfg := by
  unfold goodEffect
  split
  · rfl
  · split <;> simp
  · rfl

/-- A lock that has counted a good judgement in Verify, or entered it in the window (R33, R34; log 20). -/
def lockCounted (l : Lock) : Lock :=
  match l.mode with
  | .hunt => l
  | .verify =>
    if l.verifyCount + 1 < Config.verifyTarget then { l with verifyCount := l.verifyCount + 1 }
    else { l with mode := .locked, verifyCount := Config.verifyTarget, window := [true] }
  | .locked => { l with window := pushJudgement true l.window }

@[simp] theorem goodEffect_lock (s : State) : (goodEffect s).lock = lockCounted s.lock := by
  unfold goodEffect lockCounted
  cases mode : s.lock.mode with
  | hunt => rfl
  | verify =>
    simp only []
    split <;> simp [mode]
  | locked => simp [mode]

/-- A good record in sequence is counted, and accepted with its number expected next (R29, R33, R36). -/
theorem lockAfterGood_eq (r : SampleRec) (now : Time) (l : Lock) :
    lockAfterGood r now l = { lockCounted { l with expected := some (r.seq + 1) } with
      held := some ⟨r, now⟩, age := some 0, ageNext := some (after now 100) } := by
  obtain ⟨mode⟩ := l
  cases mode with
  | hunt => rfl
  | verify =>
    simp only [lockAfterGood, lockCounted]
    split <;> rfl
  | locked => rfl

theorem judgeRecord_good_lock {r : SampleRec} (s : State) (g : r.good = true) :
    (judgeRecord r s).1.lock = lockAfterGood r s.clock s.lock := by
  simp [judgeRecord, g, accept, lockAfterGood_eq]

theorem judgeRecord_bad_lock {r : SampleRec} (s : State) (g : r.good = false) :
    (judgeRecord r s).1.lock = movedOn (lockAfterBad s.lock) := by
  simp [judgeRecord, g]

/-! ## The quality level (R38) -/

/-- The settling gives the lock the level of its state and age, and changes nothing else of it. -/
@[simp] theorem settleQuality_lock (s : State) : (settleQuality s).lock = settledLock s.lock := by
  unfold settleQuality settledLock
  simp only []
  split
  · next e => rw [e]
  · split <;> simp

@[simp] theorem sampleSettled_lock (accepted : Bool) (s : State) : (sampleSettled accepted s).lock = settledLock s.lock := by
  unfold sampleSettled
  simp only []
  split
  · rw [evaluate_lock, settleQuality_lock]
  · exact settleQuality_lock s

/-- A lock whose quality has been settled holds the level of its state and age. -/
theorem settledLock_quality (l : Lock) : (settledLock l).quality = qualityOf (settledLock l) := rfl

end Sys2Proof.Machine
end

