-- ==== Sys2Proof/Proofs/Judged.lean ====
section
/-! What holds of the lock through a command that does not judge, and what a command that judges does, in two parts: the
judgements, which leave the quality level, and the settling of the level with what follows it (R35, R38). -/

namespace Sys2Proof.Machine

variable {P : State → Prop}

/-! ## Commands apart from the lock -/

@[simp] theorem failUnit_lock (i : Fin 8) (why : Cause) (s : State) : (failUnit i why s).lock = s.lock := by
  unfold failUnit notifyLockout
  simp only []
  split <;> simp

@[simp] theorem failUnit_clock (i : Fin 8) (why : Cause) (s : State) : (failUnit i why s).clock = s.clock := by
  unfold failUnit notifyLockout
  simp only []
  split <;> simp

/-- What holds of the lock and the clock holds of them after every write of a command that does not judge. -/
theorem KeptCommand.ofStanding (Q : Lock → Time → Prop) : KeptCommand fun t => Q t.lock t.clock where
  toKeptEvaluation := KeptEvaluation.ofStanding fun l _ c => Q l c
  fail := fun _ _ _ h => by simpa using h
  tables := fun _ _ _ h => h
  event := fun _ _ _ _ h => h
  units := fun _ _ _ h => h
  groups := fun _ _ h => h
  entry := fun _ _ h => h
  link := fun _ _ _ _ h => h
  sampleFramer := fun _ _ h => h
  snapshot := fun _ _ h => h
  reply := fun _ _ _ h => h
  sent := fun _ _ h => h
  pump := fun _ h => h

/-- FETCH NOTICE keeps what the taking of a record keeps (R174). -/
theorem KeptCommand.fetch (K : KeptCommand P)
    (taken : ∀ l s, P s → P (modLink l (fun c => { c with notices := c.notices.tail, overflow := 0 }) s))
    {l : Link} {tag : Byte} {s t : State} (h : P s) (e : Machine.exec (.fetchNotice l tag) s = .next t) : P t :=
  K.completed (K.request l 0x11 tag (act := fetchAct l) (fun _ h => taken _ _ h) h) e

/-! ## Judgements leave the quality level -/

@[simp] theorem lockAfterBad_quality (l : Lock) : (lockAfterBad l).quality = l.quality := by
  unfold lockAfterBad
  split
  · rfl
  · rfl
  · split <;> rfl

@[simp] theorem lockAfterBads_quality (n : Nat) (l : Lock) : (lockAfterBads n l).quality = l.quality := by
  induction n generalizing l with
  | zero => rfl
  | succ n ih => rw [lockAfterBads, ih, lockAfterBad_quality]

@[simp] theorem movedOn_quality (l : Lock) : (movedOn l).quality = l.quality := rfl

@[simp] theorem lockAfterReference_quality (r : SampleRec) (l : Lock) : (lockAfterReference r l).quality = l.quality := rfl

@[simp] theorem lockCounted_quality (l : Lock) : (lockCounted l).quality = l.quality := by
  unfold lockCounted
  split
  · rfl
  · split <;> rfl
  · rfl

@[simp] theorem lockAfterGood_quality (r : SampleRec) (now : Time) (l : Lock) : (lockAfterGood r now l).quality = l.quality := by
  simp [lockAfterGood_eq]

@[simp] theorem judgeRecord_quality (r : SampleRec) (s : State) : (judgeRecord r s).1.lock.quality = s.lock.quality := by
  cases g : r.good
  · simp [judgeRecord_bad_lock s g]
  · simp [judgeRecord_good_lock s g]

theorem takeRecord_quality (r : SampleRec) (s : State) : (takeRecord r s).1.lock.quality = s.lock.quality := by
  unfold takeRecord
  split
  · simp
  · unfold sequenceRecord
    simp only []
    split
    · simp
    · split
      · simp
      · split <;> simp
  · simp

/-! ## The two parts -/

/-- From `s` to `t` there are judgements, which leave the quality level, with a settling of it, or neither; and then writes of
a command apart from the lock. -/
def judgedThrough (s t : State) : Prop :=
  ∃ w, (∀ P, KeptCommand P → P w → P t)
    ∧ (w = s ∨ ∃ u, u.lock.quality = s.lock.quality ∧ w = settleQuality u
        ∧ ∀ P, KeptLock P →
          (∀ l f (x : State), linkStands (x.links.get l) (f (x.links.get l)) → P x → P (modLink l f x)) → P s → P u)

/-- A received sample: its judgements, and what follows them (R28 to R36). -/
theorem receiveSample_parts (kind : Byte) (p : List Byte) (ok : Bool) (s : State) :
    ∃ accepted u, receiveSample kind p ok s = sampleSettled accepted u ∧ u.lock.quality = s.lock.quality
      ∧ ∀ P, KeptLock P → P s → P u := by
  have timed : ∀ P, KeptLock P → P s → P { s with lock := { s.lock with gapNext := some (after s.clock 250) } } :=
    fun P L h => L.lock _ _ rfl id h
  have noted : ∀ P, KeptLock P → P s → P (if ok then { s with lock := { s.lock with gapNext := some (after s.clock 250) } }
      else offer .frameError (some 5) 0 { s with lock := { s.lock with gapNext := some (after s.clock 250) } }) := by
    intro P L h
    split
    · exact timed P L h
    · exact L.offer _ _ _ _ (timed P L h)
  have same : (if ok then { s with lock := { s.lock with gapNext := some (after s.clock 250) } }
      else offer .frameError (some 5) 0 { s with lock := { s.lock with gapNext := some (after s.clock 250) } }).lock.quality
        = s.lock.quality := by
    split <;> rfl
  unfold receiveSample
  simp only []
  split
  · exact ⟨_, _, rfl, (takeRecord_quality _ _).trans same, fun P L h => L.takeRecord _ (noted P L h)⟩
  · exact ⟨_, _, rfl, by simpa using same, fun P L h => L.advanceExpected (L.recordBad (noted P L h))⟩

/-- What follows the judgements of a sample: the settling, and the evaluation of an accepted one (R35, R36). -/
theorem sampleSettled_kept (K : KeptEvaluation P) (accepted : Bool) {s : State} (h : P (settleQuality s)) :
    P (sampleSettled accepted s) := by
  unfold sampleSettled
  simp only []
  split
  · exact K.evaluate h
  · exact h

theorem sample_judged (kind : Byte) (p : List Byte) (ok : Bool) (s : State) :
    judgedThrough s (finish (receiveSample kind p ok s)) := by
  obtain ⟨accepted, u, e, q, j⟩ := receiveSample_parts kind p ok s
  rw [e]
  exact ⟨_, fun P K h => K.pump _ (sampleSettled_kept K.toKeptEvaluation _ h), .inr ⟨u, q, rfl, fun P L _ h => j P L h⟩⟩

/-- A judgement that a timer brings, and its settling (R31, R38). -/
theorem settled_judged {s u : State} (q : u.lock.quality = s.lock.quality) (j : ∀ P, KeptLock P → P s → P u) :
    judgedThrough s (finish (settleQuality u)) :=
  ⟨_, fun _ K h => K.pump _ h, .inr ⟨u, q, rfl, fun P L _ h => j P L h⟩⟩

/-- A command that finds nothing to judge. -/
theorem unjudged {s t : State} (k : ∀ P, KeptCommand P → P s → P t) : judgedThrough s t :=
  ⟨s, k, .inl rfl⟩

/-- A good frame of link S, which no other block waits for (R168, R175). -/
theorem goodFrame_S (L : KeptLock P)
    (link : ∀ l f (x : State), linkStands (x.links.get l) (f (x.links.get l)) → P x → P (modLink l f x)) {s : State}
    (h : P s) : P (goodFrame .S s) := by
  have heard : P (restartSilence .S s) := link _ _ _ ⟨rfl, rfl, rfl, rfl, rfl⟩ h
  unfold goodFrame
  simp only []
  split
  · exact heard
  · exact L.notify _ _ _ _ _ _ _ (link _ (fun c => { c with active := true }) _ ⟨rfl, rfl, rfl, rfl, rfl⟩ heard)

/-- RESYNC SAMPLES, where its reply has a place (R43, R170). -/
theorem resync_judged (tag : Byte) (s : State) :
    judgedThrough s (finish (request .S 0x0B tag (fun s => (resync s, answer .done)) s)) := by
  unfold request
  simp only []
  split
  · exact unjudged fun P K h => K.pump _ (K.event _ _ _ _ (K.goodFrame _ h))
  · refine ⟨_, fun P K h => K.pump _ (K.reply _ _ _ h), .inr ⟨lockToHunt 0 (if (goodFrame .S s).lock.mode = .locked then
      offer .lockLost none 0 (goodFrame .S s) else goodFrame .S s), ?_, rfl, fun P L link h => ?_⟩⟩
    · have heard : (goodFrame .S s).lock = s.lock := (KeptCommand.ofStanding fun m _ => m = s.lock).goodFrame .S rfl
      split <;> simp [lockToHunt, heard]
    · refine L.lockToHunt _ ?_
      split
      · exact L.offer _ _ _ _ (goodFrame_S L link h)
      · exact goodFrame_S L link h

/-- A command that judges goes through its two parts. -/
theorem exec_judged {c : Instr} (hj : c.judges = true) {s t : State} (e : exec c s = .next t) : judgedThrough s t := by
  cases c with
  | sample kind payload checkOk => cases e; exact sample_judged _ _ _ _
  | sampleGapTimerExpiry =>
    cases e
    unfold gapTimerEnds
    split
    · split
      · exact settled_judged (by simp) fun P L h => L.advanceExpected (L.recordBad (L.lock _ _ rfl id h))
      · exact unjudged fun P K h => K.pump _ h
    · exact unjudged fun P K h => K.pump _ h
  | heldSampleAgeStep =>
    cases e
    unfold ageStep
    split
    · split
      · exact settled_judged rfl fun P L h => L.lock _ _ rfl id h
      · exact unjudged fun P K h => K.pump _ h
    · exact unjudged fun P K h => K.pump _ h
  | resyncSamples tag => cases e; exact resync_judged tag s
  | frameError line why =>
    cases e
    unfold frameFails
    split
    · exact sample_judged _ _ _ _
    · exact unjudged fun P K h => K.pump _ (K.event _ _ _ _ h)
    · exact unjudged fun P K h => K.pump _ (K.event _ _ _ _ h)
  | _ => cases hj

/-- A command that judges keeps what the writes of the lock and those of a command keep. -/
theorem KeptCommand.judged (K : KeptCommand P) (L : KeptLock P) {c : Instr} (hj : c.judges = true) {s t : State} (h : P s)
    (e : Machine.exec c s = .next t) : P t := by
  obtain ⟨w, after, settled⟩ := exec_judged hj e
  refine after P K ?_
  rcases settled with rfl | ⟨u, -, rfl, before⟩
  · exact h
  · exact L.settleQuality (before P L (fun l f x e h => K.link l f x e h) h)

end Sys2Proof.Machine
end

