-- ==== Sys2Proof/Proofs/LockStaysSound.lean ====
section
/-! The law of the lock (R34, R38): a command that judges settles the quality it leaves, any other leaves the lock. -/

namespace Sys2Proof.Machine

/-- A command that judges leaves the lock as it is, or with its quality settled (R38). -/
theorem judged_lock {c : Instr} (hj : c.judges = true) {s t : State} (e : exec c s = .next t) :
    t.lock = s.lock ∨ ∃ l, t.lock = settledLock l := by
  obtain ⟨w, after, settled⟩ := exec_judged hj e
  rw [after _ (KeptCommand.ofStanding fun l _ => l = w.lock) rfl]
  rcases settled with rfl | ⟨u, -, rfl, -⟩
  · exact .inl rfl
  · exact .inr ⟨_, settleQuality_lock u⟩

/-- A command that sets every record afresh leaves the lock of reset, or is RESTART not taken for want of a reply's place (R45,
R170, R188, R191). -/
theorem renewed_lock {c : Instr} (hr : c.renews = true) {s t : State} (e : exec c s = .next t) :
    t.lock = s.lock ∨ t.lock = State.resetLock := by
  cases c with
  | powerOn => cases e; exact .inr rfl
  | resetInput => cases e; exact .inr rfl
  | restart tag =>
    cases e
    simp only [finish_lock]
    unfold restartRequest
    simp only []
    split
    · exact .inl ((KeptCommand.ofStanding fun m _ => m = s.lock).goodFrame .S rfl)
    · exact .inr (by simp [restartPart, startEntry])
  | _ => cases hr

/-- Any other command leaves the lock as it is. -/
theorem otherwise_lock {c : Instr} (hj : c.judges = false) (hr : c.renews = false) {s t : State} (e : exec c s = .next t) :
    t.lock = s.lock := by
  have K := KeptCommand.ofStanding fun m _ => m = s.lock
  cases hf : c.fetches
  · exact K.exec hj hr hf rfl e
  · cases c with
    | fetchNotice l tag => exact K.fetch (fun _ _ h => h) rfl e
    | _ => cases hf

/-- The window's bounds stand through the writes of the lock (R34). -/
theorem KeptLock.ofWindow : KeptLock fun s => windowSound s.lock.window where
  toKeptServe := (KeptEvaluation.ofStanding fun l _ _ => windowSound l.window).toServe
  offer := fun _ _ _ _ h => h
  shed := fun _ _ h => h
  spells := fun _ _ _ h => h
  lock := fun _ _ _ w h => w h
  quality := fun _ h => h
  entry := fun _ _ h => h
  accept := fun _ _ h => h

/-- A command keeps the law of the lock (R34, R38). -/
theorem exec_keeps_lockLaw (c : Instr) {s t : State} (hq : QualityLaw s) (hw : WindowLaw s) (e : exec c s = .next t) :
    QualityLaw t ∧ WindowLaw t := by
  have stands : t.lock = s.lock → QualityLaw t ∧ WindowLaw t := fun x => by
    unfold QualityLaw WindowLaw
    rw [x]
    exact ⟨hq, hw⟩
  cases hj : c.judges
  · cases hr : c.renews
    · exact stands (otherwise_lock hj hr e)
    · rcases renewed_lock hr e with x | x
      · exact stands x
      · unfold QualityLaw WindowLaw
        rw [x]
        exact ⟨rfl, windowSound_nil⟩
  · refine ⟨?_, (KeptCommand.ofStanding fun l _ => windowSound l.window).judged .ofWindow hj hw e⟩
    rcases judged_lock hj e with x | ⟨l, x⟩
    · exact (stands x).1
    · unfold QualityLaw
      rw [x]
      exact settledLock_quality l

/-- The tick leaves the lock. -/
theorem tick_lock (s : State) : (tick s).lock = s.lock := by
  simp only [tick]
  split <;> rfl

/-- Settles O56: a command settles the quality it changes, and every entry of the window is made within its bounds. -/
theorem lockStaysSound : Obligations.LockStaysSound := by
  rintro s t ⟨hq, hw⟩ e
  unfold step at e
  split at e
  · rw [← Host.Outcome.next.inj e]
    unfold QualityLaw WindowLaw
    rw [tick_lock]
    exact ⟨hq, hw⟩
  · next rest _ => exact exec_keeps_lockLaw _ (s := { s with pending := rest }) hq hw e

end Sys2Proof.Machine
end

