-- ==== Sys2Proof/Proofs/NothingRises.lean ====
section
/-! Outside Full nothing is granted, stopped or closed, and no sample raises a ceiling (R39, R40, R104, R107). -/

namespace Sys2Proof.Machine

/-! ## The orders of a link -/

theorem ordersFrom.behind (xs : List Order) {os ps : List Order} (h : ordersFrom os ps) : ordersFrom (xs ++ os) (xs ++ ps) := by
  intro o ho r
  rcases List.mem_append.mp ho with m | m
  · exact List.mem_append_left _ m
  · exact List.mem_append_right _ (h o m r)

theorem ordersFrom.of_eq {os ps : List Order} (h : ps = os) : ordersFrom os ps := h ▸ .refl _

/-- A link's change adds no STOP and no CLOSE to the orders of any link. -/
theorem modLink_ordersFrom {l : Link} {f : LinkCtl → LinkCtl} {s : State}
    (h : ordersFrom (orderLine (s.links.get l)) (orderLine (f (s.links.get l)))) (m : Link) :
    ordersFrom (orderLine (s.links.get m)) (orderLine ((modLink l f s).links.get m)) := by
  by_cases x : m = l
  · subst x; simpa using h
  · rw [modLink_get_ne _ _ x]; exact .refl _

theorem linkStands.orderLine {c d : LinkCtl} (h : linkStands c d) : orderLine d = orderLine c := by
  unfold Machine.orderLine
  rw [h.sending, h.orders]

@[simp] theorem notify_orderLine (n : Notice) (c : LinkCtl) : orderLine (c.notify n) = orderLine c := by
  unfold orderLine
  rw [LinkCtl.notify_sending, LinkCtl.notify_orders]

/-- The next frame begun comes from the orders that wait, and stands first of them. -/
@[simp] theorem pump_orderLine (c : LinkCtl) : orderLine c.pump = orderLine c := by
  unfold LinkCtl.pump orderLine
  cases hs : c.sending with
  | some f => simp [hs]
  | none =>
    cases hr : c.replies with
    | cons r rs => simp
    | nil => cases ha : c.active <;> cases ho : c.orders <;> simp [ho, hs]

/-! ## From one state to another -/

/-- From `s` to `t` no claim was Granted, and no STOP and no CLOSE order was added. -/
def quietFrom (s t : State) : Prop :=
  grantsFrom s.book.claims t.book.claims ∧ ∀ l, ordersFrom (orderLine (s.links.get l)) (orderLine (t.links.get l))

theorem quietFrom.refl (s : State) : quietFrom s s := ⟨.refl _, fun _ => .refl _⟩

theorem quietFrom.trans {s t u : State} (a : quietFrom s t) (b : quietFrom t u) : quietFrom s u :=
  ⟨a.1.trans b.1, fun l => (a.2 l).trans (b.2 l)⟩

theorem quietFrom.link {l : Link} {f : LinkCtl → LinkCtl} {s : State}
    (h : ordersFrom (orderLine (s.links.get l)) (orderLine (f (s.links.get l)))) : quietFrom s (modLink l f s) :=
  ⟨.refl _, modLink_ordersFrom h⟩

theorem quietFrom.orders {l : Link} {f : List Order → List Order} {s : State}
    (h : ordersFrom (s.links.get l).orders (f (s.links.get l).orders)) :
    quietFrom s (modLink l (fun c => { c with orders := f c.orders }) s) := .link (h.behind _)

theorem quietFrom.notify (ls kind index subject cause id) (s : State) :
    quietFrom s (Machine.notify ls kind index subject cause id s) :=
  kept_foldl (P := quietFrom s) (fun _ _ h => h.trans (.link (.of_eq (notify_orderLine _ _)))) ls (.refl s)

theorem quietFrom.setUnitState (i st why) (s : State) : quietFrom s (Machine.setUnitState i st why s) := by
  unfold Machine.setUnitState
  split
  · exact .refl _
  · exact quietFrom.notify [.S, .G] _ _ _ _ _ (modGen i (enterUnitState s i st) s)

theorem quietFrom.setFeederState (k st why) (s : State) : quietFrom s (Machine.setFeederState k st why s) := by
  unfold Machine.setFeederState
  split
  · exact .refl _
  · simp only []
    split
    · exact quietFrom.notify [.S, .F] _ _ _ _ _ (modFeeder k (enterFeederState s st) (startSettle s))
    · exact quietFrom.notify [.S, .F] _ _ _ _ _ (modFeeder k (enterFeederState s st) s)

theorem quietFrom.failUnit (i why) (s : State) : quietFrom s (Machine.failUnit i why s) := by
  unfold Machine.failUnit notifyLockout
  simp only []
  have left : quietFrom s (Machine.setUnitState i (stoppedState (moveToTail i (raiseFailCount i s)) i) why
      (moveToTail i (raiseFailCount i s))) := quietFrom.setUnitState _ _ _ (moveToTail i (raiseFailCount i s))
  split
  · exact left.trans (.notify _ _ _ _ _ _ _)
  · exact left

theorem quietFrom.finish (s : State) : quietFrom s (Machine.finish s) :=
  ⟨.refl _, fun l => .of_eq (by rw [finish_get, pump_orderLine])⟩

/-- In quality `q`, which is not Full or binds nothing, the state is quiet from `s` on (R39). -/
def quietIn (q : Quality) (s t : State) : Prop := t.lock.quality = q ∧ (q ≠ .full → quietFrom s t)

theorem quietIn.step {q : Quality} {s t u : State} (h : quietIn q s t) (e : u.lock.quality = t.lock.quality)
    (g : t.lock.quality ≠ .full → quietFrom t u) : quietIn q s u :=
  ⟨e.trans h.1, fun n => (h.2 n).trans (g (h.1 ▸ n))⟩

/-- A command apart from the lock is quiet outside Full (R39). -/
theorem quietIn.kept (q : Quality) (s : State) : KeptCommand (quietIn q s) where
  notify := fun _ _ _ _ _ _ _ h => h.step (by simp) fun _ => .notify _ _ _ _ _ _ _
  offer := fun _ _ _ _ _ h => h
  book := fun _ _ e h => h.step rfl fun n => ⟨e n, fun _ => .refl _⟩
  orders := fun _ _ _ e h => h.step rfl fun n => .orders (e n)
  pvs := fun _ _ _ h => h
  gens := fun _ _ _ h => h
  feeders := fun _ _ _ h => h
  setUnit := fun _ _ _ _ h => h.step (by simp) fun _ => .setUnitState _ _ _ _
  setFeeder := fun _ _ _ _ h => h.step (by simp) fun _ => .setFeederState _ _ _ _
  seq := fun _ _ h => h
  arb := fun _ _ h => h
  shed := fun _ _ h => h
  rest := fun _ _ h => h
  cur := fun _ _ h => h
  free := fun _ _ h => h
  fail := fun _ _ _ h => h.step (by simp) fun _ => .failUnit _ _ _
  tables := fun _ _ _ h => h
  event := fun _ _ _ _ h => h
  units := fun _ _ _ h => h
  groups := fun _ _ h => h
  entry := fun _ _ h => h
  link := fun _ _ _ e h => h.step rfl fun _ => .link (.of_eq e.orderLine)
  sampleFramer := fun _ _ h => h
  snapshot := fun _ _ h => h
  reply := fun _ _ _ h => h.step rfl fun _ => .link (.refl _)
  sent := fun l _ h => h.step rfl fun _ => .link fun _ m _ => List.mem_append_right _ m
  pump := fun _ h => h.step rfl fun _ => .finish _

theorem quietFrom.offer (kind index amount) (s : State) : quietFrom s (Machine.offer kind index amount s) :=
  ⟨.refl _, fun _ => .refl _⟩

/-- A START order takes its place last of the orders of link G. -/
theorem quietFrom.startOrder (i : Fin 8) (s : State) : quietFrom s (queueUnitOrder (.start i) i s) :=
  .orders (f := fun os => os.filter (fun x => !x.namesUnit i) ++ [.start i]) (.append (.filter _ _) rfl)

/-- A start adds a START order alone. -/
theorem quietFrom.beginStart (slot k r i) (s : State) : quietFrom s (Machine.beginStart slot k r i s) := by
  unfold Machine.beginStart
  refine .trans ?_ ((quietFrom.setUnitState i _ _ _).trans ((quietFrom.startOrder i _).trans (.offer _ _ _ _)))
  split <;> exact ⟨.refl _, fun _ => .refl _⟩

theorem quietFrom.dropClaims (p : Claim → Bool) (s : State) : quietFrom s (Machine.dropClaims p s) :=
  ⟨by rw [dropClaims_claims]; exact .filter _ _, fun _ => .of_eq (by rw [dropClaims_links])⟩

/-- The judgements and the settling of the quality grant nothing and give no STOP and no CLOSE, whatever the quality. -/
theorem quietFrom.start (s : State) : KeptStart (quietFrom s) where
  notify := fun _ _ _ _ _ _ _ h => h.trans (.notify _ _ _ _ _ _ _)
  offer := fun _ _ _ _ h => h.trans (.offer _ _ _ _)
  book := fun b t e _ _ h => h.trans ⟨fun _ m _ _ => by rw [← e]; exact m, fun _ => .refl _⟩
  seq := fun _ _ h => h
  recompute := fun _ h => h.trans ⟨.refl _, fun _ => .refl _⟩
  drop := fun _ _ h => h.trans (.dropClaims _ _)
  putReason := fun _ _ _ h => h
  gen := fun _ _ _ _ _ _ h => h
  begin := fun _ _ _ _ _ _ _ h => h.trans (.beginStart _ _ _ _ _)

theorem quietFrom.judging (s : State) : KeptLock (quietFrom s) where
  toKeptServe := (quietFrom.start s).toServe
  offer := fun _ _ _ _ h => h.trans (.offer _ _ _ _)
  shed := fun _ _ h => h
  spells := fun _ _ _ h => h
  lock := fun _ _ _ _ h => h
  quality := fun _ h => h
  entry := fun _ _ h => h
  accept := fun _ _ h => h

/-! ## The commands -/

/-- A command that judges is quiet where it ends outside Full (R39). -/
theorem judged_quiet {c : Instr} (hj : c.judges = true) {s t : State} (e : exec c s = .next t) (q : t.lock.quality ≠ .full) :
    quietFrom s t := by
  obtain ⟨w, after, settled⟩ := exec_judged hj e
  have before : quietFrom s w := by
    rcases settled with rfl | ⟨u, -, rfl, judged⟩
    · exact .refl _
    · exact (quietFrom.judging s).settleQuality (judged _ (quietFrom.judging s)
        (fun _ _ _ e h => h.trans (.link (.of_eq e.orderLine))) (.refl s))
  have rest := after _ (quietIn.kept w.lock.quality s) ⟨rfl, fun _ => before⟩
  exact rest.2 (rest.1 ▸ q)

/-- A state with an empty claim list and no order is quiet from every state (R188, R191). -/
theorem quietFrom.renewed {s t : State} (hc : t.book.claims = []) (ho : ∀ l, orderLine (t.links.get l) = []) : quietFrom s t :=
  ⟨fun x hx => by simp [hc] at hx, fun l o h => by simp [ho l] at h⟩

/-- A command that sets every record afresh leaves no claim and no order (R27, R178). -/
theorem renewed_quiet {c : Instr} (hr : c.renews = true) {s t : State} (e : exec c s = .next t) (q : t.lock.quality ≠ .full) :
    quietFrom s t := by
  cases c with
  | powerOn => cases e; exact .renewed rfl fun l => by cases l <;> rfl
  | resetInput => cases e; exact .renewed rfl fun l => by cases l <;> rfl
  | restart tag =>
    cases e
    refine .trans ?_ (.finish _)
    unfold restartRequest
    simp only []
    split
    · exact (goodFrame_S (quietFrom.judging s) (fun _ _ _ e h => h.trans (.link (.of_eq e.orderLine))) (.refl s)).trans
        (.offer _ _ _ _)
    · exact (quietFrom.renewed rfl fun l => by cases l <;> rfl).trans (.notify _ _ _ _ _ _ _)
  | _ => cases hr

/-- A command grants nothing and gives no STOP and no CLOSE where it ends outside Full (R39). -/
theorem exec_quiet (c : Instr) {s t : State} (e : exec c s = .next t) (q : t.lock.quality ≠ .full) : quietFrom s t := by
  have K := quietIn.kept t.lock.quality s
  cases hj : c.judges
  · cases hr : c.renews
    · have start : quietIn t.lock.quality s s := ⟨by rw [otherwise_lock hj hr e], fun _ => .refl s⟩
      cases hf : c.fetches
      · exact (K.exec hj hr hf start e).2 q
      · cases c with
        | fetchNotice l tag => exact (K.fetch (fun _ _ h => h.step rfl fun _ => .link (.refl _)) start e).2 q
        | _ => cases hf
    · exact renewed_quiet hr e q
  · exact judged_quiet hj e q

/-! ## Ceilings (R40, R104, R107) -/

/-- In quality `q`, which is not Full or binds nothing, no ceiling is higher than in `s`. -/
def ceilingsIn (q : Quality) (s t : State) : Prop :=
  t.lock.quality = q ∧ (q ≠ .full → ∀ g : Fin 8, ceilingFalls s.pvs[g].issued t.pvs[g].issued)

theorem ceilingsIn.kept (q : Quality) (s : State) : KeptEvaluation (ceilingsIn q s) where
  notify := fun _ _ _ _ _ _ _ h => by simpa [ceilingsIn] using h
  offer := fun _ _ _ _ _ h => h
  book := fun _ _ _ h => h
  orders := fun _ _ _ _ h => h
  pvs := fun _ _ e h => ⟨h.1, fun n g => (h.2 n g).trans (e (h.1 ▸ n) g)⟩
  gens := fun _ _ _ h => h
  feeders := fun _ _ _ h => h
  setUnit := fun _ _ _ _ h => by simpa [ceilingsIn] using h
  setFeeder := fun _ _ _ _ h => by simpa [ceilingsIn] using h
  seq := fun _ _ h => h
  arb := fun _ _ h => h
  shed := fun _ _ h => h
  rest := fun _ _ h => h
  cur := fun _ _ h => h
  free := fun _ _ h => h

/-- The records that a serving leaves, whatever it starts: the PV groups, the feeders, Restoration, the tables and the lock. -/
theorem KeptStart.ofRecords (Q : Vector PvGroup 8 → Vector Feeder 24 → Restoration → Tables → Lock → Prop) :
    KeptStart fun t => Q t.pvs t.feeders t.rest t.cfg t.lock where
  notify := fun _ _ _ _ _ _ _ h => by simpa using h
  offer := fun _ _ _ _ h => h
  book := fun _ _ _ _ _ h => h
  seq := fun _ _ h => h
  recompute := fun _ h => h
  drop := fun _ _ h => by simpa using h
  putReason := fun _ _ _ h => h
  gen := fun _ _ _ _ _ _ h => h
  begin := fun _ _ _ _ _ _ _ h => by
    unfold beginStart
    split <;> simpa [queueUnitOrder] using h

/-- The judgements and the settling of the quality leave these records, but for the lock. -/
theorem KeptLock.ofRecords (Q : Vector PvGroup 8 → Vector Feeder 24 → Restoration → Tables → Prop) :
    KeptLock fun t => Q t.pvs t.feeders t.rest t.cfg where
  toKeptServe := (KeptStart.ofRecords fun p f r c _ => Q p f r c).toServe
  offer := fun _ _ _ _ h => h
  shed := fun _ _ h => h
  spells := fun _ _ _ h => h
  lock := fun _ _ _ _ h => h
  quality := fun _ h => h
  entry := fun _ _ h => h
  accept := fun _ _ h => h

/-- A sample that ends outside Full raises no ceiling. -/
theorem sample_ceilings {kind : Byte} {p : List Byte} {ok : Bool} {s t : State} (e : exec (.sample kind p ok) s = .next t)
    (q : t.lock.quality ≠ .full) (g : Fin 8) : ceilingFalls s.pvs[g].issued t.pvs[g].issued := by
  cases e
  obtain ⟨accepted, u, x, -, judged⟩ := receiveSample_parts kind p ok s
  have L := KeptLock.ofRecords fun p _ _ _ => p = s.pvs
  have stands : (settleQuality u).pvs = s.pvs := L.settleQuality (judged _ L rfl)
  have settled := sampleSettled_kept (ceilingsIn.kept (settleQuality u).lock.quality s) accepted
    ⟨rfl, fun _ g => stands ▸ ceilingFalls.refl _⟩
  rw [← x] at settled
  exact settled.2 (settled.1 ▸ q) g

/-- Settles O51: each write that R39 and R40 bar outside Full is made in Full alone, and the quality stands from the settling of a
sample's judgements to the end of the command. -/
theorem nothingRisesOutsideFull : Obligations.NothingRisesOutsideFull := by
  intro c s t e q
  obtain ⟨grants, orders⟩ := exec_quiet c e q
  refine ⟨grants, fun i h => orders .G _ h rfl, fun k h => orders .F _ h rfl, ?_⟩
  rintro kind p ok rfl g v w hv hw
  rcases sample_ceilings e q g w hw with rfl | ⟨v', hv', le⟩
  · exact Nat.zero_le _
  · rw [hv] at hv'; cases hv'; exact le

end Sys2Proof.Machine
end

