-- ==== Sys2Proof/Proofs/Judgements.lean ====
section
/-! What the judgements and the settling of the quality offer and leave (R30 to R44): judgements write the lock and the tallies
alone, and a settling offers no event but those of the starts that a change to Stale brings. -/

namespace Sys2Proof.Machine

/-! ## What a judgement leaves -/

theorem badEffect_others (s : State) : { badEffect s with lock := s.lock, tally := s.tally } = s := by
  unfold badEffect
  cases s.lock.mode with
  | hunt => rfl
  | verify => rfl
  | locked =>
    simp only []
    split <;> rfl

/-- A bad judgement writes the lock and the tallies alone. -/
theorem recordBad_others (s : State) : { recordBad s with lock := s.lock, tally := s.tally } = s := by
  have offered : { offer .sampleBad none 0 s with tally := s.tally } = s := by
    unfold offer
    rfl
  have stands := offer_lock s .sampleBad none 0
  have judged := badEffect_others (offer .sampleBad none 0 s)
  rw [stands] at judged
  unfold recordBad
  generalize offer .sampleBad none 0 s = a at offered judged ⊢
  exact (congrArg (fun t : State => { t with tally := s.tally }) judged).trans offered

theorem recordBads_others (n : Nat) (s : State) : { recordBads n s with lock := s.lock, tally := s.tally } = s := by
  induction n generalizing s with
  | zero => rfl
  | succ n ih =>
    calc { recordBads n (recordBad s) with lock := s.lock, tally := s.tally }
        = { recordBad s with lock := s.lock, tally := s.tally } :=
          congrArg (fun t : State => { t with lock := s.lock, tally := s.tally }) (ih (recordBad s))
      _ = s := recordBad_others s

@[simp] theorem recordBads_clock (n : Nat) (s : State) : (recordBads n s).clock = s.clock :=
  (congrArg State.clock (recordBads_others n s) :)

@[simp] theorem recordBads_cfg (n : Nat) (s : State) : (recordBads n s).cfg = s.cfg :=
  (congrArg State.cfg (recordBads_others n s) :)

/-- The last of several bad judgements may be taken apart from those before it. -/
theorem recordBads_succ (n : Nat) (s : State) : recordBads (n + 1) s = recordBad (recordBads n s) := by
  induction n generalizing s with
  | zero => rfl
  | succ n ih => exact ih (recordBad s)

/-- A bad judgement is offered as SampleBad, and as LockLost where it costs a Locked lock (R34, R44). -/
theorem recordBad_tally (s : State) : (recordBad s).tally =
    (if s.lock.mode = .locked ∧ 6 ≤ badCount (pushJudgement false s.lock.window) then
      offer .lockLost none 0 (offer .sampleBad none 0 s) else offer .sampleBad none 0 s).tally :=
  (congrArg State.tally (recordBads_offered 1 s) :)

/-! ## States that no judgement tells apart -/

/-- The judgements and the tallies read the same in `s` and in `t`. -/
structure alike (s t : State) : Prop where
  cfg : t.cfg = s.cfg
  tally : t.tally = s.tally
  quality : t.lock.quality = s.lock.quality
  mode : t.lock.mode = s.lock.mode
  window : t.lock.window = s.lock.window

/-- What an event adds depends on the tables, the tallies and the quality in force (R184). -/
theorem offer_tally_congr {s t : State} (kind index amount) (hc : t.cfg = s.cfg) (ht : t.tally = s.tally)
    (hq : t.lock.quality = s.lock.quality) : (offer kind index amount t).tally = (offer kind index amount s).tally := by
  unfold offer
  rw [hc, ht, hq]

theorem alike.offer {s t : State} (h : alike s t) (kind index amount) :
    alike (Machine.offer kind index amount s) (Machine.offer kind index amount t) :=
  ⟨h.cfg, offer_tally_congr _ _ _ h.cfg h.tally h.quality, h.quality, h.mode, h.window⟩

theorem alike.recordBad {s t : State} (h : alike s t) : alike (Machine.recordBad s) (Machine.recordBad t) where
  cfg := by
    have hs : (Machine.recordBad s).cfg = s.cfg := (congrArg State.cfg (recordBad_others s) :)
    have ht : (Machine.recordBad t).cfg = t.cfg := (congrArg State.cfg (recordBad_others t) :)
    rw [hs, ht, h.cfg]
  tally := by
    rw [recordBad_tally, recordBad_tally, h.mode, h.window]
    split
    · exact ((h.offer _ _ _).offer _ _ _).tally
    · exact (h.offer _ _ _).tally
  quality := by simp [h.quality]
  mode := by
    simp only [recordBad_lock, lockAfterBad, h.mode, h.window]
    cases s.lock.mode with
    | hunt => exact h.mode
    | verify => rfl
    | locked =>
      simp only []
      split <;> rfl
  window := by
    simp only [recordBad_lock, lockAfterBad, h.mode, h.window]
    cases s.lock.mode with
    | hunt => exact h.window
    | verify => rfl
    | locked =>
      simp only []
      split <;> rfl

theorem alike.recordBads (n : Nat) {s t : State} (h : alike s t) :
    alike (Machine.recordBads n s) (Machine.recordBads n t) := by
  induction n generalizing s t with
  | zero => exact h
  | succ n ih => exact ih h.recordBad

/-! ## The settling of the quality (R38, R41, R42) -/

/-- A settling that is no change to Stale writes the lock, the start reasons and the notices alone. -/
theorem settleQuality_others {s : State} (h : qualityOf s.lock ≠ .stale) :
    { settleQuality s with lock := s.lock, arb := s.arb, links := s.links } = s := by
  have told : { notify allLinks .qualityChange 0 (.quality (qualityOf s.lock)) (.quality s.lock.quality) 0
      { s with lock := settledLock s.lock } with lock := s.lock, arb := s.arb, links := s.links } = s :=
    (congrArg (fun t : State => { t with lock := s.lock })
      (notify_others allLinks .qualityChange 0 (.quality (qualityOf s.lock)) (.quality s.lock.quality) 0
        { s with lock := settledLock s.lock }) :)
  unfold settleQuality
  simp only []
  split
  · rfl
  · split
    · next e => exact absurd e h
    · exact (congrArg (fun t : State => { t with lock := s.lock, arb := s.arb, links := s.links })
        (withdrawReason_others .blind _)).trans told
    · exact told

/-- A settling to Stale finds it in force, or takes the change's effects once it has been told. -/
theorem settleQuality_stale {s : State} (h : qualityOf s.lock = .stale) :
    settleQuality s = s ∨ settleQuality s = staleEffects (notify allLinks .qualityChange 0 (.quality .stale)
      (.quality s.lock.quality) 0 { s with lock := settledLock s.lock }) := by
  unfold settleQuality settledLock
  simp only [h]
  split
  · exact .inl rfl
  · exact .inr rfl

/-! ## The starts of a change to Stale (R41, R54) -/

/-- A start offers StartOrdered and no other event. -/
theorem beginStart_tally (slot : Nat) (k : ReasonKind) (r : Reason) (i : Fin 8) (s : State) :
    (beginStart slot k r i s).tally = (offer .startOrdered (some (i.val + 1)) 0 s).tally := by
  unfold beginStart
  refine offer_tally_congr _ _ _ ?_ ?_ ?_ <;> split <;> simp [queueUnitOrder]

theorem startsOffered_concat (starts : List (Fin 8)) (i : Fin 8) (s : State) :
    startsOffered (starts ++ [i]) s = offer .startOrdered (some (i.val + 1)) 0 (startsOffered starts s) := by
  simp [startsOffered]

/-- Starts offered read the tables and the quality level of the state they are offered from. -/
theorem startsOffered_stands (starts : List (Fin 8)) (s : State) :
    (startsOffered starts s).cfg = s.cfg ∧ (startsOffered starts s).lock = s.lock :=
  kept_foldl (P := fun t => t.cfg = s.cfg ∧ t.lock = s.lock) (fun _ _ h => by simpa using h) starts ⟨rfl, rfl⟩

theorem startsOffered_tally_congr (starts : List (Fin 8)) {s t : State} (hc : t.cfg = s.cfg) (ht : t.tally = s.tally)
    (hq : t.lock.quality = s.lock.quality) : (startsOffered starts t).tally = (startsOffered starts s).tally := by
  induction starts generalizing s t with
  | nil => exact ht
  | cons i starts ih => exact ih (by simpa using hc) (offer_tally_congr _ _ _ hc ht hq) (by simpa using hq)

/-- From `a` on no event has been offered but those of starts. -/
def startsFrom (a t : State) : Prop :=
  t.cfg = a.cfg ∧ t.lock = a.lock ∧ ∃ starts, t.tally = (startsOffered starts a).tally

theorem startsFrom.refl (a : State) : startsFrom a a := ⟨rfl, rfl, [], rfl⟩

/-- What writes neither the tables, nor the lock, nor the tallies offers nothing. -/
theorem startsFrom.of_eq {a s t : State} (h : startsFrom a s) (hc : t.cfg = s.cfg) (hl : t.lock = s.lock)
    (ht : t.tally = s.tally) : startsFrom a t :=
  ⟨hc.trans h.1, hl.trans h.2.1, by rw [ht]; exact h.2.2⟩

theorem tellWithdrawn_tally (why : Cause) (c : Claim) (s : State) : (tellWithdrawn why c s).tally = s.tally := by
  unfold tellWithdrawn
  split
  · split <;> simp [endRelease, notifyUnitAuthority, notifyClaim]
  · rfl

@[simp] theorem withdrawClaims_tally (p : Claim → Bool) (why : Cause) (s : State) :
    (withdrawClaims p why s).tally = s.tally :=
  kept_foldl (P := fun t => t.tally = s.tally) (fun _ c h => (tellWithdrawn_tally why c _).trans h) _ (by simp)

@[simp] theorem withdrawReason_tally (k : ReasonKind) (s : State) : (withdrawReason k s).tally = s.tally :=
  (congrArg State.tally (withdrawReason_others k s) :)

/-- The sequencer's entry to Failed offers nothing (R165). -/
theorem enterFailed_tally (why : Cause) (s : State) : (enterFailed why s).tally = s.tally := by
  unfold enterFailed
  simp [enterPhase, notifyPhase, withdrawShortfall]

theorem startsFrom.begin {a s : State} (h : startsFrom a s) (slot : Nat) (k : ReasonKind) (r : Reason) (i : Fin 8) :
    startsFrom a (beginStart slot k r i s) := by
  obtain ⟨hc, hl, starts, ht⟩ := h
  obtain ⟨cfg, lock⟩ := startsOffered_stands starts a
  have stands : (beginStart slot k r i s).lock = s.lock := (KeptEvaluation.lockStands s.lock).begin _ _ _ _ rfl
  refine ⟨(beginStart_frame slot k r i s).2.1.trans hc, stands.trans hl, starts ++ [i], ?_⟩
  rw [beginStart_tally, startsOffered_concat]
  exact offer_tally_congr _ _ _ (hc.trans cfg.symm) ht (by rw [hl, lock])

/-- A serving offers no event but those of its starts (R54, R66). -/
theorem startsFrom.serve (a : State) : KeptServe (startsFrom a) where
  notify := fun _ _ _ _ _ _ _ h => h.of_eq (by simp) (by simp) (by simp)
  book := fun _ _ _ _ _ h => h
  putReason := fun _ _ _ h => h
  begin := fun _ _ _ _ _ _ _ h => h.begin _ _ _ _
  failed := fun _ _ _ h => by
    exact h.of_eq ((KeptEvaluation.ofStanding fun _ c _ => c = _).enterFailed _ rfl)
      ((KeptEvaluation.lockStands _).enterFailed _ rfl) (enterFailed_tally _ _)

/-- What the change to Stale cancels is no event (R41). -/
theorem startsFrom.stale {a s : State} (h : startsFrom a s) : startsFrom a (staleEffects s) :=
  (startsFrom.serve a).raiseBlind (h.of_eq rfl rfl rfl)

/-- A settling of the quality offers no event but those of the starts that a change to Stale brings (R41). -/
theorem settleQuality_offered (s : State) :
    ∃ starts, (settleQuality s).tally = (startsOffered starts { s with lock := settledLock s.lock }).tally
      ∧ (qualityOf s.lock ≠ .stale → starts = []) := by
  by_cases h : qualityOf s.lock = .stale
  · rcases settleQuality_stale h with e | e
    · exact ⟨[], by rw [e]; rfl, fun _ => rfl⟩
    · rw [e]
      have told : startsFrom { s with lock := settledLock s.lock } (notify allLinks .qualityChange 0 (.quality .stale)
          (.quality s.lock.quality) 0 { s with lock := settledLock s.lock }) :=
        (startsFrom.serve _).notify _ _ _ _ _ _ _ (.refl _)
      obtain ⟨-, -, starts, ht⟩ := told.stale
      exact ⟨starts, ht, fun n => absurd h n⟩
  · exact ⟨[], (congrArg State.tally (settleQuality_others h) :), fun _ => rfl⟩

/-! ## What a settling leaves -/

@[simp] theorem setUnitState_claims (i : Fin 8) (st : UnitState) (why : Cause) (s : State) :
    (setUnitState i st why s).book.claims = s.book.claims := by
  unfold setUnitState
  split
  · rfl
  · simp [recompute]

/-- The claims stand through a serving outside Energising (R155, R165). -/
theorem KeptServe.ofClaims (cs : List Claim) {p : Phase} (h : p ≠ .energising) :
    KeptServe fun t => t.book.claims = cs ∧ t.seq.phase = p where
  notify := fun _ _ _ _ _ _ _ x => by simpa using x
  book := fun _ _ e _ _ x => ⟨e.trans x.1, x.2⟩
  putReason := fun _ _ _ x => x
  begin := fun _ _ _ _ _ _ _ x => by
    unfold beginStart
    split <;> simpa [queueUnitOrder] using x
  failed := fun _ _ e x => absurd (x.2.symm.trans e) h

/-- The Blind reason is raised in Idle and in Rebuilding alone, where a serving keeps the claims (R26, R41). -/
theorem raiseBlind_claims (s : State) : (raiseBlind s).book.claims = s.book.claims := by
  by_cases h : s.seq.phase = .energising
  · simp [raiseBlind, h, Phase.watchesShortfall]
  · exact ((KeptServe.ofClaims s.book.claims h).raiseBlind ⟨rfl, rfl⟩).1

theorem staleEffects_claims (s : State) : (staleEffects s).book.claims = s.book.claims := raiseBlind_claims _

/-- A settling of the quality keeps the claims (R26). -/
@[simp] theorem settleQuality_claims (s : State) : (settleQuality s).book.claims = s.book.claims := by
  by_cases h : qualityOf s.lock = .stale
  · rcases settleQuality_stale h with e | e
    · rw [e]
    · rw [e, staleEffects_claims, notify_book]
  · exact (congrArg (fun t : State => t.book.claims) (settleQuality_others h) :)

/-- A settling of the quality leaves the PV groups, the feeders, Restoration and the tables. -/
theorem settleQuality_records (s : State) : (settleQuality s).pvs = s.pvs ∧ (settleQuality s).feeders = s.feeders
    ∧ (settleQuality s).rest = s.rest ∧ (settleQuality s).cfg = s.cfg :=
  (KeptLock.ofRecords fun p f r c => p = s.pvs ∧ f = s.feeders ∧ r = s.rest ∧ c = s.cfg).settleQuality
    ⟨rfl, rfl, rfl, rfl⟩

end Sys2Proof.Machine
end

