-- ==== Sys2Proof/Proofs/SampleRules.lean ====
section
/-! A received sample case by case, as equations, and what an accepted one keeps on its way to the end of the command (R28 to
R36). -/

namespace Sys2Proof.Machine

variable {P : State → Prop}

/-! ## The cases of a received sample -/

/-- A sample has come: the gap timer restarts (R31). -/
def sampleHeard (s : State) : State := { s with lock := gapRestarted s.clock s.lock }

theorem sampleHeard_alike (s : State) : alike s (sampleHeard s) := ⟨rfl, rfl, rfl, rfl, rfl⟩

@[simp] theorem sampleSettled_unaccepted (s : State) : sampleSettled false s = settleQuality s := rfl

theorem receiveSample_wellFormed {p : List Byte} (h : p.length = 40) (s : State) :
    receiveSample 0x60 p true s =
      sampleSettled (takeRecord (SampleRec.parse p) (sampleHeard s)).2 (takeRecord (SampleRec.parse p) (sampleHeard s)).1 := by
  simp [receiveSample, sampleWellFormed, h, sampleHeard, gapRestarted]

theorem receiveSample_malformed {kind : Byte} {p : List Byte} {ok : Bool} (h : (ok && sampleWellFormed kind p) = false)
    (s : State) : receiveSample kind p ok s = settleQuality (advanceExpected (recordBad
      (if ok then sampleHeard s else offer .frameError (some 5) 0 (sampleHeard s)))) := by
  unfold receiveSample
  simp only [h]
  rfl

theorem takeRecord_hunt {s : State} (r : SampleRec) (h : s.lock.mode = .hunt) :
    takeRecord r s = (takeReference r s, false) := by
  simp [takeRecord, h]

theorem takeRecord_expected {s : State} {e : Byte} (r : SampleRec) (h : s.lock.mode ≠ .hunt) (x : s.lock.expected = some e) :
    takeRecord r s = sequenceRecord r e s := by
  unfold takeRecord
  cases mode : s.lock.mode with
  | hunt => exact absurd mode h
  | verify => rw [x]
  | locked => rw [x]

theorem sequenceRecord_next (r : SampleRec) (s : State) : sequenceRecord r r.seq s = judgeRecord r s := by
  simp [sequenceRecord]

theorem sequenceRecord_repeat {r : SampleRec} {e : Byte} (h : (r.seq - e).toNat = 255) (s : State) :
    sequenceRecord r e s = (recordBad s, false) := by
  simp [sequenceRecord, h]

/-- The record's own number is expected, behind a gap that kept the lock (R30). -/
def renumbered (r : SampleRec) (s : State) : State := { s with lock := { s.lock with expected := some r.seq } }

theorem alike.renumbered {s t : State} (h : alike s t) (r : SampleRec) : alike s (renumbered r t) :=
  ⟨h.cfg, h.tally, h.quality, h.mode, h.window⟩

section gap

variable {r : SampleRec} {e : Byte} {s : State} (gap : 1 ≤ (r.seq - e).toNat) (new : (r.seq - e).toNat ≠ 255)

include gap new

theorem sequenceRecord_lost (h : (lockAfterBads (min (r.seq - e).toNat 64) s.lock).mode = .hunt) :
    sequenceRecord r e s = (takeReference r (recordBads (min (r.seq - e).toNat 64) s), false) := by
  unfold sequenceRecord
  simp only []
  rw [if_neg (Nat.ne_of_gt gap), if_neg new, if_pos (by rw [recordBads_lock]; exact h)]

theorem sequenceRecord_kept (h : (lockAfterBads (min (r.seq - e).toNat 64) s.lock).mode ≠ .hunt) :
    sequenceRecord r e s = judgeRecord r (renumbered r (recordBads (min (r.seq - e).toNat 64) s)) := by
  unfold sequenceRecord
  simp only []
  rw [if_neg (Nat.ne_of_gt gap), if_neg new, if_neg (by rw [recordBads_lock]; exact h)]
  rfl

end gap

theorem judgeRecord_bad {r : SampleRec} (s : State) (h : r.good = false) :
    judgeRecord r s = (advanceExpected (recordBad s), false) := by
  simp [judgeRecord, h]

/-- A good judgement is offered, and the number behind the record's is expected (R29, R44). -/
def goodOffered (r : SampleRec) (s : State) : State :=
  { offer .sampleGood none 0 s with lock := { s.lock with expected := some (r.seq + 1) } }

@[simp] theorem goodOffered_cfg (r : SampleRec) (s : State) : (goodOffered r s).cfg = s.cfg := by simp [goodOffered]

@[simp] theorem goodOffered_gens (r : SampleRec) (s : State) : (goodOffered r s).gens = s.gens := by simp [goodOffered]

theorem judgeRecord_good {r : SampleRec} (s : State) (h : r.good = true) :
    judgeRecord r s = (accept r (goodEffect (goodOffered r s)), true) := by
  unfold judgeRecord
  rw [if_pos h]
  rfl

/-- An acceptance sets each present genset's last output (R46). -/
theorem accept_lastOutput (r : SampleRec) (s : State) (i : Fin 8) : (accept r s).gens[i].lastOutput =
    if s.cfg.gensets[i].present then clampTo s.cfg.gensets[i].rating r.gens[i].toInt else s.gens[i].lastOutput := by
  simp only [accept, Fin.getElem_fin, Vector.getElem_ofFn, lastOutputOf]
  split <;> rfl

/-! ## What an accepted sample keeps -/

/-- The writes of an accepted sample behind its judgement: those of an evaluation, the lock and the completion of entry. -/
structure KeptAcceptance (P : State → Prop) : Prop extends KeptEvaluation P where
  lock : ∀ (l : Lock) (s : State), P s → P { s with lock := l }
  entry : ∀ (e : Entry) (s : State), P s → P { s with entry := e }

namespace KeptAcceptance

theorem goodEffect (K : KeptAcceptance P) {s : State} (h : P s) : P (goodEffect s) := by
  unfold Machine.goodEffect
  split
  · exact h
  · split
    · exact K.lock _ _ h
    · exact K.judgeEntry K.entry (K.toServe.withdrawReason _ (K.lock _ _ h))
  · exact K.lock _ _ h

theorem settleQuality (K : KeptAcceptance P) {s : State} (h : P s) : P (settleQuality s) := by
  have told := K.notify allLinks .qualityChange 0 (.quality (qualityOf s.lock)) (.quality s.lock.quality) 0 _
    (K.lock { s.lock with quality := qualityOf s.lock } _ h)
  unfold Machine.settleQuality
  simp only []
  split
  · exact h
  · split
    · exact K.staleEffects told
    · exact K.toServe.withdrawReason _ told
    · exact told

theorem sampleSettled (K : KeptAcceptance P) (accepted : Bool) {s : State} (h : P s) : P (sampleSettled accepted s) :=
  sampleSettled_kept K.toKeptEvaluation accepted (K.settleQuality h)

end KeptAcceptance

/-- No write behind the judgement touches a last output (R46). -/
theorem KeptAcceptance.ofLastOutputs (f : Fin 8 → Nat) : KeptAcceptance fun t => ∀ i : Fin 8, t.gens[i].lastOutput = f i where
  notify := fun _ _ _ _ _ _ _ h => by simpa using h
  offer := fun _ _ _ _ _ h => by simpa using h
  book := fun _ _ _ h => h
  orders := fun _ _ _ _ h => h
  pvs := fun _ _ _ h => h
  gens := fun _ _ e h i => (e i).2.trans (h i)
  feeders := fun _ _ _ h => h
  setUnit := fun i st why s h j => by
    rw [setUnitState_gens]
    split
    · exact h j
    · by_cases x : i = j
      · subst x; simpa [enterUnitState] using h i
      · simpa [Fin.val_ne_iff.mpr x] using h j
  setFeeder := fun _ _ _ _ h => by simpa using h
  seq := fun _ _ h => h
  arb := fun _ _ h => h
  shed := fun _ _ h => h
  rest := fun _ _ h => h
  cur := fun _ _ h => h
  free := fun _ _ h => h
  lock := fun _ _ h => h
  entry := fun _ _ h => h

/-- The tally takes no event but the lock's own three. -/
def ofLockAlone (c : TallyCfg) : Prop := ∀ e : EventKind, c.events.getLsbD e.place = true → e.ofLock = true

/-- A tally that takes none but the lock's own events stands through an event that is none of these (R184). -/
theorem offer_live {c : TallyCfg} (h : ofLockAlone c) {kind : EventKind} (k : kind.ofLock = false) (index amount) {i : Fin 16}
    {s : State} (x : s.cfg.tallies[i] = c) : (offer kind index amount s).tally.live[i] = s.tally.live[i] := by
  have takes : s.cfg.tallies[i].takes s.lock.quality kind index = false := by
    rw [x]
    unfold TallyCfg.takes
    cases b : c.events.getLsbD kind.place
    · rfl
    · rw [h kind b] at k; cases k
  simpa [offer] using fun y => absurd y (by simpa using takes)

/-- Such a tally stands through the writes behind the judgement of an accepted sample. -/
theorem KeptAcceptance.ofLockTally {c : TallyCfg} (h : ofLockAlone c) (i : Fin 16) (v : Nat) :
    KeptAcceptance fun t => t.cfg.tallies[i] = c ∧ t.tally.live[i] = v where
  notify := fun _ _ _ _ _ _ _ x => by simpa using x
  offer := fun _ _ _ _ k x => ⟨x.1, (offer_live h k _ _ x.1).trans x.2⟩
  book := fun _ _ _ x => x
  orders := fun _ _ _ _ x => x
  pvs := fun _ _ _ x => x
  gens := fun _ _ _ x => x
  feeders := fun _ _ _ x => x
  setUnit := fun _ _ _ _ x => by simpa using x
  setFeeder := fun _ _ _ _ x => by simpa using x
  seq := fun _ _ x => x
  arb := fun _ _ x => x
  shed := fun _ _ x => x
  rest := fun _ _ x => x
  cur := fun _ _ x => x
  free := fun _ _ x => x
  lock := fun _ _ x => x
  entry := fun _ _ x => x

end Sys2Proof.Machine
end

