-- ==== Sys2Proof/Proofs/SamplesTaken.lean ====
section
/-! The samples of chapter 2: in sequence, in Hunt, after a gap, and bad (R28 to R36, R44). -/

namespace Sys2Proof.Machine

/-! ## In Hunt (R32) -/

/-- A lock in Verify has the level Degraded, whatever its age. -/
theorem qualityOf_reference (r : SampleRec) (l : Lock) : qualityOf (lockAfterReference r l) = .degraded := rfl

/-- What a reference taken leaves once its quality has been settled, which is no change to Stale (R32, R38). -/
theorem reference_settled (r : SampleRec) (s : State) :
    { settleQuality (takeReference r s) with lock := s.lock, arb := s.arb, links := s.links, tally := s.tally } = s
      ∧ (settleQuality (takeReference r s)).tally = (offer (if r.good then .sampleGood else .sampleBad) none 0 s).tally := by
  have settled := settleQuality_others (s := takeReference r s) (by simp [qualityOf_reference])
  have taken : { takeReference r s with lock := s.lock, tally := s.tally } = s := by
    unfold takeReference offer
    rfl
  refine ⟨?_, (congrArg State.tally settled).trans ?_⟩
  · exact (congrArg (fun t : State => { t with lock := s.lock, tally := s.tally }) settled).trans taken
  · exact offer_tally_congr _ _ _ rfl rfl rfl

/-- Settles O8: the reference moves the lock to Verify, whose level is Degraded, so no serving follows. -/
theorem sampleInHuntIsReference : Obligations.SampleInHuntIsReference := by
  intro p s len hunt
  have received : receiveSample 0x60 p true s = settleQuality (takeReference (SampleRec.parse p) (sampleHeard s)) := by
    rw [receiveSample_wellFormed len, takeRecord_hunt (s := sampleHeard s) _ hunt]
    rfl
  obtain ⟨others, tally⟩ := reference_settled (SampleRec.parse p) (sampleHeard s)
  refine ⟨_, rfl, ?_⟩
  rw [received]
  refine ⟨by simp [sampleHeard], tally.trans (sampleHeard_alike s |>.offer _ _ _).tally, ?_, ?_, ?_, ?_, ?_, ?_, ?_⟩
  · exact (congrArg (fun t : State => t.book.claims) others :)
  · exact (congrArg State.gens others :)
  · exact (congrArg State.feeders others :)
  · exact (congrArg State.pvs others :)
  · exact (congrArg State.cfg others :)
  · exact (congrArg State.seq others :)
  · exact (congrArg State.rest others :)

/-! ## In sequence (R29, R33 to R36) -/

/-- A good sample in sequence is judged, accepted and settled, and starts an evaluation (R35, R36). -/
theorem receiveSample_inSequence {p : List Byte} {s : State} (len : p.length = 40) (started : s.lock.mode ≠ .hunt)
    (next : s.lock.expected = some (SampleRec.parse p).seq) :
    receiveSample 0x60 p true s =
      sampleSettled (judgeRecord (SampleRec.parse p) (sampleHeard s)).2 (judgeRecord (SampleRec.parse p) (sampleHeard s)).1 := by
  rw [receiveSample_wellFormed len, takeRecord_expected (s := sampleHeard s) _ started next, sequenceRecord_next]

/-- The acceptance sets each present genset's last output, whatever the judgement before it brought (R46). -/
theorem judgeRecord_lastOutput {r : SampleRec} (s : State) (good : r.good = true) (i : Fin 8) :
    (judgeRecord r s).1.gens[i].lastOutput =
      if s.cfg.gensets[i].present then clampTo s.cfg.gensets[i].rating r.gens[i].toInt else s.gens[i].lastOutput := by
  have kept : (goodEffect (goodOffered r s)).gens[i].lastOutput = s.gens[i].lastOutput :=
    (KeptAcceptance.ofLastOutputs fun i => s.gens[i].lastOutput).goodEffect (s := goodOffered r s) (fun _ => by simp) i
  have tables : (goodEffect (goodOffered r s)).cfg = s.cfg := by simp
  rw [judgeRecord_good s good]
  dsimp only
  rw [accept_lastOutput, tables, kept]

/-- A good judgement that leaves the lock's state as it is is counted, and brings nothing else (R33, R34). -/
theorem goodEffect_steady {s : State}
    (h : s.lock.mode = .locked ∨ (s.lock.mode = .verify ∧ s.lock.verifyCount + 1 < Config.verifyTarget)) :
    goodEffect s = { s with lock := lockCounted s.lock } := by
  unfold goodEffect lockCounted
  rcases h with mode | ⟨mode, count⟩
  · simp only [mode]
  · simp only [mode, if_pos count]

/-- A steady sample is accepted without a serving: the state that it hands on is `sampled` (R36). -/
theorem judgeRecord_steady {p : List Byte} {s : State} (h : SteadySample p s) :
    judgeRecord (SampleRec.parse p) (sampleHeard s) = (sampled p s, true) := by
  have steady : goodEffect (goodOffered (SampleRec.parse p) (sampleHeard s)) = _ :=
    goodEffect_steady (h.steady.imp (·.1) fun x => ⟨x.1, x.2.1⟩)
  rw [judgeRecord_good _ h.good, steady]
  unfold sampled sampledLock goodOffered accept
  rw [lockAfterGood_eq]
  unfold offer
  rfl

theorem sampled_quality {p : List Byte} {s : State} (h : SteadySample p s) :
    qualityOf (sampled p s).lock = (sampled p s).lock.quality := by
  rcases h.steady with ⟨mode, quality⟩ | ⟨mode, count, quality⟩
  · simp [sampled, sampledLock, lockAfterGood, gapRestarted, mode, quality, qualityOf]
  · simp [sampled, sampledLock, lockAfterGood, gapRestarted, mode, count, quality, qualityOf]

/-- Settles O7: the judgement moves the lock as `lockAfterGood`, the acceptance sets the last outputs, and neither the settling
nor the evaluation touches either. -/
theorem sampleInSequenceAccepted : Obligations.SampleInSequenceAccepted := by
  intro p s len started next good
  refine ⟨_, rfl, ?_, ?_, ?_⟩ <;> rw [receiveSample_inSequence len started next]
  · rw [finish_lock, sampleSettled_lock, judgeRecord_good_lock _ good]
    rfl
  · exact (KeptAcceptance.ofLastOutputs _).sampleSettled _ fun i => judgeRecord_lastOutput (sampleHeard s) good i
  · intro steady
    rw [judgeRecord_steady steady]
    unfold sampleSettled settleQuality
    simp [sampled_quality steady, show (sampled p s).entry = s.entry from rfl, steady.entered]

end Sys2Proof.Machine
end

