-- ==== Sys2Proof/Proofs/BadJudgements.lean ====
section
/-! Bad judgements, alone and after a gap (R29 to R34, R41, R44). -/

namespace Sys2Proof.Machine

/-! ## What a settling offers and leaves -/

/-- The events of `t` are those of `u` and of the starts that a change to Stale brought, in the quality then in force (R41). -/
def offersStarts (u t : State) : Prop :=
  ∃ starts, t.tally = (startsOffered starts { u with lock := t.lock }).tally ∧ (t.lock.quality ≠ .stale → starts = [])

/-- A state whose quality is settled at the end of a command. -/
theorem settled_offersStarts {u v : State} (hc : v.cfg = u.cfg) (ht : v.tally = u.tally) :
    offersStarts u (finish (settleQuality v)) := by
  obtain ⟨starts, offered, stale⟩ := settleQuality_offered v
  refine ⟨starts, offered.trans ?_, fun n => stale ?_⟩
  · exact startsOffered_tally_congr _ hc ht (by simp)
  · simpa [settledLock] using n

/-- A state whose quality is settled at the end of a command, where the lock and the tallies alone were written before. -/
theorem settled_records {s v : State} (h : { v with lock := s.lock, tally := s.tally } = s) :
    (finish (settleQuality v)).book.claims = s.book.claims ∧ (finish (settleQuality v)).feeders = s.feeders
      ∧ (finish (settleQuality v)).pvs = s.pvs ∧ (finish (settleQuality v)).cfg = s.cfg
      ∧ (finish (settleQuality v)).rest = s.rest := by
  obtain ⟨pvs, feeders, rest, cfg⟩ := settleQuality_records v
  refine ⟨(settleQuality_claims v).trans ?_, feeders.trans ?_, pvs.trans ?_, cfg.trans ?_, rest.trans ?_⟩
  · exact (congrArg (fun t : State => t.book.claims) h :)
  · exact (congrArg State.feeders h :)
  · exact (congrArg State.pvs h :)
  · exact (congrArg State.cfg h :)
  · exact (congrArg State.rest h :)

/-! ## One bad judgement (R29, R31, R32, R34) -/

/-- The events of a bad judgement of the lock `l`, offered behind those of `a` (R34, R44). -/
def badOffered (l : Lock) (a : State) : State :=
  if l.mode = .locked ∧ 6 ≤ badCount (pushJudgement false l.window) then offer .lockLost none 0 (offer .sampleBad none 0 a)
  else offer .sampleBad none 0 a

theorem badOffered_cfg (l : Lock) (a : State) : (badOffered l a).cfg = a.cfg := by
  unfold badOffered
  split <;> simp

/-- A bad judgement that moves the expected number on, taken in `x`, which differs from `s` in the lock and the tallies alone and
whose events are those of `a`. -/
theorem bad_settled {s a x : State} (others : { x with lock := s.lock, tally := s.tally } = s) (h : alike a x)
    (stands : a.lock = s.lock) :
    (finish (settleQuality (advanceExpected (recordBad x)))).lock = settledLock (movedOn (lockAfterBad x.lock))
      ∧ offersStarts (badOffered s.lock a) (finish (settleQuality (advanceExpected (recordBad x))))
      ∧ (finish (settleQuality (advanceExpected (recordBad x)))).book.claims = s.book.claims
      ∧ (finish (settleQuality (advanceExpected (recordBad x)))).feeders = s.feeders
      ∧ (finish (settleQuality (advanceExpected (recordBad x)))).pvs = s.pvs
      ∧ (finish (settleQuality (advanceExpected (recordBad x)))).cfg = s.cfg
      ∧ (finish (settleQuality (advanceExpected (recordBad x)))).rest = s.rest := by
  have judged : alike (recordBad a) (recordBad x) := h.recordBad
  have tally : (recordBad a).tally = (badOffered s.lock a).tally := by rw [recordBad_tally, stands]; rfl
  have cfg : (recordBad a).cfg = (badOffered s.lock a).cfg :=
    (congrArg State.cfg (recordBad_others a) :).trans (badOffered_cfg _ _).symm
  refine ⟨by simp, settled_offersStarts (judged.cfg.trans cfg) (judged.tally.trans tally), settled_records ?_⟩
  exact (congrArg (fun t : State => { t with lock := s.lock, tally := s.tally }) (recordBad_others x)).trans others

/-- Settles O10: each of the three commands records one bad judgement, moves the expected number on and settles the quality. -/
theorem badJudgementTaken : Obligations.BadJudgementTaken := by
  refine ⟨fun kind p ok s malformed => ?_, fun p s len started next bad => ?_, fun g s due time => ?_⟩
  · refine ⟨_, rfl, ?_⟩
    rw [receiveSample_malformed malformed]
    cases ok with
    | true => exact bad_settled (s := s) (a := s) rfl (sampleHeard_alike s) rfl
    | false =>
      refine bad_settled (s := s) (a := offer .frameError (some 5) 0 s) ?_ ((sampleHeard_alike s).offer _ _ _) (by simp)
      unfold offer
      rfl
  · refine ⟨_, rfl, ?_⟩
    rw [receiveSample_inSequence len started next, judgeRecord_bad _ bad]
    exact bad_settled (s := s) (a := s) rfl (sampleHeard_alike s) rfl
  · refine ⟨_, rfl, ?_⟩
    have taken : gapTimerEnds s = settleQuality (advanceExpected (recordBad
        { s with lock := { s.lock with gapNext := some (after g 100) } })) := by
      unfold gapTimerEnds
      simp only [due, time, if_true]
    rw [taken]
    exact bad_settled (s := s) (a := s) rfl ⟨rfl, rfl, rfl, rfl, rfl⟩ rfl

/-! ## After a gap (R30) -/

/-- A tally that takes only the lock's own three kinds, said by the list of them (R44). -/
theorem ofLockAlone.of_mem {c : TallyCfg}
    (h : ∀ e : EventKind, c.events.getLsbD e.place = true → e ∈ [EventKind.sampleGood, .sampleBad, .lockLost]) :
    ofLockAlone c := by
  intro e x
  have m := h e x
  simp only [List.mem_cons, List.not_mem_nil, or_false] at m
  rcases m with rfl | rfl | rfl <;> rfl

/-- A tally of the lock's own events holds at the end what the good judgement left in it (R44). -/
theorem accepted_tally {r : SampleRec} {s : State} (good : r.good = true) {i : Fin 16} (h : ofLockAlone s.cfg.tallies[i]) :
    (sampleSettled (judgeRecord r s).2 (judgeRecord r s).1).tally.live[i] = (offer .sampleGood none 0 s).tally.live[i] := by
  have K := KeptAcceptance.ofLockTally h i (offer .sampleGood none 0 s).tally.live[i]
  rw [judgeRecord_good s good]
  have taken := K.goodEffect (s := goodOffered r s) ⟨by simp, rfl⟩
  exact (K.sampleSettled true (s := accept r (goodEffect (goodOffered r s))) taken).2

theorem renumbered_lock (r : SampleRec) (s : State) :
    (renumbered r s).lock = { s.lock with expected := some r.seq } := rfl

theorem renumbered_clock (r : SampleRec) (s : State) : (renumbered r s).clock = s.clock := rfl

/-- The number expected before a good record in sequence leaves no trace (R29). -/
theorem lockAfterGood_renumbered (r : SampleRec) (now : Time) (l : Lock) (e : Option Byte) :
    lockAfterGood r now { l with expected := e } = lockAfterGood r now l := by
  rw [lockAfterGood_eq, lockAfterGood_eq]

/-- Settles O9: a gap is so many bad judgements of a state whose gap timer has restarted, which no judgement and no tally reads,
and then a reference or a judgement of the record. -/
theorem sequenceGapJudged : Obligations.SequenceGapJudged := by
  intro p e s len started expected r k l0 l1 bads offered lockOnly gap
  have bads_eq : ∀ n, bads n = recordBads n s := fun n => (recordBads_offered n s).symm
  have heard : ∀ n, alike (recordBads n s) (recordBads n (sampleHeard s)) := fun n => (sampleHeard_alike s).recordBads n
  have received : receiveSample 0x60 p true s =
      sampleSettled (sequenceRecord r e (sampleHeard s)).2 (sequenceRecord r e (sampleHeard s)).1 := by
    rw [receiveSample_wellFormed len, takeRecord_expected (s := sampleHeard s) _ started expected]
  refine ⟨_, rfl, fun repeated => ?_, fun new lost => ?_, fun new kept good => ?_, fun new kept bad => ?_⟩
  · rw [received, sequenceRecord_repeat repeated, bads_eq]
    exact ⟨by simp [l0, sampleHeard], settled_offersStarts (heard 1).cfg (heard 1).tally⟩
  · rw [received, sequenceRecord_lost gap new lost, bads_eq]
    obtain ⟨-, tally⟩ := reference_settled r (recordBads (min k 64) (sampleHeard s))
    refine ⟨?_, tally.trans ((heard (min k 64)).offer _ _ _).tally⟩
    rw [sampleSettled_unaccepted, finish_lock, settleQuality_lock, takeReference_lock, recordBads_lock]
    rfl
  · have same := (heard (min k 64)).renumbered r
    rw [received, sequenceRecord_kept gap new kept, bads_eq]
    refine ⟨?_, fun i only => ?_⟩
    · rw [finish_lock, sampleSettled_lock, judgeRecord_good_lock _ good, renumbered_lock, lockAfterGood_renumbered,
        recordBads_lock, renumbered_clock, recordBads_clock]
      rfl
    · refine (accepted_tally good ?_).trans ?_
      · rw [same.cfg, recordBads_cfg]
        exact .of_mem only
      · rw [(same.offer .sampleGood none 0).tally]
  · have same := ((heard (min k 64)).renumbered r).recordBad
    rw [received, sequenceRecord_kept gap new kept, bads_eq, judgeRecord_bad _ bad, recordBads_succ]
    refine ⟨?_, settled_offersStarts same.cfg same.tally⟩
    rw [sampleSettled_unaccepted, finish_lock, settleQuality_lock, advanceExpected_lock, recordBad_lock, renumbered_lock,
      recordBads_lock]
    rfl

end Sys2Proof.Machine
end

