-- ==== Sys2Proof/Proofs/BadFrames.lean ====
section
/-! Frames abandoned, refused and overrun (R28, R168 to R170). -/

namespace Sys2Proof.Machine

/-! ## Framers -/

@[simp] theorem framerOf_setFramer_same (line : Line) (f : Framer) (s : State) : framerOf (setFramer line f s) line = f := by
  cases line <;> simp [framerOf, setFramer]

theorem framerOf_setFramer_ne {line m : Line} (f : Framer) (s : State) (h : m ≠ line) :
    framerOf (setFramer line f s) m = framerOf s m := by
  cases line with
  | sample =>
    cases m with
    | sample => exact absurd rfl h
    | station l => rfl
  | station k =>
    cases m with
    | sample => rfl
    | station l => simp only [framerOf, setFramer]; rw [modLink_get_ne _ _ fun e => h (by rw [e])]

/-- A framer replaced is all that changes of a link. -/
theorem setFramer_get (line : Line) (f : Framer) (s : State) (l : Link) :
    ∃ g, (setFramer line f s).links.get l = { s.links.get l with framer := g } := by
  cases line with
  | sample => exact ⟨_, rfl⟩
  | station k =>
    by_cases e : l = k
    · subst e; exact ⟨f, by simp [setFramer]⟩
    · exact ⟨_, modLink_get_ne _ _ e⟩

theorem setFramer_others (line : Line) (f : Framer) (s : State) :
    { setFramer line f s with links := s.links, sampleFramer := s.sampleFramer } = s := by
  cases line <;> rfl

@[simp] theorem finish_framerOf (s : State) (line : Line) : framerOf (finish s) line = framerOf s line := by
  cases line with
  | sample => rfl
  | station l => simp [framerOf]

/-- The reply begun is the first of those that wait. -/
@[simp] theorem pump_replyLine (c : LinkCtl) : replyLine c.pump = replyLine c := by
  unfold LinkCtl.pump replyLine
  cases hs : c.sending with
  | some f => simp [hs]
  | none =>
    cases hr : c.replies with
    | cons r rs => simp
    | nil => cases ha : c.active <;> cases ho : c.orders <;> simp [hr, hs]

/-! ## Frame errors (R168) -/

/-- From `s` to `t` one frame error of a line was offered, and no more than its framer may have changed. -/
def errorCounted (line : Line) (s t : State) : Prop :=
  t.tally = (offer .frameError (some (lineIndex line)) 0 s).tally
    ∧ (∀ l : Link, (t.links.get l).silenceFrom = (s.links.get l).silenceFrom
        ∧ replyLine (t.links.get l) = replyLine (s.links.get l)
        ∧ orderLine (t.links.get l) = orderLine (s.links.get l) ∧ noticesOf t l = noticesOf s l)
    ∧ (∀ m : Line, m ≠ line → framerOf t m = framerOf s m)
    ∧ { t with links := s.links, sampleFramer := s.sampleFramer, tally := s.tally } = s

/-- The frames that begin at the end of the command come from the queues as they were (log 11). -/
theorem errorCounted.finish {line : Line} {s t : State} (h : errorCounted line s t) : errorCounted line s (finish t) := by
  obtain ⟨tally, links, framers, others⟩ := h
  refine ⟨tally, fun l => ?_, fun m ne => (finish_framerOf t m).trans (framers m ne), others⟩
  obtain ⟨silence, replies, orders, notices⟩ := links l
  simp only [noticesOf, finish_get] at notices ⊢
  exact ⟨by simpa using silence, by simpa using replies, by simpa using orders, by simpa using notices⟩

theorem frameError_others (line : Line) (s : State) : { frameError line s with tally := s.tally } = s := by
  unfold frameError offer
  rfl

@[simp] theorem frameError_links (line : Line) (s : State) : (frameError line s).links = s.links := by simp [frameError]

@[simp] theorem frameError_framerOf (line m : Line) (s : State) : framerOf (frameError line s) m = framerOf s m := by
  cases m <;> simp [framerOf, frameError]

/-- A frame error with its framer left as it is (R168; log 15). -/
theorem frameError_counted (line : Line) (s : State) : errorCounted line s (frameError line s) := by
  refine ⟨rfl, fun l => ?_, fun m _ => frameError_framerOf line m s, ?_⟩
  · simp [noticesOf]
  · exact frameError_others line s

/-- A frame abandoned: its framer hunts, and the frame error is offered (R168). -/
theorem abandoned_counted (line : Line) (s : State) : errorCounted line s (frameError line (setFramer line .hunting s)) := by
  have others := setFramer_others line .hunting s
  refine ⟨?_, fun l => ?_, fun m ne => (frameError_framerOf line m _).trans (framerOf_setFramer_ne _ s ne), ?_⟩
  · exact offer_tally_congr _ _ _ (congrArg State.cfg others :) (congrArg State.tally others :)
      (congrArg (fun t : State => t.lock.quality) others :)
  · obtain ⟨g, e⟩ := setFramer_get line .hunting s l
    unfold noticesOf
    rw [frameError_links, e]
    exact ⟨rfl, rfl, rfl, rfl⟩
  · exact (congrArg (fun t : State => { t with links := s.links, sampleFramer := s.sampleFramer, tally := s.tally })
      (frameError_others line (setFramer line .hunting s))).trans
      (congrArg (fun t : State => { t with tally := s.tally }) others)

section begun

variable {line : Line} {bs : List Byte} {last : Time} {s : State} (begun : framerOf s line = .inFrame bs last)

include begun

theorem gapPassed_begun : gapPassed s.clock (framerOf s line) = reached s.clock (after last 11) := by rw [begun]; rfl

/-- A gap that has passed abandons the frame begun (R168; log 14). -/
theorem interByteEnds_passed (h : reached s.clock (after last 11) = true) :
    interByteEnds line s = frameError line (setFramer line .hunting s) := by
  unfold interByteEnds
  rw [gapPassed_begun begun, if_pos h]

theorem interByteEnds_within (h : reached s.clock (after last 11) = false) : interByteEnds line s = s := by
  unfold interByteEnds
  rw [gapPassed_begun begun, h]
  rfl

/-- The byte that comes after a gap is taken as by a line that hunts (R168). -/
theorem receiveByte_passed (b : Byte) (h : reached s.clock (after last 11) = true) :
    receiveByte line b s = receiveByte line b (frameError line (setFramer line .hunting s)) := by
  have hunts : interByteEnds line (frameError line (setFramer line .hunting s)) =
      frameError line (setFramer line .hunting s) := by
    unfold interByteEnds
    rw [frameError_framerOf, framerOf_setFramer_same]
    rfl
  unfold receiveByte
  rw [interByteEnds_passed begun h, hunts]

/-- A byte that ends its frame puts the framer back to hunting, and what it ended joins the queue (R168; log 9). -/
theorem receiveByte_ends {b : Byte} (h : reached s.clock (after last 11) = false) {r : FramerResult} {c : Instr}
    (judged : judgeBytes s.clock (bs ++ [b]) = r) (ends : ∀ f, r ≠ .more f) (e : commandOfResult line r = some c) :
    receiveByte line b s = setFramer line .hunting { s with pending := s.pending ++ [c] } := by
  unfold receiveByte
  rw [interByteEnds_within begun h]
  simp only [begun, Framer.take, judged, e, Option.toList_some]
  cases r with
  | more f => exact absurd rfl (ends f)
  | _ => cases line <;> rfl

end begun

theorem judgeBytes_tooLong (now : Time) (kind tag : Byte) {len : Byte} (h : 120 < len.toNat) :
    judgeBytes now [kind, tag, len] = .tooLong := by
  simp [judgeBytes, h]

theorem judgeBytes_wrongCheck (now : Time) {kind tag len lo b : Byte} {p : List Byte} (fits : len.toNat ≤ 120)
    (whole : p.length = len.toNat) (wrong : b ++ lo ≠ frameCheck (kind :: tag :: len :: p)) :
    judgeBytes now (kind :: tag :: len :: p ++ [lo] ++ [b]) = .wrongCheck kind tag p := by
  have payload : (p ++ [lo, b]).take len.toNat = p := by rw [← whole]; simp
  have check : le16 (p ++ [lo, b]) len.toNat = b ++ lo := by simp [le16, byteAt, ← whole]
  simp only [List.cons_append, List.append_assoc, List.nil_append, judgeBytes]
  rw [if_neg (Nat.not_lt.mpr fits), if_neg (by simp [whole]), check, payload, if_neg wrong]

/-! ## Refused and overrun frames (R169, R170) -/

/-- A good frame of an Active link restarts its silence timer alone (R168). -/
theorem goodFrame_active {l : Link} {s : State} (h : linkActive s l = true) : goodFrame l s = restartSilence l s := by
  unfold goodFrame
  simp only []
  rw [if_pos]
  simpa [linkActive, restartSilence] using h

theorem repliesFull_restartSilence (l : Link) (s : State) : repliesFull (restartSilence l s) l = repliesFull s l := by
  unfold repliesFull restartSilence
  rw [modLink_get_self]
  rfl

/-- A refusal is all that a refused frame brings (R169, R170). -/
theorem request_refuse {l : Link} {s : State} (h : Ready s l) (kind tag : Byte) (st : Status) :
    request l kind tag (refuse st) s = placeReply l (replyTo kind tag (answer st)) (restartSilence l s) := by
  unfold request
  simp only []
  rw [goodFrame_active h.active, repliesFull_restartSilence, h.room]
  rfl

/-- Settles O41: each bad frame is followed through the framer to the command it ends in, and a refused one through its reply. -/
theorem badFramesHandled : Obligations.BadFramesHandled := by
  refine ⟨fun line bs last b s begun => ⟨fun passed => ⟨?_, ?_⟩, fun within => ⟨?_, ?_, ?_⟩⟩, ?_, fun s => rfl,
    ?_, ?_, ?_, ?_⟩
  · refine ⟨_, rfl, ?_, ?_⟩ <;> rw [interByteEnds_passed begun passed]
    · simp
    · exact (abandoned_counted line s).finish
  · exact ⟨_, receiveByte_passed begun b passed, by simp, abandoned_counted line s⟩
  · exact congrArg completed (interByteEnds_within begun within)
  · rintro kind tag rfl long
    have judged := judgeBytes_tooLong s.clock kind tag long
    exact receiveByte_ends begun within judged nofun rfl
  · rintro kind tag len p lo rfl fits whole wrong
    have judged := judgeBytes_wrongCheck s.clock fits whole wrong
    exact receiveByte_ends begun within judged nofun (by cases line <;> rfl)
  · intro line why s known
    have fails : frameFails line why s = frameError line s := by
      cases line with
      | station l => rfl
      | sample =>
        obtain rfl := known.resolve_left (fun ne => ne rfl)
        rfl
    refine ⟨_, rfl, ?_, ?_⟩ <;> rw [fails]
    · simp
    · exact (frameError_counted line s).finish
  · intro l kind tag p st s ready refused
    have answered : refusedFrame l kind tag p s = request l kind tag (refuse st) s := by
      unfold refusedFrame
      rw [refused]
    rw [request_refuse ready] at answered
    exact congrArg completed answered
  · intro l kind p
    refine ⟨fun unknown => by simp [frameRefusal, unknown], fun ls known => ⟨fun out => ?_, fun permitted short => ?_⟩⟩
    · simp [frameRefusal, known, out]
    · simp [frameRefusal, known, permitted, short]
  · intro action high
    simp [frameRefusal, kindLinks, lengthFits, byteAt, high]
  · intro l s active full
    have overruns : replyOverruns l s = offer .frameError (some (linkIndex l)) 0 (restartSilence l s) := by
      unfold replyOverruns overrun
      rw [if_pos full, goodFrame_active active]
    exact congrArg completed overruns

end Sys2Proof.Machine
end

