-- ==== Sys2Proof/Proofs/Told.lean ====
section
/-! What is told of the changes of one command: of units, lockouts and feeders by the write that makes them (R47, R48, R111), of
the quality by its settling (R38). Notice queues only grow within a command, so what was told stays told (R173). -/

namespace Sys2Proof.Machine

/-! ## Notice queues grow (R173) -/

/-- From `s` to `t` records may have joined the notice queues, and none has left. -/
def noticesGrow (s t : State) : Prop := ∀ l, noticesOf s l <+: noticesOf t l

theorem noticesGrow.of_links {s t : State} (h : t.links = s.links) : noticesGrow s t :=
  fun l => by unfold noticesOf; rw [h]

theorem toldOf.grow {s t : State} {l : Link} {p : Notice → Prop} (h : noticesGrow s t) (told : toldOf s l p) : toldOf t l p :=
  told.imp (fun ⟨n, m, hp⟩ => ⟨n, (h l).subset m, hp⟩) fun full => full.trans (h l).length_le

theorem toldOf.imp {t : State} {l : Link} {p q : Notice → Prop} (h : ∀ n, p n → q n) (told : toldOf t l p) : toldOf t l q :=
  Or.imp_left (fun ⟨n, m, hp⟩ => ⟨n, m, h n hp⟩) told

theorem LinkCtl.notify_grows (n : Notice) (c : LinkCtl) : c.notices <+: (c.notify n).notices := by
  unfold LinkCtl.notify
  split
  · exact ⟨[n], rfl⟩
  · exact ⟨[], List.append_nil _⟩

theorem modLink_grows {l : Link} {f : LinkCtl → LinkCtl} {s : State}
    (h : (s.links.get l).notices <+: (f (s.links.get l)).notices) : noticesGrow s (modLink l f s) := by
  intro m
  unfold noticesOf
  by_cases e : m = l
  · subst e; simpa using h
  · rw [modLink_get_ne _ _ e]

theorem notify_grows (ls kind index subject cause id) (s : State) :
    noticesGrow s (notify ls kind index subject cause id s) :=
  kept_foldl (P := noticesGrow s) (fun _ _ h l => (h l).trans (modLink_grows (LinkCtl.notify_grows _ _) l)) ls
    fun _ => ⟨[], List.append_nil _⟩

/-- A record placed stands in the queue of each link of its routing, or that queue is full (R173). -/
theorem notify_told {ls : List Link} {l : Link} (h : l ∈ ls) (kind index subject cause id) (s : State) :
    toldOf (notify ls kind index subject cause id s) l (· = ⟨kind, index, subject, cause, id, s.clock⟩) := by
  induction ls generalizing s with
  | nil => cases h
  | cons m ls ih =>
    by_cases later : l ∈ ls
    · exact ih later (modLink m (LinkCtl.notify ⟨kind, index, subject, cause, id, s.clock⟩) s)
    · obtain rfl := (List.mem_cons.mp h).resolve_right later
      refine toldOf.grow (notify_grows ls kind index subject cause id
        (modLink l (LinkCtl.notify ⟨kind, index, subject, cause, id, s.clock⟩) s)) ?_
      unfold toldOf noticesOf
      rw [modLink_get_self]
      unfold LinkCtl.notify
      split
      · exact .inl ⟨_, List.mem_append_right _ (List.mem_singleton.mpr rfl), rfl⟩
      · next full => exact .inr (Nat.not_lt.mp full)

/-! ## Changes told -/

/-- A record of this kind, index, subject and time stands in the queue of link `l`, or the queue is full. -/
def toldAs (t : State) (l : Link) (kind : NoticeKind) (index : Nat) (subject : Subject) (time : Time) : Prop :=
  toldOf t l fun n => n.kind = kind ∧ n.index = index ∧ n.subject = subject ∧ n.time = time

theorem notify_toldAs {ls : List Link} {l : Link} (h : l ∈ ls) (kind index subject cause id) (s : State) :
    toldAs (notify ls kind index subject cause id s) l kind index subject s.clock :=
  toldOf.imp (by rintro n rfl; exact ⟨rfl, rfl, rfl, rfl⟩) (notify_told h kind index subject cause id s)

/-- From `s` to `t` every change of a unit, a lockout flag or a feeder has been told, at the clock time, which stands. -/
structure tells (s t : State) : Prop where
  clock : t.clock = s.clock
  grows : noticesGrow s t
  units : ∀ i : Fin 8, t.gens[i].state ≠ s.gens[i].state → ∀ l ∈ [Link.S, .G],
    toldAs t l .unitState (i.val + 1) (.unit t.gens[i].state) s.clock
  lockouts : ∀ i : Fin 8, s.cfg.gensets[i].lockout = false → t.cfg.gensets[i].lockout = true → ∀ l ∈ [Link.S, .G],
    toldAs t l .unitLockout (i.val + 1) (.unit .lockedOut) s.clock
  feeders : ∀ k : Fin 24, t.feeders[k].state ≠ s.feeders[k].state → ∀ l ∈ [Link.S, .F],
    toldAs t l .feederState (k.val + 1) (.feeder t.feeders[k].state) s.clock

namespace tells

/-- A step that changes none of them and takes no record away. -/
theorem other {s t : State} (clock : t.clock = s.clock) (grows : noticesGrow s t)
    (units : ∀ i : Fin 8, t.gens[i].state = s.gens[i].state) (lockouts : locksNone s.cfg t.cfg)
    (feeders : ∀ k : Fin 24, t.feeders[k].state = s.feeders[k].state) : tells s t where
  clock := clock
  grows := grows
  units := fun i n => absurd (units i) n
  lockouts := fun i a b => by rw [lockouts i b] at a; cases a
  feeders := fun k n => absurd (feeders k) n

/-- A step that leaves the clock, the links, the units, the feeders and the tables. -/
theorem still {s t : State} (clock : t.clock = s.clock) (links : t.links = s.links) (gens : t.gens = s.gens)
    (feeders : t.feeders = s.feeders) (cfg : t.cfg = s.cfg) : tells s t :=
  .other clock (.of_links links) (fun _ => by rw [gens]) (by rw [cfg]; exact fun _ h => h) fun _ => by rw [feeders]

theorem refl (s : State) : tells s s := .still rfl rfl rfl rfl rfl

/-- A change is told by the step that made it last. -/
theorem trans {s t u : State} (a : tells s t) (b : tells t u) : tells s u where
  clock := b.clock.trans a.clock
  grows := fun l => (a.grows l).trans (b.grows l)
  units := fun i n l hl => by
    by_cases e : u.gens[i].state = t.gens[i].state
    · rw [e] at n ⊢
      exact (a.units i n l hl).grow b.grows
    · rw [← a.clock]
      exact b.units i e l hl
  lockouts := fun i before now l hl => by
    cases e : t.cfg.gensets[i].lockout
    · rw [← a.clock]
      exact b.lockouts i e now l hl
    · exact (a.lockouts i before e l hl).grow b.grows
  feeders := fun k n l hl => by
    by_cases e : u.feeders[k].state = t.feeders[k].state
    · rw [e] at n ⊢
      exact (a.feeders k n l hl).grow b.grows
    · rw [← a.clock]
      exact b.feeders k e l hl

theorem notify (ls kind index subject cause id) (s : State) : tells s (Machine.notify ls kind index subject cause id s) :=
  .other (by simp) (notify_grows _ _ _ _ _ _ _) (fun _ => by simp) (by rw [notify_cfg]; exact fun _ h => h) fun _ => by simp

theorem offer (kind index amount) (s : State) : tells s (Machine.offer kind index amount s) :=
  .still (by simp) (by simp) (by simp) (by simp) (by simp)

/-- A link changed that keeps its notices. -/
theorem link {l : Link} {f : LinkCtl → LinkCtl} {s : State} (h : (f (s.links.get l)).notices = (s.links.get l).notices) :
    tells s (modLink l f s) :=
  .other rfl (modLink_grows (by rw [h])) (fun _ => rfl) (fun _ x => x) fun _ => rfl

/-- A unit's state is set with its notice (R48). -/
theorem setUnitState (i : Fin 8) (st : UnitState) (why : Cause) (s : State) : tells s (Machine.setUnitState i st why s) := by
  unfold Machine.setUnitState
  split
  · exact .refl s
  · have told := fun l hl => notify_toldAs (l := l) (ls := [.S, .G]) hl .unitState (i.val + 1) (.unit st) (.code why) 0
      (modGen i (enterUnitState s i st) s)
    refine .trans ⟨?_, notify_grows [.S, .G] _ _ _ _ _ (modGen i (enterUnitState s i st) s), fun j n => ?_, ?_, ?_⟩
      (.still rfl rfl rfl rfl rfl)
    · simp
    · by_cases e : i = j
      · subst e
        simpa [enterUnitState] using told
      · rw [notify_gens, modGen_gens_ne _ _ (Ne.symm e)] at n
        exact absurd rfl n
    · intro j a b
      rw [notify_cfg] at b
      exact absurd (a.symm.trans b) nofun
    · intro k n
      simp at n

/-- A feeder's state is set with its notice (R111). -/
theorem setFeederState (k : Fin 24) (st : FeederState) (why : Cause) (s : State) :
    tells s (Machine.setFeederState k st why s) := by
  have told : ∀ u : State, tells u (Machine.notify [.S, .F] .feederState (k.val + 1) (.feeder st) (.code why) 0
      (modFeeder k (enterFeederState s st) u)) := by
    intro u
    have told := fun l hl => notify_toldAs (l := l) (ls := [.S, .F]) hl .feederState (k.val + 1) (.feeder st) (.code why) 0
      (modFeeder k (enterFeederState s st) u)
    refine ⟨?_, notify_grows [.S, .F] _ _ _ _ _ (modFeeder k (enterFeederState s st) u), ?_, ?_, fun j n => ?_⟩
    · simp
    · intro i n
      simp at n
    · intro j a b
      rw [notify_cfg] at b
      exact absurd (a.symm.trans b) nofun
    · by_cases e : k = j
      · subst e
        simpa [enterFeederState] using told
      · rw [notify_feeders, modFeeder_feeders_ne _ _ (Ne.symm e)] at n
        exact absurd rfl n
  unfold Machine.setFeederState
  split
  · exact .refl s
  · refine .trans ?_ (told _)
    split
    · exact .still rfl rfl rfl rfl rfl
    · exact .refl s

end tells

end Sys2Proof.Machine
end

