-- ==== Sys2Proof/Proofs/ChangesTold.lean ====
section
/-! Every command tells the changes it makes (R38, R47, R48, R111). -/

namespace Sys2Proof.Machine

/-! ## Failures (R47) -/

/-- The tables after a failure of unit `i` differ in its record and the ring alone. -/
theorem failed_lockout (i j : Fin 8) (s : State) : (moveToTail i (raiseFailCount i s)).cfg.gensets[j].lockout =
    if i = j then s.cfg.gensets[i].fail.lockout else s.cfg.gensets[j].lockout := by
  simp only [moveToTail, raiseFailCount, modGensetCfg, writeThrough, Fin.getElem_fin, Vector.getElem_set]
  by_cases e : i = j
  · simp [e]
  · simp [e, Fin.val_ne_iff.mpr e]

theorem failUnit_cfg (i : Fin 8) (why : Cause) (s : State) :
    (failUnit i why s).cfg = (moveToTail i (raiseFailCount i s)).cfg := by
  unfold failUnit notifyLockout
  simp only []
  split <;> simp

/-- A lockout flag that a failure sets is told (R47). -/
theorem tells.failUnit (i : Fin 8) (why : Cause) (s : State) : tells s (Machine.failUnit i why s) := by
  have moved : tells (moveToTail i (raiseFailCount i s)) (Machine.failUnit i why s) := by
    unfold Machine.failUnit notifyLockout
    simp only []
    split
    · exact (tells.setUnitState _ _ _ _).trans (.notify _ _ _ _ _ _ _)
    · exact .setUnitState _ _ _ _
  refine ⟨moved.clock, moved.grows, moved.units, fun j before now l hl => ?_, moved.feeders⟩
  by_cases e : i = j
  · subst e
    rw [failUnit_cfg, failed_lockout, if_pos rfl] at now
    have newly : failLocksOut s i = true := by
      unfold failLocksOut
      rw [before, now]
      rfl
    have placed := notify_toldAs (l := l) (ls := [.S, .G]) hl .unitLockout (i.val + 1) (.unit .lockedOut) (.code why) 0
      (Machine.setUnitState i (stoppedState (moveToTail i (raiseFailCount i s)) i) why (moveToTail i (raiseFailCount i s)))
    rw [setUnitState_clock] at placed
    unfold Machine.failUnit notifyLockout
    simp only []
    rw [if_pos newly]
    exact placed
  · exact moved.lockouts j (by rw [failed_lockout, if_neg e]; exact before) now l hl

/-! ## The commands -/

/-- A command apart from the lock tells its changes. -/
theorem tells.kept (s : State) : KeptCommand (tells s) where
  notify := fun _ _ _ _ _ _ _ h => h.trans (.notify _ _ _ _ _ _ _)
  offer := fun _ _ _ _ _ h => h.trans (.offer _ _ _ _)
  book := fun _ _ _ h => h.trans (.still rfl rfl rfl rfl rfl)
  orders := fun _ _ _ _ h => h.trans (.link rfl)
  pvs := fun _ _ _ h => h.trans (.still rfl rfl rfl rfl rfl)
  gens := fun _ _ e h => h.trans (.other rfl (.of_links rfl) (fun i => (e i).1) (fun _ x => x) fun _ => rfl)
  feeders := fun _ _ e h => h.trans (.other rfl (.of_links rfl) (fun _ => rfl) (fun _ x => x) e)
  setUnit := fun _ _ _ _ h => h.trans (.setUnitState _ _ _ _)
  setFeeder := fun _ _ _ _ h => h.trans (.setFeederState _ _ _ _)
  seq := fun _ _ h => h.trans (.still rfl rfl rfl rfl rfl)
  arb := fun _ _ h => h.trans (.still rfl rfl rfl rfl rfl)
  shed := fun _ _ h => h.trans (.still rfl rfl rfl rfl rfl)
  rest := fun _ _ h => h.trans (.still rfl rfl rfl rfl rfl)
  cur := fun _ _ h => h.trans (.still rfl rfl rfl rfl rfl)
  free := fun _ _ h => h.trans (.still rfl rfl rfl rfl rfl)
  fail := fun _ _ _ h => h.trans (.failUnit _ _ _)
  tables := fun _ _ e h => h.trans (.other rfl (.of_links rfl) (fun _ => rfl) e fun _ => rfl)
  event := fun _ _ _ _ h => h.trans (.offer _ _ _ _)
  units := fun _ _ e h => h.trans (.other rfl (.of_links rfl) e (fun _ x => x) fun _ => rfl)
  groups := fun _ _ h => h.trans (.still rfl rfl rfl rfl rfl)
  entry := fun _ _ h => h.trans (.still rfl rfl rfl rfl rfl)
  link := fun _ _ _ e h => h.trans (.link e.notices)
  sampleFramer := fun _ _ h => h.trans (.still rfl rfl rfl rfl rfl)
  snapshot := fun _ _ h => h.trans (.still rfl rfl rfl rfl rfl)
  reply := fun _ _ _ h => h.trans (.link rfl)
  sent := fun _ _ h => h.trans (.link rfl)
  pump := fun t h => h.trans (.other rfl (fun l => by simp [noticesOf]) (fun _ => rfl) (fun _ x => x) fun _ => rfl)

/-- The judgements and the settling of the quality tell the changes that their servings make. -/
theorem tells.judging (s : State) : KeptLock (tells s) where
  toKeptServe := (tells.kept s).toServe
  offer := fun _ _ _ _ h => h.trans (.offer _ _ _ _)
  shed := fun _ _ h => h.trans (.still rfl rfl rfl rfl rfl)
  spells := fun _ _ _ h => h.trans (.still rfl rfl rfl rfl rfl)
  lock := fun _ _ _ _ h => h.trans (.still rfl rfl rfl rfl rfl)
  quality := fun _ h => h.trans (.still rfl rfl rfl rfl rfl)
  entry := fun _ _ h => h.trans (.still rfl rfl rfl rfl rfl)
  accept := fun r t h => h.trans (.other rfl (.of_links rfl)
    (fun i => by simp only [accept, Fin.getElem_fin, Vector.getElem_ofFn, lastOutputOf]; split <;> rfl)
    (fun _ x => x) fun _ => rfl)

/-- A command that neither sets every record afresh nor fetches a notice tells its changes. -/
theorem exec_tells {c : Instr} (hr : c.renews = false) (hf : c.fetches = false) {s t : State} (e : exec c s = .next t) :
    tells s t := by
  cases hj : c.judges
  · exact (tells.kept s).exec hj hr hf (.refl s) e
  · exact (tells.kept s).judged (tells.judging s) hj (.refl s) e

/-! ## The quality level (R38) -/

/-- A settling that changes the level tells it on the four links, and what follows tells its own changes. -/
theorem settleQuality_tells {s : State} (h : qualityOf s.lock ≠ s.lock.quality) :
    tells (notify allLinks .qualityChange 0 (.quality (qualityOf s.lock)) (.quality s.lock.quality) 0
      { s with lock := settledLock s.lock }) (settleQuality s) := by
  unfold settleQuality settledLock
  simp only []
  rw [if_neg h]
  split
  · next e => rw [e]; exact (tells.kept _).toKeptEvaluation.staleEffects (.refl _)
  · next e => rw [e]; exact (tells.kept _).toServe.withdrawReason _ (.refl _)
  · next e => rw [e]; exact .refl _

/-- A change of the quality level is told on the four links (R38). -/
theorem exec_tells_quality {c : Instr} (hr : c.renews = false) {s t : State} (e : exec c s = .next t)
    (changed : t.lock.quality ≠ s.lock.quality) (l : Link) :
    toldOf t l (· = ⟨.qualityChange, 0, .quality t.lock.quality, .quality s.lock.quality, 0, s.clock⟩) := by
  cases hj : c.judges
  · exact absurd (by rw [otherwise_lock hj hr e]) changed
  · obtain ⟨w, after, settled⟩ := exec_judged hj e
    have stands : t.lock = w.lock := after _ (KeptCommand.ofStanding fun m _ => m = w.lock) rfl
    rcases settled with rfl | ⟨u, quality, rfl, judged⟩
    · exact absurd (by rw [stands]) changed
    · have before : tells s u := judged _ (tells.judging s) (fun _ _ _ e h => h.trans (.link e.notices)) (.refl s)
      have level : t.lock.quality = qualityOf u.lock := by rw [stands, settleQuality_lock]; rfl
      rw [level, ← quality] at changed
      have told := notify_told (l := l) (ls := allLinks) (by cases l <;> decide) .qualityChange 0
        (.quality (qualityOf u.lock)) (.quality u.lock.quality) 0 { u with lock := settledLock u.lock }
      rw [level, ← quality, ← before.clock]
      exact (told.grow (settleQuality_tells changed).grows).grow (after _ (tells.kept _) (.refl _)).grows

/-- Settles O52: the writes of a command tell the changes they make, and the notice queues only grow. -/
theorem changesAreTold : Obligations.ChangesAreTold := by
  intro c s t e notPower notReset notRestart notFetch told
  have hr : c.renews = false := by
    cases c with
    | powerOn => exact absurd rfl notPower
    | resetInput => exact absurd rfl notReset
    | restart tag => exact absurd rfl (notRestart tag)
    | _ => rfl
  have hf : c.fetches = false := by
    cases c with
    | fetchNotice l tag => exact absurd rfl (notFetch l tag)
    | _ => rfl
  have changes := exec_tells hr hf e
  exact ⟨exec_tells_quality hr e, changes.units, changes.lockouts, changes.feeders⟩

end Sys2Proof.Machine
end
